-- ==== Sys2Proof/Word.lean ====
section
/-! DEFINITION. Bytes and the plain arithmetic the spec's formulas use. -/

namespace Sys2Proof

/-- One byte of the link, of a payload or of frame memory. -/
abbrev Byte := BitVec 8

/-- ceil(a / b), as the spec's Conventions define ceil; `b` is at least 1 wherever it is used. -/
def ceilDiv (a b : Nat) : Nat := (a + b - 1) / b

end Sys2Proof
end

