-- ==== Sys2Proof/Syntax.lean ====
section
/-! DEFINITION. The commands of the block: one constructor per row of spec/opcode_table.json. -/

namespace Sys2Proof

/-- The two display outputs. -/
inductive OutputId where
  | out0
  | out1
  deriving DecidableEq, Repr

/-- How a hard reset begins (R163, R190): RESET_N driven low with the supplies held, or power-up. -/
inductive ResetEntry where
  | pinLow
  | powerUp
  deriving DecidableEq, Repr

/-- What happens on the wires that bring bytes in (R148, R149; log 15): a whole byte as its character or exchange carries
it, or one signal below a byte. -/
inductive LineEvent where
  /-- A whole character (UART) or a whole byte exchange (SPI) carries this byte. -/
  | whole (b : Byte)
  /-- UART: RXD is sampled for one bit time. -/
  | rxd (level : Bool)
  /-- SPI: CS_N falls. -/
  | csnFalls
  /-- SPI: CS_N rises. -/
  | csnRises
  /-- SPI: SCK rises with this level on SDI. -/
  | sckRises (sdi : Bool)
  /-- SPI: SCK falls. -/
  | sckFalls
  deriving DecidableEq, Repr

/-- The rows of spec/opcode_table.json, in its order. A request row is the step in which the Request Handler takes
the frame at the head of the arrival list; its seq and payload stand in the ingress slot (R157, R168; log 1). -/
inductive Instr where
  | ping
  | getInfo
  | deviceReset
  | createSurface
  | discardSurface
  | sealSurface
  | reopenSurface
  | getSurface
  | getMemoryMap
  | beginUpload
  | uploadData
  | endUpload
  | abortUpload
  | fillRect
  | copyRect
  | readPixels
  | fence
  | setOutput
  | startOutput
  | stopOutput
  | getOutput
  | setPalette
  | present
  | setCursor
  | moveCursor
  | setBudget
  | ackNotices
  | resendNotices
  | unknownRequest
  | heldUploadDataExecute
  | softReset
  /-- RESET_N goes low, or the supplies come up with RESET_N low (R163). -/
  | hardResetAssert (entry : ResetEntry)
  /-- RESET_N rises with these levels on the strap pins LMODE1 and LMODE0 (R147, R164). -/
  | hardResetRelease (lmode1 lmode0 : Bool)
  /-- The bytes of a frame, or of the rest of one, are received whole, one after another; the last of them ends the
  frame (R153, R154). -/
  | receiveFrame (bytes : List Byte)
  | interByteTimeout
  | transmitTake
  | frameSent
  | peBurstComplete
  | fetchBurstComplete
  | lineStart (o : OutputId)
  | frameStart (o : OutputId)
  | fieldStart (o : OutputId)
  | powerWaitExpiry (o : OutputId)
  | clockWaitExpiry (o : OutputId)
  | backlightWaitExpiry (o : OutputId)
  | supplyWaitExpiry (o : OutputId)
  /-- A byte, or a signal below a byte, comes in on the wires; each byte completed is handed to the frame receiver
  (R148, R149, R153). -/
  | receivedByte (e : LineEvent)
  deriving DecidableEq, Repr

end Sys2Proof
end

