-- ==== Sys2Proof/WellFormed.lean ====
section
/-! DEFINITION. Which commands are well formed. -/

namespace Sys2Proof

/-- A RECEIVE_FRAME carries at least the byte that ends the frame and at most the 1,032 bytes of the longest
frame (R150). Every other operand is in range by its type. -/
def Instr.wellFormed : Instr → Bool
  | .receiveFrame bytes => decide (1 ≤ bytes.length) && decide (bytes.length ≤ 1032)
  | .ping | .getInfo | .deviceReset | .createSurface | .discardSurface | .sealSurface | .reopenSurface
  | .getSurface | .getMemoryMap | .beginUpload | .uploadData | .endUpload | .abortUpload | .fillRect
  | .copyRect | .readPixels | .fence | .setOutput | .startOutput | .stopOutput | .getOutput | .setPalette
  | .present | .setCursor | .moveCursor | .setBudget | .ackNotices | .resendNotices | .unknownRequest
  | .heldUploadDataExecute | .softReset | .hardResetAssert _ | .hardResetRelease _ _ | .interByteTimeout
  | .transmitTake | .frameSent | .peBurstComplete | .fetchBurstComplete | .lineStart _ | .frameStart _
  | .fieldStart _ | .powerWaitExpiry _ | .clockWaitExpiry _ | .backlightWaitExpiry _ | .supplyWaitExpiry _
  | .receivedByte _ => true

end Sys2Proof
end

