-- ==== Sys2Proof/Decode.lean ====
section
/-! DEFINITION. Decoding by the bits of spec/opcode_table.json: no row of the table gives bits. -/

namespace Sys2Proof

/-- The command a word spells by the table's bits. Every row's "fields" is empty and none has "fixed", so no word
spells a command. The bytes of link frames are read by the receiver (Machine/Link.lean), not here. -/
def decodeTableWord (_nbits _w : Nat) : Option Instr := none

end Sys2Proof
end

