-- ==== Sys2Proof/Config.lean ====
section
/-! DEFINITION. What the part fixes (its sizes and codes) and the free values the spec leaves open. -/

namespace Sys2Proof.Config

/-- FREE VALUE (log 5, DESIGN CHOICE of representation). The undefined content of R1 and R13: the byte at a
frame-memory address in the undefined content numbered by the first argument. No body: nothing can be proved of it. -/
opaque undefinedByte : Nat → Nat → Byte

/-- R1: 2,097,152 bytes of frame memory. -/
def memoryBytes : Nat := 2097152
/-- R1: 512 granules. -/
def granuleCount : Nat := 512
/-- R1: 4,096 bytes in a granule. -/
def granuleBytes : Nat := 4096
/-- R2: 64 surface records. -/
def surfaceCount : Nat := 64
/-- R35: entries of the Job Queue. -/
def jobQueueLength : Nat := 8
/-- R48: bytes of the Upload Staging Buffer. -/
def stagingBytes : Nat := 4096
/-- R61: frame records of a present queue. -/
def presentQueueLength : Nat := 3
/-- R87: bytes of a line-store half. -/
def lineStoreBytes : Nat := 6144
/-- R36, R137: bytes of a burst. -/
def burstBytes : Nat := 64
/-- R157: ingress slots. -/
def slotCount : Nat := 6
/-- R166: entries of the reply queue. -/
def replyQueueLength : Nat := 8
/-- R166: entries of the reply cache. -/
def replyCacheLength : Nat := 8
/-- R166: entries of the pending-reply table. -/
def pendingTableLength : Nat := 4
/-- R181: places of the Notice Queue for ordinary entries. -/
def ordinaryNotices : Nat := 15
/-- R150: the longest payload. -/
def maxPayload : Nat := 1024
/-- R177: the part code. -/
def partCode : Nat := 0x0612
/-- R177: the revision. -/
def revision : Nat := 1

end Sys2Proof.Config
end

