-- ==== Sys2Proof/Machine/State.lean ====
section
/-! DEFINITION. The state of the PT612 as plain data, block by block, and its value right after a hard reset. -/

namespace Sys2Proof.Machine

/-! ### Surface Manager (R1 to R8) -/

/-- R23: the four pixel formats. -/
inductive Format where
  | ov2
  | ix4
  | ix8
  | rgb16
  deriving DecidableEq, Repr

/-- R29: the four storage transforms. -/
inductive Transform where
  | t0
  | t90
  | t180
  | t270
  deriving DecidableEq, Repr

/-- R6: the placement hint. -/
inductive Hint where
  | low
  | high
  deriving DecidableEq, Repr

/-- R4: the five states of a surface record. -/
inductive SurfaceState where
  | empty
  | filling
  | sealing
  | ready
  | discarding
  deriving DecidableEq, Repr

/-- R2: one record of the Surface Table; its id is its position. -/
structure Surface where
  state : SurfaceState
  format : Format
  transform : Transform
  width : Nat
  height : Nat
  storedWidth : Nat
  storedHeight : Nat
  stride : Nat
  base : Nat
  granules : Nat
  hint : Hint
  scanRefs : Nat
  jobRefs : Nat
  writers : Nat
  sealPending : Bool
  /-- The MODEL's own field (log 5): which undefined content the surface was created with. -/
  era : Nat
  deriving DecidableEq, Repr

/-- R2: a record that describes no surface. Its counts read 0 and seal pending reads clear; the fields without
meaning hold the model's zeros (DESIGN CHOICE, log 19). -/
def Surface.empty : Surface :=
  { state := .empty, format := .ov2, transform := .t0, width := 0, height := 0, storedWidth := 0, storedHeight := 0,
    stride := 0, base := 0, granules := 0, hint := .low, scanRefs := 0, jobRefs := 0, writers := 0,
    sealPending := false, era := 0 }

/-! ### Pixel Engine (R35 to R58) -/

/-- R28: a rectangle, its top-left corner, width and height. -/
structure Rect where
  x : Nat
  y : Nat
  w : Nat
  h : Nat
  deriving DecidableEq, Repr

/-- R35: the kinds of job with the fields each kind uses. The reply link is the seq of the pending-reply entry; no two
entries have the same seq (R173). A STREAM's link is in the session record. -/
inductive JobKind where
  | fill (dst : Nat) (rect : Rect) (value : Nat)
  | copy (dst src : Nat) (source : Rect) (dx dy : Nat) (key : Option Nat)
  | stream (dst : Nat) (rect : Rect)
  | read (target : Nat) (rect : Rect) (link : Byte)
  | fence (link : Byte)
  deriving DecidableEq, Repr

/-- R35: an entry of the Job Queue. `progress` counts the pixels done, in logical row-major order (R36). -/
structure Job where
  kind : JobKind
  progress : Nat
  deriving DecidableEq, Repr

/-- R47: the open upload session. -/
structure Session where
  dst : Nat
  rect : Rect
  expected : Nat
  received : Nat
  written : Nat
  endRequested : Bool
  link : Option Byte
  deriving DecidableEq, Repr

/-- A change of some bits of one byte of frame memory (R25): the bits under `mask` become those of `bits`. -/
structure ByteChange where
  addr : Nat
  mask : Byte
  bits : Byte
  deriving DecidableEq, Repr

/-- R36: the burst whose changes the active job holds: its address, the changed bytes, and how many pixels of the
job's order it carries. -/
structure HeldBurst where
  addr : Nat
  changes : List ByteChange
  pixels : Nat
  deriving DecidableEq, Repr

/-- R36, R146: the bursts the Pixel Engine requests, each with the address of its 64-byte block. -/
inductive EngineBurst where
  | readSource (addr : Nat)
  | readDestination (addr : Nat)
  | writeDestination (addr : Nat)
  deriving DecidableEq, Repr

/-- The Pixel Engine. -/
structure Engine where
  jobs : List Job
  stopped : Bool
  session : Option Session
  staging : List Byte
  /-- The source burst the active job has read (log 8). -/
  source : Option Nat
  heldBurst : Option HeldBurst
  /-- Raw values the active READ has read, in logical row-major order (R43). -/
  readOut : List Nat
  /-- The standing request at the Memory Port (R145). -/
  request : Option EngineBurst
  deriving DecidableEq, Repr

/-- R58: the Pixel Engine after either reset. -/
def Engine.reset : Engine :=
  { jobs := [], stopped := false, session := none, staging := [], source := none, heldBurst := none, readOut := [],
    request := none }

/-! ### Presentation Controller (R59 to R82) -/

/-- A 24-bit colour, written R:G:B (Conventions). -/
structure Colour where
  r : Byte
  g : Byte
  b : Byte
  deriving DecidableEq, Repr

/-- 00:00:00. -/
def Colour.black : Colour := ⟨0, 0, 0⟩

/-- R60: the layer modes with the part each carries. -/
inductive LayerMode where
  | opaqueMode
  | keyed (key : Colour)
  | alphaMode (alpha : Nat)
  deriving DecidableEq, Repr

/-- R60: a layer entry of an accepted frame record. -/
structure Layer where
  surface : Nat
  source : Rect
  dx : Int
  dy : Int
  mode : LayerMode
  bank : Option Nat
  pair : Option (Colour × Colour)
  deriving DecidableEq, Repr

/-- R59: a frame record; `load` is its layer line bytes (R84). -/
structure FrameRecord where
  output : OutputId
  background : Colour
  layers : List Layer
  token : Nat
  load : Nat
  deriving DecidableEq, Repr

/-- R73: a cursor binding that names a surface. -/
structure Binding where
  surface : Nat
  colour0 : Colour
  colour1 : Colour
  deriving DecidableEq, Repr

/-- R73: the pending binding: no change waiting, an unbind waiting, or a binding. -/
inductive PendingBinding where
  | noChange
  | unbind
  | bind (b : Binding)
  deriving DecidableEq, Repr

/-- R61: a cursor position. -/
structure CursorPosition where
  x : Int
  y : Int
  visible : Bool
  deriving DecidableEq, Repr

/-- R61: what the Presentation Controller keeps for one output. -/
structure Presentation where
  queue : List FrameRecord
  current : Option FrameRecord
  token : Nat
  binding : Option Binding
  pendingBinding : PendingBinding
  position : CursorPosition
  pendingPosition : CursorPosition
  /-- R85: the numerator N of the reserved load. -/
  loadN : Nat
  deriving DecidableEq, Repr

/-- R81. -/
def Presentation.reset : Presentation :=
  { queue := [], current := none, token := 0, binding := none, pendingBinding := .noChange,
    position := ⟨0, 0, false⟩, pendingPosition := ⟨0, 0, false⟩, loadN := 0 }

/-! ### Output Units (R106, R113 to R135, R136, R143) -/

/-- R113: a timing set. -/
structure Timing where
  divider : Nat
  hactive : Nat
  hblank : Nat
  hsyncOffset : Nat
  hsyncWidth : Nat
  vactive : Nat
  vblank : Nat
  vsyncOffset : Nat
  vsyncWidth : Nat
  hsLow : Bool
  vsLow : Bool
  deLow : Bool
  pclkFalling : Bool
  interlace : Bool
  flicker : Bool
  tPwr : Nat
  tClk : Nat
  deriving DecidableEq, Repr

/-- R113: after a reset all fields read 0. -/
def Timing.zero : Timing :=
  { divider := 0, hactive := 0, hblank := 0, hsyncOffset := 0, hsyncWidth := 0, vactive := 0, vblank := 0,
    vsyncOffset := 0, vsyncWidth := 0, hsLow := false, vsLow := false, deLow := false, pclkFalling := false,
    interlace := false, flicker := false, tPwr := 0, tClk := 0 }

/-- R121: the output states. -/
inductive OutputState where
  | off
  | powerUp
  | running
  | ending
  | powerDown
  deriving DecidableEq, Repr

/-- R121: the sequence steps. -/
inductive SequenceStep where
  | off
  | powerWait
  | clockWait
  | showing
  | backlightWait
  | supplyWait
  deriving DecidableEq, Repr

/-- R135. -/
inductive Field where
  | top
  | bottom
  deriving DecidableEq, Repr

/-- R137: what an area of a line-store half belongs to. -/
inductive AreaOwner where
  | cursor
  | layer (index : Nat)
  deriving DecidableEq, Repr

/-- R137: one area of a line-store half: whose it is, the frame line it serves, the surface, the stored row, the first
stored column and the number of pixels; the pixels taken so far (log 17); whether it is complete. -/
structure Area where
  owner : AreaOwner
  line : Nat
  surface : Nat
  row : Nat
  first : Nat
  count : Nat
  pixels : List Nat
  complete : Bool
  deriving DecidableEq, Repr

/-- R139: a burst still to be requested: the area it serves and the address of its block. -/
structure FetchBurst where
  area : Nat
  addr : Nat
  deriving DecidableEq, Repr

/-- R136. -/
inductive HalfCondition where
  | free
  | fetching
  | shown
  deriving DecidableEq, Repr

/-- R136: a half of a line store. `lines` are the frame lines it serves, the output line first. -/
structure LineHalf where
  condition : HalfCondition
  lines : List Nat
  areas : List Area
  todo : List FetchBurst
  deriving DecidableEq, Repr

/-- R136: a half that holds no line. -/
def LineHalf.free : LineHalf := { condition := .free, lines := [], areas := [], todo := [] }

/-- An Output Unit. -/
structure OutputUnit where
  timing : Timing
  valid : Bool
  state : OutputState
  step : SequenceStep
  /-- The wait timer: the milliseconds it was loaded with, while it runs (R121). -/
  timer : Option Nat
  active : List Colour
  staging : List Colour
  palettePending : Bool
  halfA : LineHalf
  halfB : LineHalf
  carry : Option (List Colour)
  head : Option (List Colour)
  /-- The line of the frame in progress, 0 at the frame start (R117, R118). -/
  scanLine : Nat
  /-- The colours of the active line in progress (R105). -/
  driven : Option (List Colour)
  field : Field
  framesShown : Nat
  lineMiss : Nat
  deriving DecidableEq, Repr

/-- R106: entry i is i:i:i. -/
def resetPalette : List Colour :=
  (List.range 256).map fun i => ⟨BitVec.ofNat 8 i, BitVec.ofNat 8 i, BitVec.ofNat 8 i⟩

/-- R106, R113, R131, R134, R144. -/
def OutputUnit.reset : OutputUnit :=
  { timing := .zero, valid := false, state := .off, step := .off, timer := none, active := resetPalette,
    staging := resetPalette, palettePending := false, halfA := .free, halfB := .free, carry := none, head := none,
    scanLine := 0, driven := none, field := .top, framesShown := 0, lineMiss := 0 }

/-! ### Memory Port (R145) -/

/-- R145, R146: a granted burst. `live` says that its data is still wanted (log 21). -/
inductive Grant where
  | fetch (o : OutputId) (burst : FetchBurst) (live : Bool)
  | engine (burst : EngineBurst) (live : Bool)
  deriving DecidableEq, Repr

/-- R145: the arbiter. -/
structure Port where
  inFlight : Option Grant
  lastScan : OutputId
  deriving DecidableEq, Repr

/-! ### Link Port (R147 to R165) -/

/-- R147: the link modes; a UART mode has a baud code 0, 1 or 2. -/
inductive LinkMode where
  | spi
  | uart (baudCode : Nat)
  deriving DecidableEq, Repr

/-- R152. -/
inductive ReceiverPhase where
  | hunt
  | header
  | body
  | check
  deriving DecidableEq, Repr

/-- R152: the receiver and its holding buffer, the bytes of the frame after its sync byte. -/
structure Receiver where
  phase : ReceiverPhase
  bytes : List Byte
  deriving DecidableEq, Repr

/-- R157: a good request frame in an ingress slot. Its length is the payload's. -/
structure RequestFrame where
  seq : Byte
  payload : List Byte
  deriving DecidableEq, Repr

/-- R148, R149: the byte in progress on the wires (log 15). -/
structure Wire where
  /-- R149, R164: CS_N has fallen since the last hard reset ended, and has not risen since. -/
  selected : Bool
  /-- R148, R149: the levels sampled of the character or exchange in progress, first sampled first. -/
  bits : List Bool
  /-- R148: a stop bit was low, and RXD has not been high since. -/
  awaitsHigh : Bool
  /-- R149: SCK has risen since CS_N fell, and has not fallen since. -/
  sckHigh : Bool
  /-- R149: the level driven on SDO while CS_N is low. -/
  sdo : Bool
  deriving DecidableEq, Repr

/-- R148, R149, R164: no character or exchange in progress, SCK low, and SDO not driven. -/
def Wire.reset : Wire := { selected := false, bits := [], awaitsHigh := false, sckHigh := false, sdo := false }

/-- R160, R161: the frame in the transmit position, as bytes on the link, and how many of them completed exchanges have
sent. A UART sends them by itself, and its count stays 0. -/
structure OutboundFrame where
  isReply : Bool
  bytes : List Byte
  sent : Nat
  deriving DecidableEq, Repr

/-! ### Request Handler (R166 to R180) -/

/-- R166: an entry of the reply queue or of the reply cache. -/
structure Reply where
  seq : Byte
  payload : List Byte
  deriving DecidableEq, Repr

/-- The blocks that own requests (section 10.7). -/
inductive Block where
  | surfaceManager
  | pixelEngine
  | outputUnit
  deriving DecidableEq, Repr

/-- R166: what the owner needs to find a deferred request again. -/
inductive PendingRef where
  | seal (surface : Nat)
  | job
  | session
  | start (o : OutputId)
  | stop (o : OutputId)
  deriving DecidableEq, Repr

/-- R166: an entry of the pending-reply table. -/
structure PendingReply where
  seq : Byte
  code : Byte
  owner : Block
  ref : PendingRef
  deriving DecidableEq, Repr

/-- R166: the held request. The held UPLOAD_DATA stands in the slot at the head of the arrival list (R51). -/
inductive HeldRequest where
  | upload
  | reset (seq : Byte)
  deriving DecidableEq, Repr

/-! ### Notice Queue (R181 to R191) -/

/-- R190. -/
inductive ReadyCause where
  | powerOn
  | pin
  | request
  deriving DecidableEq, Repr

/-- R182: a notice's kind with its fields. The kind of the last event lost is held as its kind code (R196). -/
inductive Notice where
  | ready (cause : ReadyCause)
  | frameShown (o : OutputId) (token takes : Nat)
  | outputState (o : OutputId) (state : OutputState) (changes released : Nat)
  | lineMiss (o : OutputId) (count first last : Nat)
  | surfaceFreed (surface base granules : Nat)
  | linkError (lengths crcs kinds timeouts : Nat)
  | linkDrop (count : Nat) (seq : Byte)
  | overflow (lost : Nat) (lastKind : Nat)
  deriving DecidableEq, Repr

/-- R181: an entry of the Notice Queue. Its key is read off its notice (R182). -/
structure NoticeEntry where
  notice : Notice
  seq : Nat
  sent : Bool
  deriving DecidableEq, Repr

/-! ### The whole part -/

/-- The state of the part and the queue of commands that wait. -/
structure State where
  -- Link Port
  inReset : Bool
  freshSupply : Bool
  linkMode : Option LinkMode
  wire : Wire
  rx : Receiver
  slots : List (Option RequestFrame)
  arrival : List Nat
  tx : Option OutboundFrame
  -- Request Handler
  held : Option HeldRequest
  replies : List Reply
  cache : List Reply
  pendingReplies : List PendingReply
  -- Notice Queue
  notices : List NoticeEntry
  nextNotice : Nat
  -- Surface Manager and frame memory
  surfaces : List Surface
  granules : List (Option Nat)
  mem : List Host.Cell
  era : Nat
  -- Pixel Engine
  pe : Engine
  -- Presentation Controller
  pres0 : Presentation
  pres1 : Presentation
  share : Nat
  -- Output Units
  ou0 : OutputUnit
  ou1 : OutputUnit
  -- Memory Port
  port : Port
  -- commands waiting, first in first out
  pending : List Instr
  deriving DecidableEq, Repr

/-- The state right after the release of the first hard reset (R164, R166, R22, R58, R81, R106, R113, R131, R145,
R190), with the straps at SPI (DESIGN CHOICE, log 4). Frame memory lists nothing: its content is undefined (R1). -/
def State.reset : State :=
  { inReset := false, freshSupply := false, linkMode := some .spi, wire := .reset, rx := ⟨.hunt, []⟩,
    slots := List.replicate 6 none, arrival := [], tx := none, held := none, replies := [], cache := [],
    pendingReplies := [], notices := [⟨.ready .powerOn, 0, false⟩], nextNotice := 1,
    surfaces := List.replicate 64 Surface.empty, granules := List.replicate 512 none, mem := [], era := 0,
    pe := .reset, pres0 := .reset, pres1 := .reset, share := 4, ou0 := .reset, ou1 := .reset,
    port := ⟨none, .out1⟩, pending := [] }

/-- The faults of a step. -/
inductive Fault where
  /-- Raised by PE_BURST_COMPLETE and FETCH_BURST_COMPLETE for a burst at an address outside the 2,097,152 bytes of
  frame memory (R1). SAFE: regions lie inside the memory (R5, R36), so no reachable state requests such a burst. -/
  | noSuchAddress (addr : Nat)
  deriving DecidableEq, Repr

/-- The refusals of a step. -/
inductive Refusal where
  /-- Raised by exec for a row that has no meaning yet: none. SAFE. -/
  | notModelled (mnemonic : String)
  deriving DecidableEq, Repr

/-- The outcome of a step. -/
abbrev Result := Host.Outcome State Fault Refusal

end Sys2Proof.Machine
end

