-- ==== Sys2Proof/Machine/Operands.lean ====
section
/-! DEFINITION. The fields of requests, replies, notices and link frames: their byte layouts and code values (chapter
12, R150, R151). -/

namespace Sys2Proof.Machine

/-! ### Field encodings (R192) -/

/-- One byte of a field. -/
def byteOf (n : Nat) : Byte := BitVec.ofNat 8 n

/-- A two-byte field, little-endian. -/
def le16 (n : Nat) : List Byte := [byteOf n, byteOf (n / 256)]

/-- A four-byte field, little-endian. -/
def le32 (n : Nat) : List Byte := [byteOf n, byteOf (n / 256), byteOf (n / 65536), byteOf (n / 16777216)]

/-- A flag byte. -/
def flagByte (b : Bool) : Byte := if b then 1 else 0

/-- The byte at offset `i` of the arguments, as a number. -/
def arg8 (args : List Byte) (i : Nat) : Nat := (args.getD i 0).toNat

/-- The unsigned two-byte field at offset `i`. -/
def arg16 (args : List Byte) (i : Nat) : Nat := arg8 args i + 256 * arg8 args (i + 1)

/-- The signed two-byte field at offset `i`. -/
def argSigned (args : List Byte) (i : Nat) : Int :=
  let n := arg16 args i
  if n < 32768 then (n : Int) else (n : Int) - 65536

/-- The colour at offset `i`, in the order red, green, blue. -/
def argColour (args : List Byte) (i : Nat) : Colour := ⟨args.getD i 0, args.getD (i + 1) 0, args.getD (i + 2) 0⟩

/-- The rectangle at offset `i`, in the order x, y, w, h. -/
def argRect (args : List Byte) (i : Nat) : Rect :=
  ⟨arg16 args i, arg16 args (i + 2), arg16 args (i + 4), arg16 args (i + 6)⟩

/-! ### Enumerated fields (R192) -/

/-- Format codes. -/
def formatOf : Nat → Option Format
  | 0 => some .ov2
  | 1 => some .ix4
  | 2 => some .ix8
  | 3 => some .rgb16
  | _ => none

/-- The code of a format. -/
def Format.code : Format → Byte
  | .ov2 => 0
  | .ix4 => 1
  | .ix8 => 2
  | .rgb16 => 3

/-- Transform codes. -/
def transformOf : Nat → Option Transform
  | 0 => some .t0
  | 1 => some .t90
  | 2 => some .t180
  | 3 => some .t270
  | _ => none

/-- The code of a transform. -/
def Transform.code : Transform → Byte
  | .t0 => 0
  | .t90 => 1
  | .t180 => 2
  | .t270 => 3

/-- Placement hint codes. -/
def hintOf : Nat → Option Hint
  | 0 => some .low
  | 1 => some .high
  | _ => none

/-- The code of a placement hint. -/
def Hint.code : Hint → Byte
  | .low => 0
  | .high => 1

/-- The code of a surface state. -/
def SurfaceState.code : SurfaceState → Byte
  | .empty => 0
  | .filling => 1
  | .sealing => 2
  | .ready => 3
  | .discarding => 4

/-- The code of an output state. -/
def OutputState.code : OutputState → Byte
  | .off => 0
  | .powerUp => 1
  | .running => 2
  | .ending => 3
  | .powerDown => 4

/-- The code of a sequence step. -/
def SequenceStep.code : SequenceStep → Byte
  | .off => 0
  | .powerWait => 1
  | .clockWait => 2
  | .showing => 3
  | .backlightWait => 4
  | .supplyWait => 5

/-- The code of a field. -/
def Field.code : Field → Byte
  | .top => 0
  | .bottom => 1

/-- The code of a READY cause. -/
def ReadyCause.code : ReadyCause → Byte
  | .powerOn => 0
  | .pin => 1
  | .request => 2

/-- The number of an output. -/
def outputNumber : OutputId → Nat
  | .out0 => 0
  | .out1 => 1

/-- The output a field names, if it names one. -/
def outputOf : Nat → Option OutputId
  | 0 => some .out0
  | 1 => some .out1
  | _ => none

/-- A flag field: 0 or 1. -/
def flagOf : Nat → Option Bool
  | 0 => some false
  | 1 => some true
  | _ => none

/-! ### Statuses (R176, R195) -/

/-- R176: the eighteen statuses. -/
inductive Status where
  | ok
  | badLength
  | unknownRequest
  | badArgument
  | noSuchSurface
  | wrongState
  | busy
  | noSpace
  | tableFull
  | queueFull
  | overBudget
  | unsupported
  | sessionOpen
  | noSession
  | overrun
  | short
  | inProgress
  | cancelled
  deriving DecidableEq, Repr

/-- R195: the status codes. -/
def Status.code : Status → Byte
  | .ok => 0x00
  | .badLength => 0x01
  | .unknownRequest => 0x02
  | .badArgument => 0x03
  | .noSuchSurface => 0x04
  | .wrongState => 0x05
  | .busy => 0x06
  | .noSpace => 0x07
  | .tableFull => 0x08
  | .queueFull => 0x09
  | .overBudget => 0x0A
  | .unsupported => 0x0B
  | .sessionOpen => 0x0C
  | .noSession => 0x0D
  | .overrun => 0x0E
  | .short => 0x0F
  | .inProgress => 0x10
  | .cancelled => 0x11

/-- R195: every reply payload is the request code, the status and the fields. -/
def replyPayload (code : Byte) (st : Status) (fields : List Byte) : List Byte := code :: st.code :: fields

/-! ### Request codes (R193) -/

/-- R193: the request code a row's frames carry; UNKNOWN_REQUEST and the events have none. -/
def requestCode : Instr → Option Byte
  | .ping => some 0x01
  | .getInfo => some 0x02
  | .deviceReset => some 0x03
  | .createSurface => some 0x10
  | .discardSurface => some 0x11
  | .sealSurface => some 0x12
  | .reopenSurface => some 0x13
  | .getSurface => some 0x14
  | .getMemoryMap => some 0x15
  | .beginUpload => some 0x20
  | .uploadData => some 0x21
  | .endUpload => some 0x22
  | .abortUpload => some 0x23
  | .fillRect => some 0x24
  | .copyRect => some 0x25
  | .readPixels => some 0x26
  | .fence => some 0x27
  | .setOutput => some 0x30
  | .startOutput => some 0x31
  | .stopOutput => some 0x32
  | .getOutput => some 0x33
  | .setPalette => some 0x34
  | .present => some 0x40
  | .setCursor => some 0x41
  | .moveCursor => some 0x42
  | .setBudget => some 0x43
  | .ackNotices => some 0x50
  | .resendNotices => some 0x51
  | .unknownRequest | .heldUploadDataExecute | .softReset | .hardResetAssert _ | .hardResetRelease _ _
  | .receiveFrame _ | .interByteTimeout | .transmitTake | .frameSent | .peBurstComplete | .fetchBurstComplete
  | .lineStart _ | .frameStart _ | .fieldStart _ | .powerWaitExpiry _ | .clockWaitExpiry _
  | .backlightWaitExpiry _ | .supplyWaitExpiry _ | .receivedByte _ => none

/-- R193: the codes of the request catalogue. -/
def catalogue : List Byte :=
  [0x01, 0x02, 0x03, 0x10, 0x11, 0x12, 0x13, 0x14, 0x15, 0x20, 0x21, 0x22, 0x23, 0x24, 0x25, 0x26, 0x27,
   0x30, 0x31, 0x32, 0x33, 0x34, 0x40, 0x41, 0x42, 0x43, 0x50, 0x51]

/-! ### The layer entries of PRESENT (R62, R193, R194) -/

/-- R194: a layer entry as carried, before its checks. A part that is not carried reads as zero. -/
structure LayerArgs where
  surface : Nat
  source : Rect
  dx : Int
  dy : Int
  mode : Nat
  bankFlag : Nat
  colourFlag : Nat
  key : Colour
  alpha : Nat
  bank : Nat
  colour0 : Colour
  colour1 : Colour
  deriving DecidableEq, Repr

/-- R62, R194: the bytes of the mode part a mode field calls for. -/
def modePartLength (mode : Nat) : Nat := if mode = 1 then 3 else if mode = 2 then 1 else 0

/-- R62: the length of the layer entry that `bytes` begins with. -/
def layerLength (bytes : List Byte) : Nat :=
  16 + modePartLength (arg8 bytes 13) + (if arg8 bytes 14 = 1 then 1 else 0) + (if arg8 bytes 15 = 1 then 6 else 0)

/-- R194: the fields of the layer entry that `bytes` begins with. -/
def layerArgs (bytes : List Byte) : LayerArgs :=
  let mode := arg8 bytes 13
  let bankAt := 16 + modePartLength mode
  let pairAt := bankAt + (if arg8 bytes 14 = 1 then 1 else 0)
  { surface := arg8 bytes 0, source := argRect bytes 1, dx := argSigned bytes 9, dy := argSigned bytes 11,
    mode := mode, bankFlag := arg8 bytes 14, colourFlag := arg8 bytes 15,
    key := if mode = 1 then argColour bytes 16 else .black,
    alpha := if mode = 2 then arg8 bytes 16 else 0,
    bank := if arg8 bytes 14 = 1 then arg8 bytes bankAt else 0,
    colour0 := if arg8 bytes 15 = 1 then argColour bytes pairAt else .black,
    colour1 := if arg8 bytes 15 = 1 then argColour bytes (pairAt + 3) else .black }

/-- R62: the length walk over the announced layer entries, bottom first; `none` when the payload ends early or
holds bytes after the last entry. -/
def walkLayers : Nat → List Byte → Option (List LayerArgs)
  | 0, [] => some []
  | 0, _ :: _ => none
  | n + 1, bytes =>
    if bytes.length < 16 then none
    else if bytes.length < layerLength bytes then none
    else (walkLayers n (bytes.drop (layerLength bytes))).map (layerArgs bytes :: ·)

/-! ### Timing sets (R113, R114, R193) -/

/-- R193: the timing set a SET_OUTPUT carries. A flag byte other than 1 reads as clear; R114 refuses it. -/
def timingArgs (args : List Byte) : Timing :=
  { divider := arg8 args 1, hactive := arg16 args 2, hblank := arg16 args 4, hsyncOffset := arg16 args 6,
    hsyncWidth := arg16 args 8, vactive := arg16 args 10, vblank := arg8 args 12, vsyncOffset := arg8 args 13,
    vsyncWidth := arg8 args 14, hsLow := arg8 args 15 = 1, vsLow := arg8 args 16 = 1, deLow := arg8 args 17 = 1,
    pclkFalling := arg8 args 18 = 1, interlace := arg8 args 19 = 1, flicker := arg8 args 20 = 1,
    tPwr := arg8 args 21, tClk := arg8 args 22 }

/-- R113: the range check of each argument index 1..17, in index order. -/
def timingChecks (args : List Byte) : List (Nat × Bool) :=
  let t := timingArgs args
  let flag (i : Nat) : Bool := decide (arg8 args i ≤ 1)
  [(1, decide (6 ≤ t.divider)),
   (2, decide (16 ≤ t.hactive ∧ t.hactive ≤ 1280 ∧ t.hactive % 8 = 0)),
   (3, decide (24 ≤ t.hblank ∧ t.hblank ≤ 1024)),
   (4, decide (t.hsyncOffset + 8 ≤ t.hblank)),
   (5, decide (1 ≤ t.hsyncWidth ∧ t.hsyncOffset + t.hsyncWidth ≤ t.hblank)),
   (6, if t.interlace then decide (16 ≤ t.vactive ∧ t.vactive ≤ 1024 ∧ t.vactive % 2 = 0)
       else decide (8 ≤ t.vactive ∧ t.vactive ≤ 1024)),
   (7, decide (2 ≤ t.vblank)),
   (8, decide (t.vsyncOffset + 1 ≤ t.vblank)),
   (9, decide (1 ≤ t.vsyncWidth ∧ t.vsyncOffset + t.vsyncWidth ≤ t.vblank)),
   (10, flag 15), (11, flag 16), (12, flag 17), (13, flag 18), (14, flag 19),
   (15, flag 20 && (!t.flicker || t.interlace)),
   (16, true), (17, true)]

/-- R114: the index of the first argument outside its range, in index order. -/
def firstBadTiming (args : List Byte) : Option Nat := ((timingChecks args).find? fun c => !c.2).map (·.1)

/-! ### Link frames (R150, R151) -/

/-- R151: one bit of the CRC register. -/
def crcShift (r : BitVec 16) : BitVec 16 := if r.msb then (r <<< 1) ^^^ 0x1021#16 else r <<< 1

/-- R151: one byte, most significant bit first. -/
def crcByte (r : BitVec 16) (b : Byte) : BitVec 16 :=
  crcShift (crcShift (crcShift (crcShift (crcShift (crcShift (crcShift (crcShift
    (r ^^^ (b.zeroExtend 16 <<< 8)))))))))

/-- R151: the CRC-16 with polynomial 0x1021 from 0xFFFF. -/
def crc16 (bytes : List Byte) : BitVec 16 := bytes.foldl crcByte 0xFFFF#16

/-- R151: the CRC field, low byte first. -/
def crcField (bytes : List Byte) : List Byte := le16 (crc16 bytes).toNat

/-- R150: a whole link frame. -/
def linkFrame (kind seq aux : Byte) (payload : List Byte) : List Byte :=
  let covered := le16 payload.length ++ [kind, seq, aux] ++ payload
  0xA5#8 :: covered ++ crcField covered

/-- R150: frame kinds. -/
def kindRequest : Byte := 0x01
/-- R150. -/
def kindReply : Byte := 0x81
/-- R150. -/
def kindNotice : Byte := 0x82

/-! ### Notice payloads (R196) -/

/-- R196: the kind code of a notice. -/
def Notice.kindCode : Notice → Nat
  | .ready _ => 1
  | .frameShown _ _ _ => 2
  | .outputState _ _ _ _ => 3
  | .lineMiss _ _ _ _ => 4
  | .surfaceFreed _ _ _ => 5
  | .linkError _ _ _ _ => 6
  | .linkDrop _ _ => 7
  | .overflow _ _ => 8

/-- R196: a notice payload. -/
def Notice.payload (n : Notice) : List Byte :=
  byteOf n.kindCode ::
    match n with
    | .ready cause => [cause.code]
    | .frameShown o token takes => byteOf (outputNumber o) :: le16 token ++ [byteOf takes]
    | .outputState o st changes released => [byteOf (outputNumber o), st.code, byteOf changes, byteOf released]
    | .lineMiss o count first last => byteOf (outputNumber o) :: le16 count ++ le16 first ++ le16 last
    | .surfaceFreed sid base granules => byteOf sid :: le16 base ++ le16 granules
    | .linkError lengths crcs kinds timeouts => [byteOf lengths, byteOf crcs, byteOf kinds, byteOf timeouts]
    | .linkDrop count seq => [byteOf count, seq]
    | .overflow lost lastKind => le16 lost ++ [byteOf lastKind]

end Sys2Proof.Machine
end

