-- ==== Sys2Proof/Machine/Ops.lean ====
section
/-! DEFINITION. The named operations over frame memory, surfaces, outputs and pixels that the meanings share. -/

namespace Sys2Proof.Machine

/-! ### Frame memory (R1, R24, R25) -/

/-- The canonical form: addresses strictly rising and inside the 2,097,152 bytes. An unlisted byte has no value (log
5), so no entry can equal what an unlisted address reads as. -/
def Memory.wf : List Host.Cell → Bool
  | [] => true
  | [c] => decide (c.1 < Config.memoryBytes)
  | c :: d :: m => decide (c.1 < d.1) && Memory.wf (d :: m)

/-- What is listed for an address; `none` where the content is undefined (log 5). -/
def Memory.read : List Host.Cell → Nat → Option Byte
  | [], _ => none
  | (x, b) :: m, a => if x = a then some b else Memory.read m a

/-- Insert or replace the entry of one address. -/
def Memory.insert : List Host.Cell → Nat → Byte → List Host.Cell
  | [], a, b => [(a, b)]
  | (x, c) :: m, a, b =>
    if a < x then (a, b) :: (x, c) :: m
    else if a = x then (a, b) :: m
    else (x, c) :: Memory.insert m a b

/-- Write one byte. There is no byte at an address of 2,097,152 or above (R1). -/
def Memory.write (m : List Host.Cell) (a : Nat) (b : Byte) : List Host.Cell :=
  if a < Config.memoryBytes then Memory.insert m a b else m

/-- Make the content of the addresses from `lo` up to but not including `hi` undefined (R1, R13). -/
def Memory.forget (m : List Host.Cell) (lo hi : Nat) : List Host.Cell :=
  m.filter fun c => decide (c.1 < lo) || decide (hi ≤ c.1)

/-- The value of a byte, in the undefined content `era` where nothing is listed (R1, R13; log 5). -/
def Memory.value (m : List Host.Cell) (era a : Nat) : Byte := (Memory.read m a).getD (Config.undefinedByte era a)

/-- R25: change the bits under the mask and keep the byte's other bits. A change of the whole byte reads nothing. -/
def Memory.change (m : List Host.Cell) (era : Nat) (c : ByteChange) : List Host.Cell :=
  Memory.write m c.addr
    (if c.mask = 0xFF#8 then c.bits else (Memory.value m era c.addr &&& ~~~c.mask) ||| (c.bits &&& c.mask))

/-! ### Accessors -/

/-- The surface record of an id (R2). -/
def State.surface (s : State) (id : Nat) : Surface := s.surfaces.getD id .empty

/-- Replace one surface record. -/
def State.setSurface (s : State) (id : Nat) (r : Surface) : State := { s with surfaces := s.surfaces.set id r }

/-- The Output Unit of an output. -/
def State.ou (s : State) : OutputId → OutputUnit
  | .out0 => s.ou0
  | .out1 => s.ou1

/-- Replace one Output Unit. -/
def State.setOu (s : State) : OutputId → OutputUnit → State
  | .out0, u => { s with ou0 := u }
  | .out1, u => { s with ou1 := u }

/-- The presentation state of an output (R61). -/
def State.pres (s : State) : OutputId → Presentation
  | .out0 => s.pres0
  | .out1 => s.pres1

/-- Replace the presentation state of one output. -/
def State.setPres (s : State) : OutputId → Presentation → State
  | .out0, p => { s with pres0 := p }
  | .out1, p => { s with pres1 := p }

/-- The other output. -/
def otherOutput : OutputId → OutputId
  | .out0 => .out1
  | .out1 => .out0

/-- Replace the Pixel Engine. -/
def State.setPe (s : State) (e : Engine) : State := { s with pe := e }

/-- Replace what the Memory Port has granted. -/
def State.setInFlight (s : State) (g : Option Grant) : State := { s with port := { s.port with inFlight := g } }

/-- R121: the step fixes PWREN. -/
def OutputUnit.pwren (u : OutputUnit) : Bool := decide (u.step ≠ .off)

/-- R121: the step fixes whether the timing runs. -/
def OutputUnit.timingRuns (u : OutputUnit) : Bool :=
  match u.step with
  | .clockWait | .showing | .backlightWait => true
  | .off | .powerWait | .supplyWait => false

/-- R121: the step fixes BLEN. -/
def OutputUnit.blen (u : OutputUnit) : Bool := decide (u.step = .showing)

/-- R113. -/
def Timing.htotal (t : Timing) : Nat := t.hactive + t.hblank

/-! ### Geometry of surfaces (R3, R24, R28, R29) -/

/-- R3, R23: bits per pixel. -/
def Format.bpp : Format → Nat
  | .ov2 => 2
  | .ix4 => 4
  | .ix8 => 8
  | .rgb16 => 16

/-- R3: the stored width and height. -/
def storedSize (t : Transform) (w h : Nat) : Nat × Nat :=
  match t with
  | .t0 | .t180 => (w, h)
  | .t90 | .t270 => (h, w)

/-- R3: bytes per stored row. -/
def strideOf (f : Format) (storedWidth : Nat) : Nat := ceilDiv (storedWidth * f.bpp) 64 * 8

/-- R3: the region size in granules. -/
def granulesOf (stride storedHeight : Nat) : Nat := ceilDiv (stride * storedHeight) Config.granuleBytes

/-- R26: the bytes in which `pixels` pixels are transferred. -/
def transferBytes (f : Format) (pixels : Nat) : Nat := ceilDiv (pixels * f.bpp) 8

/-- R28: a rectangle lies within bounds `w` × `h`. -/
def Rect.within (r : Rect) (w h : Nat) : Bool :=
  decide (1 ≤ r.w) && decide (1 ≤ r.h) && decide (r.x + r.w ≤ w) && decide (r.y + r.h ≤ h)

/-- The pixels of a rectangle. -/
def Rect.area (r : Rect) : Nat := r.w * r.h

/-- R40: two rectangles share a pixel. -/
def Rect.overlaps (a b : Rect) : Bool :=
  decide (a.x < b.x + b.w) && decide (b.x < a.x + a.w) && decide (a.y < b.y + b.h) && decide (b.y < a.y + a.h)

/-- R29: the stored position of logical pixel (x, y). -/
def Surface.storedPosition (r : Surface) (x y : Nat) : Nat × Nat :=
  match r.transform with
  | .t0 => (x, y)
  | .t90 => (r.height - 1 - y, x)
  | .t180 => (r.width - 1 - x, r.height - 1 - y)
  | .t270 => (y, r.width - 1 - x)

/-- R1, R24: the frame-memory address of the first byte of stored row `v`. -/
def Surface.rowAddress (r : Surface) (v : Nat) : Nat := r.base * Config.granuleBytes + v * r.stride

/-- R24: the address of the (first) byte that holds stored pixel (u, v). -/
def Surface.pixelAddress (r : Surface) (u v : Nat) : Nat := r.rowAddress v + u * r.format.bpp / 8

/-- R24: the bit of that byte at which the pixel begins. -/
def Surface.pixelShift (r : Surface) (u : Nat) : Nat := u * r.format.bpp % 8

/-- R36, R137: the address of the 64-byte block that holds a byte. -/
def blockOf (a : Nat) : Nat := a / Config.burstBytes * Config.burstBytes

/-- R24: the raw value of stored pixel (u, v) of a surface. -/
def rawPixel (m : List Host.Cell) (r : Surface) (u v : Nat) : Nat :=
  let a := r.pixelAddress u v
  match r.format with
  | .rgb16 => (Memory.value m r.era a).toNat + 256 * (Memory.value m r.era (a + 1)).toNat
  | .ov2 | .ix4 | .ix8 => (Memory.value m r.era a).toNat / 2 ^ r.pixelShift u % 2 ^ r.format.bpp

/-- R24, R25: the byte changes that set stored pixel (u, v) to a raw value. -/
def pixelChanges (r : Surface) (u v value : Nat) : List ByteChange :=
  let a := r.pixelAddress u v
  match r.format with
  | .rgb16 => [⟨a, 0xFF#8, byteOf value⟩, ⟨a + 1, 0xFF#8, byteOf (value / 256)⟩]
  | .ov2 | .ix4 | .ix8 =>
    [⟨a, byteOf ((2 ^ r.format.bpp - 1) * 2 ^ r.pixelShift u), byteOf (value * 2 ^ r.pixelShift u)⟩]

/-- Add a change to the held changes; a change of the byte changed last is joined to it. -/
def addChange (c : ByteChange) : List ByteChange → List ByteChange
  | [] => [c]
  | d :: ds =>
    if d.addr = c.addr then
      ⟨c.addr, d.mask ||| c.mask, (d.bits &&& d.mask &&& ~~~c.mask) ||| (c.bits &&& c.mask)⟩ :: ds
    else c :: d :: ds

/-- R36: write held changes to memory, oldest first. -/
def applyChanges (m : List Host.Cell) (era : Nat) (changes : List ByteChange) : List Host.Cell :=
  changes.foldr (fun c acc => Memory.change acc era c) m

/-- R26: pack raw values as transferred data, first pixel in the least significant bits, unused high bits 0. -/
def packPixels (f : Format) : List Nat → List Byte
  | [] => []
  | p :: ps =>
    match f with
    | .rgb16 => byteOf p :: byteOf (p / 256) :: packPixels f ps
    | .ix8 => byteOf p :: packPixels f ps
    | .ix4 =>
      match ps with
      | [] => [byteOf p]
      | q :: rest => byteOf (p + 16 * q) :: packPixels f rest
    | .ov2 =>
      match ps with
      | [] => [byteOf p]
      | [q] => [byteOf (p + 4 * q)]
      | [q, r] => [byteOf (p + 4 * q + 16 * r)]
      | q :: r :: t :: rest => byteOf (p + 4 * q + 16 * r + 64 * t) :: packPixels f rest

/-- R26, R52: the raw value of the pixel whose first bit is bit `bit` of the bytes. -/
def unpackPixel (f : Format) (bytes : List Byte) (bit : Nat) : Nat :=
  match f with
  | .rgb16 => arg16 bytes (bit / 8)
  | .ov2 | .ix4 | .ix8 => arg8 bytes (bit / 8) / 2 ^ (bit % 8) % 2 ^ f.bpp

/-! ### The Granule Map (R5, R6) -/

/-- R5, R21: a run of the Granule Map. -/
structure Run where
  start : Nat
  length : Nat
  owner : Option Nat
  deriving DecidableEq, Repr

/-- R5: the maximal runs of a map whose first granule is `start`, in ascending order. -/
def runsFrom : Nat → List (Option Nat) → List Run
  | _, [] => []
  | start, g :: gs =>
    match runsFrom (start + 1) gs with
    | [] => [⟨start, 1, g⟩]
    | r :: rs => if r.owner = g then ⟨start, r.length + 1, g⟩ :: rs else ⟨start, 1, g⟩ :: r :: rs

/-- R5: the runs of the Granule Map. -/
def State.runs (s : State) : List Run := runsFrom 0 s.granules

/-- R5: the free runs, in ascending order. -/
def State.freeRuns (s : State) : List Run := s.runs.filter fun r => r.owner.isNone

/-- R6: the length of the longest free run, 0 when no granule is free. -/
def State.longestFreeRun (s : State) : Nat := (s.freeRuns.map (·.length)).foldl max 0

/-- R6: first-fit placement of `n` granules: the base granule, or none when no free run is long enough. -/
def State.place (s : State) (n : Nat) (hint : Hint) : Option Nat :=
  let fitting := s.freeRuns.filter fun r => decide (n ≤ r.length)
  match hint with
  | .low => fitting.head?.map (·.start)
  | .high => fitting.getLast?.map fun r => r.start + r.length - n

/-- R13: mark granules base .. base + n − 1 as held by a surface. -/
def holdGranules (map : List (Option Nat)) (base n id : Nat) : List (Option Nat) :=
  map.mapIdx fun g owner => if base ≤ g ∧ g < base + n then some id else owner

/-- R7: free every granule a surface holds. -/
def freeGranules (map : List (Option Nat)) (id : Nat) : List (Option Nat) :=
  map.map fun owner => if owner = some id then none else owner

end Sys2Proof.Machine
end

