-- ==== Sys2Proof/Machine/Flags.lean ====
section
/-! DEFINITION. What the host is told: the Notice Queue's raises (R181 to R185), the reply queue, reply cache and
pending-reply table (R166 to R175), the hold causes (R169), the credit count (R159) and ATTN_N (R162). -/

namespace Sys2Proof.Machine

/-! ### Notices -/

/-- R181, R182: the key, the kind code with the output or surface id of the kinds that have one. -/
def Notice.key : Notice → Nat × Nat
  | .ready _ => (1, 0)
  | .frameShown o _ _ => (2, outputNumber o)
  | .outputState o _ _ _ => (3, outputNumber o)
  | .lineMiss o _ _ _ => (4, outputNumber o)
  | .surfaceFreed sid _ _ => (5, sid)
  | .linkError _ _ _ _ => (6, 0)
  | .linkDrop _ _ => (7, 0)
  | .overflow _ _ => (8, 0)

/-- R181: a marker. -/
def Notice.isMarker : Notice → Bool
  | .overflow _ _ => true
  | .ready _ | .frameShown _ _ _ | .outputState _ _ _ _ | .lineMiss _ _ _ _ | .surfaceFreed _ _ _
  | .linkError _ _ _ _ | .linkDrop _ _ => false

/-- A count that holds at a limit. -/
def hold (limit n : Nat) : Nat := min limit n

/-- R71, R130, R141, R10, R156, R158, R189: the fields of an entry once a newer notice of its key is put into it. An
update in place is the same rule with the newer notice carrying one occurrence. READY and OVERFLOW are never
combined (R189). -/
def Notice.combine (old new : Notice) : Notice :=
  match old, new with
  | .frameShown o _ takes, .frameShown _ token more => .frameShown o token (hold 255 (takes + more))
  | .outputState o _ changes released, .outputState _ st moreChanges moreReleased =>
    .outputState o st (hold 255 (changes + moreChanges)) (hold 255 (released + moreReleased))
  | .lineMiss o count first _, .lineMiss _ more _ last => .lineMiss o (hold 65535 (count + more)) first last
  | .surfaceFreed sid _ _, .surfaceFreed _ base granules => .surfaceFreed sid base granules
  | .linkError a b c d, .linkError a' b' c' d' =>
    .linkError (hold 255 (a + a')) (hold 255 (b + b')) (hold 255 (c + c')) (hold 255 (d + d'))
  | .linkDrop count _, .linkDrop more seq => .linkDrop (hold 255 (count + more)) seq
  | .ready _, _ | .overflow _ _, _ | .frameShown _ _ _, _ | .outputState _ _ _ _, _ | .lineMiss _ _ _ _, _
  | .surfaceFreed _ _ _, _ | .linkError _ _ _ _, _ | .linkDrop _ _, _ => old

/-- R185: the value after `v`, from 255 to 0, passing over the values held. -/
def nextSeqAfter (held : List Nat) (v : Nat) : Nat :=
  (((List.range 256).map fun d => (v + 1 + d) % 256).find? fun c => !held.contains c).getD ((v + 1) % 256)

/-- R185: append an entry that takes the next notice seq. -/
def appendNotice (n : Notice) (s : State) : State :=
  let entries := s.notices ++ [⟨n, s.nextNotice, false⟩]
  { s with notices := entries, nextNotice := nextSeqAfter (entries.map (·.seq)) s.nextNotice }

/-- R184: count one lost event, of this kind code, in the marker. -/
def countLoss (kind : Nat) (s : State) : State :=
  match s.notices.find? fun e => e.notice.isMarker with
  | none => appendNotice (.overflow 1 kind) s
  | some m =>
    let lost := match m.notice with
      | .overflow lost _ => hold 65535 (lost + 1)
      | .ready _ | .frameShown _ _ _ | .outputState _ _ _ _ | .lineMiss _ _ _ _ | .surfaceFreed _ _ _
      | .linkError _ _ _ _ | .linkDrop _ _ => 1
    if m.sent then
      appendNotice (.overflow lost kind) { s with notices := s.notices.filter fun e => !e.notice.isMarker }
    else
      { s with notices := s.notices.map fun e => if e.notice.isMarker then { e with notice := .overflow lost kind } else e }

/-- R183: the unsent entry with a key. -/
def NoticeEntry.takes (key : Nat × Nat) (e : NoticeEntry) : Bool := !e.sent && decide (e.notice.key = key)

/-- R181: the ordinary entries present. -/
def State.ordinaryCount (s : State) : Nat := (s.notices.filter fun e => !e.notice.isMarker).length

/-- R183: raise one occurrence: update in place, a new entry, or a loss. -/
def raise (n : Notice) (s : State) : State :=
  if s.notices.any (·.takes n.key) then
    { s with notices := s.notices.map fun e => if e.takes n.key then { e with notice := e.notice.combine n } else e }
  else if s.ordinaryCount < Config.ordinaryNotices then appendNotice n s
  else countLoss n.kindCode s

/-! ### Replies -/

/-- R172: a reply enters the cache as the newest. -/
def cacheInsert (r : Reply) (cache : List Reply) : List Reply :=
  let kept := cache.filter fun c => decide (c.seq ≠ r.seq)
  (if Config.replyCacheLength ≤ kept.length then kept.drop 1 else kept) ++ [r]

/-- R172: a reply produced by execution enters the reply queue and the reply cache. -/
def pushReply (seq : Byte) (payload : List Byte) (s : State) : State :=
  { s with replies := s.replies ++ [⟨seq, payload⟩], cache := cacheInsert ⟨seq, payload⟩ s.cache }

/-- R170, R171: a replay or an IN_PROGRESS enters the reply queue only. -/
def queueReply (seq : Byte) (payload : List Byte) (s : State) : State :=
  { s with replies := s.replies ++ [⟨seq, payload⟩] }

/-- R174: complete the deferred request with this seq. A request whose entry is no longer occupied gets no reply. -/
def completeSeq (seq : Byte) (st : Status) (fields : List Byte) (s : State) : State :=
  match s.pendingReplies.find? fun p => decide (p.seq = seq) with
  | none => s
  | some p =>
    pushReply seq (replyPayload p.code st fields)
      { s with pendingReplies := s.pendingReplies.filter fun q => decide (q.seq ≠ seq) }

/-- R174: complete every deferred request with this reference, in the order they were taken. -/
def completeRef (ref : PendingRef) (st : Status) (s : State) : State :=
  (s.pendingReplies.filter fun p => decide (p.ref = ref)).foldl (fun acc p => completeSeq p.seq st [] acc) s

/-- R173: a pending-reply entry is free. -/
def State.pendingFree (s : State) : Bool := decide (s.pendingReplies.length < Config.pendingTableLength)

/-- R173: fill a pending-reply entry. -/
def bindPending (seq code : Byte) (owner : Block) (ref : PendingRef) (s : State) : State :=
  { s with pendingReplies := s.pendingReplies ++ [⟨seq, code, owner, ref⟩] }

/-- R167: the free entries of the reply queue. -/
def State.freeReplies (s : State) : Nat :=
  Config.replyQueueLength - (s.replies.length + s.pendingReplies.length)

/-- R169: the hold causes. -/
inductive HoldCause where
  | replyQueueFull
  | stagingRoom
  | drain
  deriving DecidableEq, Repr

/-- R169: the hold causes that stand. -/
def State.holdCauses (s : State) : List HoldCause :=
  (if s.freeReplies = 0 then [.replyQueueFull] else []) ++
    match s.held with
    | none => []
    | some .upload => [.stagingRoom]
    | some (.reset _) => [.drain]

/-- R169: the Request Handler is READY. -/
def State.handlerReady (s : State) : Bool := s.holdCauses.isEmpty

/-- R166, R178: a DEVICE_RESET waits for its drain. -/
def State.draining (s : State) : Bool :=
  match s.held with
  | some (.reset _) => true
  | some .upload | none => false

/-- R159: the credit count. -/
def State.credits (s : State) : Nat := Config.slotCount - (s.slots.filter (·.isSome)).length

/-- R162: ATTN_N is driven low. -/
def State.attnLow (s : State) : Bool :=
  !s.inReset && (!s.replies.isEmpty || s.notices.any (fun e => !e.sent) || s.tx.isSome)

/-! ### Ingress slots (R157) -/

/-- The frame in the slot at the head of the arrival list. -/
def State.headFrame (s : State) : Option RequestFrame :=
  match s.arrival with
  | [] => none
  | i :: _ => s.slots.getD i none

/-- R157: release the slot at the head of the arrival list. -/
def releaseHead (s : State) : State :=
  match s.arrival with
  | [] => s
  | i :: rest => { s with slots := s.slots.set i none, arrival := rest }

end Sys2Proof.Machine
end

