-- ==== Sys2Proof/Machine/Claims.lean ====
section
/-! DEFINITION. The Surface Manager's counts: claims that add and release uses, and the freeing of a surface (R7 to
R10). -/

namespace Sys2Proof.Machine

/-- R7: free a surface: its granules become free and its record EMPTY. -/
def freeSurface (id : Nat) (s : State) : State :=
  { s with granules := freeGranules s.granules id, surfaces := s.surfaces.set id .empty }

/-- R8, R9: add one scan reference. -/
def addScan (id : Nat) (s : State) : State :=
  let r := s.surface id
  s.setSurface id { r with scanRefs := r.scanRefs + 1 }

/-- R8: release one scan reference from the count. -/
def dropScan (id : Nat) (s : State) : State :=
  let r := s.surface id
  s.setSurface id { r with scanRefs := r.scanRefs - 1 }

/-- R8: the surface a job writes. -/
def JobKind.destination : JobKind → Option Nat
  | .fill dst _ _ | .copy dst _ _ _ _ _ | .stream dst _ => some dst
  | .read _ _ _ | .fence _ => none

/-- R8: the distinct surfaces a job names. -/
def JobKind.surfaces : JobKind → List Nat
  | .fill dst _ _ | .stream dst _ => [dst]
  | .copy dst src _ _ _ _ => if dst = src then [dst] else [dst, src]
  | .read target _ _ => [target]
  | .fence _ => []

/-- R8, R37: add one job reference. -/
def addJobRef (id : Nat) (s : State) : State :=
  let r := s.surface id
  s.setSurface id { r with jobRefs := r.jobRefs + 1 }

/-- R8, R37: add one writer. -/
def addWriter (id : Nat) (s : State) : State :=
  let r := s.surface id
  s.setSurface id { r with writers := r.writers + 1 }

/-- R8: release one job reference from the count. -/
def dropJobRef (id : Nat) (s : State) : State :=
  let r := s.surface id
  s.setSurface id { r with jobRefs := r.jobRefs - 1 }

/-- R8: release one writer from the count. -/
def dropWriter (id : Nat) (s : State) : State :=
  let r := s.surface id
  s.setSurface id { r with writers := r.writers - 1 }

/-- R37: the uses a new entry adds: one job ref on each distinct surface, one writer on its destination. -/
def addJobUses (k : JobKind) (s : State) : State :=
  let s := k.surfaces.foldl (fun acc id => addJobRef id acc) s
  k.destination.elim s fun id => addWriter id s

/-- R10: lower the counts an entry held. -/
def dropJobUses (k : JobKind) (s : State) : State :=
  let s := k.surfaces.foldl (fun acc id => dropJobRef id acc) s
  k.destination.elim s fun id => dropWriter id s

/-- R10: what follows on one surface after its counts were lowered. -/
def settleSurface (id : Nat) (s : State) : State :=
  let r := s.surface id
  match r.state with
  | .sealing =>
    if r.writers = 0 then
      completeRef (.seal id) .ok (s.setSurface id { r with state := .ready, sealPending := false })
    else s
  | .discarding =>
    if r.scanRefs = 0 ∧ r.jobRefs = 0 then raise (.surfaceFreed id r.base r.granules) (freeSurface id s) else s
  | .empty | .filling | .ready => s

/-- R10: settle the surfaces of one claim, in the order the claim names them (log 12). -/
def settleSurfaces (ids : List Nat) (s : State) : State := ids.foldl (fun acc id => settleSurface id acc) s

/-- R10: release one scan reference on each surface listed, as one claim. -/
def releaseScans (ids : List Nat) (s : State) : State :=
  settleSurfaces ids (ids.foldl (fun acc id => dropScan id acc) s)

/-- R10, R45: release the uses of a Job Queue entry, as one claim. -/
def releaseJob (k : JobKind) (s : State) : State := settleSurfaces k.surfaces (dropJobUses k s)

/-- R10, R16: release the uses of an entry cancelled by a discard of surface `self`: on that surface only the counts
change. -/
def releaseCancelled (self : Nat) (k : JobKind) (s : State) : State :=
  settleSurfaces (k.surfaces.filter fun id => decide (id ≠ self)) (dropJobUses k s)

end Sys2Proof.Machine
end

