-- ==== Sys2Proof/Machine/Engine.lean ====
section
/-! DEFINITION. The Pixel Engine: running the active job burst by burst, completing and cancelling jobs, the upload
session (R35 to R58), and the Memory Port's arbiter (R145). -/

namespace Sys2Proof.Machine

/-! ### The pixels of a job (R26, R30, R36) -/

/-- The rectangle a job works through; `none` for a FENCE. -/
def JobKind.rect : JobKind → Option Rect
  | .fill _ r _ | .copy _ _ r _ _ _ | .stream _ r | .read _ r _ => some r
  | .fence _ => none

/-- The pixels of a job. -/
def JobKind.pixels (k : JobKind) : Nat := k.rect.elim 0 Rect.area

/-- R30, R41: the surface and logical position pixel `n` of the job is read from. -/
def JobKind.sourcePixel (k : JobKind) (n : Nat) : Option (Nat × Nat × Nat) :=
  match k with
  | .copy _ src r _ _ _ => some (src, r.x + n % r.w, r.y + n / r.w)
  | .read target r _ => some (target, r.x + n % r.w, r.y + n / r.w)
  | .fill _ _ _ | .stream _ _ | .fence _ => none

/-- R30, R41: the surface and logical position pixel `n` of the job is written to. -/
def JobKind.destinationPixel (k : JobKind) (n : Nat) : Option (Nat × Nat × Nat) :=
  match k with
  | .fill dst r _ | .stream dst r => some (dst, r.x + n % r.w, r.y + n / r.w)
  | .copy dst _ r dx dy _ => some (dst, dx + n % r.w, dy + n / r.w)
  | .read _ _ _ | .fence _ => none

/-- R29, R36: the 64-byte block that holds a logical pixel. -/
def State.pixelBlock (s : State) (p : Nat × Nat × Nat) : Nat :=
  let r := s.surface p.1
  let uv := r.storedPosition p.2.1 p.2.2
  blockOf (r.pixelAddress uv.1 uv.2)

/-- R29: the raw value of a logical pixel. -/
def State.logicalRaw (s : State) (p : Nat × Nat × Nat) : Nat :=
  let r := s.surface p.1
  let uv := r.storedPosition p.2.1 p.2.2
  rawPixel s.mem r uv.1 uv.2

/-- R29, R25: the byte changes that set a logical pixel. -/
def State.logicalChanges (s : State) (p : Nat × Nat × Nat) (value : Nat) : List ByteChange :=
  let r := s.surface p.1
  let uv := r.storedPosition p.2.1 p.2.2
  pixelChanges r uv.1 uv.2 value

/-- R26, R52, R54: the pixels the received bytes of the session cover. -/
def State.coveredPixels (s : State) (k : JobKind) (session : Session) : Nat :=
  min k.pixels (8 * session.received / (s.surface session.dst).format.bpp)

/-- R36, R52: how many of the job's pixels can be set with the data at hand. -/
def State.readyPixels (s : State) (k : JobKind) : Nat :=
  match k with
  | .stream _ _ =>
    match s.pe.session with
    | some session => s.coveredPixels k session
    | none => 0
  | .fill _ _ _ | .copy _ _ _ _ _ _ | .read _ _ _ | .fence _ => k.pixels

/-- R52: the raw value of stream pixel `n`, from the bytes still in the staging buffer. -/
def State.streamPixel (s : State) (session : Session) (n : Nat) : Nat :=
  let f := (s.surface session.dst).format
  unpackPixel f s.pe.staging (n * f.bpp - 8 * session.written)

/-- The pixels the active job has set in the burst it holds (R36). -/
def Engine.heldPixels (e : Engine) : Nat := e.heldBurst.elim 0 HeldBurst.pixels

/-- The raw value the job writes at pixel `n`. -/
def State.jobValue (s : State) (k : JobKind) (n : Nat) : Nat :=
  match k with
  | .fill _ _ value => value
  | .copy _ _ _ _ _ _ | .read _ _ _ => (k.sourcePixel n).elim 0 s.logicalRaw
  | .stream _ _ => s.pe.session.elim 0 fun session => s.streamPixel session n
  | .fence _ => 0

/-! ### Leaving the queue (R45, R46, R54) -/

/-- R58, R46: whatever the active job holds is let go. -/
def Engine.dropActive (e : Engine) : Engine :=
  { e with source := none, heldBurst := none, readOut := [], request := none }

/-- R47, R48: the session closes and its staged bytes are discarded. -/
def Engine.closeSession (e : Engine) : Engine := { e with session := none, staging := [] }

/-- R146: the data of a granted Pixel Engine burst is no longer wanted. -/
def killEngineBurst (s : State) : State :=
  match s.port.inFlight with
  | some (.engine b _) => s.setInFlight (some (.engine b false))
  | some (.fetch _ _ _) | none => s

/-- R45: the active job completes: it leaves the queue, its uses are released, and its deferred reply, if it has one,
is handed over. -/
def completeActive (s : State) : State :=
  match s.pe.jobs with
  | [] => s
  | j :: rest =>
    let readOut := s.pe.readOut
    let s := s.setPe { s.pe.dropActive with jobs := rest }
    match j.kind with
    | .fill _ _ _ | .copy _ _ _ _ _ _ => releaseJob j.kind s
    | .read target _ link =>
      let data := packPixels (s.surface target).format readOut
      completeSeq link .ok (le16 data.length ++ data) (releaseJob j.kind s)
    | .fence link => completeSeq link .ok [] (releaseJob j.kind s)
    | .stream _ _ =>
      match s.pe.session with
      | none => releaseJob j.kind s
      | some session =>
        let s := releaseJob j.kind (s.setPe s.pe.closeSession)
        session.link.elim s fun link =>
          completeSeq link (if session.received = session.expected then .ok else .short)
            (le32 session.received ++ le32 j.progress) s

/-! ### Running the active job (R36) -/

/-- What the Pixel Engine does next, when no burst of the active job is requested or in progress. -/
inductive EngineMove where
  /-- request a burst -/
  | ask (b : EngineBurst)
  /-- go on from this condition of the engine, with no burst -/
  | go (e : Engine)
  /-- the active job is done -/
  | finish
  /-- waiting for data (R36) -/
  | wait
  deriving DecidableEq, Repr

/-- R36, R52: the active job has no further pixel it can set at this moment. -/
def State.exhaustedMove (s : State) (k : JobKind) : EngineMove :=
  match k with
  | .stream _ _ =>
    match s.pe.session with
    | some session => if session.endRequested then .finish else .wait
    | none => .wait
  | .fill _ _ _ | .copy _ _ _ _ _ _ | .read _ _ _ | .fence _ => .finish

/-- R36: the held changes are written back, or let go when every pixel was keyed out (R41). -/
def State.writeBackMove (s : State) (j : Job) (rest : List Job) (h : HeldBurst) : EngineMove :=
  if h.changes = [] then
    .go { s.pe with heldBurst := none, jobs := { j with progress := j.progress + h.pixels } :: rest }
  else .ask (.writeDestination h.addr)

/-- R41: a COPY with a key leaves pixel `n` out. -/
def State.keyedOut (s : State) (k : JobKind) (n : Nat) : Bool :=
  match k with
  | .copy _ _ _ _ _ (some key) => decide (s.jobValue k n = key)
  | .copy _ _ _ _ _ none | .fill _ _ _ | .stream _ _ | .read _ _ _ | .fence _ => false

/-- R36, R39, R41, R43, R52: handle pixel `n`, whose source burst (if it has one) is at hand. -/
def State.pixelMove (s : State) (j : Job) (rest : List Job) (n : Nat) : EngineMove :=
  let value := s.jobValue j.kind n
  match j.kind with
  | .read _ _ _ =>
    .go { s.pe with readOut := s.pe.readOut ++ [value], jobs := { j with progress := j.progress + 1 } :: rest }
  | .fence _ => .finish
  | .fill _ _ _ | .copy _ _ _ _ _ _ | .stream _ _ =>
    let keyedOut := s.keyedOut j.kind n
    match s.pe.heldBurst, j.kind.destinationPixel n with
    | some h, some p =>
      let changes := if keyedOut then h.changes else (s.logicalChanges p value).foldl (fun acc c => addChange c acc) h.changes
      .go { s.pe with heldBurst := some { h with changes := changes, pixels := h.pixels + 1 } }
    | none, some p =>
      if keyedOut then .go { s.pe with jobs := { j with progress := j.progress + 1 } :: rest }
      else .ask (.readDestination (s.pixelBlock p))
    | _, none => .finish

/-- R36: the next move of the Pixel Engine on its active job. A pixel's source burst is read before its destination
burst (log 8). -/
def State.engineMove (s : State) (j : Job) (rest : List Job) : EngineMove :=
  let n := j.progress + s.pe.heldPixels
  let exhausted : Bool := decide (s.readyPixels j.kind ≤ n)
  let leaves (h : HeldBurst) : Bool :=
    exhausted || (j.kind.destinationPixel n).elim true fun p => decide (s.pixelBlock p ≠ h.addr)
  match s.pe.heldBurst with
  | some h =>
    if leaves h then s.writeBackMove j rest h
    else match j.kind.sourcePixel n with
      | some p => if s.pe.source = some (s.pixelBlock p) then s.pixelMove j rest n else .ask (.readSource (s.pixelBlock p))
      | none => s.pixelMove j rest n
  | none =>
    if exhausted then s.exhaustedMove j.kind
    else match j.kind.sourcePixel n with
      | some p => if s.pe.source = some (s.pixelBlock p) then s.pixelMove j rest n else .ask (.readSource (s.pixelBlock p))
      | none => s.pixelMove j rest n

/-- R36, R146: a burst of the active job has been granted and has not completed. -/
def State.engineBurstLive (s : State) : Bool :=
  match s.port.inFlight with
  | some (.engine _ live) => live
  | some (.fetch _ _ _) | none => false

/-- Run the Pixel Engine until it needs a burst, waits for data or is idle. The first argument bounds the moves. While a
cancelled job's granted burst completes, the request of a later job may already stand; it is granted only after the
burst (R16, R145; log 22). -/
def runEngine : Nat → State → State
  | 0, s => s
  | fuel + 1, s =>
    if s.pe.stopped || s.pe.request.isSome || s.engineBurstLive then s
    else match s.pe.jobs with
      | [] => s
      | j :: rest =>
        match s.engineMove j rest with
        | .ask b => s.setPe { s.pe with request := some b }
        | .go e => runEngine fuel (s.setPe e)
        | .finish => runEngine fuel (completeActive s)
        | .wait => s

/-- A bound on the moves the engine can make without a burst: a move that is no request counts a pixel, lets a held
burst go, or completes an entry. -/
def Engine.moveBound (e : Engine) : Nat :=
  match e.jobs with
  | [] => 0
  | j :: rest =>
    2 * (j.kind.pixels - (j.progress + e.heldPixels)) + (if e.heldBurst.isSome then 1 else 0) + 2 +
      (rest.map fun k => 2 * k.kind.pixels + 2).sum

/-! ### The Memory Port's arbiter (R145) -/

/-- The bursts a fetching half has still to request. -/
def LineHalf.waiting (h : LineHalf) : List FetchBurst :=
  match h.condition with
  | .fetching => h.todo
  | .free | .shown => []

/-- R139: the request the fetch of an output holds at the Memory Port. -/
def OutputUnit.fetchRequest (u : OutputUnit) : Option FetchBurst :=
  (u.halfA.waiting ++ u.halfB.waiting).head?

/-- R139: the granted burst leaves the bursts still to be requested. -/
def LineHalf.grantNext (h : LineHalf) : LineHalf :=
  match h.condition with
  | .fetching => { h with todo := h.todo.drop 1 }
  | .free | .shown => h

/-- R145: grant the standing request of a fetch. -/
def grantFetch (o : OutputId) (b : FetchBurst) (s : State) : State :=
  let u := s.ou o
  let u := { u with halfA := u.halfA.grantNext, halfB := u.halfB.grantNext }
  { s.setOu o u with port := { inFlight := some (.fetch o b true), lastScan := o } }

/-- R145: grant the standing request of the Pixel Engine. -/
def grantEngine (b : EngineBurst) (s : State) : State :=
  (s.setPe { s.pe with request := none }).setInFlight (some (.engine b true))

/-- R145: with the port idle and at least one request standing, the arbiter grants one. -/
def arbitrate (s : State) : State :=
  match s.port.inFlight with
  | some _ => s
  | none =>
    match s.ou0.fetchRequest, s.ou1.fetchRequest, s.pe.request with
    | some b0, some b1, _ =>
      match s.port.lastScan with
      | .out1 => grantFetch .out0 b0 s
      | .out0 => grantFetch .out1 b1 s
    | some b0, none, _ => grantFetch .out0 b0 s
    | none, some b1, _ => grantFetch .out1 b1 s
    | none, none, some b => grantEngine b s
    | none, none, none => s

/-- The Pixel Engine goes on and the Memory Port grants what then stands. -/
def settle (s : State) : State := arbitrate (runEngine (s.pe.moveBound + 1) s)

/-! ### Entries joining and leaving (R37, R46, R55, R56) -/

/-- R37: append an entry, with its uses. -/
def appendJob (k : JobKind) (s : State) : State :=
  addJobUses k (s.setPe { s.pe with jobs := s.pe.jobs ++ [⟨k, 0⟩] })

/-- R37: the Job Queue holds 8 entries. -/
def State.jobsFull (s : State) : Bool := decide (Config.jobQueueLength ≤ s.pe.jobs.length)

/-- R46: what a cancelled entry's deferred request is answered, and the session of a cancelled STREAM. -/
def answerCancelled (k : JobKind) (s : State) : State :=
  match k with
  | .read _ _ link => completeSeq link .cancelled [] s
  | .stream _ _ =>
    match s.pe.session with
    | none => s
    | some session =>
      let s := s.setPe s.pe.closeSession
      session.link.elim s fun link => completeSeq link .cancelled [] s
  | .fill _ _ _ | .copy _ _ _ _ _ _ | .fence _ => s

/-- R46: take the doomed entries out of the queue. When the active job is among them it issues no further burst, and
the data of a burst already granted is not wanted (log 11). -/
def removeJobs (doomed : Job → Bool) (s : State) : State :=
  let headDoomed := s.pe.jobs.head?.elim false doomed
  let kept := s.pe.jobs.filter fun j => !doomed j
  if headDoomed then killEngineBurst (s.setPe { s.pe.dropActive with jobs := kept })
  else s.setPe { s.pe with jobs := kept }

/-- R16, R46, R56: cancel every entry that names a surface in any role, in queue order. -/
def cancelNaming (id : Nat) (s : State) : State :=
  let doomed (j : Job) : Bool := j.kind.surfaces.contains id
  (s.pe.jobs.filter doomed).foldl (fun acc j => answerCancelled j.kind (releaseCancelled id j.kind acc))
    (removeJobs doomed s)

/-- R35: an entry is the STREAM of the session. -/
def Job.isStream (j : Job) : Bool :=
  match j.kind with
  | .stream _ _ => true
  | .fill _ _ _ | .copy _ _ _ _ _ _ | .read _ _ _ | .fence _ => false

/-- R52: the stream bytes that have left the staging buffer once `pixels` pixels are written. -/
def State.writtenAfter (s : State) (k : JobKind) (session : Session) (pixels : Nat) : Nat :=
  if pixels = k.pixels then session.expected
  else pixels * (s.surface session.dst).format.bpp / 8

/-- R52: release from the staging buffer the bytes whose pixels are all written. -/
def releaseStaged (k : JobKind) (pixels : Nat) (s : State) : State :=
  match k with
  | .stream _ _ =>
    match s.pe.session with
    | none => s
    | some session =>
      let written := s.writtenAfter k session pixels
      s.setPe { s.pe with staging := s.pe.staging.drop (written - session.written)
                          session := some { session with written := written } }
  | .fill _ _ _ | .copy _ _ _ _ _ _ | .read _ _ _ | .fence _ => s

/-- R36: the write of the held burst of the active job completes: memory changes, its pixels count as written, and
staged bytes are released. -/
def landWrite (s : State) : State :=
  match s.pe.jobs, s.pe.heldBurst with
  | j :: rest, some h =>
    let era := (j.kind.destination.elim Surface.empty s.surface).era
    let progress := j.progress + h.pixels
    let s := { s with mem := applyChanges s.mem era h.changes }
    releaseStaged j.kind progress
      (s.setPe { s.pe with heldBurst := none, jobs := { j with progress := progress } :: rest })
  | _, _ => s

/-- R55: a write burst of the active STREAM already granted completes before the session closes (log 10); the port
is free again when the burst's time is over. -/
def finishGrantedStreamWrite (s : State) : State :=
  match s.port.inFlight, s.pe.jobs with
  | some (.engine (.writeDestination a) true), j :: _ =>
    if j.isStream then (landWrite s).setInFlight (some (.engine (.writeDestination a) false)) else s
  | _, _ => s

/-! ### Burst completion (R36, R146) -/

/-- The address of a Pixel Engine burst. -/
def EngineBurst.addr : EngineBurst → Nat
  | .readSource a | .readDestination a | .writeDestination a => a

/-- R36: a burst of the active job completes. -/
def finishEngineBurst (b : EngineBurst) (s : State) : State :=
  match b with
  | .readSource a => s.setPe { s.pe with source := some a }
  | .readDestination a => s.setPe { s.pe with heldBurst := some ⟨a, [], 0⟩ }
  | .writeDestination _ => landWrite s

/-- PE_BURST_COMPLETE (R36, R45, R146): the granted burst completes and the port is free; the engine goes on and the
next request is granted. Nothing happens while no Pixel Engine burst is in progress (log 2). -/
def execPeBurstComplete (s : State) : Result :=
  match s.port.inFlight with
  | some (.engine b live) =>
    if Config.memoryBytes ≤ b.addr then .fault (.noSuchAddress b.addr)
    else
      let s := s.setInFlight none
      .next (settle (if live then finishEngineBurst b s else s))
  | some (.fetch _ _ _) | none => .next s

end Sys2Proof.Machine
end

