-- ==== Sys2Proof/Machine/Fetch.lean ====
section
/-! DEFINITION. Frame geometry (R117, R118) and the line fetch (R136 to R139, R142 to R144). -/

namespace Sys2Proof.Machine

/-! ### Frame geometry (R117, R118) -/

/-- What a line of the frame is. -/
inductive LineKind where
  | blank
  | active (y : Nat)
  deriving DecidableEq, Repr

/-- R118: the first line of the top field's blank group. -/
def Timing.topBlankStart (t : Timing) : Nat := t.vblank + 1 + t.vactive / 2

/-- R117, R118: the lines of a frame. -/
def Timing.frameLines (t : Timing) : Nat :=
  if t.interlace then t.vactive + 2 * t.vblank + 1 else t.vactive + t.vblank

/-- R117, R118: line `p` of the frame, counting the frame start's line as 0. -/
def Timing.lineKind (t : Timing) (p : Nat) : LineKind :=
  if t.interlace then
    if p < t.vblank + 1 then .blank
    else if p < t.topBlankStart then .active (2 * (p - (t.vblank + 1)))
    else if p < t.topBlankStart + t.vblank then .blank
    else .active (2 * (p - (t.topBlankStart + t.vblank)) + 1)
  else if p < t.vblank then .blank
  else .active (p - t.vblank)

/-- R138, R142: the first active line after the blank group that begins at line `p`, if one begins there. -/
def Timing.afterBlankGroup (t : Timing) (p : Nat) : Option Nat :=
  if p = 0 then some 0
  else if t.interlace ∧ p = t.topBlankStart then some 1
  else none

/-- R138: the frame line whose fetch begins at the line start of line `p`. -/
def Timing.fetchAt (t : Timing) (p : Nat) : Option Nat :=
  match t.lineKind p with
  | .blank => t.afterBlankGroup p
  | .active _ =>
    if p + 1 < t.frameLines then
      match t.lineKind (p + 1) with
      | .active y => some y
      | .blank => none
    else none

/-- R119, R135: the field start of the line in progress is still to come (log 7). -/
def OutputUnit.fieldDue (u : OutputUnit) : Bool :=
  u.timing.interlace && decide (u.scanLine = u.timing.topBlankStart) && decide (u.field = .top)

/-- R143: the frame lines a fetch for output line `y` reads. -/
def Timing.sourceLines (t : Timing) (y : Nat) : List Nat :=
  if t.flicker ∧ y + 1 < t.vactive then [y, y + 1] else [y]

/-! ### What a line needs (R137) -/

/-- R83: the clipped width of a layer. -/
def clippedWidth (dx : Int) (w hactive : Nat) : Nat := (min (dx + w) (hactive : Int) - max dx 0).toNat

/-- R137: the area of the cursor row for frame line `y`, when one is needed. -/
def cursorArea (p : Presentation) (t : Timing) (y : Nat) : Option Area :=
  match p.binding with
  | none => none
  | some b =>
    if p.position.visible ∧ p.position.y ≤ (y : Int) ∧ (y : Int) < p.position.y + 64 ∧
        p.position.x < (t.hactive : Int) ∧ 0 < p.position.x + 64 then
      some { owner := .cursor, line := y, surface := b.surface, row := ((y : Int) - p.position.y).toNat, first := 0,
             count := 64, pixels := [], complete := false }
    else none

/-- R137: the area of a layer's span for frame line `y`, when one is needed. -/
def layerArea (index : Nat) (l : Layer) (t : Timing) (y : Nat) : Option Area :=
  let c := clippedWidth l.dx l.source.w t.hactive
  if l.dy ≤ (y : Int) ∧ (y : Int) < l.dy + l.source.h ∧ 0 < c then
    some { owner := .layer index, line := y, surface := l.surface, row := l.source.y + ((y : Int) - l.dy).toNat,
           first := l.source.x + (-l.dx).toNat, count := c, pixels := [], complete := false }
  else none

/-- R139: the areas of one frame line in fetch order: the cursor row, then the layers bottom first. -/
def lineAreas (p : Presentation) (t : Timing) (y : Nat) : List Area :=
  (cursorArea p t y).toList ++
    ((p.current.elim [] FrameRecord.layers).mapIdx fun i l => layerArea i l t y).filterMap id

/-- R137: the blocks a span needs, in ascending address. -/
def areaBlocks (r : Surface) (a : Area) : List Nat :=
  let row := r.rowAddress a.row
  let low := (row + a.first * r.format.bpp / 8) / Config.burstBytes
  let high := (row + ((a.first + a.count) * r.format.bpp - 1) / 8) / Config.burstBytes
  (List.range (high - low + 1)).map fun i => (low + i) * Config.burstBytes

/-- R137: the bytes of a span's area in the half. -/
def areaBytes (r : Surface) (a : Area) : Nat := ceilDiv (a.count * r.format.bpp) 64 * 8

/-- R139: the bursts of a fetch, area by area. -/
def fetchBursts (s : State) (areas : List Area) : List FetchBurst :=
  (areas.mapIdx fun i a => (areaBlocks (s.surface a.surface) a).map fun b => (⟨i, b⟩ : FetchBurst)).flatten

/-! ### Beginning and abandoning a fetch -/

/-- R136: half B is the SHOWN half. -/
def OutputUnit.showsB (u : OutputUnit) : Bool := decide (u.halfB.condition = .shown)

/-- R136, R138: the half a fetch begins into: the one that was SHOWN until this line start, half B when `wasB`; half A
when neither was (log 14). A half that is not FREE is passed over. -/
def OutputUnit.fillFree (u : OutputUnit) (wasB : Bool) (h : LineHalf) : OutputUnit :=
  if u.halfB.condition = .free ∧ (wasB ∨ u.halfA.condition ≠ .free) then { u with halfB := h }
  else if u.halfA.condition = .free then { u with halfA := h }
  else u

/-- R136, R138, R143: the fetch for output line `y` begins, with the presentation state as it stands, into the half that
was SHOWN until this line start; then the port is weighed (R145). -/
def beginFetch (o : OutputId) (y : Nat) (wasB : Bool) (s : State) : State :=
  let u := s.ou o
  let lines := u.timing.sourceLines y
  let areas := (lines.map fun line => lineAreas (s.pres o) u.timing line).flatten
  arbitrate (s.setOu o (u.fillFree wasB { condition := .fetching, lines := lines, areas := areas, todo := fetchBursts s areas }))

/-- R140, R144, R146: the data of a granted burst of this output's fetch is no longer wanted. -/
def killFetchBurst (o : OutputId) (s : State) : State :=
  match s.port.inFlight with
  | some (.fetch o' b _) => if o' = o then s.setInFlight (some (.fetch o b false)) else s
  | some (.engine _ _) | none => s

/-- R136, R144: both halves become FREE and any fetch in progress ends. -/
def freeHalves (o : OutputId) (s : State) : State :=
  let u := s.ou o
  killFetchBurst o (s.setOu o { u with halfA := .free, halfB := .free })

/-! ### Burst completion (R139) -/

/-- R137, R139: the raw values of the span's pixels that lie in one block, in ascending stored column. -/
def blockPixels (m : List Host.Cell) (r : Surface) (a : Area) (block : Nat) : List Nat :=
  ((List.range a.count).filter fun i => decide (blockOf (r.pixelAddress (a.first + i) a.row) = block)).map
    fun i => rawPixel m r (a.first + i) a.row

/-- R139: the area takes the bytes of a completed burst, and is complete when no burst of it is still to come. -/
def Area.take (a : Area) (m : List Host.Cell) (r : Surface) (block : Nat) (last : Bool) : Area :=
  { a with pixels := a.pixels ++ blockPixels m r a block, complete := last }

/-- R139: the fetching half takes a completed burst. -/
def LineHalf.take (h : LineHalf) (s : State) (b : FetchBurst) : LineHalf :=
  match h.condition with
  | .free | .shown => h
  | .fetching =>
    let last := !h.todo.any fun t => decide (t.area = b.area)
    { h with areas := h.areas.mapIdx fun i a => if i = b.area then a.take s.mem (s.surface a.surface) b.addr last else a }

/-- R139: a burst of an output's fetch completes. -/
def finishFetchBurst (o : OutputId) (b : FetchBurst) (s : State) : State :=
  let u := s.ou o
  s.setOu o { u with halfA := u.halfA.take s b, halfB := u.halfB.take s b }

/-- FETCH_BURST_COMPLETE (R139, R146): the granted burst completes, the port is free and the next request is granted.
Nothing happens while no fetch burst is in progress (log 2). -/
def execFetchBurstComplete (s : State) : Result :=
  match s.port.inFlight with
  | some (.fetch o b live) =>
    if Config.memoryBytes ≤ b.addr then .fault (.noSuchAddress b.addr)
    else
      let s := s.setInFlight none
      .next (arbitrate (if live then finishFetchBurst o b s else s))
  | some (.engine _ _) | none => .next s

end Sys2Proof.Machine
end

