-- ==== Sys2Proof/Machine/Composition.lean ====
section
/-! DEFINITION. Composition of a line from background, layers and cursor, the flicker filter, and LINE_START (R32 to
R34, R96 to R105, R132, R140, R141, R143). -/

namespace Sys2Proof.Machine

/-! ### Colours (R32 to R34) -/

/-- R32: the widening of an RGB16 pixel. -/
def rgb16Colour (raw : Nat) : Colour :=
  let r5 := raw / 2048 % 32
  let g6 := raw / 32 % 64
  let b5 := raw % 32
  ⟨byteOf (r5 * 8 + r5 / 4), byteOf (g6 * 4 + g6 / 16), byteOf (b5 * 8 + b5 / 4)⟩

/-- R34, R102: each channel v becomes 255 − v. -/
def Colour.invert (c : Colour) : Colour := ⟨~~~c.r, ~~~c.g, ~~~c.b⟩

/-- R34, R102: what an OV2 code does to the colour below. -/
def ov2Effect (colour0 colour1 : Colour) (code : Nat) (below : Colour) : Colour :=
  match code with
  | 0 => colour0
  | 1 => colour1
  | 2 => below
  | _ => below.invert

/-- R101: one channel of a blend. -/
def blendChannel (alpha : Nat) (layer below : Byte) : Byte :=
  byteOf ((alpha * layer.toNat + (16 - alpha) * below.toNat) / 16)

/-- R99, R100, R101: what a layer's mode does with its layer colour. -/
def modeEffect (mode : LayerMode) (layer below : Colour) : Colour :=
  match mode with
  | .opaqueMode => layer
  | .keyed key => if layer = key then below else layer
  | .alphaMode alpha =>
    ⟨blendChannel alpha layer.r below.r, blendChannel alpha layer.g below.g, blendChannel alpha layer.b below.b⟩

/-- R33: an entry of a palette. -/
def paletteEntry (palette : List Colour) (i : Nat) : Colour := palette.getD i .black

/-- R98 to R102: what a covering layer does with the raw value it samples. -/
def layerEffect (l : Layer) (f : Format) (palette : List Colour) (raw : Nat) (below : Colour) : Colour :=
  match f with
  | .ov2 => ov2Effect (l.pair.getD (.black, .black)).1 (l.pair.getD (.black, .black)).2 raw below
  | .ix4 => modeEffect l.mode (paletteEntry palette (l.bank.getD 0 * 16 + raw)) below
  | .ix8 => modeEffect l.mode (paletteEntry palette raw) below
  | .rgb16 => modeEffect l.mode (rgb16Colour raw) below

/-! ### Forming a pixel (R96, R97, R103, R140) -/

/-- R140: the complete area of an owner for a frame line. -/
def areaOf (areas : List Area) (owner : AreaOwner) (y : Nat) : Option Area :=
  areas.find? fun a => decide (a.owner = owner ∧ a.line = y) && a.complete

/-- R96 step 2, R97: one layer at output column `x` of frame line `y`. A layer that does not cover the pixel, or whose
area is not complete, is skipped. -/
def applyLayer (s : State) (o : OutputId) (areas : List Area) (x y : Nat) (below : Colour) (i : Nat) (l : Layer) : Colour :=
  match areaOf areas (.layer i) y with
  | none => below
  | some a =>
    if l.dx ≤ (x : Int) ∧ (x : Int) < l.dx + l.source.w then
      layerEffect l (s.surface l.surface).format (s.ou o).active (a.pixels.getD (x - l.dx.toNat) 0) below
    else below

/-- R103: the cursor at output column `x` of frame line `y`. -/
def applyCursor (p : Presentation) (areas : List Area) (x y : Nat) (below : Colour) : Colour :=
  match p.binding, areaOf areas .cursor y with
  | some b, some a =>
    if p.position.x ≤ (x : Int) ∧ (x : Int) < p.position.x + 64 then
      ov2Effect b.colour0 b.colour1 (a.pixels.getD ((x : Int) - p.position.x).toNat 0) below
    else below
  | _, _ => below

/-- R96: the composed colour of (x, y). -/
def composePixel (s : State) (o : OutputId) (areas : List Area) (x y : Nat) : Colour :=
  let p := s.pres o
  let background := p.current.elim Colour.black FrameRecord.background
  let layers := (p.current.elim [] FrameRecord.layers).zipIdx
  applyCursor p areas x y (layers.foldl (fun below li => applyLayer s o areas x y below li.2 li.1) background)

/-- R105: a composed line. -/
def composeLine (s : State) (o : OutputId) (areas : List Area) (y : Nat) : List Colour :=
  (List.range (s.ou o).timing.hactive).map fun x => composePixel s o areas x y

/-! ### The flicker filter (R132, R143) -/

/-- R132: one channel of the filter. -/
def filterChannel (above here below : Byte) : Byte := byteOf ((above.toNat + 2 * here.toNat + below.toNat) / 4)

/-- R132: one colour of the filter. -/
def filterColour (above here below : Colour) : Colour :=
  ⟨filterChannel above.r here.r below.r, filterChannel above.g here.g below.g, filterChannel above.b here.b below.b⟩

/-- R132: the filtered line. -/
def filterLine (above here below : List Colour) : List Colour :=
  here.mapIdx fun x c => filterColour (above.getD x .black) c (below.getD x .black)

/-- R143: line Y − 1 for output line `y`. A buffer that holds no line stands for the line itself (log 18). -/
def lineAbove (u : OutputUnit) (y : Nat) (here : List Colour) : List Colour :=
  if y = 0 then here else if y = 1 then u.head.getD here else u.carry.getD here

/-- R105, R132, R143: compose and drive output line `y` from the areas of its half. An area missing for one source line
is left out of that composition only (R143; log 24). After the frame's last line, which composes no second line, the
carry line stays as it was (log 25). -/
def driveLine (o : OutputId) (y : Nat) (areas : List Area) (s : State) : State :=
  let u := s.ou o
  let here := composeLine s o areas y
  if u.timing.flicker then
    let next := composeLine s o areas (y + 1)
    let below := if y + 1 < u.timing.vactive then next else here
    s.setOu o { u with driven := some (filterLine (lineAbove u y here) here below)
                       carry := if y + 1 < u.timing.vactive then some next else u.carry
                       head := if y = 0 then some here else u.head }
  else s.setOu o { u with driven := some here }

/-! ### Line start (R136, R138, R140, R141) -/

/-- R136: a SHOWN half becomes FREE at the next line start. -/
def LineHalf.release (h : LineHalf) : LineHalf :=
  match h.condition with
  | .shown => .free
  | .free | .fetching => h

/-- R140: a half FETCHING for a line becomes SHOWN, and its fetch ends. -/
def LineHalf.show (h : LineHalf) : LineHalf :=
  match h.condition with
  | .fetching => { h with condition := .shown, todo := [] }
  | .free | .shown => h

/-- The areas of the SHOWN half. -/
def OutputUnit.shownAreas (u : OutputUnit) : List Area :=
  if u.halfA.condition = .shown then u.halfA.areas
  else if u.halfB.condition = .shown then u.halfB.areas
  else []

/-- R134, R140, R141: count a line on which something was left out, and raise LINE_MISS. -/
def countMiss (o : OutputId) (y : Nat) (s : State) : State :=
  let u := s.ou o
  raise (.lineMiss o 1 y y) (s.setOu o { u with lineMiss := hold 4294967295 (u.lineMiss + 1) })

/-- R140: the line start of active line `y`: the fetching half is shown, the line is composed without the areas that
are not complete, and a miss is counted. -/
def showLine (o : OutputId) (y : Nat) (s : State) : State :=
  let u := s.ou o
  let s := killFetchBurst o (s.setOu o { u with halfA := u.halfA.show, halfB := u.halfB.show })
  let areas := (s.ou o).shownAreas
  let s := driveLine o y areas s
  if areas.any fun a => !a.complete then countMiss o y s else s

/-- The line start of line `p` of the frame, which is not the frame's first. -/
def enterLine (o : OutputId) (p : Nat) (s : State) : State :=
  let u := s.ou o
  let s := s.setOu o { u with scanLine := p, halfA := u.halfA.release, halfB := u.halfB.release, driven := none }
  let s := match u.timing.lineKind p with
    | .active y => showLine o y s
    | .blank => s
  match u.timing.fetchAt p with
  | some y => beginFetch o y u.showsB s
  | none => s

/-- LINE_START (R119, R136, R138, R140): the next line of the frame begins. The line start of a frame's first line is
its FRAME_START (log 7), so after the last line, before a field start that is due (log 7), and while timing is stopped
(R120), nothing happens (log 2). -/
def execLineStart (o : OutputId) (s : State) : Result :=
  let u := s.ou o
  if u.timingRuns ∧ u.scanLine + 1 < u.timing.frameLines ∧ ¬ u.fieldDue then .next (enterLine o (u.scanLine + 1) s) else .next s

end Sys2Proof.Machine
end

