-- ==== Sys2Proof/Machine/Admission.lean ====
section
/-! DEFINITION. Load, reserved load and the admission checks (R83 to R95), and the Presentation Controller's take and
release (R70, R71, R77, R79). -/

namespace Sys2Proof.Machine

/-! ### Load (R83 to R85) -/

/-- R83: the line bytes of a layer entry on an output. -/
def layerLineBytes (s : State) (t : Timing) (l : Layer) : Nat :=
  let c := clippedWidth l.dx l.source.w t.hactive
  if 0 < c ∧ l.dy < (t.vactive : Int) ∧ 0 < l.dy + l.source.h then
    ceilDiv (c * (s.surface l.surface).format.bpp) 64 * 8
  else 0

/-- R84: the layer line bytes of a frame record. -/
def frameLineBytes (s : State) (t : Timing) (layers : List Layer) : Nat :=
  (layers.map fun l => layerLineBytes s t l).sum

/-- R84: the fetch factor f. -/
def Timing.fetchFactor (t : Timing) : Nat := if t.flicker then 2 else 1

/-- R84: a binding that names a surface. -/
def PendingBinding.names : PendingBinding → Bool
  | .bind _ => true
  | .noChange | .unbind => false

/-- R84: the cursor term. -/
def Presentation.cursorTerm (p : Presentation) : Nat := if p.binding.isSome || p.pendingBinding.names then 16 else 0

/-- R85: the layer line bytes of the records an output holds. -/
def Presentation.loads (p : Presentation) : List Nat := (p.current.toList ++ p.queue).map (·.load)

/-- R85: N over a list of records' layer line bytes: with no record it is f × the cursor term. -/
def reservedN (factor : Nat) (loads : List Nat) (cursorTerm : Nat) : Nat := factor * (loads.foldl max 0 + cursorTerm)

/-- R85: D. -/
def OutputUnit.loadD (u : OutputUnit) : Nat := if u.valid then u.timing.divider * u.timing.htotal else 1

/-- R91: recompute the reserved load of an output from what it holds. -/
def recomputeLoad (o : OutputId) (s : State) : State :=
  let p := s.pres o
  s.setPres o { p with loadN := reservedN (s.ou o).timing.fetchFactor p.loads p.cursorTerm }

/-! ### The checks (R87, R88) -/

/-- R87: the line-store limit. -/
def lineStoreFits (factor loads cursorTerm : Nat) : Bool := decide (factor * (loads + cursorTerm) ≤ Config.lineStoreBytes)

/-- R88: the budget check for a share, in integers. -/
def budgetHolds (share n0 d0 n1 d1 : Nat) : Bool := decide (12 * (n0 * d1 + n1 * d0) ≤ share * d0 * d1)

/-- R88: the budget check with output `o` holding `n`, the other output as it stands. -/
def State.admits (s : State) (o : OutputId) (n : Nat) : Bool :=
  let other := otherOutput o
  budgetHolds s.share n (s.ou o).loadD (s.pres other).loadN (s.ou other).loadD

/-- R94: the least share 4..9 the reserved loads allow. -/
def State.leastShare (s : State) : Nat :=
  let d0 := s.ou0.loadD
  let d1 := s.ou1.loadD
  max 4 (ceilDiv (12 * (s.pres0.loadN * d1 + s.pres1.loadN * d0)) (d0 * d1))

/-! ### Take and release -/

/-- The surfaces a frame record holds a scan reference on, entry by entry (R8, R59). -/
def FrameRecord.surfaces (r : FrameRecord) : List Nat := r.layers.map (·.surface)

/-- The surface a current binding names. -/
def bindingSurfaces (b : Option Binding) : List Nat := b.elim [] fun b => [b.surface]

/-- The surface a pending binding names. -/
def PendingBinding.surfaces : PendingBinding → List Nat
  | .bind b => [b.surface]
  | .noChange | .unbind => []

/-- R70 step 1: the oldest queued record becomes current and the old one is retired. -/
def takeFrame (o : OutputId) (s : State) : State :=
  let p := s.pres o
  match p.queue with
  | [] => s
  | r :: rest =>
    let retired := p.current.elim [] FrameRecord.surfaces
    let s := releaseScans retired (s.setPres o { p with queue := rest, current := some r })
    let u := s.ou o
    raise (.frameShown o r.token 1) (s.setOu o { u with framesShown := (u.framesShown + 1) % 4294967296 })

/-- R77: latch the cursor. -/
def latchCursor (o : OutputId) (s : State) : State :=
  let p := s.pres o
  let moved := { p with position := p.pendingPosition }
  match p.pendingBinding with
  | .noChange => s.setPres o moved
  | .unbind =>
    releaseScans (bindingSurfaces p.binding) (s.setPres o { moved with binding := none, pendingBinding := .noChange })
  | .bind b =>
    releaseScans (bindingSurfaces p.binding) (s.setPres o { moved with binding := some b, pendingBinding := .noChange })

/-- R70: a take. -/
def take (o : OutputId) (s : State) : State := recomputeLoad o (latchCursor o (takeFrame o s))

/-- R79 step 1: the count of the records an output holds. -/
def Presentation.heldRecords (p : Presentation) : Nat := p.queue.length + p.current.toList.length

/-- R79 step 2: every scan reference an output holds. -/
def Presentation.scanUses (p : Presentation) : List Nat :=
  ((p.queue ++ p.current.toList).map FrameRecord.surfaces).flatten ++ bindingSurfaces p.binding ++
    p.pendingBinding.surfaces

/-- R79: release the presentation state of an output. Positions and the token counter are kept. -/
def releaseOutput (o : OutputId) (s : State) : State :=
  let p := s.pres o
  releaseScans p.scanUses
    (s.setPres o { p with queue := [], current := none, binding := none, pendingBinding := .noChange, loadN := 0 })

end Sys2Proof.Machine
end

