-- ==== Sys2Proof/Machine/Sequence.lean ====
section
/-! DEFINITION. The output state machine and the panel power sequence (R119 to R131), the palette copies (R110, R111),
and the steps FRAME_START, FIELD_START and the four wait expiries. -/

namespace Sys2Proof.Machine

/-- R110, R111: copy a pending staging palette to the active one. -/
def OutputUnit.copyPalette (u : OutputUnit) : OutputUnit :=
  if u.palettePending then { u with active := u.staging, palettePending := false } else u

/-- R110, R111 on one output of the part. -/
def copyPalette (o : OutputId) (s : State) : State := s.setOu o (s.ou o).copyPalette

/-- R121: enter a step of a state, with its timer. -/
def enterStep (o : OutputId) (st : OutputState) (step : SequenceStep) (timer : Option Nat) (s : State) : State :=
  s.setOu o { s.ou o with state := st, step := step, timer := timer }

/-- R130: raise OUTPUT_STATE for a change to a state. -/
def raiseState (o : OutputId) (st : OutputState) (released : Nat) (s : State) : State :=
  raise (.outputState o st 1 released) s

/-- R120, R143, R144: the timing stops: halves FREE, no composed line held, field TOP. -/
def stopTiming (o : OutputId) (s : State) : State :=
  let s := freeHalves o s
  s.setOu o { s.ou o with carry := none, head := none, driven := none, field := .top, scanLine := 0 }

/-- R111, R124, R125, R126: the output enters OFF by its own sequence: the palette copy, the STOP replies, and
OUTPUT_STATE. -/
def enterOff (o : OutputId) (released : Nat) (s : State) : State :=
  raiseState o .off released (completeRef (.stop o) .ok (copyPalette o (enterStep o .off .off none s)))

/-- R125, R126: the output enters SUPPLY WAIT, its timing stopped; with t_pwr 0 the expiry follows at once (R121). -/
def enterSupplyWait (o : OutputId) (s : State) : State :=
  let tPwr := (s.ou o).timing.tPwr
  let s := stopTiming o (enterStep o .powerDown .supplyWait (some tPwr) s)
  if tPwr = 0 then enterOff o 0 s else s

/-- R123: the output enters RUNNING: the START replies, and OUTPUT_STATE. -/
def enterRunning (o : OutputId) (s : State) : State :=
  raiseState o .running 0 (completeRef (.start o) .ok (enterStep o .running .showing none s))

/-- R116, R136, R119, R135: the first line of a frame begins: the line before it is over and the field is TOP. -/
def openFrame (o : OutputId) (s : State) : State :=
  let s := freeHalves o s
  s.setOu o { s.ou o with scanLine := 0, field := .top, driven := none }

/-- R123, R120, R128: the output enters CLOCK WAIT. The start of timing brings a frame start, which is no take; with
t_clk 0 the expiry follows at once. -/
def enterClockWait (o : OutputId) (s : State) : State :=
  let tClk := (s.ou o).timing.tClk
  let s := beginFetch o 0 false (copyPalette o (openFrame o (enterStep o .powerUp .clockWait (some tClk) s)))
  if tClk = 0 then enterRunning o s else s

/-- R122: START_OUTPUT in OFF: counters to 0, POWER WAIT, OUTPUT_STATE; with t_pwr 0 the timing starts at once. -/
def startSequence (o : OutputId) (s : State) : State :=
  let u := s.ou o
  let s := enterStep o .powerUp .powerWait (some u.timing.tPwr) (s.setOu o { u with framesShown := 0, lineMiss := 0 })
  let s := raiseState o .powerUp 0 s
  if u.timing.tPwr = 0 then enterClockWait o s else s

/-- R128, SHOWING in ENDING: the release, then BACKLIGHT WAIT and OUTPUT_STATE with the count released. -/
def endShowing (o : OutputId) (s : State) : State :=
  let u := s.ou o
  let released := (s.pres o).heldRecords
  raiseState o .powerDown released
    (enterStep o .powerDown .backlightWait (some u.timing.tClk) (releaseOutput o s))

/-- R128: a frame start, by the step in which it occurs: take, release or no take; the palette copy; the fetch of line
0, into the half SHOWN until then (R136). In ENDING a t_clk of 0 stops the timing within the frame start (R125). -/
def startFrame (o : OutputId) (s : State) : State :=
  let wasB := (s.ou o).showsB
  let s := openFrame o s
  match (s.ou o).step, (s.ou o).state with
  | .showing, .running => beginFetch o 0 wasB (copyPalette o (take o s))
  | .showing, .ending =>
    let s := beginFetch o 0 wasB (copyPalette o (endShowing o s))
    if (s.ou o).timer = some 0 then enterSupplyWait o s else s
  | _, _ => beginFetch o 0 wasB (copyPalette o s)

/-- FRAME_START (R117, R119, R128): the line after the last line of a frame is the first line of the next one, and this
is its line start (log 7). Before the last line no frame start comes, and none while timing is stopped (R120; log 2). -/
def execFrameStart (o : OutputId) (s : State) : Result :=
  let u := s.ou o
  if u.timingRuns ∧ u.timing.frameLines ≤ u.scanLine + 1 then .next (startFrame o s) else .next s

/-- FIELD_START (R118, R119, R135): at the first line of the top field's blank the reported field changes from TOP to
BOTTOM; nothing else. On no other line, with interlace 0, and while timing is stopped, none occurs (log 2). -/
def execFieldStart (o : OutputId) (s : State) : Result :=
  let u := s.ou o
  if u.timingRuns ∧ u.fieldDue then .next (s.setOu o { u with field := .bottom }) else .next s

/-- POWER_WAIT_EXPIRY (R123): in POWER WAIT the timing starts and the output enters CLOCK WAIT. -/
def execPowerWaitExpiry (o : OutputId) (s : State) : Result :=
  if (s.ou o).step = .powerWait then .next (enterClockWait o s) else .next s

/-- CLOCK_WAIT_EXPIRY (R123): in CLOCK WAIT the output enters RUNNING. -/
def execClockWaitExpiry (o : OutputId) (s : State) : Result :=
  if (s.ou o).step = .clockWait then .next (enterRunning o s) else .next s

/-- BACKLIGHT_WAIT_EXPIRY (R125): in BACKLIGHT WAIT the timing stops and the output enters SUPPLY WAIT. -/
def execBacklightWaitExpiry (o : OutputId) (s : State) : Result :=
  if (s.ou o).step = .backlightWait then .next (enterSupplyWait o s) else .next s

/-- SUPPLY_WAIT_EXPIRY (R125): in SUPPLY WAIT the output enters OFF. -/
def execSupplyWaitExpiry (o : OutputId) (s : State) : Result :=
  if (s.ou o).step = .supplyWait then .next (enterOff o 0 s) else .next s

end Sys2Proof.Machine
end

