-- ==== Sys2Proof/Machine/Handler.lean ====
section
/-! DEFINITION. Taking a request frame (R168 to R174), and the Request Handler's own requests: PING, GET_INFO,
DEVICE_RESET and UNKNOWN_REQUEST (R177, R178). -/

namespace Sys2Proof.Machine

/-- How an owning block deals with a request (R168, R173). -/
inductive Answer where
  /-- answered at once -/
  | reply (st : Status) (fields : List Byte)
  /-- bound to a pending-reply entry -/
  | deferred
  /-- an UPLOAD_DATA that stays in its slot (R51) -/
  | heldInSlot
  deriving DecidableEq, Repr

/-- The checks and the effect of one request: the seq, the request code and the arguments of the frame taken. -/
abbrev RequestBody := Byte → Byte → List Byte → State → State × Answer

/-- R168: a frame can be taken: READY, a frame waiting, and a free reply entry (which READY includes, R169). -/
def State.canTake (s : State) : Bool := !s.inReset && s.handlerReady && s.headFrame.isSome

/-- R168, R193: the request code of a frame; an empty payload has none. -/
def RequestFrame.code (f : RequestFrame) : Option Byte := f.payload.head?

/-- R171: the code an IN_PROGRESS carries: 0x00 for an empty payload. -/
def RequestFrame.codeOrZero (f : RequestFrame) : Byte := f.payload.headD 0

/-- R170: the cached reply for a seq. -/
def State.cached (s : State) (seq : Byte) : Option Reply := s.cache.find? fun r => decide (r.seq = seq)

/-- R171: a pending-reply entry has a seq. -/
def State.isPending (s : State) (seq : Byte) : Bool := s.pendingReplies.any fun p => decide (p.seq = seq)

/-- R168: the reply of an executed request is queued and cached, and its slot released. -/
def finishRequest (seq : Byte) (payload : List Byte) (s : State) : State := releaseHead (pushReply seq payload s)

/-- R168 step 4: hand the request to its owner. -/
def executeRequest (body : RequestBody) (seq code : Byte) (args : List Byte) (s : State) : State :=
  match body seq code args s with
  | (s', .reply st fields) => finishRequest seq (replyPayload code st fields) s'
  | (s', .deferred) => releaseHead s'
  | (s', .heldInSlot) => s'

/-- R168: handle the frame taken: the duplicate check (R170, R171), the empty payload, then execution; `after` is what
the owning blocks go on to do once the request has been dealt with. -/
def handleFrame (body : RequestBody) (after : State → State) (f : RequestFrame) (s : State) : State :=
  match s.cached f.seq with
  | some r => releaseHead (queueReply f.seq r.payload s)
  | none =>
    if s.isPending f.seq then releaseHead (queueReply f.seq (replyPayload f.codeOrZero .inProgress []) s)
    else match f.payload with
      | [] => finishRequest f.seq (replyPayload 0 .badLength []) s
      | code :: args => after (executeRequest body f.seq code args s)

/-- R168: the step in which the Request Handler takes the frame at the head of the arrival list. `names` says which
request codes are this row's; a frame with an empty payload names no request and is handled by whichever row takes it
(95, EMPTY_PAYLOAD). While no frame can be taken, or the head frame is another row's, nothing happens (log 1, log 2). -/
def takeRequest (names : Byte → Bool) (body : RequestBody) (after : State → State) (s : State) : State :=
  if s.canTake then
    match s.headFrame with
    | none => s
    | some f => if f.code.elim true names then handleFrame body after f s else s
  else s

/-- The codes of a row with one request code. -/
def onlyCode (code : Byte) (c : Byte) : Bool := decide (c = code)

/-- A request that is refused with a status, without fields, and changes no state (R176). -/
def refuse (st : Status) (s : State) : State × Answer := (s, .reply st [])

/-! ### PING and GET_INFO (R177) -/

/-- R177. -/
def pingBody : RequestBody := fun _ _ args s =>
  if args.length ≠ 0 then refuse .badLength s else (s, .reply .ok [])

/-- PING (R177). -/
def execPing (s : State) : Result := .next (takeRequest (onlyCode 0x01) pingBody id s)

/-- R177: link mode and baud code. -/
def linkCodes : Option LinkMode → List Byte
  | some (.uart baud) => [1, byteOf baud]
  | some .spi | none => [0, 0xFF]

/-- R177: the fields of GET_INFO. -/
def infoFields (s : State) : List Byte :=
  le16 Config.partCode ++ [byteOf Config.revision] ++ le16 Config.granuleCount ++ le16 Config.granuleBytes ++
    [byteOf Config.surfaceCount, byteOf Config.slotCount] ++ linkCodes s.linkMode

/-- R177. -/
def infoBody : RequestBody := fun _ _ args s =>
  if args.length ≠ 0 then refuse .badLength s else (s, .reply .ok (infoFields s))

/-- GET_INFO (R177). -/
def execGetInfo (s : State) : Result := .next (takeRequest (onlyCode 0x02) infoBody id s)

/-! ### DEVICE_RESET (R178) -/

/-- R178 step 1: every pending request is answered CANCELLED, in the order the entries were taken. -/
def cancelPending (s : State) : State :=
  s.pendingReplies.foldl (fun acc p => completeSeq p.seq .cancelled [] acc) s

/-- R178: pending requests CANCELLED; the Pixel Engine stopped, its request withdrawn (R57); HELD for the drain. -/
def deviceResetBody : RequestBody := fun seq _ args s =>
  if args.length ≠ 0 then refuse .badLength s
  else
    let s := cancelPending s
    ({ s with pe := { s.pe with stopped := true, request := none }, held := some (.reset seq) }, .reply .ok [])

/-- DEVICE_RESET (R178). -/
def execDeviceReset (s : State) : Result := .next (takeRequest (onlyCode 0x03) deviceResetBody id s)

/-! ### UNKNOWN_REQUEST (R168) -/

/-- R168 step 3. -/
def unknownBody : RequestBody := fun _ _ _ s => refuse .unknownRequest s

/-- UNKNOWN_REQUEST (R168): a frame whose code is not in the catalogue. -/
def execUnknownRequest (s : State) : Result := .next (takeRequest (fun c => !catalogue.contains c) unknownBody id s)

end Sys2Proof.Machine
end

