-- ==== Sys2Proof/Machine/SurfaceRequests.lean ====
section
/-! DEFINITION. The six surface requests (R11 to R21). -/

namespace Sys2Proof.Machine

/-- R11: the checks that begin DISCARD_SURFACE, SEAL_SURFACE, REOPEN_SURFACE and GET_SURFACE; then the request's own
part, given the id and its record. -/
def withSurface (args : List Byte) (s : State) (rest : Nat → Surface → State × Answer) : State × Answer :=
  if args.length ≠ 1 then refuse .badLength s
  else
    let id := arg8 args 0
    if Config.surfaceCount ≤ id then refuse .badArgument s
    else if (s.surface id).state = .empty then refuse .noSuchSurface s
    else rest id (s.surface id)

/-! ### CREATE_SURFACE (R12, R13) -/

/-- R13: the lowest id whose record is EMPTY. -/
def State.lowestEmpty (s : State) : Option Nat :=
  (List.range Config.surfaceCount).find? fun id => decide ((s.surface id).state = .empty)

/-- R3, R13: a new record. -/
def newSurface (f : Format) (t : Transform) (w h base : Nat) (hint : Hint) (era : Nat) : Surface :=
  let size := storedSize t w h
  let stride := strideOf f size.1
  { state := .filling, format := f, transform := t, width := w, height := h, storedWidth := size.1,
    storedHeight := size.2, stride := stride, base := base, granules := granulesOf stride size.2, hint := hint,
    scanRefs := 0, jobRefs := 0, writers := 0, sealPending := false, era := era }

/-- R13, R1: fill in the record, hold its granules, and make their content undefined. -/
def createAt (id : Nat) (r : Surface) (s : State) : State :=
  { s with
    surfaces := s.surfaces.set id r
    granules := holdGranules s.granules r.base r.granules id
    mem := Memory.forget s.mem (r.base * Config.granuleBytes) ((r.base + r.granules) * Config.granuleBytes)
    era := s.era + 1 }

/-- R12: a dimension is in 1..2048. -/
def dimensionOk (n : Nat) : Bool := decide (1 ≤ n) && decide (n ≤ 2048)

/-- R12 from the space checks on: a record, then a place. -/
def createPlaced (f : Format) (t : Transform) (w h : Nat) (hint : Hint) (s : State) : State × Answer :=
  match s.lowestEmpty with
  | none => refuse .tableFull s
  | some id =>
    let size := storedSize t w h
    let stride := strideOf f size.1
    let n := granulesOf stride size.2
    match s.place n hint with
    | none => (s, .reply .noSpace (le16 s.longestFreeRun))
    | some base =>
      (createAt id (newSurface f t w h base hint s.era) s,
       .reply .ok (byteOf id :: le16 base ++ le16 n ++ le16 stride))

/-- R12, R13. -/
def createBody : RequestBody := fun _ _ args s =>
  if args.length ≠ 7 then refuse .badLength s
  else
    let w := arg16 args 2
    let h := arg16 args 4
    match formatOf (arg8 args 0), transformOf (arg8 args 1), hintOf (arg8 args 6) with
    | some f, some t, some hint =>
      if !(dimensionOk w && dimensionOk h) then refuse .badArgument s
      else if f = .ov2 ∧ t ≠ .t0 then refuse .unsupported s
      else createPlaced f t w h hint s
    | _, _, _ => refuse .badArgument s

/-- CREATE_SURFACE (R12, R13). -/
def execCreateSurface (s : State) : Result := .next (takeRequest (onlyCode 0x10) createBody id s)

/-! ### DISCARD_SURFACE (R14 to R16) -/

/-- R16: cancel the jobs that name the surface, close its session, answer its seal, and free it. -/
def discardUnfinished (id : Nat) (r : Surface) (s : State) : State × Answer :=
  let cancelled := (s.pe.jobs.filter fun j => j.kind.surfaces.contains id).length
  let s := cancelNaming id s
  let s := if r.sealPending then completeRef (.seal id) .cancelled s else s
  (freeSurface id s, .reply .ok [1, byteOf cancelled])

/-- R14, R15, R16. -/
def discardBody : RequestBody := fun _ _ args s =>
  withSurface args s fun id r =>
    match r.state with
    | .discarding => (s, .reply .ok [0, 0])
    | .ready =>
      if r.scanRefs = 0 ∧ r.jobRefs = 0 then (freeSurface id s, .reply .ok [1, 0])
      else (s.setSurface id { r with state := .discarding }, .reply .ok [0, 0])
    | .filling | .sealing => discardUnfinished id r s
    | .empty => refuse .noSuchSurface s

/-- DISCARD_SURFACE (R14 to R16); the Pixel Engine then goes on with the oldest remaining entry. -/
def execDiscardSurface (s : State) : Result := .next (takeRequest (onlyCode 0x11) discardBody settle s)

/-! ### SEAL_SURFACE (R17, R18) -/

/-- R17, R47: the open upload session's destination is this surface. -/
def State.sessionOn (s : State) (id : Nat) : Bool := s.pe.session.elim false fun x => decide (x.dst = id)

/-- R17, R18. -/
def sealBody : RequestBody := fun seq code args s =>
  withSurface args s fun id r =>
    if r.state ≠ .filling then refuse .wrongState s
    else if s.sessionOn id then refuse .sessionOpen s
    else if r.writers = 0 then (s.setSurface id { r with state := .ready }, .reply .ok [])
    else if !s.pendingFree then refuse .busy s
    else
      (bindPending seq code .surfaceManager (.seal id)
        (s.setSurface id { r with state := .sealing, sealPending := true }), .deferred)

/-- SEAL_SURFACE (R17, R18). -/
def execSealSurface (s : State) : Result := .next (takeRequest (onlyCode 0x12) sealBody id s)

/-! ### REOPEN_SURFACE (R19) -/

/-- R19. -/
def reopenBody : RequestBody := fun _ _ args s =>
  withSurface args s fun id r =>
    if r.state ≠ .ready then refuse .wrongState s
    else if r.scanRefs = 0 ∧ r.jobRefs = 0 then (s.setSurface id { r with state := .filling }, .reply .ok [])
    else refuse .busy s

/-- REOPEN_SURFACE (R19). -/
def execReopenSurface (s : State) : Result := .next (takeRequest (onlyCode 0x13) reopenBody id s)

/-! ### GET_SURFACE and GET_MEMORY_MAP (R20, R21) -/

/-- R20, R195: every field of a record. -/
def surfaceFields (r : Surface) : List Byte :=
  [r.state.code, r.format.code, r.transform.code] ++ le16 r.width ++ le16 r.height ++ le16 r.storedWidth ++
    le16 r.storedHeight ++ le16 r.stride ++ le16 r.base ++ le16 r.granules ++
    [r.hint.code, byteOf r.scanRefs, byteOf r.jobRefs, byteOf r.writers, flagByte r.sealPending]

/-- R20. -/
def getSurfaceBody : RequestBody := fun _ _ args s => withSurface args s fun _ r => (s, .reply .ok (surfaceFields r))

/-- GET_SURFACE (R20). -/
def execGetSurface (s : State) : Result := .next (takeRequest (onlyCode 0x14) getSurfaceBody id s)

/-- R21, R195: one run of the map. -/
def runFields (r : Run) : List Byte := le16 r.start ++ le16 r.length ++ [r.owner.elim 0xFF byteOf]

/-- R21. -/
def getMemoryMapBody : RequestBody := fun _ _ args s =>
  if args.length ≠ 0 then refuse .badLength s
  else (s, .reply .ok (byteOf s.runs.length :: (s.runs.map runFields).flatten))

/-- GET_MEMORY_MAP (R21). -/
def execGetMemoryMap (s : State) : Result := .next (takeRequest (onlyCode 0x15) getMemoryMapBody id s)

end Sys2Proof.Machine
end

