-- ==== Sys2Proof/Machine/EngineRequests.lean ====
section
/-! DEFINITION. The eight requests of the Pixel Engine (R37 to R56) and the execution of a held UPLOAD_DATA (R51). -/

namespace Sys2Proof.Machine

/-- R23: a raw value lies within a format's range. -/
def Format.holds (f : Format) (value : Nat) : Bool := decide (value < 2 ^ f.bpp)

/-- R37: append an accepted entry and report the queue depth. -/
def acceptJob (k : JobKind) (s : State) : State × Nat :=
  let s := appendJob k s
  (s, s.pe.jobs.length)

/-! ### FILL_RECT (R38) -/

/-- R38. -/
def fillBody : RequestBody := fun _ _ args s =>
  if args.length ≠ 11 then refuse .badLength s
  else
    let dst := arg8 args 0
    let rect := argRect args 1
    let value := arg16 args 9
    let r := s.surface dst
    if Config.surfaceCount ≤ dst then refuse .badArgument s
    else if r.state = .empty then refuse .noSuchSurface s
    else if r.state ≠ .filling then refuse .wrongState s
    else if !(rect.within r.width r.height && r.format.holds value) then refuse .badArgument s
    else if s.jobsFull then refuse .queueFull s
    else
      let (s, depth) := acceptJob (.fill dst rect value) s
      (s, .reply .ok [byteOf depth])

/-- FILL_RECT (R38). -/
def execFillRect (s : State) : Result := .next (takeRequest (onlyCode 0x24) fillBody settle s)

/-! ### COPY_RECT (R40) -/

/-- R40: the format, key, bounds and overlap conditions. -/
def copyFits (dst src : Nat) (d r : Surface) (source : Rect) (dx dy : Nat) (key : Option Nat) : Bool :=
  decide (r.format = d.format) && key.elim true r.format.holds && source.within r.width r.height &&
    (Rect.mk dx dy source.w source.h).within d.width d.height &&
    !(decide (dst = src) && source.overlaps ⟨dx, dy, source.w, source.h⟩)

/-- R40. -/
def copyBody : RequestBody := fun _ _ args s =>
  if args.length ≠ 17 then refuse .badLength s
  else
    let dst := arg8 args 0
    let src := arg8 args 1
    let source := argRect args 2
    let dx := arg16 args 10
    let dy := arg16 args 12
    let d := s.surface dst
    let r := s.surface src
    match flagOf (arg8 args 14) with
    | none => refuse .badArgument s
    | some keyed =>
      let key := if keyed then some (arg16 args 15) else none
      if Config.surfaceCount ≤ dst ∨ Config.surfaceCount ≤ src then refuse .badArgument s
      else if d.state = .empty ∨ r.state = .empty then refuse .noSuchSurface s
      else if d.state ≠ .filling ∨ (dst ≠ src ∧ r.state ≠ .ready) then refuse .wrongState s
      else if !copyFits dst src d r source dx dy key then refuse .badArgument s
      else if s.jobsFull then refuse .queueFull s
      else
        let (s, depth) := acceptJob (.copy dst src source dx dy key) s
        (s, .reply .ok [byteOf depth])

/-- COPY_RECT (R40). -/
def execCopyRect (s : State) : Result := .next (takeRequest (onlyCode 0x25) copyBody settle s)

/-! ### READ_PIXELS and FENCE (R42, R44) -/

/-- R42. -/
def readBody : RequestBody := fun seq code args s =>
  if args.length ≠ 9 then refuse .badLength s
  else
    let target := arg8 args 0
    let rect := argRect args 1
    let r := s.surface target
    if Config.surfaceCount ≤ target then refuse .badArgument s
    else if r.state = .empty then refuse .noSuchSurface s
    else if r.state ≠ .filling ∧ r.state ≠ .ready then refuse .wrongState s
    else if !(rect.within r.width r.height && decide (transferBytes r.format rect.area ≤ 1016)) then
      refuse .badArgument s
    else if s.jobsFull then refuse .queueFull s
    else if !s.pendingFree then refuse .busy s
    else (appendJob (.read target rect seq) (bindPending seq code .pixelEngine .job s), .deferred)

/-- READ_PIXELS (R42). -/
def execReadPixels (s : State) : Result := .next (takeRequest (onlyCode 0x26) readBody settle s)

/-- R44. -/
def fenceBody : RequestBody := fun seq code args s =>
  if args.length ≠ 0 then refuse .badLength s
  else if s.jobsFull then refuse .queueFull s
  else if !s.pendingFree then refuse .busy s
  else (appendJob (.fence seq) (bindPending seq code .pixelEngine .job s), .deferred)

/-- FENCE (R44). -/
def execFence (s : State) : Result := .next (takeRequest (onlyCode 0x27) fenceBody settle s)

/-! ### The upload session (R47 to R55) -/

/-- R49. -/
def beginUploadBody : RequestBody := fun _ _ args s =>
  if args.length ≠ 9 then refuse .badLength s
  else
    let dst := arg8 args 0
    let rect := argRect args 1
    let r := s.surface dst
    if Config.surfaceCount ≤ dst then refuse .badArgument s
    else if s.pe.session.isSome then refuse .sessionOpen s
    else if r.state = .empty then refuse .noSuchSurface s
    else if r.state ≠ .filling then refuse .wrongState s
    else if !rect.within r.width r.height then refuse .badArgument s
    else if s.jobsFull then refuse .queueFull s
    else
      let expected := transferBytes r.format rect.area
      let (s, depth) := acceptJob (.stream dst rect) s
      let session : Session :=
        { dst := dst, rect := rect, expected := expected, received := 0, written := 0, endRequested := false, link := none }
      (s.setPe { s.pe with session := some session, staging := [] }, .reply .ok (le32 expected ++ [byteOf depth]))

/-- BEGIN_UPLOAD (R49). -/
def execBeginUpload (s : State) : Result := .next (takeRequest (onlyCode 0x20) beginUploadBody settle s)

/-- R48: the room of the staging buffer. -/
def Engine.room (e : Engine) : Nat := Config.stagingBytes - e.staging.length

/-- R50: the bytes an UPLOAD_DATA takes. -/
def Session.takes (x : Session) (data : List Byte) : Nat := min data.length (x.expected - x.received)

/-- R50: stage the bytes taken, and the answer. -/
def stageData (x : Session) (data : List Byte) (s : State) : State × Answer :=
  let t := x.takes data
  let total := x.received + t
  (s.setPe { s.pe with staging := s.pe.staging ++ data.take t, session := some { x with received := total } },
   .reply (if t < data.length then .overrun else .ok) (le16 t ++ le32 total))

/-- R50, R51. -/
def uploadDataBody : RequestBody := fun _ _ args s =>
  if 1020 < args.length then refuse .badLength s
  else
    match s.pe.session with
    | none => refuse .noSession s
    | some x =>
      if x.endRequested then refuse .wrongState s
      else if s.pe.room < x.takes args then ({ s with held := some .upload }, .heldInSlot)
      else stageData x args s

/-- UPLOAD_DATA (R50, R51). -/
def execUploadData (s : State) : Result := .next (takeRequest (onlyCode 0x21) uploadDataBody settle s)

/-- HELD_UPLOAD_DATA_EXECUTE (R51): when the room reaches what the held UPLOAD_DATA takes, it is executed, its slot is
released and the hold ends. While none is held, or the room is not reached, nothing happens (log 2). -/
def execHeldUploadDataExecute (s : State) : Result :=
  match s.held, s.headFrame, s.pe.session with
  | some .upload, some f, some x =>
    let data := f.payload.drop 1
    if s.pe.room < x.takes data then .next s
    else
      .next (settle (executeRequest (fun _ _ args s => stageData x args s) f.seq f.codeOrZero data
        { s with held := none }))
  | _, _, _ => .next s

/-- R53. -/
def endUploadBody : RequestBody := fun seq code args s =>
  if args.length ≠ 0 then refuse .badLength s
  else
    match s.pe.session with
    | none => refuse .noSession s
    | some x =>
      if x.endRequested then refuse .wrongState s
      else if !s.pendingFree then refuse .busy s
      else
        let s := bindPending seq code .pixelEngine .session s
        (s.setPe { s.pe with session := some { x with endRequested := true, link := some seq } }, .deferred)

/-- END_UPLOAD (R53); the completion of R54 follows at once when nothing is left to write. -/
def execEndUpload (s : State) : Result := .next (takeRequest (onlyCode 0x22) endUploadBody settle s)

/-- R55: a granted write completes first; then the staged bytes are discarded, the STREAM entry is cancelled and the
session closes. The engine goes on with a FENCE behind it only after the OK is queued (log 23). -/
def abortSession (s : State) : State × Answer :=
  let s := finishGrantedStreamWrite s
  match s.pe.session with
  | none => refuse .noSession s
  | some x =>
    let streams := s.pe.jobs.filter Job.isStream
    let s := streams.foldl (fun acc j => releaseJob j.kind acc) (removeJobs Job.isStream s)
    let s := s.setPe s.pe.closeSession
    let s := x.link.elim s fun link => completeSeq link .cancelled [] s
    (s, .reply .ok (le32 x.written ++ le32 x.received))

/-- R55. -/
def abortUploadBody : RequestBody := fun _ _ args s =>
  if args.length ≠ 0 then refuse .badLength s
  else if s.pe.session.isNone then refuse .noSession s
  else abortSession s

/-- ABORT_UPLOAD (R55); the Pixel Engine then goes on with the entries that move up, so the OK of a FENCE among them
follows the OK of the abort (log 23). -/
def execAbortUpload (s : State) : Result := .next (takeRequest (onlyCode 0x23) abortUploadBody settle s)

end Sys2Proof.Machine
end

