-- ==== Sys2Proof/Machine/OutputRequests.lean ====
section
/-! DEFINITION. The five requests of the Output Units: SET_OUTPUT, START_OUTPUT, STOP_OUTPUT, GET_OUTPUT and
SET_PALETTE (R107 to R115, R122 to R126, R135). -/

namespace Sys2Proof.Machine

/-! ### SET_OUTPUT (R114, R115) -/

/-- R114: every SET_OUTPUT reply carries an argument index. -/
def answerIndex (st : Status) (index : Nat) (s : State) : State × Answer := (s, .reply st [byteOf index])

/-- R114, R115. -/
def setOutputBody : RequestBody := fun _ _ args s =>
  if args.length ≠ 23 then answerIndex .badLength 0xFF s
  else
    match outputOf (arg8 args 0) with
    | none => answerIndex .badArgument 0 s
    | some o =>
      let u := s.ou o
      if u.state ≠ .off then answerIndex .wrongState 0xFF s
      else if o = .out0 ∧ arg8 args 19 = 1 then answerIndex .unsupported 14 s
      else if o = .out0 ∧ arg8 args 20 = 1 then answerIndex .unsupported 15 s
      else
        match firstBadTiming args with
        | some i => answerIndex .badArgument i s
        | none => answerIndex .ok 0xFF (s.setOu o { u with timing := timingArgs args, valid := true })

/-- SET_OUTPUT (R114, R115). -/
def execSetOutput (s : State) : Result := .next (takeRequest (onlyCode 0x30) setOutputBody id s)

/-! ### START_OUTPUT and STOP_OUTPUT (R122 to R126) -/

/-- R122, R124, R135: the length and output checks of the requests that carry one output number. -/
def withOutput (args : List Byte) (s : State) (rest : OutputId → State × Answer) : State × Answer :=
  if args.length ≠ 1 then refuse .badLength s
  else
    match outputOf (arg8 args 0) with
    | none => refuse .badArgument s
    | some o => rest o

/-- R122. -/
def startBody : RequestBody := fun seq code args s =>
  withOutput args s fun o =>
    let u := s.ou o
    match u.state with
    | .off =>
      if !u.valid then refuse .wrongState s
      else if !s.pendingFree then refuse .busy s
      else (startSequence o (bindPending seq code .outputUnit (.start o) s), .deferred)
    | .powerUp =>
      if !s.pendingFree then refuse .busy s
      else (bindPending seq code .outputUnit (.start o) s, .deferred)
    | .running => (s, .reply .ok [])
    | .ending | .powerDown => refuse .busy s

/-- START_OUTPUT (R122). -/
def execStartOutput (s : State) : Result := .next (takeRequest (onlyCode 0x31) startBody id s)

/-- R126: reverse the power-up sequence from the step reached. -/
def reversePowerUp (o : OutputId) (s : State) : State :=
  let released := (s.pres o).heldRecords
  let step := (s.ou o).step
  let s := completeRef (.start o) .cancelled (releaseOutput o s)
  if step = .clockWait then enterSupplyWait o (raiseState o .powerDown released s)
  else enterOff o released s

/-- R124, R126. -/
def stopBody : RequestBody := fun seq code args s =>
  withOutput args s fun o =>
    let u := s.ou o
    if u.state = .off then (s, .reply .ok [])
    else if !s.pendingFree then refuse .busy s
    else
      let s := bindPending seq code .outputUnit (.stop o) s
      match u.state with
      | .running => (raiseState o .ending 0 (s.setOu o { u with state := .ending }), .deferred)
      | .powerUp => (reversePowerUp o s, .deferred)
      | .ending | .powerDown | .off => (s, .deferred)

/-- STOP_OUTPUT (R124, R126). -/
def execStopOutput (s : State) : Result := .next (takeRequest (onlyCode 0x32) stopBody id s)

/-! ### GET_OUTPUT (R82, R95, R135) -/

/-- R135, R195: the fields of GET_OUTPUT. -/
def outputFields (o : OutputId) (s : State) : List Byte :=
  let u := s.ou o
  let p := s.pres o
  [u.state.code, u.step.code, flagByte u.pwren, flagByte u.timingRuns, flagByte u.blen, flagByte u.valid,
   flagByte u.timing.interlace, flagByte u.timing.flicker, u.field.code] ++
    le32 u.framesShown ++ le32 u.lineMiss ++ le16 (p.current.elim 0 FrameRecord.token) ++ [byteOf p.queue.length] ++
    le32 p.loadN ++ le32 u.loadD ++ [flagByte u.palettePending]

/-- R135. -/
def getOutputBody : RequestBody := fun _ _ args s => withOutput args s fun o => (s, .reply .ok (outputFields o s))

/-- GET_OUTPUT (R135). -/
def execGetOutput (s : State) : Result := .next (takeRequest (onlyCode 0x33) getOutputBody id s)

/-! ### SET_PALETTE (R107 to R109) -/

/-- R192: `n` colours from the front of the bytes. -/
def coloursOf : Nat → List Byte → List Colour
  | 0, _ => []
  | n + 1, bytes => argColour bytes 0 :: coloursOf n (bytes.drop 3)

/-- R108, R109: write colours to entries `first` on. -/
def writeEntries (palette : List Colour) (first : Nat) (colours : List Colour) : List Colour :=
  palette.mapIdx fun i c => if first ≤ i then colours.getD (i - first) c else c

/-- R107, R108, R109. -/
def setPaletteBody : RequestBody := fun _ _ args s =>
  let first := arg8 args 1
  let count := arg16 args 2
  if args.length < 4 then refuse .badLength s
  else if args.length ≠ 4 + 3 * count then refuse .badLength s
  else
    match outputOf (arg8 args 0) with
    | none => refuse .badArgument s
    | some o =>
      if count = 0 ∨ 256 < count ∨ 256 < first + count then refuse .badArgument s
      else
        let u := s.ou o
        let colours := coloursOf count (args.drop 4)
        let staging := writeEntries u.staging first colours
        if u.state = .off then
          (s.setOu o { u with active := writeEntries u.active first colours, staging := staging, palettePending := false },
           .reply .ok [0])
        else (s.setOu o { u with staging := staging, palettePending := true }, .reply .ok [1])

/-- SET_PALETTE (R107 to R109). -/
def execSetPalette (s : State) : Result := .next (takeRequest (onlyCode 0x34) setPaletteBody id s)

end Sys2Proof.Machine
end

