-- ==== Sys2Proof/Machine/PresentRequests.lean ====
section
/-! DEFINITION. The four requests of the Presentation Controller: PRESENT, SET_CURSOR, MOVE_CURSOR and SET_BUDGET (R62
to R69, R74 to R76, R87 to R90, R94). -/

namespace Sys2Proof.Machine

/-! ### PRESENT (R62 to R68, R89) -/

/-- R193: the frame-level fields of a PRESENT and its layer entries. -/
structure PresentArgs where
  output : Nat
  mode : Nat
  background : Colour
  count : Nat
  layers : List LayerArgs
  deriving DecidableEq, Repr

/-- R62: the length check. -/
def presentArgs (args : List Byte) : Option PresentArgs :=
  if args.length < 6 then none
  else
    (walkLayers (arg8 args 5) (args.drop 6)).map fun layers =>
      { output := arg8 args 0, mode := arg8 args 1, background := argColour args 2, count := arg8 args 5, layers := layers }

/-- R63: the argument checks of one entry fail. -/
def LayerArgs.outOfRange (l : LayerArgs) : Bool :=
  decide (Config.surfaceCount ≤ l.surface) || decide (l.dx < -2048) || decide (2047 < l.dx) || decide (l.dy < -2048) ||
    decide (2047 < l.dy) || decide (2 < l.mode) || decide (16 < l.alpha) || decide (15 < l.bank) ||
    decide (1 < l.bankFlag) || decide (1 < l.colourFlag)

/-- R65: the geometry and format checks of one entry fail against its surface. -/
def LayerArgs.misfits (l : LayerArgs) (r : Surface) : Bool :=
  !l.source.within r.storedWidth r.storedHeight || (decide (r.format = .ix4) != decide (l.bankFlag = 1)) ||
    (decide (r.format = .ov2) != decide (l.colourFlag = 1)) || (decide (r.format = .ov2) && decide (l.mode ≠ 0))

/-- R60: the layer entry of an accepted record. -/
def LayerArgs.toLayer (l : LayerArgs) : Layer :=
  { surface := l.surface, source := l.source, dx := l.dx, dy := l.dy,
    mode := if l.mode = 1 then .keyed l.key else if l.mode = 2 then .alphaMode l.alpha else .opaqueMode,
    bank := if l.bankFlag = 1 then some l.bank else none,
    pair := if l.colourFlag = 1 then some (l.colour0, l.colour1) else none }

/-- R63: every refusal of PRESENT carries a layer index, 0xFF when it concerns no single entry. -/
def refuseLayer (st : Status) (index : Nat) (s : State) : State × Answer := (s, .reply st [byteOf index])

/-- R69: the token after a token. -/
def nextToken (token : Nat) : Nat := if token = 65535 then 1 else token + 1

/-- R67: accept a record on an output whose queue has been emptied if the mode is REPLACE: the token, the scan
references, the queue and the reserved load. -/
def acceptFrame (o : OutputId) (background : Colour) (layers : List Layer) (load n : Nat) (s : State) : State × FrameRecord :=
  let token := nextToken (s.pres o).token
  let record : FrameRecord := { output := o, background := background, layers := layers, token := token, load := load }
  let s := record.surfaces.foldl (fun acc id => addScan id acc) s
  let p := s.pres o
  (s.setPres o { p with token := token, queue := p.queue ++ [record], loadN := n }, record)

/-- R68: remove every queued record and release its references, as one claim. -/
def dropQueue (o : OutputId) (s : State) : State :=
  let p := s.pres o
  releaseScans (p.queue.map FrameRecord.surfaces).flatten (s.setPres o { p with queue := [] })

/-- R67, R68: the answer of an accepted PRESENT. -/
def presentOk (o : OutputId) (dropped : Nat) (r : State × FrameRecord) : State × Answer :=
  (r.1, .reply .ok (le16 r.2.token ++ [byteOf (r.1.pres o).queue.length, byteOf dropped]))

/-- R66 to R68, R89: room, admission and acceptance. -/
def presentAdmit (o : OutputId) (replace : Bool) (background : Colour) (layers : List Layer) (s : State) : State × Answer :=
  let p := s.pres o
  let t := (s.ou o).timing
  let load := frameLineBytes s t layers
  let heldLoads := if replace then (p.current.toList).map (·.load) else p.loads
  let n := reservedN t.fetchFactor (heldLoads ++ [load]) p.cursorTerm
  if !replace && decide (Config.presentQueueLength ≤ p.queue.length) then refuseLayer .queueFull 0xFF s
  else if !lineStoreFits t.fetchFactor load p.cursorTerm then refuseLayer .overBudget 0xFF s
  else if !s.admits o n then refuseLayer .overBudget 0xFF s
  else if replace then presentOk o p.queue.length (acceptFrame o background layers load n (dropQueue o s))
  else presentOk o 0 (acceptFrame o background layers load n s)

/-- R64, R65: the output's state, the surfaces in two passes, then geometry and format. -/
def presentSurfaces (o : OutputId) (a : PresentArgs) (s : State) : State × Answer :=
  let u := s.ou o
  if u.state ≠ .powerUp ∧ u.state ≠ .running then refuseLayer .wrongState 0xFF s
  else
    match a.layers.findIdx? fun l => decide ((s.surface l.surface).state = .empty) with
    | some i => refuseLayer .noSuchSurface i s
    | none =>
      match a.layers.findIdx? fun l => decide ((s.surface l.surface).state ≠ .ready) with
      | some i => refuseLayer .wrongState i s
      | none =>
        match a.layers.findIdx? fun l => l.misfits (s.surface l.surface) with
        | some i => refuseLayer .badArgument i s
        | none => presentAdmit o (decide (a.mode = 1)) a.background (a.layers.map LayerArgs.toLayer) s

/-- R62, R63: the length and argument checks. -/
def presentBody : RequestBody := fun _ _ args s =>
  match presentArgs args with
  | none => refuseLayer .badLength 0xFF s
  | some a =>
    match outputOf a.output with
    | none => refuseLayer .badArgument 0xFF s
    | some o =>
      if 1 < a.mode ∨ 4 < a.count then refuseLayer .badArgument 0xFF s
      else
        match a.layers.findIdx? LayerArgs.outOfRange with
        | some i => refuseLayer .badArgument i s
        | none => presentSurfaces o a s

/-- PRESENT (R62 to R69, R89). -/
def execPresent (s : State) : Result := .next (takeRequest (onlyCode 0x40) presentBody id s)

/-! ### SET_CURSOR (R74, R75, R90) -/

/-- R61, R74, R76: an output takes frames and cursors. -/
def OutputUnit.accepts (u : OutputUnit) : Bool := decide (u.state = .powerUp ∨ u.state = .running)

/-- R75: replace the pending binding, releasing the previous one. -/
def replacePending (o : OutputId) (b : PendingBinding) (s : State) : State :=
  let p := s.pres o
  let s := releaseScans p.pendingBinding.surfaces (s.setPres o { p with pendingBinding := b })
  b.surfaces.foldl (fun acc id => addScan id acc) s

/-- R90: the line-store limit on every record held, and the budget check, with the cursor term 16. -/
def State.admitsCursor (s : State) (o : OutputId) : Bool :=
  let p := s.pres o
  let f := (s.ou o).timing.fetchFactor
  p.loads.all (fun load => lineStoreFits f load 16) && s.admits o (reservedN f p.loads 16)

/-- R74, R75, R90. -/
def setCursorBody : RequestBody := fun _ _ args s =>
  if args.length ≠ 8 then refuse .badLength s
  else
    let id := arg8 args 1
    match outputOf (arg8 args 0) with
    | none => refuse .badArgument s
    | some o =>
      if Config.surfaceCount ≤ id ∧ id ≠ 0xFF then refuse .badArgument s
      else if !(s.ou o).accepts then refuse .wrongState s
      else if id = 0xFF then (recomputeLoad o (replacePending o .unbind s), .reply .ok [])
      else
        let r := s.surface id
        if r.state = .empty then refuse .noSuchSurface s
        else if r.state ≠ .ready then refuse .wrongState s
        else if r.format ≠ .ov2 ∨ r.width ≠ 64 ∨ r.height ≠ 64 then refuse .badArgument s
        else if !s.admitsCursor o then refuse .overBudget s
        else (recomputeLoad o (replacePending o (.bind ⟨id, argColour args 2, argColour args 5⟩) s), .reply .ok [])

/-- SET_CURSOR (R74, R75, R90). -/
def execSetCursor (s : State) : Result := .next (takeRequest (onlyCode 0x41) setCursorBody id s)

/-! ### MOVE_CURSOR (R76) -/

/-- R76: a coordinate is in −63..2047. -/
def cursorCoordinate (x : Int) : Bool := decide (-63 ≤ x) && decide (x ≤ 2047)

/-- R76. -/
def moveCursorBody : RequestBody := fun _ _ args s =>
  if args.length ≠ 6 then refuse .badLength s
  else
    let x := argSigned args 1
    let y := argSigned args 3
    match outputOf (arg8 args 0), flagOf (arg8 args 5) with
    | some o, some visible =>
      if !(cursorCoordinate x && cursorCoordinate y) then refuse .badArgument s
      else if !(s.ou o).accepts then refuse .wrongState s
      else (s.setPres o { s.pres o with pendingPosition := ⟨x, y, visible⟩ }, .reply .ok [])
    | _, _ => refuse .badArgument s

/-- MOVE_CURSOR (R76). -/
def execMoveCursor (s : State) : Result := .next (takeRequest (onlyCode 0x42) moveCursorBody id s)

/-! ### SET_BUDGET (R94) -/

/-- R94. -/
def setBudgetBody : RequestBody := fun _ _ args s =>
  if args.length ≠ 1 then refuse .badLength s
  else
    let share := arg8 args 0
    if share < 4 ∨ 9 < share then refuse .badArgument s
    else if budgetHolds share s.pres0.loadN s.ou0.loadD s.pres1.loadN s.ou1.loadD then
      ({ s with share := share }, .reply .ok [byteOf share, byteOf s.leastShare])
    else (s, .reply .overBudget [byteOf s.share, byteOf s.leastShare])

/-- SET_BUDGET (R94). -/
def execSetBudget (s : State) : Result := .next (takeRequest (onlyCode 0x43) setBudgetBody id s)

end Sys2Proof.Machine
end

