-- ==== Sys2Proof/Machine/NoticeRequests.lean ====
section
/-! DEFINITION. The two requests of the Notice Queue: ACK_NOTICES and RESEND_NOTICES (R187 to R189). -/

namespace Sys2Proof.Machine

/-- R187: remove the sent entry with seq `n` and every sent entry older than it. -/
def removeAcknowledged (n : Nat) : List NoticeEntry → List NoticeEntry
  | [] => []
  | e :: es =>
    if e.seq = n then (if e.sent then es else e :: es)
    else if e.sent then removeAcknowledged n es
    else e :: removeAcknowledged n es

/-- R187. -/
def ackBody : RequestBody := fun _ _ args s =>
  if args.length ≠ 1 then refuse .badLength s
  else
    let n := arg8 args 0
    if s.notices.any fun e => decide (e.seq = n) && e.sent then
      let rest := removeAcknowledged n s.notices
      ({ s with notices := rest }, .reply .ok [byteOf (s.notices.length - rest.length), byteOf rest.length])
    else refuse .badArgument s

/-- ACK_NOTICES (R187). -/
def execAckNotices (s : State) : Result := .next (takeRequest (onlyCode 0x50) ackBody id s)

/-- R189: put an entry into the kept entries, folding it into the oldest entry of its key. -/
def foldEntry (kept : List NoticeEntry) (e : NoticeEntry) : List NoticeEntry :=
  if kept.any fun k => decide (k.notice.key = e.notice.key) then
    kept.map fun k => if k.notice.key = e.notice.key then { k with notice := k.notice.combine e.notice } else k
  else kept ++ [{ e with sent := false }]

/-- R188, R189: every entry unsent, entries of one key folded into the oldest, in queue order. -/
def foldNotices (entries : List NoticeEntry) : List NoticeEntry := entries.foldl foldEntry []

/-- R188: with no sent entry nothing changes; otherwise the counts of the entries made unsent that remain and of the
entries removed by combination. -/
def resendBody : RequestBody := fun _ _ args s =>
  if args.length ≠ 0 then refuse .badLength s
  else if !s.notices.any (·.sent) then (s, .reply .ok [0, 0])
  else
    let folded := foldNotices s.notices
    let madeUnsent := (folded.filter fun e => s.notices.any fun old => decide (old.seq = e.seq) && old.sent).length
    ({ s with notices := folded }, .reply .ok [byteOf madeUnsent, byteOf (s.notices.length - folded.length)])

/-- RESEND_NOTICES (R188, R189). -/
def execResendNotices (s : State) : Result := .next (takeRequest (onlyCode 0x51) resendBody id s)

end Sys2Proof.Machine
end

