-- ==== Sys2Proof/Machine/Link.lean ====
section
/-! DEFINITION. The Link Port: the receiver (R152 to R156), the ingress slots (R157, R158), the transmitter (R159 to
R161), and the wires with their characters and exchanges (R148, R149). -/

namespace Sys2Proof.Machine

/-! ### Bits on the line (R148, R149) -/

/-- R148: the bits of a byte, least significant first. -/
def bitsLow (b : Byte) : List Bool := (List.range 8).map fun i => b.getLsbD i

/-- R148: a UART character: start bit low, eight data bits least significant first, stop bit high. -/
def uartCharacter (b : Byte) : List Bool := false :: bitsLow b ++ [true]

/-- R149: the bits of a byte exchange, most significant first. -/
def spiExchange (b : Byte) : List Bool := (bitsLow b).reverse

/-- The byte of eight bits, least significant first. -/
def byteOfBits (bits : List Bool) : Byte :=
  byteOf (bits.foldr (fun bit acc => (if bit then 1 else 0) + 2 * acc) 0)

/-! ### The receiver (R152 to R156) -/

/-- R154: the holding buffer is emptied and the receiver returns to HUNT. -/
def hunt (s : State) : State := { s with rx := ⟨.hunt, []⟩ }

/-- R156: a LENGTH error. -/
def lengthError (s : State) : State := raise (.linkError 1 0 0 0) (hunt s)
/-- R156: a CRC error. -/
def crcError (s : State) : State := raise (.linkError 0 1 0 0) (hunt s)
/-- R156: a KIND error. -/
def kindError (s : State) : State := raise (.linkError 0 0 1 0) (hunt s)
/-- R156: a TIMEOUT error. -/
def timeoutError (s : State) : State := raise (.linkError 0 0 0 1) (hunt s)

/-- R157: the lowest-numbered free slot. -/
def State.lowestFreeSlot (s : State) : Option Nat :=
  (List.range Config.slotCount).find? fun i => decide (s.slots.getD i none = none)

/-- R157, R158: offer a good frame to the slots. -/
def offerFrame (f : RequestFrame) (s : State) : State :=
  match s.lowestFreeSlot with
  | some i => { s with slots := s.slots.set i (some f), arrival := s.arrival ++ [i] }
  | none => raise (.linkDrop 1 f.seq) s

/-- R154: judge a frame, its bytes after the sync with a payload of `n` bytes. -/
def judgeFrame (bytes : List Byte) (n : Nat) (s : State) : State :=
  let covered := bytes.take (5 + n)
  if bytes.drop (5 + n) ≠ crcField covered then crcError s
  else if bytes.getD 2 0 ≠ kindRequest then kindError s
  else offerFrame ⟨bytes.getD 3 0, (bytes.drop 5).take n⟩ (hunt s)

/-- R153, R154: the receiver handles one byte. -/
def receiveByte (b : Byte) (s : State) : State :=
  let bytes := s.rx.bytes ++ [b]
  let n := arg16 bytes 0
  match s.rx.phase with
  | .hunt => if b = 0xA5#8 then { s with rx := ⟨.header, []⟩ } else s
  | .header =>
    if bytes.length = 2 ∧ Config.maxPayload < n then lengthError s
    else if bytes.length < 5 then { s with rx := ⟨.header, bytes⟩ }
    else { s with rx := ⟨if n = 0 then .check else .body, bytes⟩ }
  | .body => { s with rx := ⟨if bytes.length < 5 + n then .body else .check, bytes⟩ }
  | .check => if bytes.length < 7 + n then { s with rx := ⟨.check, bytes⟩ } else judgeFrame bytes n s

/-- INTER_BYTE_TIMEOUT (R155): outside HUNT the partial frame is a TIMEOUT error. In HUNT no timer runs (log 2). -/
def execInterByteTimeout (s : State) : Result :=
  match s.rx.phase with
  | .hunt => .next s
  | .header | .body | .check => .next (timeoutError s)

/-! ### The transmitter (R159 to R161, R186) -/

/-- R160: the frame of the reply at the head of the reply queue, with the credit count of this moment (R159). -/
def replyFrame (r : Reply) (s : State) : OutboundFrame :=
  ⟨true, linkFrame kindReply r.seq (byteOf s.credits) r.payload, 0⟩

/-- R160, R186: the frame of a notice entry. -/
def noticeFrame (e : NoticeEntry) (s : State) : OutboundFrame :=
  ⟨false, linkFrame kindNotice (byteOf e.seq) (byteOf s.credits) e.notice.payload, 0⟩

/-- R186: mark the oldest unsent entry sent. -/
def markOldestSent : List NoticeEntry → List NoticeEntry
  | [] => []
  | e :: es => if e.sent then e :: markOldestSent es else { e with sent := true } :: es

/-- R160, R161, R186: with no frame in the transmit position, the reply at the head of the queue is taken, or otherwise
the oldest unsent notice, which is marked sent. No notice is taken while a DEVICE_RESET drains. While a frame is being
sent, or nothing waits, nothing is taken. -/
def takeOutbound (s : State) : State :=
  match s.tx with
  | some _ => s
  | none =>
    match s.replies with
    | r :: _ => { s with tx := some (replyFrame r s) }
    | [] =>
      if s.draining || s.inReset then s
      else
        match s.notices.find? fun e => !e.sent with
        | some e => { s with tx := some (noticeFrame e s), notices := markOldestSent s.notices }
        | none => s

/-- R160: the last byte of the frame in the transmit position has been sent; a reply leaves the reply queue. -/
def endOutbound (s : State) : State :=
  match s.tx with
  | none => s
  | some f => { s with tx := none, replies := if f.isReply then s.replies.drop 1 else s.replies }

/-- TRANSMIT_TAKE (R160, R161): as a UART the idle transmitter takes what waits. As an SPI target it takes at the
decision points only, which CS_N and SCK bring (`selectLink`, `exchangeSent`; log 15), and so not by this command. -/
def execTransmitTake (s : State) : Result :=
  match s.linkMode with
  | some (.uart _) => .next (takeOutbound s)
  | some .spi | none => .next s

/-- FRAME_SENT (R160, R161): as a UART the last character of the frame in the transmit position has been sent. As an SPI
target the last byte's exchange sends it (`exchangeSent`; log 15), and so not this command. While no frame is being sent,
nothing happens (log 2). -/
def execFrameSent (s : State) : Result :=
  match s.linkMode with
  | some (.uart _) => .next (endOutbound s)
  | some .spi | none => .next s

/-! ### The SPI target (R149, R161) -/

/-- R161: the byte offered in an exchange, as it was chosen at the last decision point: the next byte of the frame in the
transmit position, or the fill byte 0x00. -/
def State.spiOffer (s : State) : Byte := s.tx.elim 0x00 fun f => f.bytes.getD f.sent 0x00

/-- R149: with SCK low, SDO takes the bit of the offered byte that SCK's next rising edge samples. -/
def driveSdo (s : State) : State :=
  { s with wire := { s.wire with sckHigh := false, sdo := (spiExchange s.spiOffer).getD s.wire.bits.length false } }

/-- R149, R161: CS_N falls: a new byte exchange begins, whatever bits came before, its outbound byte is chosen, and its
first bit is on SDO. -/
def selectLink (s : State) : State :=
  driveSdo (takeOutbound { s with wire := { s.wire with selected := true, bits := [] } })

/-- R149: CS_N rises: the bits received so far form no byte, the outbound byte is offered again, and SDO is not driven.
-/
def deselectLink (s : State) : State :=
  { s with wire := { s.wire with selected := false, bits := [], sckHigh := false, sdo := false } }

/-- R161: an exchange is complete: the transmit position advances, the last byte ends its frame, and the outbound byte of
the next exchange is chosen. -/
def exchangeSent (s : State) : State :=
  match s.tx with
  | none => takeOutbound s
  | some f =>
    if f.sent + 1 < f.bytes.length then { s with tx := some { f with sent := f.sent + 1 } }
    else takeOutbound (endOutbound s)

/-- R149: a complete byte exchange that brought `b` in. The byte is handled before the next outbound byte is chosen
(log 26), and before a soft reset that the last byte of its OK brings (log 28). -/
def exchangeByte (b : Byte) (s : State) : State := exchangeSent (receiveByte b s)

/-- R149: SCK rises: SDI is sampled, and the eighth rising edge completes the exchange. SDO keeps its level. While CS_N
is high SCK is ignored; a SCK that is high does not rise (log 2). -/
def sampleSdi (level : Bool) (s : State) : State :=
  let bits := s.wire.bits ++ [level]
  if !s.wire.selected || s.wire.sckHigh then s
  else if bits.length < 8 then { s with wire := { s.wire with bits := bits, sckHigh := true } }
  else exchangeByte (byteOfBits bits.reverse) { s with wire := { s.wire with bits := [], sckHigh := true } }

/-- R149: SCK falls: SDO changes to the next bit. While CS_N is high SCK is ignored; a SCK that is low does not fall
(log 2). -/
def shiftSdo (s : State) : State := if s.wire.selected && s.wire.sckHigh then driveSdo s else s

/-! ### The UART receiver (R148) -/

/-- R148: RXD is sampled for one bit time. A low level begins a character; the tenth bit ends it, as a byte when it is
high and as a framing error when it is low, after which RXD must return high before a new start bit counts. -/
def sampleRxd (level : Bool) (s : State) : State :=
  let w := s.wire
  let bits := w.bits ++ [level]
  if w.awaitsHigh then { s with wire := { w with awaitsHigh := !level } }
  else if w.bits = [] ∧ level then s
  else if bits.length < 10 then { s with wire := { w with bits := bits } }
  else
    let ended : State := { s with wire := { w with bits := [], awaitsHigh := !level } }
    if level then receiveByte (byteOfBits ((bits.drop 1).take 8)) ended else ended

/-! ### The commands of the wires -/

/-- R148, R149: a whole byte comes in: from an idle RXD a character, or an exchange, for which CS_N falls first if it is
high, and after which SCK is low again. While a character or exchange is in progress no whole one can begin (log 2). -/
def receiveWhole (b : Byte) (s : State) : State :=
  if s.wire.bits ≠ [] then s
  else match s.linkMode with
    | some (.uart _) => receiveByte b { s with wire := { s.wire with awaitsHigh := false } }
    | some .spi => driveSdo (exchangeByte b (if s.wire.selected then s else selectLink s))
    | none => s

/-- R147 to R149: one event on the wires. A wire that the link mode does not use has no effect. -/
def lineEvent (e : LineEvent) (s : State) : State :=
  match s.linkMode, e with
  | _, .whole b => receiveWhole b s
  | some (.uart _), .rxd level => sampleRxd level s
  | some .spi, .csnFalls => selectLink s
  | some .spi, .csnRises => deselectLink s
  | some .spi, .sckRises sdi => sampleSdi sdi s
  | some .spi, .sckFalls => shiftSdo s
  | some .spi, .rxd _ | none, .rxd _ => s
  | some (.uart _), .csnFalls | some (.uart _), .csnRises | some (.uart _), .sckRises _ | some (.uart _), .sckFalls => s
  | none, .csnFalls | none, .csnRises | none, .sckRises _ | none, .sckFalls => s

/-- RECEIVED_BYTE (R148, R149, R153): a byte, or a signal below a byte, comes in (log 15). While the part is held in hard
reset the receiver takes none (R163). -/
def execReceivedByte (e : LineEvent) (s : State) : Result := if s.inReset then .next s else .next (lineEvent e s)

/-- RECEIVE_FRAME (R153, R154): bytes come in whole, one after another, the last of which ends a frame (log 1). -/
def execReceiveFrame (bytes : List Byte) (s : State) : Result :=
  if s.inReset then .next s else .next (bytes.foldl (fun acc b => receiveWhole b acc) s)

end Sys2Proof.Machine
end

