-- ==== Sys2Proof/Machine/Resets.lean ====
section
/-! DEFINITION. The soft reset and the hard reset (R163 to R165, R179, R180, and each block's reset values). -/

namespace Sys2Proof.Machine

/-- R58, R144, R146: a burst granted before a reset completes with its data ignored (log 21). -/
def Grant.kill : Grant → Grant
  | .fetch o b _ => .fetch o b false
  | .engine b _ => .engine b false

/-- The values every block takes at either reset (R22, R58, R81, R106, R113, R131, R144, R145, R164, R166). What is kept
is the latched link mode, the supply mark, the numbering of undefined contents (log 5), the burst in progress, and the
commands that wait. -/
def resetBlocks (s : State) : State :=
  { State.reset with
    inReset := s.inReset, freshSupply := s.freshSupply, linkMode := s.linkMode, notices := [], era := s.era,
    port := { inFlight := s.port.inFlight.map Grant.kill, lastScan := .out1 }, pending := s.pending }

/-- R190: the Notice Queue holds one unsent READY with notice seq 0, and the next notice seq is 1. -/
def raiseReady (cause : ReadyCause) (s : State) : State :=
  { s with notices := [⟨.ready cause, 0, false⟩], nextNotice := 1 }

/-- R165: the next outbound byte is chosen from the reset state. As an SPI target with CS_N low and no bit of the next
exchange sampled, that choice is made now, and its first bit is on SDO at once when SCK is low; otherwise the exchange in progress completes first, or CS_N falls, or a UART
takes the frame (log 27). -/
def chooseAfterReset (s : State) : State :=
  if s.linkMode = some .spi ∧ s.wire.selected ∧ s.wire.bits = [] then
    if s.wire.sckHigh then takeOutbound s else driveSdo (takeOutbound s)
  else s

/-- SOFT_RESET (R165, R179): with a DEVICE_RESET draining, the reply queue empty and the last byte of its OK sent, every
block takes its reset values and READY has cause REQUEST. A character or exchange in progress is not cut. As an SPI target
the byte that came in with the last byte of the OK was handled before (log 28). Before that,
and while the part is held in hard reset (R163), nothing happens (log 2). -/
def execSoftReset (s : State) : Result :=
  if ¬ s.inReset ∧ s.draining ∧ s.replies = [] ∧ s.tx = none then
    .next (chooseAfterReset { raiseReady .request (resetBlocks s) with wire := s.wire })
  else .next s

/-- HARD_RESET_ASSERT (R163, R180): the part is held in hard reset, every block at its reset values and the Notice Queue
empty (log 13). A power-up begins with no link mode latched. -/
def execHardResetAssert (entry : ResetEntry) (s : State) : Result :=
  match entry with
  | .pinLow => .next { resetBlocks s with inReset := true }
  | .powerUp => .next { resetBlocks s with inReset := true, freshSupply := true, linkMode := none }

/-- R147: the strap coding. -/
def strappedMode (lmode1 lmode0 : Bool) : LinkMode :=
  match lmode1, lmode0 with
  | false, false => .spi
  | false, true => .uart 0
  | true, false => .uart 1
  | true, true => .uart 2

/-- HARD_RESET_RELEASE (R147, R164, R190): RESET_N rises: the straps are latched, every block takes its reset values, and
READY has cause POWER_ON for the first release after the supplies came up, PIN otherwise. While RESET_N is high it does
not rise (log 2). -/
def execHardResetRelease (lmode1 lmode0 : Bool) (s : State) : Result :=
  if s.inReset then
    let cause := if s.freshSupply then .powerOn else .pin
    .next (raiseReady cause
      { resetBlocks s with inReset := false, freshSupply := false, linkMode := some (strappedMode lmode1 lmode0) })
  else .next s

end Sys2Proof.Machine
end

