-- ==== Sys2Proof/Machine/Dispatch.lean ====
section
/-! DEFINITION. exec: one arm per row of spec/opcode_table.json, each one direct call of its meaning. -/

namespace Sys2Proof.Machine

/-- The effect of one command on everything but the queue. -/
def exec (i : Instr) (s : State) : Host.Outcome State Fault Refusal :=
  match i with
  | .ping => Sys2Proof.Machine.execPing s
  | .getInfo => Sys2Proof.Machine.execGetInfo s
  | .deviceReset => Sys2Proof.Machine.execDeviceReset s
  | .createSurface => Sys2Proof.Machine.execCreateSurface s
  | .discardSurface => Sys2Proof.Machine.execDiscardSurface s
  | .sealSurface => Sys2Proof.Machine.execSealSurface s
  | .reopenSurface => Sys2Proof.Machine.execReopenSurface s
  | .getSurface => Sys2Proof.Machine.execGetSurface s
  | .getMemoryMap => Sys2Proof.Machine.execGetMemoryMap s
  | .beginUpload => Sys2Proof.Machine.execBeginUpload s
  | .uploadData => Sys2Proof.Machine.execUploadData s
  | .endUpload => Sys2Proof.Machine.execEndUpload s
  | .abortUpload => Sys2Proof.Machine.execAbortUpload s
  | .fillRect => Sys2Proof.Machine.execFillRect s
  | .copyRect => Sys2Proof.Machine.execCopyRect s
  | .readPixels => Sys2Proof.Machine.execReadPixels s
  | .fence => Sys2Proof.Machine.execFence s
  | .setOutput => Sys2Proof.Machine.execSetOutput s
  | .startOutput => Sys2Proof.Machine.execStartOutput s
  | .stopOutput => Sys2Proof.Machine.execStopOutput s
  | .getOutput => Sys2Proof.Machine.execGetOutput s
  | .setPalette => Sys2Proof.Machine.execSetPalette s
  | .present => Sys2Proof.Machine.execPresent s
  | .setCursor => Sys2Proof.Machine.execSetCursor s
  | .moveCursor => Sys2Proof.Machine.execMoveCursor s
  | .setBudget => Sys2Proof.Machine.execSetBudget s
  | .ackNotices => Sys2Proof.Machine.execAckNotices s
  | .resendNotices => Sys2Proof.Machine.execResendNotices s
  | .unknownRequest => Sys2Proof.Machine.execUnknownRequest s
  | .heldUploadDataExecute => Sys2Proof.Machine.execHeldUploadDataExecute s
  | .softReset => Sys2Proof.Machine.execSoftReset s
  | .hardResetAssert entry => Sys2Proof.Machine.execHardResetAssert entry s
  | .hardResetRelease lmode1 lmode0 => Sys2Proof.Machine.execHardResetRelease lmode1 lmode0 s
  | .receiveFrame bytes => Sys2Proof.Machine.execReceiveFrame bytes s
  | .interByteTimeout => Sys2Proof.Machine.execInterByteTimeout s
  | .transmitTake => Sys2Proof.Machine.execTransmitTake s
  | .frameSent => Sys2Proof.Machine.execFrameSent s
  | .peBurstComplete => Sys2Proof.Machine.execPeBurstComplete s
  | .fetchBurstComplete => Sys2Proof.Machine.execFetchBurstComplete s
  | .lineStart o => Sys2Proof.Machine.execLineStart o s
  | .frameStart o => Sys2Proof.Machine.execFrameStart o s
  | .fieldStart o => Sys2Proof.Machine.execFieldStart o s
  | .powerWaitExpiry o => Sys2Proof.Machine.execPowerWaitExpiry o s
  | .clockWaitExpiry o => Sys2Proof.Machine.execClockWaitExpiry o s
  | .backlightWaitExpiry o => Sys2Proof.Machine.execBacklightWaitExpiry o s
  | .supplyWaitExpiry o => Sys2Proof.Machine.execSupplyWaitExpiry o s
  | .receivedByte b => Sys2Proof.Machine.execReceivedByte b s

end Sys2Proof.Machine
end

