-- ==== Sys2Proof/Machine/Pins.lean ====
section
/-! DEFINITION. The levels of the pins as functions of the state: the panel pins, within a line by the pixel position
(R105, R115 to R118, R120, R121), ATTN_N (R162, R163), and SDO/TXD by the bit (R148, R149, R161). True is a high level. -/

namespace Sys2Proof.Machine

/-- A pin level with a polarity flag: 0 asserted high, 1 asserted low (R113). -/
def pinLevel (assertedLow asserted : Bool) : Bool := xor assertedLow asserted

/-- R116: HS is asserted at this position of a line. -/
def Timing.hsAsserted (t : Timing) (x : Nat) : Bool :=
  decide (t.hactive + t.hsyncOffset ≤ x) && decide (x < t.hactive + t.hsyncOffset + t.hsyncWidth)

/-- R117, R118: VS is asserted on this line of the frame. -/
def Timing.vsAsserted (t : Timing) (p : Nat) : Bool :=
  let within (start : Nat) : Bool :=
    decide (start + t.vsyncOffset ≤ p) && decide (p < start + t.vsyncOffset + t.vsyncWidth)
  within 0 || (t.interlace && within t.topBlankStart)

/-- R116: DE is asserted at the active positions of active lines. -/
def Timing.deAsserted (t : Timing) (p x : Nat) : Bool :=
  match t.lineKind p with
  | .active _ => decide (x < t.hactive)
  | .blank => false

/-- HS of an output at position `x` of the line in progress; deasserted while timing is stopped (R120). -/
def State.hsPin (s : State) (o : OutputId) (x : Nat) : Bool :=
  let u := s.ou o
  pinLevel u.timing.hsLow (u.timingRuns && u.timing.hsAsserted x)

/-- VS of an output on the line in progress. -/
def State.vsPin (s : State) (o : OutputId) : Bool :=
  let u := s.ou o
  pinLevel u.timing.vsLow (u.timingRuns && u.timing.vsAsserted u.scanLine)

/-- DE of an output at position `x` of the line in progress. -/
def State.dePin (s : State) (o : OutputId) (x : Nat) : Bool :=
  let u := s.ou o
  pinLevel u.timing.deLow (u.timingRuns && u.timing.deAsserted u.scanLine x)

/-- R105: a colour on the data pins: red on bits 23..16, green on 15..8, blue on 7..0. -/
def Colour.word (c : Colour) : BitVec 24 := c.r ++ c.g ++ c.b

/-- D[23:0] of an output at position `x` of the line in progress: the colour driven, 0 elsewhere (R105, R116). -/
def State.dataPins (s : State) (o : OutputId) (x : Nat) : BitVec 24 :=
  let u := s.ou o
  if u.timingRuns then ((u.driven.getD []).getD x .black).word else 0

/-- R120: PCLK while timing is stopped, the level just before the sampling edge. -/
def State.pclkRest (s : State) (o : OutputId) : Bool := (s.ou o).timing.pclkFalling

/-- R121: PWREN, high when on. -/
def State.pwrenPin (s : State) (o : OutputId) : Bool := (s.ou o).pwren

/-- R121: BLEN, high when on. -/
def State.blenPin (s : State) (o : OutputId) : Bool := (s.ou o).blen

/-- R162, R163: ATTN_N, read through its external pull-up. -/
def State.attnPin (s : State) : Bool := !s.attnLow

/-- R148, R161: the levels of TXD, bit time by bit time, from the moment a frame was taken: its bytes as consecutive
characters. -/
def OutboundFrame.txdLevels (f : OutboundFrame) : List Bool := f.bytes.flatMap uartCharacter

/-- SDO/TXD, `none` for high-impedance (R148, R149, R161, R163). In a UART mode the level `n` bit times after the frame in
the transmit position was taken: its characters, and idle high with none, after them, and in hard reset. In SPI mode with
CS_N low the level that CS_N's fall or SCK's last falling edge put there; high-impedance also after a hard reset until
CS_N's next fall, should CS_N have stayed low (log 15). -/
def State.sdoPin (s : State) (n : Nat) : Option Bool :=
  match s.linkMode with
  | none => none
  | some (.uart _) => some (s.inReset || (s.tx.elim [] OutboundFrame.txdLevels).getD n true)
  | some .spi => if s.wire.selected ∧ ¬ s.inReset then some s.wire.sdo else none

end Sys2Proof.Machine
end

