-- ==== Sys2Proof/Safety.lean ====
section
/-! DEFINITION. The vocabulary of the statements: what taking a request means, the shape of its answer, and the laws of
the device the spec states. -/

namespace Sys2Proof.Machine

/-! ### Taking a request (R168) -/

/-- R168, R169: the Request Handler takes frames: the part is not in reset, nothing is held, and a reply entry is free. -/
def HandlerFree (s : State) : Prop :=
  s.inReset = false ∧ s.held = none ∧ s.replies.length + s.pendingReplies.length < 8

/-- R168: the frame at the head of the arrival list is taken as a new request with this seq, request code and arguments:
its seq is neither cached (R170) nor pending (R171). -/
def Taking (s : State) (seq code : Byte) (args : List Byte) : Prop :=
  HandlerFree s ∧ s.headFrame = some ⟨seq, code :: args⟩ ∧ s.cached seq = none ∧ s.isPending seq = false

/-- R168, R193: the row is a request row: one of the catalogue, or UNKNOWN_REQUEST. -/
def isRequest (i : Instr) : Prop := (requestCode i).isSome = true ∨ i = .unknownRequest

/-- R168, R193: the row that takes a frame: the row of its request code, UNKNOWN_REQUEST for a code outside the catalogue,
any request row for an empty payload (log 1). -/
def Handles (i : Instr) (f : RequestFrame) : Prop :=
  match f.payload with
  | [] => isRequest i
  | code :: _ => requestCode i = some code ∨ (i = .unknownRequest ∧ code ∉ catalogue)

/-- R157: the state with the slot at the head of the arrival list released. -/
def slotReleased (s : State) : State :=
  { s with slots := s.slots.set (s.arrival.headD 0) none, arrival := s.arrival.tail }

/-- R168, R172, R175: the state with a reply produced by execution queued and cached, and the slot released. -/
def answered (seq : Byte) (payload : List Byte) (s : State) : State :=
  { slotReleased s with replies := s.replies ++ [⟨seq, payload⟩], cache := cacheInsert ⟨seq, payload⟩ s.cache }

/-- R173: the state with the request bound to a pending-reply entry, and the slot released. -/
def boundTo (seq code : Byte) (owner : Block) (ref : PendingRef) (s : State) : State :=
  { slotReleased s with pendingReplies := s.pendingReplies ++ [⟨seq, code, owner, ref⟩] }

/-- R176: a rule's table of checks, each row true when its check fails: what the first failure gives. -/
def firstFailure {α : Type} (checks : List (Bool × α)) : Option α := (checks.find? (·.1)).map (·.2)

/-- The answer by a table of checks: a refusal of two bytes that changes no state (R176), or the state `done`. -/
def answerBy (seq code : Byte) (checks : List (Bool × Status)) (s done : State) : State :=
  (firstFailure checks).elim done fun st => answered seq [code, st.code] s

/-- The answer by a table of checks whose refusals carry an index (R63, R114). -/
def answerByIndex (seq code : Byte) (checks : List (Bool × Status × Byte)) (s done : State) : State :=
  (firstFailure checks).elim done fun c => answered seq [code, c.1.code, c.2] s

/-- R11: the checks that begin DISCARD_SURFACE, SEAL_SURFACE, REOPEN_SURFACE and GET_SURFACE. -/
def surfaceChecks (args : List Byte) (s : State) : List (Bool × Status) :=
  [(decide (args.length ≠ 1), .badLength), (decide (64 ≤ arg8 args 0), .badArgument),
   (decide ((s.surface (arg8 args 0)).state = .empty), .noSuchSurface)]

/-- R173: every pending-reply entry is occupied. -/
def tableFull (s : State) : Bool := decide (4 ≤ s.pendingReplies.length)

/-- R37: a surface gains one job reference, and `w` writers. -/
def withUse (id w : Nat) (s : State) : State :=
  s.setSurface id { s.surface id with jobRefs := (s.surface id).jobRefs + 1, writers := (s.surface id).writers + w }

/-- R35: an entry joins the Job Queue at the tail. -/
def queued (k : JobKind) (s : State) : State := s.setPe { s.pe with jobs := s.pe.jobs ++ [⟨k, 0⟩] }

/-- R148, R149: a whole byte is about to come in: RXD has been high, or CS_N is low, having fallen if it was high. -/
def wholeBegun (s : State) : State :=
  match s.linkMode with
  | some (.uart _) => { s with wire := { s.wire with awaitsHigh := false } }
  | some .spi => if s.wire.selected then s else selectLink s
  | none => s

/-- R149, R161: the receiver has handled a whole byte: as an SPI target the outbound half of the exchange
follows, and SCK is low again. -/
def wholeEnded (s : State) : State :=
  match s.linkMode with
  | some .spi => driveSdo (exchangeSent s)
  | some (.uart _) | none => s

/-- R10: scan references given up as one claim: the counts are lowered, and then each surface named is settled, in the
order named (log 12). -/
def scansGivenUp (uses : List Nat) (s : State) : State :=
  uses.foldl (fun w id => settleSurface id w)
    { s with surfaces := s.surfaces.mapIdx fun i r => { r with scanRefs := r.scanRefs - uses.count i } }

/-- R8, R10: the uses of an entry given up as one claim: one job ref on each surface it names and one writer on its
destination, and then each surface of `settled` is settled, in that order (log 12). -/
def jobGivenUp (settled : List Nat) (k : JobKind) (s : State) : State :=
  settled.foldl (fun w id => settleSurface id w)
    { s with surfaces := s.surfaces.mapIdx fun i r =>
        { r with jobRefs := r.jobRefs - (if i ∈ k.surfaces then 1 else 0)
                 writers := r.writers - (if k.destination = some i then 1 else 0) } }

/-- R6: `n` granules from granule `b` on exist and are free. -/
def windowFree (map : List (Option Nat)) (b n : Nat) : Prop := ∀ g, b ≤ g → g < b + n → map.getD g (some 0) = none

/-! ### The Request Handler and the Link Port -/

/-- R167, R172, R173, R175: the capacities of the Request Handler's collections, the seqs distinct, and room for the
reply of a held UPLOAD_DATA (R169). -/
def HandlerLaw (s : State) : Prop :=
  s.replies.length + s.pendingReplies.length ≤ 8 ∧ s.pendingReplies.length ≤ 4 ∧ s.cache.length ≤ 8 ∧
    (s.cache.map (·.seq)).Nodup ∧ (s.pendingReplies.map (·.seq)).Nodup ∧
    (∀ p ∈ s.pendingReplies, s.cached p.seq = none) ∧
    (s.held = some .upload → s.replies.length + s.pendingReplies.length < 8 ∧
      s.headFrame.elim False fun f => s.cached f.seq = none ∧ s.isPending f.seq = false) ∧
    (s.draining = true → s.pendingReplies = [])

/-- R157: six slots; the arrival list holds the numbers of the occupied ones, none twice. -/
def SlotsLaw (s : State) : Prop :=
  s.slots.length = 6 ∧ s.arrival.Nodup ∧
    (∀ i ∈ s.arrival, i < 6) ∧ (∀ i < 6, (s.slots.getD i none).isSome = true ↔ i ∈ s.arrival)

/-- R152, R153: the receiver's state and what its holding buffer holds. -/
def ReceiverLaw (s : State) : Prop :=
  match s.rx.phase with
  | .hunt => s.rx.bytes = []
  | .header => s.rx.bytes.length < 5 ∧ (2 ≤ s.rx.bytes.length → arg16 s.rx.bytes 0 ≤ 1024)
  | .body => arg16 s.rx.bytes 0 ≤ 1024 ∧ 5 ≤ s.rx.bytes.length ∧ s.rx.bytes.length < 5 + arg16 s.rx.bytes 0
  | .check => arg16 s.rx.bytes 0 ≤ 1024 ∧ 5 + arg16 s.rx.bytes 0 ≤ s.rx.bytes.length ∧
      s.rx.bytes.length < 7 + arg16 s.rx.bytes 0

/-- R147, R148, R149: the wires of the latched mode alone are in use; a UART character in progress begins with its start
bit and holds fewer than ten bits, an exchange in progress fewer than eight, and none is in progress with CS_N high. With
CS_N and SCK low SDO has the bit of the offered byte that SCK's next rising edge samples. -/
def WireLaw (s : State) : Prop :=
  match s.linkMode with
  | some (.uart _) => s.wire.selected = false ∧ s.wire.bits.length < 10 ∧ s.wire.bits.headD false = false ∧
      (s.wire.awaitsHigh = true → s.wire.bits = []) ∧ s.wire.sckHigh = false ∧ s.wire.sdo = false
  | some .spi => s.wire.awaitsHigh = false ∧ s.wire.bits.length < 8 ∧ (s.wire.selected = false → s.wire = .reset) ∧
      (s.wire.selected = true → s.wire.sckHigh = false →
        s.wire.sdo = (spiExchange s.spiOffer).getD s.wire.bits.length false)
  | none => s.wire = .reset

/-- R160, R161: a reply being sent stands at the head of the reply queue, and its frame carries that reply; the frame in
the transmit position has a byte still to be sent, and only exchanges advance it. -/
def TransmitLaw (s : State) : Prop :=
  s.tx.elim True fun f =>
    f.sent < f.bytes.length ∧ (s.linkMode ≠ some .spi → f.sent = 0) ∧
      (f.isReply = true → ∃ r aux, s.replies.head? = some r ∧ f.bytes = linkFrame kindReply r.seq aux r.payload)

/-! ### The Notice Queue -/

/-- R181, R185: at most fifteen ordinary entries and one marker; no two unsent entries share a key; notice seqs below
256, distinct, and none equal to the next one; the sent entries are the oldest. -/
def NoticeLaw (s : State) : Prop :=
  s.ordinaryCount ≤ 15 ∧ (s.notices.filter fun e => e.notice.isMarker).length ≤ 1 ∧
    ((s.notices.filter fun e => !e.sent).map (·.notice.key)).Nodup ∧ (s.notices.map (·.seq)).Nodup ∧
    (∀ e ∈ s.notices, e.seq < 256) ∧ s.nextNotice < 256 ∧ s.nextNotice ∉ s.notices.map (·.seq) ∧
    s.notices.Pairwise fun older newer => newer.sent = true → older.sent = true

/-! ### Outputs and presentation -/

/-- R113: every field of a timing set is in its range. -/
def Timing.inRange (t : Timing) : Prop :=
  6 ≤ t.divider ∧ t.divider ≤ 255 ∧ 16 ≤ t.hactive ∧ t.hactive ≤ 1280 ∧ t.hactive % 8 = 0 ∧
    24 ≤ t.hblank ∧ t.hblank ≤ 1024 ∧ t.hsyncOffset + 8 ≤ t.hblank ∧ 1 ≤ t.hsyncWidth ∧
    t.hsyncOffset + t.hsyncWidth ≤ t.hblank ∧ 8 ≤ t.vactive ∧ t.vactive ≤ 1024 ∧
    (t.interlace = true → 16 ≤ t.vactive ∧ t.vactive % 2 = 0) ∧ 2 ≤ t.vblank ∧ t.vblank ≤ 255 ∧
    t.vsyncOffset + 1 ≤ t.vblank ∧ 1 ≤ t.vsyncWidth ∧ t.vsyncOffset + t.vsyncWidth ≤ t.vblank ∧
    (t.flicker = true → t.interlace = true) ∧ t.tPwr ≤ 255 ∧ t.tClk ≤ 255

/-- R121: the state and the timer a sequence step fixes. -/
def stepFixes (u : OutputUnit) : Prop :=
  match u.step with
  | .off => u.state = .off ∧ u.timer = none
  | .powerWait => u.state = .powerUp ∧ u.timer = some u.timing.tPwr
  | .clockWait => u.state = .powerUp ∧ u.timer = some u.timing.tClk
  | .showing => (u.state = .running ∨ u.state = .ending) ∧ u.timer = none
  | .backlightWait => u.state = .powerDown ∧ u.timer = some u.timing.tClk
  | .supplyWait => u.state = .powerDown ∧ u.timer = some u.timing.tPwr

/-- R113, R118, R119, R121, R122, R135 on one output: the step fixes state and timer; a valid timing set is in range
(interlace and flicker on Output 1 only), an invalid one reads 0 and keeps the output OFF; the field is TOP with
interlace 0, while timing is stopped, and before the top field's blank, and BOTTOM after that blank's first line. -/
def outputLawful (o : OutputId) (u : OutputUnit) : Prop :=
  stepFixes u ∧ (u.valid = true → u.timing.inRange) ∧ (u.valid = false → u.timing = .zero ∧ u.step = .off) ∧
    (o = .out0 → u.timing.interlace = false ∧ u.timing.flicker = false) ∧
    (u.timing.interlace = false ∨ u.timingRuns = false ∨ u.scanLine < u.timing.topBlankStart → u.field = .top) ∧
    (u.timing.interlace = true → u.timingRuns = true → u.timing.topBlankStart < u.scanLine → u.field = .bottom)

/-- `outputLawful` on both outputs. -/
def OutputLaw (s : State) : Prop := outputLawful .out0 s.ou0 ∧ outputLawful .out1 s.ou1

/-- R61 on one output: at most three queued frames; in OFF and POWER_DOWN no frame and no binding; every record is its
output's, with at most four layers and a token in 1..65535. -/
def presentationLawful (o : OutputId) (u : OutputUnit) (p : Presentation) : Prop :=
  p.queue.length ≤ 3 ∧
    (u.state = .off ∨ u.state = .powerDown →
      p.queue = [] ∧ p.current = none ∧ p.binding = none ∧ p.pendingBinding = .noChange) ∧
    p.token ≤ 65535 ∧
    ∀ r ∈ p.queue ++ p.current.toList, r.output = o ∧ r.layers.length ≤ 4 ∧ 1 ≤ r.token ∧ r.token ≤ 65535

/-- `presentationLawful` on both outputs. -/
def PresentationLaw (s : State) : Prop :=
  presentationLawful .out0 s.ou0 s.pres0 ∧ presentationLawful .out1 s.ou1 s.pres1

/-- R85 on one output: N is formed from what the output holds. -/
def reservedLawful (u : OutputUnit) (p : Presentation) : Prop :=
  p.loadN = reservedN u.timing.fetchFactor p.loads p.cursorTerm

/-- R88, R93: the share is 4..9, each N is that of R85, and twelve times the sum of the reserved loads never exceeds the
share. -/
def BudgetLaw (s : State) : Prop :=
  4 ≤ s.share ∧ s.share ≤ 9 ∧ reservedLawful s.ou0 s.pres0 ∧ reservedLawful s.ou1 s.pres1 ∧
    12 * (s.pres0.loadN * s.ou1.loadD + s.pres1.loadN * s.ou0.loadD) ≤ s.share * s.ou0.loadD * s.ou1.loadD

/-- R106 on one output: 256 entries each; while the mark is clear both palettes hold the same colours; in OFF it is
clear. -/
def paletteLawful (u : OutputUnit) : Prop :=
  u.active.length = 256 ∧ u.staging.length = 256 ∧ (u.palettePending = false → u.staging = u.active) ∧
    (u.state = .off → u.palettePending = false)

/-- `paletteLawful` on both outputs. -/
def PaletteLaw (s : State) : Prop := paletteLawful s.ou0 ∧ paletteLawful s.ou1

/-! ### The line stores -/

/-- R117, R118: the first active line of the frame after line `p`. -/
def Timing.nextActive (t : Timing) (p : Nat) : Option Nat :=
  (List.range t.frameLines).findSome? fun q =>
    if p < q then
      match t.lineKind q with
      | .active y => some y
      | .blank => none
    else none

/-- R138: the active line being fetched for once line `p` of the frame has begun: the next active one, but on an active
line before a blank group none, since its fetch begins with the group. -/
def Timing.fetchedLine (t : Timing) (p : Nat) : Option Nat :=
  match t.lineKind p, t.lineKind (p + 1) with
  | .active _, .blank => none
  | _, _ => t.nextActive p

/-- R136: the frame lines the halves in a condition serve, half by half. -/
def OutputUnit.serving (u : OutputUnit) (c : HalfCondition) : List (List Nat) :=
  ([u.halfA, u.halfB].filter fun h => decide (h.condition = c)).map (·.lines)

/-- R136, R138, R144 on one output: while timing runs, a half is FETCHING exactly for the line of `fetchedLine`
and a half is SHOWN exactly for the active line in progress; while timing is stopped both halves are FREE. -/
def lineStoreLawful (u : OutputUnit) : Prop :=
  if u.timingRuns then
    u.scanLine < u.timing.frameLines ∧
      u.serving .fetching = ((u.timing.fetchedLine u.scanLine).map u.timing.sourceLines).toList ∧
      u.serving .shown = (match u.timing.lineKind u.scanLine with
        | .active y => [u.timing.sourceLines y]
        | .blank => [])
  else u.halfA = .free ∧ u.halfB = .free

/-- `lineStoreLawful` on both outputs. -/
def LineStoreLaw (s : State) : Prop := lineStoreLawful s.ou0 ∧ lineStoreLawful s.ou1

/-! ### Surfaces -/

/-- R2, R3: the fields of a record that describes a surface. -/
def surfaceShaped (r : Surface) : Prop :=
  1 ≤ r.width ∧ r.width ≤ 2048 ∧ 1 ≤ r.height ∧ r.height ≤ 2048 ∧ (r.format = .ov2 → r.transform = .t0) ∧
    (r.storedWidth, r.storedHeight) = storedSize r.transform r.width r.height ∧
    r.stride = strideOf r.format r.storedWidth ∧ r.granules = granulesOf r.stride r.storedHeight ∧
    r.base + r.granules ≤ 512

/-- R2, R3, R5: 64 records and 512 granules; the counts of an EMPTY record read 0; a granule is held by a surface exactly
when it lies in that surface's region. -/
def SurfaceTableLaw (s : State) : Prop :=
  s.surfaces.length = 64 ∧ s.granules.length = 512 ∧
    (∀ id < 64, (s.surface id).state ≠ .empty → surfaceShaped (s.surface id)) ∧
    (∀ id < 64, (s.surface id).state = .empty → (s.surface id).scanRefs = 0 ∧ (s.surface id).jobRefs = 0 ∧
      (s.surface id).writers = 0 ∧ (s.surface id).sealPending = false) ∧
    (∀ g < 512, ∀ id < 64, s.granules.getD g none = some id ↔
      (s.surface id).state ≠ .empty ∧ (s.surface id).base ≤ g ∧ g < (s.surface id).base + (s.surface id).granules) ∧
    (∀ g < 512, (s.granules.getD g none).elim True fun id => id < 64)

/-- R8: every layer entry and cursor binding that names a surface, in both outputs. -/
def State.scanUses (s : State) : List Nat := s.pres0.scanUses ++ s.pres1.scanUses

/-- R8: the job references of a surface by the Job Queue. -/
def State.jobsNaming (s : State) (id : Nat) : Nat := (s.pe.jobs.filter fun j => j.kind.surfaces.contains id).length

/-- R8: the writers of a surface by the Job Queue. -/
def State.jobsWriting (s : State) (id : Nat) : Nat :=
  (s.pe.jobs.filter fun j => decide (j.kind.destination = some id)).length

/-- R4: what a surface's state says of its uses. -/
def stateFits (r : Surface) : Prop :=
  match r.state with
  | .empty => r.scanRefs = 0 ∧ r.jobRefs = 0
  | .filling => r.scanRefs = 0 ∧ r.sealPending = false
  | .sealing => r.scanRefs = 0 ∧ 0 < r.writers ∧ r.sealPending = true
  | .ready => r.writers = 0 ∧ r.sealPending = false
  | .discarding => r.writers = 0 ∧ r.sealPending = false ∧ 0 < r.scanRefs + r.jobRefs

/-- R4, R8: the counts of every surface are the uses that name it, and fit its state; no use names a record outside the
table. -/
def UseCountLaw (s : State) : Prop :=
  (∀ id ∈ s.scanUses, id < 64) ∧ (∀ j ∈ s.pe.jobs, ∀ id ∈ j.kind.surfaces, id < 64) ∧
    ∀ id < 64, (s.surface id).scanRefs = s.scanUses.count id ∧ (s.surface id).jobRefs = s.jobsNaming id ∧
      (s.surface id).writers = s.jobsWriting id ∧ stateFits (s.surface id)

/-- R65, R74: what the checks at acceptance leave true of what an output holds: every layer's source rectangle lies
within the stored bounds of its surface, and every cursor surface is a 64 × 64 OV2. -/
def framesShaped (s : State) (p : Presentation) : Prop :=
  (∀ r ∈ p.queue ++ p.current.toList, ∀ l ∈ r.layers,
    l.source.within (s.surface l.surface).storedWidth (s.surface l.surface).storedHeight = true) ∧
    ∀ id ∈ bindingSurfaces p.binding ++ p.pendingBinding.surfaces,
      (s.surface id).format = .ov2 ∧ (s.surface id).width = 64 ∧ (s.surface id).height = 64

/-- `framesShaped` on both outputs. -/
def FrameShapeLaw (s : State) : Prop := framesShaped s s.pres0 ∧ framesShaped s s.pres1

/-! ### The Pixel Engine -/

/-- R35, R38, R40, R42, R49: what the checks at acceptance leave true of a queued job. -/
def jobShaped (s : State) (k : JobKind) : Prop :=
  match k with
  | .fill dst r value => r.within (s.surface dst).width (s.surface dst).height = true ∧
      value < 2 ^ (s.surface dst).format.bpp
  | .copy dst src r dx dy _ => r.within (s.surface src).width (s.surface src).height = true ∧
      (Rect.mk dx dy r.w r.h).within (s.surface dst).width (s.surface dst).height = true ∧
      (s.surface src).format = (s.surface dst).format
  | .stream dst r => r.within (s.surface dst).width (s.surface dst).height = true
  | .read target r _ => r.within (s.surface target).width (s.surface target).height = true ∧
      transferBytes (s.surface target).format r.area ≤ 1016
  | .fence _ => True

/-- R35, R36: at most eight entries, each as its acceptance left it; only the entry at the head has progress, no further
than the pixels it can set; an empty queue holds, requests and awaits no burst. -/
def JobQueueLaw (s : State) : Prop :=
  s.pe.jobs.length ≤ 8 ∧ (∀ j ∈ s.pe.jobs, jobShaped s j.kind) ∧ (∀ j ∈ s.pe.jobs.tail, j.progress = 0) ∧
    s.pe.jobs.head?.elim (s.pe.heldBurst = none ∧ s.pe.request = none ∧ s.engineBurstLive = false)
      fun j => j.progress + s.pe.heldPixels ≤ s.readyPixels j.kind

/-- R47, R48: a session is open exactly when the Job Queue holds a STREAM entry, which is then the only one; its byte
counts fit the staging buffer; with no session the buffer is empty. -/
def SessionLaw (s : State) : Prop :=
  match s.pe.session with
  | none => s.pe.jobs.filter Job.isStream = [] ∧ s.pe.staging = []
  | some x =>
    (s.pe.jobs.filter Job.isStream).map (·.kind) = [.stream x.dst x.rect] ∧
      x.expected = transferBytes (s.surface x.dst).format x.rect.area ∧ 1 ≤ x.expected ∧
      x.written ≤ x.received ∧ x.received ≤ x.expected ∧ s.pe.staging.length = x.received - x.written ∧
      s.pe.staging.length ≤ 4096 ∧ x.endRequested = x.link.isSome ∧ (s.surface x.dst).state = .filling ∧
      (∀ j ∈ s.pe.jobs.filter Job.isStream, x.written = s.writtenAfter j.kind x j.progress) ∧
      (s.pe.jobs.head?.elim false Job.isStream = true →
        s.pe.heldBurst.elim True fun h => h.changes = [] → h.pixels = 0)

/-- R36, R44, R45, R54: the Pixel Engine has done what it can do without a burst: it is stopped, holds no entry, has
requested a burst or awaits one, or its active job waits for data. -/
def EngineRestLaw (s : State) : Prop :=
  s.pe.stopped = true ∨ s.pe.request.isSome = true ∨ s.engineBurstLive = true ∨
    match s.pe.jobs with
    | [] => True
    | j :: rest => s.engineMove j rest = .wait

/-! ### Frame memory and the Memory Port -/

/-- R1: the canonical form of frame memory. -/
def MemoryLaw (s : State) : Prop := Memory.wf s.mem = true

/-- R145: a request stands only while the port is busy. -/
def PortLaw (s : State) : Prop :=
  s.port.inFlight = none → s.ou0.fetchRequest = none ∧ s.ou1.fetchRequest = none ∧ s.pe.request = none

/-- The burst a grant carries. -/
def Grant.addr : Grant → Nat
  | .fetch _ b _ => b.addr
  | .engine b _ => b.addr

/-- R1, R36, R137: the burst in progress is one of frame memory. -/
def grantExists (s : State) : Prop := s.port.inFlight.elim True fun g => g.addr < 2097152

/-- R1, R36, R137: every burst requested, to be requested or in progress is a block of frame memory. -/
def BurstLaw (s : State) : Prop :=
  grantExists s ∧ (s.pe.request.elim True fun b => b.addr < 2097152) ∧
    (s.pe.heldBurst.elim True fun h => h.addr < 2097152) ∧
    ∀ b ∈ s.ou0.halfA.todo ++ s.ou0.halfB.todo ++ s.ou1.halfA.todo ++ s.ou1.halfB.todo, b.addr < 2097152

/-- Every law above. -/
def DeviceLaw (s : State) : Prop :=
  HandlerLaw s ∧ SlotsLaw s ∧ WireLaw s ∧ ReceiverLaw s ∧ TransmitLaw s ∧ NoticeLaw s ∧ OutputLaw s ∧ PresentationLaw s ∧
    BudgetLaw s ∧ PaletteLaw s ∧ LineStoreLaw s ∧ SurfaceTableLaw s ∧ UseCountLaw s ∧ FrameShapeLaw s ∧ JobQueueLaw s ∧
    SessionLaw s ∧ EngineRestLaw s ∧ MemoryLaw s ∧ PortLaw s ∧ BurstLaw s

end Sys2Proof.Machine
end

