-- ==== Sys2Proof/Certificates/Slice0/Obligations.lean ====
section
/-! DEFINITION. The statements for the provers, chapter by chapter of spec/. A statement of a request has the form: when
the Request Handler takes the frame (`Taking`), exec answers the next state that the rule's table of checks gives
(`answerBy`: the refusal of the first failing check, which changes nothing but the handler, or the state written out). -/

section

open Sys2Proof Sys2Proof.Machine

/-! ### The queue of commands and reset -/

/-- A step runs the command at the front of the queue on the state with the rest of the queue. -/
def Obligations.StepRunsTheFrontCommand : Prop :=
  ∀ (c : Instr) (rest : List Instr) (s : State),
    step { s with pending := c :: rest } = exec c { s with pending := rest }

/-- The model's choice (log 3): with an empty queue the block idles; and no command changes the queue. R1; the model's
choice (log 16): no command but a burst completion stops, a completion stops only on a burst outside frame memory, and
where the burst in progress is one of frame memory every step answers a next state. -/
def Obligations.OutcomesAndTheQueue : Prop :=
  ((∀ s : State, s.pending = [] → step s = .next s) ∧
     ∀ (c : Instr) (s t : State), exec c s = .next t → t.pending = s.pending) ∧
  ((∀ s : State, grantExists s → ∃ t, step s = .next t) ∧
     (∀ (c : Instr) (s : State), c ≠ .peBurstComplete → c ≠ .fetchBurstComplete → ∃ t, exec c s = .next t) ∧
     ∀ (s : State) (a : Nat), 2097152 ≤ a →
       (∀ o i live, s.port.inFlight = some (.fetch o ⟨i, a⟩ live) → exec .fetchBurstComplete s = .fault (.noSuchAddress a)) ∧
       ∀ b live, s.port.inFlight = some (.engine b live) → b.addr = a → exec .peBurstComplete s = .fault (.noSuchAddress a))

/-- R22, R58, R81, R106, R113, R131, R144, R145, R164, R166, R190: the values after the first hard reset. The straps
at SPI, the port idle and the model's own fields (era, scanLine, the zeros of EMPTY records) are the model's (logs 4,
5, 19, 20, 21). Every law of the device holds after reset. -/
def Obligations.ResetValues : Prop :=
  (let s := State.reset
   s.inReset = false ∧ s.wire = ⟨false, [], false, false, false⟩ ∧
     s.rx = ⟨.hunt, []⟩ ∧ s.slots = List.replicate 6 none ∧ s.arrival = [] ∧ s.tx = none ∧
     s.held = none ∧ s.replies = [] ∧ s.cache = [] ∧ s.pendingReplies = [] ∧
     s.notices = [⟨.ready .powerOn, 0, false⟩] ∧ s.nextNotice = 1 ∧
     s.surfaces.length = 64 ∧ (∀ id, (s.surface id).state = .empty ∧ (s.surface id).scanRefs = 0 ∧
       (s.surface id).jobRefs = 0 ∧ (s.surface id).writers = 0 ∧ (s.surface id).sealPending = false) ∧
     s.granules = List.replicate 512 none ∧ (∀ a, Memory.read s.mem a = none) ∧
     s.pe.jobs = [] ∧ s.pe.stopped = false ∧ s.pe.session = none ∧ s.pe.staging = [] ∧ s.pe.request = none ∧
     s.share = 4 ∧ s.port.lastScan = .out1 ∧ s.pending = [] ∧
     ∀ o, (s.pres o).queue = [] ∧ (s.pres o).current = none ∧ (s.pres o).token = 0 ∧ (s.pres o).binding = none ∧
       (s.pres o).pendingBinding = .noChange ∧ (s.pres o).position = ⟨0, 0, false⟩ ∧
       (s.pres o).pendingPosition = ⟨0, 0, false⟩ ∧ (s.pres o).loadN = 0 ∧ (s.ou o).timing = .zero ∧
       (s.ou o).valid = false ∧ (s.ou o).state = .off ∧ (s.ou o).step = .off ∧ (s.ou o).timer = none ∧
       (∀ i < 256, (s.ou o).active.getD i .black = ⟨byteOf i, byteOf i, byteOf i⟩) ∧
       (s.ou o).active.length = 256 ∧ (s.ou o).staging = (s.ou o).active ∧ (s.ou o).palettePending = false ∧
       (s.ou o).halfA.condition = .free ∧ (s.ou o).halfB.condition = .free ∧ (s.ou o).carry = none ∧
       (s.ou o).head = none ∧ (s.ou o).driven = none ∧ (s.ou o).field = .top ∧ (s.ou o).framesShown = 0 ∧
       (s.ou o).lineMiss = 0) ∧
  (DeviceLaw State.reset)

/-! ### Laws every step keeps -/

/-- R1: frame memory keeps its canonical form, so that equal memories are equal data. R106: the palettes keep 256
entries and agree while no copy is pending. R145: while the Memory Port is idle no request stands. -/
def Obligations.MemoryPaletteAndPortLawsAreKept : Prop :=
  (∀ s t : State, MemoryLaw s → step s = .next t → MemoryLaw t) ∧
  (∀ s t : State, PaletteLaw s → step s = .next t → PaletteLaw t) ∧
  (∀ s t : State, PortLaw s → step s = .next t → PortLaw t)

/-- R157, R167, R172, R173, R175: the slots and the handler's collections keep their capacities and distinct seqs.
R147 to R149, R152, R153, R160, R161: the wires of the latched mode alone are in use, and hold part of a byte at most;
the receiver's state fits its holding buffer; a reply being sent heads the reply queue and has a byte to send. R181 to
R185: the Notice Queue keeps its capacity, one unsent entry per key, distinct seqs, and the sent entries oldest. -/
def Obligations.HandlerLinkAndNoticeLawsAreKept : Prop :=
  (∀ s t : State, HandlerLaw s → SlotsLaw s → step s = .next t → HandlerLaw t ∧ SlotsLaw t) ∧
  (∀ s t : State, step s = .next t → (WireLaw s → WireLaw t) ∧ (ReceiverLaw s → ReceiverLaw t) ∧
    (TransmitLaw s → TransmitLaw t)) ∧
  (∀ s t : State, NoticeLaw s → step s = .next t → NoticeLaw t)

/-- R61, R113, R118, R119, R121, R135: state and timer fit the sequence step; a valid timing set is in range; the field
is TOP up to the field start and BOTTOM after it; an output that is OFF or powering down holds no frame and no cursor
binding. -/
def Obligations.OutputLawIsKept : Prop :=
  ∀ s t : State, OutputLaw s → PresentationLaw s → step s = .next t → OutputLaw t ∧ PresentationLaw t

/-- R85, R88, R91, R93: the reserved loads are those of what the outputs hold, and never exceed the share. -/
def Obligations.BudgetIsNeverExceeded : Prop :=
  ∀ s t : State, OutputLaw s → PresentationLaw s → BudgetLaw s → step s = .next t → BudgetLaw t

/-- R136, R138, R140, R144: each output's line store fetches the line that comes next and shows the line in progress.
-/
def Obligations.LineStoreLawIsKept : Prop :=
  ∀ s t : State, OutputLaw s → LineStoreLaw s → step s = .next t → LineStoreLaw t

/-- R2, R3, R5, R65, R74: records and Granule Map agree; what the outputs hold fits the surfaces it names. -/
def Obligations.SurfaceTableLawIsKept : Prop :=
  ∀ s t : State, DeviceLaw s → step s = .next t → SurfaceTableLaw t ∧ FrameShapeLaw t

/-- R4, R8: every count equals the uses that name the surface, and fits its state. -/
def Obligations.UseCountsAreExact : Prop := ∀ s t : State, DeviceLaw s → step s = .next t → UseCountLaw t

/-- R35, R36, R47, R48, R52: the Job Queue, the upload session and the staging buffer stay consistent. R36, R44, R45,
R54: after every step the Pixel Engine is at rest: it has done all it can do without a burst. -/
def Obligations.EngineLawIsKept : Prop :=
  ∀ s t : State, DeviceLaw s → step s = .next t → JobQueueLaw t ∧ SessionLaw t ∧ EngineRestLaw t

/-- R1, R36, R137: every burst requested, awaited or granted is a block of frame memory. -/
def Obligations.BurstsStayInMemory : Prop := ∀ s t : State, DeviceLaw s → step s = .next t → BurstLaw t

/-! ### Taking a request (chapter 10) -/

/-- R168, R170, R171: a retry and an empty payload are answered before any execution, by every request row: the cached
reply again, IN_PROGRESS, or BAD_LENGTH with request code 0x00. R168, R169: while the handler is HELD, or no frame
waits, no request row does anything; and a row leaves the frames of other rows (log 1, log 2). -/
def Obligations.TakingAFrame : Prop :=
  (∀ (i : Instr) (f : RequestFrame) (s : State), HandlerFree s → s.headFrame = some f → Handles i f →
     (∀ r, s.cached f.seq = some r →
       exec i s = .next { slotReleased s with replies := s.replies ++ [⟨f.seq, r.payload⟩] }) ∧
     (s.cached f.seq = none → s.isPending f.seq = true →
       exec i s = .next { slotReleased s with replies := s.replies ++ [⟨f.seq, [f.payload.headD 0, 0x10]⟩] }) ∧
     (s.cached f.seq = none → s.isPending f.seq = false → f.payload = [] →
       exec i s = .next (answered f.seq [0x00, 0x01] s))) ∧
  (∀ (i : Instr) (s : State), isRequest i →
     (¬ HandlerFree s ∨ s.headFrame.elim True fun f => ¬ Handles i f) → exec i s = .next s)

/-- R168 step 3, R177: PING, GET_INFO and an unknown request code. R192, R195: the codes of the statuses and of the
enumerated fields. -/
def Obligations.PingInfoAndUnknown : Prop :=
  ([Status.ok, .badLength, .unknownRequest, .badArgument, .noSuchSurface, .wrongState, .busy, .noSpace, .tableFull,
      .queueFull, .overBudget, .unsupported, .sessionOpen, .noSession, .overrun, .short, .inProgress, .cancelled].map
      Status.code = (List.range 18).map byteOf ∧
   (∀ n : Nat, formatOf n = [Format.ov2, .ix4, .ix8, .rgb16][n]? ∧ transformOf n = [Transform.t0, .t90, .t180, .t270][n]? ∧
     hintOf n = [Hint.low, .high][n]?) ∧
   [Format.ov2, .ix4, .ix8, .rgb16].map Format.code = [0, 1, 2, 3] ∧
   [Transform.t0, .t90, .t180, .t270].map Transform.code = [0, 1, 2, 3] ∧ [Hint.low, .high].map Hint.code = [0, 1] ∧
   [SurfaceState.empty, .filling, .sealing, .ready, .discarding].map SurfaceState.code = [0, 1, 2, 3, 4] ∧
   [OutputState.off, .powerUp, .running, .ending, .powerDown].map OutputState.code = [0, 1, 2, 3, 4] ∧
   [SequenceStep.off, .powerWait, .clockWait, .showing, .backlightWait, .supplyWait].map SequenceStep.code =
     [0, 1, 2, 3, 4, 5] ∧
   [Field.top, .bottom].map Field.code = [0, 1] ∧ [false, true].map flagByte = [0, 1]) ∧
  ∀ (s : State) (seq : Byte) (args : List Byte),
    (Taking s seq 0x01 args → exec .ping s = .next
      (answerBy seq 0x01 [(decide (args.length ≠ 0), .badLength)] s (answered seq [0x01, 0x00] s))) ∧
    (Taking s seq 0x02 args → exec .getInfo s = .next
      (answerBy seq 0x02 [(decide (args.length ≠ 0), .badLength)] s
        (answered seq ([0x02, 0x00, 0x12, 0x06, 1] ++ le16 512 ++ le16 4096 ++ [64, 6] ++
          match s.linkMode with
          | some (.uart baud) => [1, byteOf baud]
          | some .spi | none => [0, 0xFF]) s))) ∧
    ∀ code, Taking s seq code args → code ∉ catalogue → exec .unknownRequest s = .next (answered seq [code, 0x02] s)

/-- R172: the reply cache keeps the eight newest replies, one to a seq. R172, R174: completing the requests of one
reference queues and caches their replies in the order they were taken, frees their entries, and changes nothing else;
with no such entry there is no reply. R174: the reply of one deferred request moves from its entry to the reply queue
and the cache; a request whose entry is no longer occupied gets none. -/
def Obligations.RepliesAndTheCache : Prop :=
  (∀ (r : Reply) (cache : List Reply), cache.length ≤ 8 →
     let newest := cache.filter (fun c => decide (c.seq ≠ r.seq)) ++ [r]
     cacheInsert r cache = newest.drop (newest.length - 8)) ∧
  (∀ (ref : PendingRef) (st : Status) (s : State), (s.pendingReplies.map (·.seq)).Nodup →
     let done := (s.pendingReplies.filter fun p => decide (p.ref = ref)).map fun p => (⟨p.seq, [p.code, st.code]⟩ : Reply)
     completeRef ref st s =
       { s with
         replies := s.replies ++ done
         cache := done.foldl (fun cache r => cacheInsert r cache) s.cache
         pendingReplies := s.pendingReplies.filter fun p => decide (p.ref ≠ ref) }) ∧
  (∀ (seq : Byte) (st : Status) (fields : List Byte) (s : State),
     (s.isPending seq = false → completeSeq seq st fields s = s) ∧
     ∀ p ∈ s.pendingReplies, p.seq = seq → (s.pendingReplies.map (·.seq)).Nodup →
       let r : Reply := ⟨seq, [p.code, st.code] ++ fields⟩
       completeSeq seq st fields s = { s with
         replies := s.replies ++ [r], cache := cacheInsert r s.cache
         pendingReplies := s.pendingReplies.filter fun q => decide (q.seq ≠ seq) })

/-- R57, R178: DEVICE_RESET answers every pending request CANCELLED in the order taken, stops the Pixel Engine, queues
its own OK and holds the Request Handler for the drain. -/
def Obligations.DeviceResetBeginsTheDrain : Prop :=
  ∀ (s : State) (seq : Byte) (args : List Byte), Taking s seq 0x03 args → (s.pendingReplies.map (·.seq)).Nodup →
    let answers := (s.pendingReplies.map fun p => (⟨p.seq, [p.code, 0x11]⟩ : Reply)) ++ [⟨seq, [0x03, 0x00]⟩]
    exec .deviceReset s = .next (answerBy seq 0x03 [(decide (args.length ≠ 0), .badLength)] s
      { slotReleased s with
        replies := s.replies ++ answers
        cache := answers.foldl (fun cache r => cacheInsert r cache) s.cache
        pendingReplies := []
        pe := { s.pe with stopped := true, request := none }
        held := some (.reset seq) })

/-! ### Surfaces (chapter 1) -/

/-- R3: bits per pixel, stored dimensions, stride and region size. R1: what undefining a range of bytes does. R12, R13,
R1: CREATE_SURFACE fills the lowest EMPTY record at the place R6 gives, holds its granules, and makes their content
undefined (a fresh free value, log 5). -/
def Obligations.CreateSurface : Prop :=
  ([Format.ov2, .ix4, .ix8, .rgb16].map Format.bpp = [2, 4, 8, 16] ∧
   (∀ (f : Format) (width : Nat), strideOf f width = (width * f.bpp + 63) / 64 * 8) ∧
   (∀ stride height : Nat, granulesOf stride height = (stride * height + 4095) / 4096) ∧
   (∀ (tr : Transform) (w h : Nat), storedSize tr w h = match tr with
     | .t0 | .t180 => (w, h)
     | .t90 | .t270 => (h, w)) ∧
   ∀ (m : List Host.Cell) (lo hi a : Nat),
     Memory.read (Memory.forget m lo hi) a = if lo ≤ a ∧ a < hi then none else Memory.read m a) ∧
  ∀ (s : State) (seq : Byte) (args : List Byte), Taking s seq 0x10 args →
    let f := formatOf (arg8 args 0)
    let tr := transformOf (arg8 args 1)
    let w := arg16 args 2
    let h := arg16 args 4
    let hint := hintOf (arg8 args 6)
    let size := storedSize (tr.getD .t0) w h
    let stride := (size.1 * (f.getD .ov2).bpp + 63) / 64 * 8
    let n := (stride * size.2 + 4095) / 4096
    let ids := (List.range 64).filter fun id => decide ((s.surface id).state = .empty)
    let id := ids.headD 64
    exec .createSurface s = .next (answerBy seq 0x10
      [(decide (args.length ≠ 7), .badLength),
       (f.isNone || tr.isNone || hint.isNone || decide (w < 1 ∨ 2048 < w ∨ h < 1 ∨ 2048 < h), .badArgument),
       (decide (f = some .ov2 ∧ tr ≠ some .t0), .unsupported),
       (decide (ids = []), .tableFull)] s
      (match s.place n (hint.getD .low) with
        | none => answered seq ([0x10, 0x07] ++ le16 s.longestFreeRun) s
        | some base => answered seq ([0x10, 0x00, byteOf id] ++ le16 base ++ le16 n ++ le16 stride)
            { s with
              surfaces := s.surfaces.set id
                { state := .filling, format := f.getD .ov2, transform := tr.getD .t0, width := w, height := h,
                  storedWidth := size.1, storedHeight := size.2, stride := stride, base := base, granules := n,
                  hint := hint.getD .low, scanRefs := 0, jobRefs := 0, writers := 0, sealPending := false, era := s.era }
              granules := s.granules.mapIdx fun g owner => if base ≤ g ∧ g < base + n then some id else owner
              mem := Memory.forget s.mem (base * 4096) ((base + n) * 4096)
              era := s.era + 1 }))

/-- R6: placement takes the lowest (LOW) or the highest (HIGH) free window of n granules, fails only when there is
none; and the longest free run reported is the longest free window. -/
def Obligations.PlacementIsFirstFit : Prop :=
  ∀ (s : State) (n : Nat), s.granules.length = 512 → 1 ≤ n →
    (∀ hint b, s.place n hint = some b → b + n ≤ 512 ∧ windowFree s.granules b n) ∧
    (∀ hint, s.place n hint = none → ∀ b, ¬ windowFree s.granules b n) ∧
    (∀ b, s.place n .low = some b → ∀ c < b, ¬ windowFree s.granules c n) ∧
    (∀ b, s.place n .high = some b → ∀ c > b, ¬ windowFree s.granules c n) ∧
    (n ≤ s.longestFreeRun ↔ ∃ b, windowFree s.granules b n)

/-- R14, R15: DISCARD_SURFACE of a surface that is DISCARDING or READY. -/
def Obligations.DiscardOfAReadySurface : Prop :=
  ∀ (s : State) (seq : Byte) (args : List Byte), Taking s seq 0x11 args →
    let id := arg8 args 0
    let r := s.surface id
    (args.length ≠ 1 ∨ 64 ≤ id ∨ r.state = .empty ∨ r.state = .ready ∨ r.state = .discarding) →
    exec .discardSurface s = .next (settle (answerBy seq 0x11 (surfaceChecks args s) s
      (if r.state = .discarding then answered seq [0x11, 0x00, 0, 0] s
       else if r.scanRefs = 0 ∧ r.jobRefs = 0 then answered seq [0x11, 0x00, 1, 0]
        { s with
          surfaces := s.surfaces.set id .empty
          granules := s.granules.map fun owner => if owner = some id then none else owner }
       else answered seq [0x11, 0x00, 0, 0] { s with surfaces := s.surfaces.set id { r with state := .discarding } })))

/-- R16, R46, R56: DISCARD_SURFACE of a FILLING or SEALING surface cancels the entries that name it, closes its session,
answers its seal CANCELLED and frees it. R10, R16, R46, R56: cancelling the entries that name a surface takes exactly
them out of the Job Queue and withdraws a burst request and the held burst of an active one. Then, entry by entry in Job
Queue order, its uses are given up, the other surfaces it names being settled, and its deferred request is answered
CANCELLED: a READ's, or the END_UPLOAD of a STREAM, whose session closes. No output, no frame, no memory byte and no
waiting request is touched. The model's choices: the data of a burst of the active one already granted is dropped, a
write's too, since it lands in undefined content only (log 11), and the burst keeps the port until it completes (log
21). -/
def Obligations.DiscardOfAnUnfinishedSurface : Prop :=
  (∀ (s : State) (seq : Byte) (args : List Byte), Taking s seq 0x11 args → args.length = 1 →
     let id := arg8 args 0
     let r := s.surface id
     id < 64 → r.state = .filling ∨ r.state = .sealing →
     let c := cancelNaming id s
     let u := if r.sealPending then completeRef (.seal id) .cancelled c else c
     exec .discardSurface s = .next (settle (answered seq
       [0x11, 0x00, 1, byteOf (s.pe.jobs.filter fun j => j.kind.surfaces.contains id).length]
       { u with
         surfaces := u.surfaces.set id .empty
         granules := u.granules.map fun owner => if owner = some id then none else owner }))) ∧
  (∀ (id : Nat) (s : State),
     let c := cancelNaming id s
     let named (j : Job) : Bool := j.kind.surfaces.contains id
     let kept := s.pe.jobs.filter fun j => !named j
     let taken : State :=
       if s.pe.jobs.head?.elim false named then { s with
         pe := { s.pe with jobs := kept, source := none, heldBurst := none, readOut := [], request := none }
         port := { s.port with inFlight := match s.port.inFlight with
           | some (.engine b _) => some (.engine b false)
           | some (.fetch o b live) => some (.fetch o b live)
           | none => none } }
       else { s with pe := { s.pe with jobs := kept } }
     let cancelled (w : State) (j : Job) : State :=
       let released := jobGivenUp (j.kind.surfaces.filter fun i => decide (i ≠ id)) j.kind w
       match j.kind with
       | .read _ _ link => completeSeq link .cancelled [] released
       | .stream _ _ =>
         released.pe.session.elim released fun x =>
           let closed : State := { released with pe := { released.pe with session := none, staging := [] } }
           x.link.elim closed fun link => completeSeq link .cancelled [] closed
       | .fill _ _ _ | .copy _ _ _ _ _ _ | .fence _ => released
     c = (s.pe.jobs.filter named).foldl cancelled taken ∧
     c.pe.jobs = kept ∧
     (s.pe.jobs.head?.elim false named = true →
       c.pe.heldBurst = none ∧ c.pe.request = none ∧ c.engineBurstLive = false) ∧
     (s.pe.jobs.head?.elim false named = false →
       c.pe.heldBurst = s.pe.heldBurst ∧ c.pe.request = s.pe.request ∧ c.port = s.port) ∧
     (if s.pe.jobs.any (fun j => named j && j.isStream) then c.pe.session = none ∧ (s.pe.session.isSome → c.pe.staging = [])
      else c.pe.session = s.pe.session ∧ c.pe.staging = s.pe.staging) ∧
     ((s.pendingReplies.map (·.seq)).Nodup → ∀ target rect link progress, ⟨.read target rect link, progress⟩ ∈ s.pe.jobs →
       target = id → ∀ p ∈ s.pendingReplies, p.seq = link → p.ref = .job →
         ⟨link, [p.code, 0x11]⟩ ∈ c.replies ∧ c.isPending link = false) ∧
     ∃ jobs source heldBurst readOut request session staging inFlight surfaces granules notices nextNotice replies cache
         pendingReplies,
       c = { s with
         pe := { jobs := jobs, stopped := s.pe.stopped, session := session, staging := staging, source := source,
                 heldBurst := heldBurst, readOut := readOut, request := request }
         port := { inFlight := inFlight, lastScan := s.port.lastScan }
         surfaces := surfaces, granules := granules, notices := notices, nextNotice := nextNotice, replies := replies,
         cache := cache, pendingReplies := pendingReplies })

/-- R17, R18: SEAL_SURFACE makes a FILLING surface without writers READY, or waits for its writers in SEALING. R19,
R20: REOPEN_SURFACE returns an unused READY surface to FILLING; GET_SURFACE reports every field of a record. -/
def Obligations.SealReopenAndGetSurface : Prop :=
  (∀ (s : State) (seq : Byte) (args : List Byte), Taking s seq 0x12 args →
     let id := arg8 args 0
     let r := s.surface id
     exec .sealSurface s = .next (answerBy seq 0x12
       (surfaceChecks args s ++
         [(decide (r.state ≠ .filling), .wrongState),
          (decide (s.pe.session.map (·.dst) = some id), .sessionOpen),
          (decide (r.writers ≠ 0) && tableFull s, .busy)]) s
       (if r.writers = 0 then
         answered seq [0x12, 0x00] { s with surfaces := s.surfaces.set id { r with state := .ready } }
        else boundTo seq 0x12 .surfaceManager (.seal id)
         { s with surfaces := s.surfaces.set id { r with state := .sealing, sealPending := true } }))) ∧
  (∀ (s : State) (seq : Byte) (args : List Byte),
     let id := arg8 args 0
     let r := s.surface id
     (Taking s seq 0x13 args → exec .reopenSurface s = .next (answerBy seq 0x13
       (surfaceChecks args s ++
         [(decide (r.state ≠ .ready), .wrongState), (decide (r.scanRefs ≠ 0 ∨ r.jobRefs ≠ 0), .busy)]) s
       (answered seq [0x13, 0x00] { s with surfaces := s.surfaces.set id { r with state := .filling } }))) ∧
     (Taking s seq 0x14 args → exec .getSurface s = .next (answerBy seq 0x14 (surfaceChecks args s) s
       (answered seq ([0x14, 0x00, r.state.code, r.format.code, r.transform.code] ++ le16 r.width ++ le16 r.height ++
         le16 r.storedWidth ++ le16 r.storedHeight ++ le16 r.stride ++ le16 r.base ++ le16 r.granules ++
         [r.hint.code, byteOf r.scanRefs, byteOf r.jobRefs, byteOf r.writers, flagByte r.sealPending]) s))))

/-- R5, R21: GET_MEMORY_MAP reports the runs of the Granule Map in ascending order. R5, R21: the runs are the map:
laid end to end from granule 0 they give it back, none is empty, and no two neighbours have one owner; with one region
to a surface they number 1 to 129. -/
def Obligations.MemoryMapIsItsRuns : Prop :=
  (∀ (s : State) (seq : Byte) (args : List Byte), Taking s seq 0x15 args →
     exec .getMemoryMap s = .next (answerBy seq 0x15 [(decide (args.length ≠ 0), .badLength)] s
       (answered seq ([0x15, 0x00, byteOf s.runs.length] ++
         (s.runs.map fun r => le16 r.start ++ le16 r.length ++ [r.owner.elim 0xFF byteOf]).flatten) s))) ∧
  (∀ s : State,
     (s.runs.map fun r => List.replicate r.length r.owner).flatten = s.granules ∧
     (∀ i r, s.runs[i]? = some r → 1 ≤ r.length ∧ r.start = ((s.runs.take i).map (·.length)).sum) ∧
     (∀ i r q, s.runs[i]? = some r → s.runs[i + 1]? = some q → r.owner ≠ q.owner) ∧
     (SurfaceTableLaw s → 1 ≤ s.runs.length ∧ s.runs.length ≤ 129))

/-! ### Pixels in frame memory (chapters 1 and 2) -/

/-- R29: every logical pixel of a surface has its own stored position, the one of the table, within the stored bounds,
and every stored position is the image of one logical position. -/
def Obligations.TransformIsOneToOne : Prop :=
  ∀ r : Surface, (r.storedWidth, r.storedHeight) = storedSize r.transform r.width r.height →
    ((r.storedWidth, r.storedHeight) = match r.transform with
      | .t0 => (r.width, r.height)
      | .t90 => (r.height, r.width)
      | .t180 => (r.width, r.height)
      | .t270 => (r.height, r.width)) ∧
    (∀ x y, x < r.width → y < r.height →
      (r.storedPosition x y = match r.transform with
        | .t0 => (x, y)
        | .t90 => (r.height - 1 - y, x)
        | .t180 => (r.width - 1 - x, r.height - 1 - y)
        | .t270 => (y, r.width - 1 - x)) ∧
      (r.storedPosition x y).1 < r.storedWidth ∧ (r.storedPosition x y).2 < r.storedHeight) ∧
    ∀ u v, u < r.storedWidth → v < r.storedHeight →
      ∃ x y, x < r.width ∧ y < r.height ∧ r.storedPosition x y = (u, v) ∧
        ((x, y) = match r.transform with
          | .t0 => (u, v)
          | .t90 => (v, r.height - 1 - u)
          | .t180 => (r.width - 1 - u, r.height - 1 - v)
          | .t270 => (r.width - 1 - v, u)) ∧
        ∀ x' y', x' < r.width → y' < r.height → r.storedPosition x' y' = (u, v) → x' = x ∧ y' = y

/-- R1, R24: the bytes and bits of a row that hold a stored pixel, by the table. R1, R24, R25: setting a stored pixel
gives it its raw value, keeps every other pixel of the surface, and keeps every byte outside the pixel's own. R25, R36:
holding changes and joining those of one byte writes what making them one after another writes. R26, R52: packed pixels
take ceil(n × bpp / 8) bytes, pixel k of them has the bits from k × bpp on, and the unused high bits are 0. -/
def Obligations.PixelsInMemoryAndOnTheLink : Prop :=
  (∀ (m : List Host.Cell) (r : Surface) (u v : Nat),
     let row := r.base * 4096 + v * r.stride
     let rowByte (i : Nat) : Nat := (Memory.value m r.era (row + i)).toNat
     r.pixelAddress u v = row + u * r.format.bpp / 8 ∧
     rawPixel m r u v = match r.format with
       | .ov2 => rowByte (u / 4) / 2 ^ (2 * (u % 4)) % 4
       | .ix4 => rowByte (u / 2) / (if u % 2 = 0 then 1 else 16) % 16
       | .ix8 => rowByte u
       | .rgb16 => rowByte (2 * u) + 256 * rowByte (2 * u + 1)) ∧
  (∀ (m : List Host.Cell) (r : Surface) (u v value : Nat),
     r.stride = strideOf r.format r.storedWidth → u < r.storedWidth →
     r.pixelAddress u v + (if r.format = .rgb16 then 2 else 1) ≤ 2097152 →
     value < 2 ^ r.format.bpp →
     let after := applyChanges m r.era (pixelChanges r u v value)
     rawPixel after r u v = value ∧
     (∀ u' v', u' < r.storedWidth → (u', v') ≠ (u, v) → rawPixel after r u' v' = rawPixel m r u' v') ∧
     (∀ a, a < r.pixelAddress u v ∨ r.pixelAddress u v + (if r.format = .rgb16 then 2 else 1) ≤ a →
       Memory.read after a = Memory.read m a)) ∧
  (∀ (m : List Host.Cell) (era : Nat) (c : ByteChange) (held : List ByteChange) (a : Nat),
     Memory.value (applyChanges m era (addChange c held)) era a =
       Memory.value (Memory.change (applyChanges m era held) era c) era a) ∧
  (∀ (f : Format) (pixels : List Nat), (∀ p ∈ pixels, p < 2 ^ f.bpp) →
     (packPixels f pixels).length = transferBytes f pixels.length ∧
     (∀ k p, pixels[k]? = some p → unpackPixel f (packPixels f pixels) (k * f.bpp) = p) ∧
     ∀ bit, pixels.length * f.bpp ≤ bit → bit < 8 * (packPixels f pixels).length →
       arg8 (packPixels f pixels) (bit / 8) / 2 ^ (bit % 8) % 2 = 0)

/-! ### The Pixel Engine (chapter 3) -/

/-- R28: a rectangle lies within bounds. R40: two rectangles overlap when some pixel lies in both. R37, R38: FILL_RECT
appends a FILL, with one job ref and one writer, and answers the queue depth. R37, R40: COPY_RECT appends a COPY, with
one job ref on each surface it names and one writer on its destination. -/
def Obligations.FillAndCopy : Prop :=
  (∀ (a : Rect) (width height : Nat),
     a.within width height = true ↔ 1 ≤ a.w ∧ 1 ≤ a.h ∧ a.x + a.w ≤ width ∧ a.y + a.h ≤ height) ∧
  (∀ a b : Rect, 1 ≤ a.w → 1 ≤ a.h → 1 ≤ b.w → 1 ≤ b.h →
     let holds (q : Rect) (x y : Nat) : Prop := q.x ≤ x ∧ x < q.x + q.w ∧ q.y ≤ y ∧ y < q.y + q.h
     (a.overlaps b = true ↔ ∃ x y, holds a x y ∧ holds b x y)) ∧
  (∀ (s : State) (seq : Byte) (args : List Byte), Taking s seq 0x24 args →
     let dst := arg8 args 0
     let rect := argRect args 1
     let value := arg16 args 9
     let d := s.surface dst
     exec .fillRect s = .next (settle (answerBy seq 0x24
       [(decide (args.length ≠ 11), .badLength), (decide (64 ≤ dst), .badArgument),
        (decide (d.state = .empty), .noSuchSurface), (decide (d.state ≠ .filling), .wrongState),
        (!rect.within d.width d.height || decide (2 ^ d.format.bpp ≤ value), .badArgument),
        (decide (8 ≤ s.pe.jobs.length), .queueFull)] s
       (answered seq [0x24, 0x00, byteOf (s.pe.jobs.length + 1)] (withUse dst 1 (queued (.fill dst rect value) s)))))) ∧
  (∀ (s : State) (seq : Byte) (args : List Byte), Taking s seq 0x25 args →
     let dst := arg8 args 0
     let src := arg8 args 1
     let source := argRect args 2
     let target : Rect := ⟨arg16 args 10, arg16 args 12, source.w, source.h⟩
     let flag := arg8 args 14
     let key := arg16 args 15
     let d := s.surface dst
     let r := s.surface src
     exec .copyRect s = .next (settle (answerBy seq 0x25
       [(decide (args.length ≠ 17), .badLength), (decide (64 ≤ dst ∨ 64 ≤ src ∨ 1 < flag), .badArgument),
        (decide (d.state = .empty ∨ r.state = .empty), .noSuchSurface),
        (decide (d.state ≠ .filling ∨ (dst ≠ src ∧ r.state ≠ .ready)), .wrongState),
        (decide (r.format ≠ d.format ∨ (flag = 1 ∧ 2 ^ r.format.bpp ≤ key)) || !source.within r.width r.height ||
           !target.within d.width d.height || (decide (dst = src) && source.overlaps target), .badArgument),
        (decide (8 ≤ s.pe.jobs.length), .queueFull)] s
       (let job := JobKind.copy dst src source target.x target.y (if flag = 1 then some key else none)
        answered seq [0x25, 0x00, byteOf (s.pe.jobs.length + 1)]
         (if dst = src then withUse dst 1 (queued job s) else withUse dst 1 (withUse src 0 (queued job s)))))))

/-- R37, R42, R44: READ_PIXELS and FENCE append their entry and wait for its completion in a pending-reply entry. R47,
R49: BEGIN_UPLOAD opens the session with its STREAM entry. -/
def Obligations.ReadFenceAndBeginUpload : Prop :=
  (∀ (s : State) (seq : Byte) (args : List Byte),
     let target := arg8 args 0
     let rect := argRect args 1
     let r := s.surface target
     (Taking s seq 0x26 args → exec .readPixels s = .next (settle (answerBy seq 0x26
       [(decide (args.length ≠ 9), .badLength), (decide (64 ≤ target), .badArgument),
        (decide (r.state = .empty), .noSuchSurface), (decide (r.state ≠ .filling ∧ r.state ≠ .ready), .wrongState),
        (!rect.within r.width r.height || decide (1016 < ceilDiv (rect.w * rect.h * r.format.bpp) 8), .badArgument),
        (decide (8 ≤ s.pe.jobs.length), .queueFull), (tableFull s, .busy)] s
       (boundTo seq 0x26 .pixelEngine .job (withUse target 0 (queued (.read target rect seq) s)))))) ∧
     (Taking s seq 0x27 args → exec .fence s = .next (settle (answerBy seq 0x27
       [(decide (args.length ≠ 0), .badLength), (decide (8 ≤ s.pe.jobs.length), .queueFull), (tableFull s, .busy)] s
       (boundTo seq 0x27 .pixelEngine .job (queued (.fence seq) s)))))) ∧
  (∀ (s : State) (seq : Byte) (args : List Byte), Taking s seq 0x20 args →
     let dst := arg8 args 0
     let rect := argRect args 1
     let d := s.surface dst
     let expected := ceilDiv (rect.w * rect.h * d.format.bpp) 8
     let q := queued (.stream dst rect) s
     exec .beginUpload s = .next (settle (answerBy seq 0x20
       [(decide (args.length ≠ 9), .badLength), (decide (64 ≤ dst), .badArgument),
        (s.pe.session.isSome, .sessionOpen), (decide (d.state = .empty), .noSuchSurface),
        (decide (d.state ≠ .filling), .wrongState), (!rect.within d.width d.height, .badArgument),
        (decide (8 ≤ s.pe.jobs.length), .queueFull)] s
       (answered seq ([0x20, 0x00] ++ le32 expected ++ [byteOf (s.pe.jobs.length + 1)])
         (withUse dst 1 { q with pe := { q.pe with
           session := some { dst := dst, rect := rect, expected := expected, received := 0, written := 0,
                             endRequested := false, link := none }
           staging := [] } })))))

/-- R48, R50, R51: UPLOAD_DATA stages the bytes that fit the expected count, or is held for room; the held request is
executed when the room is reached. Log 2: with no UPLOAD_DATA held, HELD_UPLOAD_DATA_EXECUTE has no occasion and
changes nothing. -/
def Obligations.UploadData : Prop :=
  (∀ (s : State) (seq : Byte) (data : List Byte),
     (Taking s seq 0x21 data → s.pe.session = none → exec .uploadData s = .next (settle (answerBy seq 0x21
       [(decide (1020 < data.length), .badLength), (true, .noSession)] s s))) ∧
     ∀ x, s.pe.session = some x →
       let t := min data.length (x.expected - x.received)
       let staged (s : State) : State :=
         answered seq ([0x21, if t < data.length then 0x0E else 0x00] ++ le16 t ++ le32 (x.received + t))
           { s with pe := { s.pe with
             staging := s.pe.staging ++ data.take t, session := some { x with received := x.received + t } } }
       (Taking s seq 0x21 data → exec .uploadData s = .next (settle (answerBy seq 0x21
         [(decide (1020 < data.length), .badLength), (x.endRequested, .wrongState)] s
         (if 4096 - s.pe.staging.length < t then { s with held := some .upload } else staged s)))) ∧
       (s.held = some .upload → s.headFrame = some ⟨seq, 0x21 :: data⟩ →
         exec .heldUploadDataExecute s =
           .next (if 4096 - s.pe.staging.length < t then s else settle (staged { s with held := none })))) ∧
  (∀ s : State, s.held ≠ some .upload → exec .heldUploadDataExecute s = .next s)

/-- R53: END_UPLOAD takes a pending-reply entry and sets end requested. R46, R55: ABORT_UPLOAD cancels the STREAM entry,
discards the staged bytes and closes the session; a write burst already granted to it completes first (log 10); a
pending END_UPLOAD is answered CANCELLED and no other request is answered before the abort itself; every other surface,
every other entry and what lies outside the engine is kept. A burst of the cancelled entry keeps the port until it
completes (log 21). The abort's OK is queued before the engine goes on (log 23). -/
def Obligations.EndAndAbortUpload : Prop :=
  (∀ (s : State) (seq : Byte) (args : List Byte), Taking s seq 0x22 args →
     (s.pe.session = none → exec .endUpload s = .next (settle (answerBy seq 0x22
       [(decide (args.length ≠ 0), .badLength), (true, .noSession)] s s))) ∧
     ∀ x, s.pe.session = some x → exec .endUpload s = .next (settle (answerBy seq 0x22
       [(decide (args.length ≠ 0), .badLength), (x.endRequested, .wrongState), (tableFull s, .busy)] s
       (boundTo seq 0x22 .pixelEngine .session
         { s with pe := { s.pe with session := some { x with endRequested := true, link := some seq } } })))) ∧
  (∀ (s : State) (seq : Byte) (args : List Byte), Taking s seq 0x23 args →
     (s.pe.session = none → exec .abortUpload s = .next (settle (answerBy seq 0x23
       [(decide (args.length ≠ 0), .badLength), (true, .noSession)] s s))) ∧
     (∀ x, s.pe.session = some x → args.length ≠ 0 → exec .abortUpload s = .next (settle (answered seq [0x23, 0x01] s))) ∧
     ∀ x, s.pe.session = some x → args.length = 0 → SessionLaw s → (s.pendingReplies.map (·.seq)).Nodup →
       let granted : Bool := (s.pe.jobs.head?.elim false Job.isStream) && match s.port.inFlight with
         | some (.engine (.writeDestination _) live) => live
         | some (.engine (.readSource _) _) | some (.engine (.readDestination _) _) | some (.fetch _ _ _) | none => false
       let port : Port := if s.pe.jobs.head?.elim false Job.isStream then
           { s.port with inFlight := match s.port.inFlight with
             | some (.engine b _) => some (.engine b false)
             | some (.fetch o b live) => some (.fetch o b live)
             | none => none }
         else s.port
       ∃ v written, exec .abortUpload s =
           .next (settle (answered seq ([0x23, 0x00] ++ le32 written ++ le32 x.received) v)) ∧
         v.pe.session = none ∧ v.pe.staging = [] ∧ v.pe.jobs = s.pe.jobs.filter (fun j => !j.isStream) ∧
         v.surface x.dst = { s.surface x.dst with
           jobRefs := (s.surface x.dst).jobRefs - 1, writers := (s.surface x.dst).writers - 1 } ∧
         (granted = false → written = x.written ∧ v.mem = s.mem) ∧
         (granted = true → ∀ h j, s.pe.heldBurst = some h → s.pe.jobs.head? = some j →
           let done := j.progress + h.pixels
           written = (if done = x.rect.w * x.rect.h then x.expected else done * (s.surface x.dst).format.bpp / 8) ∧
             v.mem = applyChanges s.mem (s.surface x.dst).era h.changes) ∧
         (∀ link, x.link = some link → ∀ p ∈ s.pendingReplies, p.seq = link →
           ⟨link, [p.code, 0x11]⟩ ∈ v.replies ∧ v.isPending link = false) ∧
         v.engineBurstLive = (s.engineBurstLive && !s.pe.jobs.head?.elim false Job.isStream) ∧
         (s.pe.jobs.head?.elim false Job.isStream = true →
           v.pe.source = none ∧ v.pe.heldBurst = none ∧ v.pe.readOut = [] ∧ v.pe.request = none) ∧
         (s.pe.jobs.head?.elim false Job.isStream = false →
           v.pe.source = s.pe.source ∧ v.pe.heldBurst = s.pe.heldBurst ∧ v.pe.readOut = s.pe.readOut ∧
             v.pe.request = s.pe.request ∧ v.port = s.port) ∧
         (∀ id, id ≠ x.dst → v.surface id = s.surface id) ∧
         let told := x.link.elim s fun link => completeSeq link .cancelled [] s
         ∃ jobs source heldBurst readOut request mem surfaces, v = { s with
           pe := { jobs := jobs, stopped := s.pe.stopped, session := none, staging := [], source := source,
                   heldBurst := heldBurst, readOut := readOut, request := request }
           mem := mem, surfaces := surfaces
           port := port
           replies := told.replies, cache := told.cache, pendingReplies := told.pendingReplies })

/-- R36, R146: a Pixel Engine burst completes. A read gives the engine its burst; a write makes the held changes, counts
their pixels as written and releases the staged bytes they used; a burst no longer wanted only frees the port (log 21);
then the engine goes on and the port is granted. The model's choice (log 2): without an engine burst in progress nothing
happens. -/
def Obligations.EngineBurstCompletes : Prop :=
  ∀ s : State,
    ((∀ b live, s.port.inFlight ≠ some (.engine b live)) → exec .peBurstComplete s = .next s) ∧
    ∀ b live, s.port.inFlight = some (.engine b live) → b.addr < 2097152 →
      let idle : State := { s with port := { s.port with inFlight := none } }
      (live = false → exec .peBurstComplete s = .next (settle idle)) ∧
      (live = true →
        (∀ a, b = .readSource a → exec .peBurstComplete s =
          .next (settle { idle with pe := { s.pe with source := some a } })) ∧
        (∀ a, b = .readDestination a → exec .peBurstComplete s =
          .next (settle { idle with pe := { s.pe with heldBurst := some ⟨a, [], 0⟩ } })) ∧
        ∀ a j rest h dst, b = .writeDestination a → s.pe.jobs = j :: rest → s.pe.heldBurst = some h →
          j.kind.destination = some dst →
          let done := j.progress + h.pixels
          let landed : State := { idle with
            mem := applyChanges s.mem (s.surface dst).era h.changes
            pe := { s.pe with heldBurst := none, jobs := { j with progress := done } :: rest } }
          (j.isStream = false → exec .peBurstComplete s = .next (settle landed)) ∧
          ∀ x, j.isStream = true → s.pe.session = some x →
            let f := (s.surface x.dst).format
            let written := if done = j.kind.pixels then x.expected else done * f.bpp / 8
            exec .peBurstComplete s = .next (settle { landed with pe := { landed.pe with
              staging := s.pe.staging.drop (written - x.written), session := some { x with written := written } } }))

/-- R26, R29, R30, R36, R39, R41, R52: the places and the values of a job's pixels in row-major order. A FILL writes its
value; a COPY writes at (dx + i, dy + j) what is read at (x + i, y + j) of its source; pixel n of a STREAM is the bits
from n × bpp on of the byte stream, the staged bytes being those after the ones already written; and as many pixels can
be set as the received bytes cover. A logical pixel is read, changed and fetched at its stored position. R36, R39, R41,
R43, R52: what the engine does next with its active job. A pixel is set from the burst it holds, a burst is asked for
when the next pixel needs another one, and held changes are written, or a burst without changes is let go unwritten,
when the next pixel lies elsewhere or no further pixel can be set (the order of a COPY's two reads is log 8). -/
def Obligations.EngineMovesInJobOrder : Prop :=
  (∀ (s : State) (n : Nat),
     let place (r : Rect) (id x y : Nat) : Nat × Nat × Nat := (id, x + n % r.w, y + n / r.w)
     (∀ dst r value, let k := JobKind.fill dst r value
       s.readyPixels k = r.w * r.h ∧ k.sourcePixel n = none ∧ k.destinationPixel n = some (place r dst r.x r.y) ∧
         s.jobValue k n = value) ∧
     (∀ dst src r dx dy key, let k := JobKind.copy dst src r dx dy key
       s.readyPixels k = r.w * r.h ∧ k.sourcePixel n = some (place r src r.x r.y) ∧
         k.destinationPixel n = some (place r dst dx dy) ∧ s.jobValue k n = s.logicalRaw (place r src r.x r.y)) ∧
     (∀ target r link, let k := JobKind.read target r link
       s.readyPixels k = r.w * r.h ∧ k.sourcePixel n = some (place r target r.x r.y) ∧ k.destinationPixel n = none) ∧
     (∀ link, s.readyPixels (.fence link) = 0) ∧
     (∀ dst r, let k := JobKind.stream dst r
       k.pixels = r.w * r.h ∧ k.sourcePixel n = none ∧ k.destinationPixel n = some (place r dst r.x r.y) ∧
       (s.pe.session = none → s.readyPixels k = 0) ∧
       ∀ x, s.pe.session = some x →
         let bpp := (s.surface x.dst).format.bpp
         s.readyPixels k = min (r.w * r.h) (8 * x.received / bpp) ∧
         ∀ stream : List Byte, stream.drop x.written = s.pe.staging → 8 * x.written ≤ n * bpp →
           s.jobValue k n < 2 ^ bpp ∧ ∀ i < bpp, (s.jobValue k n).testBit i =
             (stream.getD ((n * bpp + i) / 8) 0).getLsbD ((n * bpp + i) % 8)) ∧
     ∀ id x y value,
       let surface := s.surface id
       let p := surface.storedPosition x y
       s.logicalRaw (id, x, y) = rawPixel s.mem surface p.1 p.2 ∧
         s.logicalChanges (id, x, y) value = pixelChanges surface p.1 p.2 value ∧
         s.pixelBlock (id, x, y) = surface.pixelAddress p.1 p.2 / 64 * 64) ∧
  ∀ (s : State) (j : Job) (rest : List Job),
    let n := j.progress + s.pe.heldPixels
    let more : Prop := n < s.readyPixels j.kind
    let sourceReady : Prop := ∀ p, j.kind.sourcePixel n = some p → s.pe.source = some (s.pixelBlock p)
    (∀ p, more → j.kind.sourcePixel n = some p → s.pe.source ≠ some (s.pixelBlock p) →
      (∀ h, s.pe.heldBurst = some h → ∀ q, j.kind.destinationPixel n = some q → s.pixelBlock q = h.addr) →
      (s.pe.heldBurst.isSome → (j.kind.destinationPixel n).isSome) →
      s.engineMove j rest = .ask (.readSource (s.pixelBlock p))) ∧
    (∀ q, more → sourceReady → s.pe.heldBurst = none → j.kind.destinationPixel n = some q →
      (∀ dst src r dx dy key, j.kind = .copy dst src r dx dy (some key) → s.jobValue j.kind n ≠ key) →
      s.engineMove j rest = .ask (.readDestination (s.pixelBlock q))) ∧
    (∀ h q, more → sourceReady → s.pe.heldBurst = some h → j.kind.destinationPixel n = some q →
      s.pixelBlock q = h.addr →
      (∀ dst src r dx dy key, j.kind = .copy dst src r dx dy (some key) → s.jobValue j.kind n ≠ key) →
      s.engineMove j rest = .go { s.pe with heldBurst := some { h with
        changes := (s.logicalChanges q (s.jobValue j.kind n)).foldl (fun acc c => addChange c acc) h.changes
        pixels := h.pixels + 1 } }) ∧
    (∀ h, s.pe.heldBurst = some h → h.changes ≠ [] →
      (¬ more ∨ ∃ q, j.kind.destinationPixel n = some q ∧ s.pixelBlock q ≠ h.addr) →
      s.engineMove j rest = .ask (.writeDestination h.addr)) ∧
    (∀ h, s.pe.heldBurst = some h → h.changes = [] →
      (¬ more ∨ ∃ q, j.kind.destinationPixel n = some q ∧ s.pixelBlock q ≠ h.addr) →
      s.engineMove j rest = .go { s.pe with
        heldBurst := none, jobs := { j with progress := j.progress + h.pixels } :: rest }) ∧
    (∀ target r link, more → sourceReady → s.pe.heldBurst = none → j.kind = .read target r link →
      s.engineMove j rest = .go { s.pe with
        readOut := s.pe.readOut ++ [s.logicalRaw (target, r.x + n % r.w, r.y + n / r.w)]
        jobs := { j with progress := j.progress + 1 } :: rest }) ∧
    (∀ dst src r dx dy key, more → sourceReady → j.kind = .copy dst src r dx dy (some key) →
      s.jobValue j.kind n = key →
      (s.pe.heldBurst = none → s.engineMove j rest = .go { s.pe with
        jobs := { j with progress := j.progress + 1 } :: rest }) ∧
      (∀ h q, s.pe.heldBurst = some h → j.kind.destinationPixel n = some q → s.pixelBlock q = h.addr →
        s.engineMove j rest = .go { s.pe with heldBurst := some { h with pixels := h.pixels + 1 } })) ∧
    (¬ more → s.pe.heldBurst = none → s.engineMove j rest =
      if j.isStream then (if s.pe.session.elim false Session.endRequested then .finish else .wait) else .finish)

/-- R37: the surfaces an entry names and the one it writes. R43, R44, R45, R54: a job that completes leaves the head of
the queue, its uses are released, and then its deferred reply is handed over: a READ's data, a FENCE's OK, and OK or
SHORT for the END_UPLOAD of a STREAM, whose session closes. R7, R10: what a release of uses does on one surface once its
counts were lowered: the seal of a SEALING surface without writers is answered OK, a DISCARDING surface without uses is
freed and SURFACE_FREED raised, any other is left. R8, R10: releasing a job lowers the job refs of the surfaces it names
and the writers of its destination by one, and then settles each surface it names (in the order of log 12); it touches
no memory, no output, no job and no slot. -/
def Obligations.CompletionAndRelease : Prop :=
  (∀ k : JobKind,
     k.surfaces = (match k with
       | .fill dst _ _ | .stream dst _ => [dst]
       | .copy dst src _ _ _ _ => if dst = src then [dst] else [dst, src]
       | .read target _ _ => [target]
       | .fence _ => []) ∧
     k.destination = match k with
       | .fill dst _ _ | .stream dst _ | .copy dst _ _ _ _ _ => some dst
       | .read _ _ _ | .fence _ => none) ∧
  (∀ (s : State) (j : Job) (rest : List Job), s.pe.jobs = j :: rest →
     let left : State := { s with pe := { s.pe with
       jobs := rest, source := none, heldBurst := none, readOut := [], request := none } }
     (∀ dst r value, j.kind = .fill dst r value → completeActive s = releaseJob j.kind left) ∧
     (∀ dst src r dx dy key, j.kind = .copy dst src r dx dy key → completeActive s = releaseJob j.kind left) ∧
     (∀ target r link, j.kind = .read target r link →
       let data := packPixels (s.surface target).format s.pe.readOut
       completeActive s = completeSeq link .ok (le16 data.length ++ data) (releaseJob j.kind left)) ∧
     (∀ link, j.kind = .fence link → completeActive s = completeSeq link .ok [] left) ∧
     ∀ dst r x, j.kind = .stream dst r → s.pe.session = some x →
       let closed := releaseJob j.kind { left with pe := { left.pe with session := none, staging := [] } }
       completeActive s = x.link.elim closed fun link =>
         completeSeq link (if x.received = x.expected then .ok else .short) (le32 x.received ++ le32 j.progress) closed) ∧
  (∀ (id : Nat) (s : State),
     let r := s.surface id
     settleSurface id s =
       if r.state = .sealing ∧ r.writers = 0 then
         completeRef (.seal id) .ok { s with surfaces := s.surfaces.set id { r with state := .ready, sealPending := false } }
       else if r.state = .discarding ∧ r.scanRefs = 0 ∧ r.jobRefs = 0 then
         raise (.surfaceFreed id r.base r.granules) { s with
           surfaces := s.surfaces.set id .empty
           granules := s.granules.map fun owner => if owner = some id then none else owner }
       else s) ∧
  (∀ (k : JobKind) (s : State),
     let t := releaseJob k s
     t = jobGivenUp k.surfaces k s ∧
     (∀ id, (s.surface id).state = .filling ∨ (s.surface id).state = .ready → t.surface id =
       { s.surface id with
         jobRefs := (s.surface id).jobRefs - (if id ∈ k.surfaces then 1 else 0)
         writers := (s.surface id).writers - (if k.destination = some id then 1 else 0) }) ∧
     ∃ surfaces granules notices nextNotice replies cache pendingReplies, t = { s with
       surfaces := surfaces, granules := granules, notices := notices, nextNotice := nextNotice, replies := replies,
       cache := cache, pendingReplies := pendingReplies })

/-- R36, R145: going on with the active job changes no byte of frame memory, no output's timing, state, palette or
field, no frame, no slot and no received byte. R36, R43, R44, R45: an engine that is not at rest goes on by its next
move: a burst it asks for becomes its standing request, a move without a burst and a completed entry are followed by the
next move within the same step, and an active job that waits leaves it at rest; an engine at rest stays as it is, also
behind a request's reply (R176). R16, R145; log 22: a request may stand behind a cancelled job's burst, and is granted
after it. R145: with the port idle the arbiter grants a fetch before the Pixel Engine, and of two fetches the output not
granted last; a grant takes the request away; a busy port grants nothing. -/
def Obligations.SettlingAndTheArbiter : Prop :=
  ((∀ s : State, let t := settle s
     t.mem = s.mem ∧ t.era = s.era ∧ t.pres0 = s.pres0 ∧ t.pres1 = s.pres1 ∧ t.share = s.share ∧ t.slots = s.slots ∧
     t.arrival = s.arrival ∧ t.held = s.held ∧ t.rx = s.rx ∧ t.tx = s.tx ∧ t.pending = s.pending ∧
     t.linkMode = s.linkMode ∧ t.inReset = s.inReset ∧ t.freshSupply = s.freshSupply ∧ t.pe.stopped = s.pe.stopped ∧
     ∀ o, ∃ a b, t.ou o = { s.ou o with
       halfA := { (s.ou o).halfA with todo := a }, halfB := { (s.ou o).halfB with todo := b } }) ∧
     (∀ (s : State) (j : Job) (rest : List Job), s.pe.stopped = false → s.pe.request = none →
       s.engineBurstLive = false → s.pe.jobs = j :: rest →
       (∀ b, s.engineMove j rest = .ask b → settle s = arbitrate { s with pe := { s.pe with request := some b } }) ∧
       (∀ e, s.engineMove j rest = .go e → settle s = settle { s with pe := e }) ∧
       (s.engineMove j rest = .finish → settle s = settle (completeActive s)) ∧
       (s.engineMove j rest = .wait → settle s = arbitrate s)) ∧
     ∀ (s : State) (seq : Byte) (payload : List Byte), EngineRestLaw s →
       settle s = arbitrate s ∧
         (PortLaw s → settle s = s ∧ settle (answered seq payload s) = answered seq payload s)) ∧
  (∀ s : State,
     let grant (o : OutputId) (b : FetchBurst) : State :=
       let u := s.ou o
       { s.setOu o { u with
           halfA := if u.halfA.condition = .fetching then { u.halfA with todo := u.halfA.todo.drop 1 } else u.halfA
           halfB := if u.halfB.condition = .fetching then { u.halfB with todo := u.halfB.todo.drop 1 } else u.halfB } with
         port := { inFlight := some (.fetch o b true), lastScan := o } }
     (s.port.inFlight ≠ none → arbitrate s = s) ∧
     (s.port.inFlight = none →
       (∀ b0 b1, s.ou0.fetchRequest = some b0 → s.ou1.fetchRequest = some b1 →
         arbitrate s = if s.port.lastScan = .out1 then grant .out0 b0 else grant .out1 b1) ∧
       (∀ b0, s.ou0.fetchRequest = some b0 → s.ou1.fetchRequest = none → arbitrate s = grant .out0 b0) ∧
       (∀ b1, s.ou0.fetchRequest = none → s.ou1.fetchRequest = some b1 → arbitrate s = grant .out1 b1) ∧
       (∀ b, s.ou0.fetchRequest = none → s.ou1.fetchRequest = none → s.pe.request = some b →
         arbitrate s = { s with
           pe := { s.pe with request := none }, port := { s.port with inFlight := some (.engine b true) } }) ∧
       (s.ou0.fetchRequest = none → s.ou1.fetchRequest = none → s.pe.request = none → arbitrate s = s)))

/-! ### Outputs (chapter 7) and palettes (chapter 6) -/

/-- R113, R114, R115: SET_OUTPUT replaces the whole timing set of an OFF output when every field is in its range; the
index says which argument failed. -/
def Obligations.SetOutput : Prop :=
  ∀ (s : State) (seq : Byte) (args : List Byte), Taking s seq 0x30 args →
    let n := arg8 args 0
    let o : OutputId := if n = 0 then .out0 else .out1
    let u := s.ou o
    let hactive := arg16 args 2
    let hblank := arg16 args 4
    let hsyncOffset := arg16 args 6
    let hsyncWidth := arg16 args 8
    let vactive := arg16 args 10
    let vblank := arg8 args 12
    let vsyncOffset := arg8 args 13
    let vsyncWidth := arg8 args 14
    let interlace := arg8 args 19
    let flicker := arg8 args 20
    exec .setOutput s = .next (answerByIndex seq 0x30
      [(decide (args.length ≠ 23), .badLength, 0xFF), (decide (1 < n), .badArgument, 0),
       (decide (u.state ≠ .off), .wrongState, 0xFF), (decide (n = 0 ∧ interlace = 1), .unsupported, 14),
       (decide (n = 0 ∧ flicker = 1), .unsupported, 15), (decide (arg8 args 1 < 6), .badArgument, 1),
       (decide (hactive < 16 ∨ 1280 < hactive ∨ hactive % 8 ≠ 0), .badArgument, 2),
       (decide (hblank < 24 ∨ 1024 < hblank), .badArgument, 3), (decide (hblank < hsyncOffset + 8), .badArgument, 4),
       (decide (hsyncWidth < 1 ∨ hblank < hsyncOffset + hsyncWidth), .badArgument, 5),
       (decide (1024 < vactive ∨ (if interlace = 1 then vactive < 16 ∨ vactive % 2 ≠ 0 else vactive < 8)), .badArgument, 6),
       (decide (vblank < 2), .badArgument, 7), (decide (vblank < vsyncOffset + 1), .badArgument, 8),
       (decide (vsyncWidth < 1 ∨ vblank < vsyncOffset + vsyncWidth), .badArgument, 9),
       (decide (1 < arg8 args 15), .badArgument, 10), (decide (1 < arg8 args 16), .badArgument, 11),
       (decide (1 < arg8 args 17), .badArgument, 12), (decide (1 < arg8 args 18), .badArgument, 13),
       (decide (1 < interlace), .badArgument, 14),
       (decide (1 < flicker ∨ (flicker = 1 ∧ interlace ≠ 1)), .badArgument, 15)] s
      (answered seq [0x30, 0x00, 0xFF] (s.setOu o { u with
        valid := true
        timing := { divider := arg8 args 1, hactive := hactive, hblank := hblank, hsyncOffset := hsyncOffset,
                    hsyncWidth := hsyncWidth, vactive := vactive, vblank := vblank, vsyncOffset := vsyncOffset,
                    vsyncWidth := vsyncWidth, hsLow := arg8 args 15 = 1, vsLow := arg8 args 16 = 1,
                    deLow := arg8 args 17 = 1, pclkFalling := arg8 args 18 = 1, interlace := interlace = 1,
                    flicker := flicker = 1, tPwr := arg8 args 21, tClk := arg8 args 22 } })))

/-- R121, R122, R130: START_OUTPUT by the output's state. In OFF it sets the counters to 0 and enters POWER WAIT,
whose expiry follows at once when t_pwr is 0. R124, R126: STOP_OUTPUT by the output's state and, in POWER_UP, by the
step it reached: in POWER WAIT OFF is entered at once, with the palette copy, the STOP replies and OUTPUT_STATE carrying
the count released (R111, R126, R130). CLOCK WAIT and SUPPLY WAIT are entered as WaitExpiries says. -/
def Obligations.StartAndStopOutput : Prop :=
  (∀ (s : State) (seq : Byte) (args : List Byte), Taking s seq 0x31 args →
     let n := arg8 args 0
     let o : OutputId := if n = 0 then .out0 else .out1
     let u := s.ou o
     let bound : State := { s with pendingReplies := s.pendingReplies ++ [⟨seq, 0x31, .outputUnit, .start o⟩] }
     let powered := raise (.outputState o .powerUp 1 0) (bound.setOu o { u with
       framesShown := 0, lineMiss := 0, state := .powerUp, step := .powerWait, timer := some u.timing.tPwr })
     exec .startOutput s = .next (answerBy seq 0x31
       [(decide (args.length ≠ 1), .badLength), (decide (1 < n), .badArgument),
        (decide (u.state = .off ∧ u.valid = false), .wrongState),
        (decide (u.state = .ending ∨ u.state = .powerDown), .busy),
        (decide (u.state ≠ .running) && tableFull s, .busy)] s
       (if u.state = .running then answered seq [0x31, 0x00] s
        else if u.state = .powerUp then slotReleased bound
        else slotReleased (if u.timing.tPwr = 0 then enterClockWait o powered else powered)))) ∧
  (∀ (s : State) (seq : Byte) (args : List Byte), Taking s seq 0x32 args →
     let n := arg8 args 0
     let o : OutputId := if n = 0 then .out0 else .out1
     let u := s.ou o
     let bound : State := { s with pendingReplies := s.pendingReplies ++ [⟨seq, 0x32, .outputUnit, .stop o⟩] }
     let released := (s.pres o).queue.length + (s.pres o).current.toList.length
     let reversed := completeRef (.start o) .cancelled (releaseOutput o bound)
     let off (w : State) : State :=
       let v := w.ou o
       raise (.outputState o .off 1 released) (completeRef (.stop o) .ok (w.setOu o { v with
         state := .off, step := .off, timer := none
         active := if v.palettePending then v.staging else v.active, palettePending := false }))
     exec .stopOutput s = .next (answerBy seq 0x32
       [(decide (args.length ≠ 1), .badLength), (decide (1 < n), .badArgument),
        (decide (u.state ≠ .off) && tableFull s, .busy)] s
       (match u.state with
         | .off => answered seq [0x32, 0x00] s
         | .running => slotReleased (raise (.outputState o .ending 1 0) (bound.setOu o { u with state := .ending }))
         | .powerUp => slotReleased (
             if u.step = .clockWait then enterSupplyWait o (raise (.outputState o .powerDown 1 released) reversed)
             else off reversed)
         | .ending | .powerDown => slotReleased bound)))

/-- R120, R121, R123, R125, R130, R144: the four wait expiries. Each acts only in its own step (log 2), and a timer of 0
in the step entered expires within the same event; CLOCK WAIT and SUPPLY WAIT are entered in the same way from
elsewhere. -/
def Obligations.WaitExpiries : Prop :=
  ∀ (o : OutputId) (s : State),
    let u := s.ou o
    let off (released : Nat) (w : State) : State :=
      let v := w.ou o
      raise (.outputState o .off 1 released) (completeRef (.stop o) .ok (w.setOu o { v with
        state := .off, step := .off, timer := none
        active := if v.palettePending then v.staging else v.active, palettePending := false }))
    let running (w : State) : State :=
      raise (.outputState o .running 1 0) (completeRef (.start o) .ok
        (w.setOu o { w.ou o with state := .running, step := .showing, timer := none }))
    let clockWait : State :=
      let w := killFetchBurst o (s.setOu o { u with
        state := .powerUp, step := .clockWait, timer := some u.timing.tClk, halfA := .free, halfB := .free,
        scanLine := 0, field := .top, driven := none
        active := if u.palettePending then u.staging else u.active, palettePending := false })
      if u.timing.tClk = 0 then running (beginFetch o 0 false w) else beginFetch o 0 false w
    let supplyWait : State :=
      let w := killFetchBurst o (s.setOu o { u with
        state := .powerDown, step := .supplyWait, timer := some u.timing.tPwr, halfA := .free, halfB := .free,
        carry := none, head := none, driven := none, field := .top, scanLine := 0 })
      if u.timing.tPwr = 0 then off 0 w else w
    (exec (.powerWaitExpiry o) s = .next (if u.step = .powerWait then clockWait else s)) ∧
    (exec (.clockWaitExpiry o) s = .next (if u.step = .clockWait then running s else s)) ∧
    (exec (.backlightWaitExpiry o) s = .next (if u.step = .backlightWait then supplyWait else s)) ∧
    (exec (.supplyWaitExpiry o) s = .next (if u.step = .supplyWait then off 0 s else s)) ∧
    enterClockWait o s = clockWait ∧ enterSupplyWait o s = supplyWait ∧
    (∀ o' b live, s.port.inFlight = some (.fetch o' b live) →
      killFetchBurst o s = if o' = o then { s with port := { s.port with inFlight := some (.fetch o b false) } } else s) ∧
    ((∀ o' b live, s.port.inFlight ≠ some (.fetch o' b live)) → killFetchBurst o s = s)

/-- R117, R119, R128, R110, R135: FRAME_START, after the last line of a frame, by the step in which it occurs: take,
release or no take; the palette copy; the fetch of line 0. In ENDING it enters BACKLIGHT WAIT, and a t_clk of 0 stops
the timing within it. It is the line start of the frame's first line, which frees the SHOWN half (log 7), and that half
is the one the fetch takes (R136). The model's choice (log 2): before the last line, and while timing is stopped (R120),
it changes nothing. -/
def Obligations.FrameStart : Prop :=
  ∀ (o : OutputId) (s : State),
    let u := s.ou o
    let opened := killFetchBurst o (s.setOu o { u with
      halfA := .free, halfB := .free, scanLine := 0, field := .top, driven := none })
    let copied (w : State) : State := w.setOu o { w.ou o with
      active := if (w.ou o).palettePending then (w.ou o).staging else (w.ou o).active, palettePending := false }
    let released := (s.pres o).queue.length + (s.pres o).current.toList.length
    let shut := releaseOutput o opened
    let wasB := decide (u.halfB.condition = .shown)
    let ended := beginFetch o 0 wasB (copied (raise (.outputState o .powerDown 1 released) (shut.setOu o { shut.ou o with
      state := .powerDown, step := .backlightWait, timer := some u.timing.tClk })))
    let ends : Prop := u.timing.frameLines ≤ u.scanLine + 1
    (u.timingRuns = false ∨ ¬ ends → exec (.frameStart o) s = .next s) ∧
    (ends → u.step = .clockWait ∨ u.step = .backlightWait →
      exec (.frameStart o) s = .next (beginFetch o 0 wasB (copied opened))) ∧
    (ends → u.step = .showing → u.state = .running →
      exec (.frameStart o) s = .next (beginFetch o 0 wasB (copied (take o opened)))) ∧
    (ends → u.step = .showing → u.state = .ending →
      exec (.frameStart o) s = .next (if u.timing.tClk = 0 then enterSupplyWait o ended else ended))

/-- R82, R95, R135: GET_OUTPUT reports the output's fields, D being divider × htotal, or 1 with no timing set. R107,
R108, R109: SET_PALETTE writes entries first to first + count − 1 of the staging palette, in OFF of both palettes;
every other entry, and the other output, is kept. -/
def Obligations.GetOutputAndSetPalette : Prop :=
  (∀ (s : State) (seq : Byte) (args : List Byte), Taking s seq 0x33 args →
     let n := arg8 args 0
     let o : OutputId := if n = 0 then .out0 else .out1
     let u := s.ou o
     let p := s.pres o
     let d := if u.valid then u.timing.divider * (u.timing.hactive + u.timing.hblank) else 1
     exec .getOutput s = .next (answerBy seq 0x33
       [(decide (args.length ≠ 1), .badLength), (decide (1 < n), .badArgument)] s
       (answered seq ([0x33, 0x00, u.state.code, u.step.code, flagByte (decide (u.step ≠ .off)),
         flagByte (decide (u.step = .clockWait ∨ u.step = .showing ∨ u.step = .backlightWait)),
         flagByte (decide (u.step = .showing)), flagByte u.valid, flagByte u.timing.interlace, flagByte u.timing.flicker,
         u.field.code] ++ le32 u.framesShown ++ le32 u.lineMiss ++ le16 (p.current.elim 0 (·.token)) ++
         [byteOf p.queue.length] ++ le32 p.loadN ++ le32 d ++ [flagByte u.palettePending]) s))) ∧
  (∀ (s : State) (seq : Byte) (args : List Byte), Taking s seq 0x34 args → PaletteLaw s →
     let n := arg8 args 0
     let first := arg8 args 1
     let count := arg16 args 2
     let o : OutputId := if n = 0 then .out0 else .out1
     let u := s.ou o
     ∃ palette : List Colour,
       palette.length = 256 ∧
       (∀ i, i < first ∨ first + count ≤ i → palette[i]? = u.staging[i]?) ∧
       (∀ i, i < count → first + i < 256 → palette[first + i]? = some (argColour args (4 + 3 * i))) ∧
       exec .setPalette s = .next (answerBy seq 0x34
         [(decide (args.length < 4 ∨ args.length ≠ 4 + 3 * count), .badLength), (decide (1 < n), .badArgument),
          (decide (count < 1 ∨ 256 < count ∨ 256 < first + count), .badArgument)] s
         (if u.state = .off then answered seq [0x34, 0x00, 0]
             (s.setOu o { u with active := palette, staging := palette, palettePending := false })
          else answered seq [0x34, 0x00, 1] (s.setOu o { u with staging := palette, palettePending := true }))))

/-- R105, R113, R116, R117, R118, R120, R121: the pins of an output. HS, VS and DE are asserted where the timing places
them and stand deasserted, with the data 0, while timing is stopped; the data pins carry the colour driven, red on bits
23..16, green on 15..8 and blue on 7..0, and are 0 elsewhere; PWREN and BLEN follow the step. -/
def Obligations.OutputPins : Prop :=
  ∀ (s : State) (o : OutputId) (x : Nat),
    let u := s.ou o
    let t := u.timing
    let p := u.scanLine
    let inGroup (start : Nat) : Prop := start + t.vsyncOffset ≤ p ∧ p < start + t.vsyncOffset + t.vsyncWidth
    s.pwrenPin o = decide (u.step ≠ .off) ∧ s.blenPin o = decide (u.step = .showing) ∧
    (u.timingRuns = false → s.hsPin o x = t.hsLow ∧ s.vsPin o = t.vsLow ∧ s.dePin o x = t.deLow ∧
      s.dataPins o x = 0 ∧ s.pclkRest o = t.pclkFalling) ∧
    (u.timingRuns = true →
      (s.hsPin o x ≠ t.hsLow ↔ t.hactive + t.hsyncOffset ≤ x ∧ x < t.hactive + t.hsyncOffset + t.hsyncWidth) ∧
      (s.vsPin o ≠ t.vsLow ↔ inGroup 0 ∨ (t.interlace = true ∧ inGroup (t.vblank + 1 + t.vactive / 2))) ∧
      (s.dePin o x ≠ t.deLow ↔ x < t.hactive ∧ ∃ y, t.lineKind p = .active y) ∧
      (u.driven = none → s.dataPins o x = 0) ∧
      ∀ line, u.driven = some line →
        (x < line.length → (s.dataPins o x).extractLsb' 16 8 = (line.getD x .black).r ∧
          (s.dataPins o x).extractLsb' 8 8 = (line.getD x .black).g ∧
          (s.dataPins o x).extractLsb' 0 8 = (line.getD x .black).b) ∧
        (line.length ≤ x → s.dataPins o x = 0))

/-! ### Frame geometry, line fetch and composition (chapters 2, 6, 7, 8) -/

/-- R117, R118: the lines of a frame in order: the blank lines then the active lines, or for interlace the longer
blank group, the even lines, the other blank group and the odd lines. R138, R142: the fetch for an active line begins
at the line start before it when that line is active, and otherwise at the first line of the blank group before it;
and at no other line start. -/
def Obligations.FrameGeometryAndFetchTimes : Prop :=
  (∀ t : Timing, t.inRange →
     (List.range t.frameLines).map t.lineKind =
       if t.interlace then
         List.replicate (t.vblank + 1) .blank ++ (List.range (t.vactive / 2)).map (fun i => .active (2 * i)) ++
           List.replicate t.vblank .blank ++ (List.range (t.vactive / 2)).map fun i => .active (2 * i + 1)
       else List.replicate t.vblank .blank ++ (List.range t.vactive).map fun i => .active i) ∧
  (∀ (t : Timing) (p q y : Nat), t.inRange → q < t.frameLines → t.lineKind q = .active y → p < t.frameLines →
     (t.fetchAt p = some y ↔
       if t.lineKind (q - 1) = .blank then
         p ≤ q - 1 ∧ (∀ g, p ≤ g → g < q → t.lineKind g = .blank) ∧ (p = 0 ∨ t.lineKind (p - 1) ≠ .blank)
       else p + 1 = q))

/-- R137: the bursts of a span are the 64-byte blocks that hold a byte of its pixels, each once, in ascending address;
and laid end to end what is kept of them is the span's raw values in order. R136 to R139, R143: a fetch takes the half
that was SHOWN until this line start, half A when neither was (the model's choice, log 14), for its line, or for two
lines with the flicker filter. It reads the cursor row first, when the cursor meets the line, and then the span of each
layer that covers a pixel of it, bottom first. -/
def Obligations.FetchReadsWhatTheLineNeeds : Prop :=
  (∀ (m : List Host.Cell) (r : Surface) (a : Area), 1 ≤ a.count →
     let row := r.base * 4096 + a.row * r.stride
     (areaBlocks r a).Pairwise (· < ·) ∧
     (∀ b, b ∈ areaBlocks r a ↔ b % 64 = 0 ∧ ∃ k, row + a.first * r.format.bpp / 8 ≤ k ∧
       k ≤ row + ((a.first + a.count) * r.format.bpp - 1) / 8 ∧ b ≤ k ∧ k < b + 64) ∧
     (areaBlocks r a).flatMap (blockPixels m r a) = (List.range a.count).map fun i => rawPixel m r (a.first + i) a.row) ∧
  (∀ (o : OutputId) (y : Nat) (wasB : Bool) (s : State),
     let u := s.ou o
     let t := u.timing
     let p := s.pres o
     let lines := if t.flicker ∧ y + 1 < t.vactive then [y, y + 1] else [y]
     let areas := (lines.map fun line => lineAreas p t line).flatten
     let half : LineHalf := { condition := .fetching, lines := lines, areas := areas, todo := fetchBursts s areas }
     (u.halfA.condition = .free → wasB = false ∨ u.halfB.condition ≠ .free →
       beginFetch o y wasB s = arbitrate (s.setOu o { u with halfA := half })) ∧
     (u.halfB.condition = .free → wasB = true ∨ u.halfA.condition ≠ .free →
       beginFetch o y wasB s = arbitrate (s.setOu o { u with halfB := half })) ∧
     fetchBursts s areas =
       (areas.zipIdx.map fun ai => (areaBlocks (s.surface ai.1.surface) ai.1).map fun b => ⟨ai.2, b⟩).flatten ∧
     (∀ a, a ∈ lineAreas p t y ↔ a.line = y ∧ a.pixels = [] ∧ a.complete = false ∧
       ((a.owner = .cursor ∧ ∃ b, p.binding = some b ∧ p.position.visible = true ∧ p.position.y ≤ y ∧
           (y : Int) < p.position.y + 64 ∧ p.position.x < t.hactive ∧ 0 < p.position.x + 64 ∧ a.surface = b.surface ∧
           (a.row : Int) = y - p.position.y ∧ a.first = 0 ∧ a.count = 64) ∨
         ∃ i r l, a.owner = .layer i ∧ p.current = some r ∧ r.layers[i]? = some l ∧ l.dy ≤ y ∧
           (y : Int) < l.dy + l.source.h ∧ 1 ≤ a.count ∧ a.surface = l.surface ∧
           (a.row : Int) = l.source.y + y - l.dy ∧ (a.first : Int) = l.source.x + max 0 (-l.dx) ∧
           (a.count : Int) = min (l.dx + l.source.w) t.hactive - max l.dx 0)) ∧
     (lineAreas p t y).Pairwise fun a b => a.owner = .cursor ∨ ∃ i j, a.owner = .layer i ∧ b.owner = .layer j ∧ i < j)

/-- R139, R140, R146: a fetch burst completes: the FETCHING half's area takes its pixels and is complete when no burst
of it is still to come; a burst no longer wanted only frees the port (log 21); then the port is granted. The model's: an
area holds the raw values of its pixels (log 17), and without a fetch burst in progress nothing happens (log 2). -/
def Obligations.FetchBurstCompletes : Prop :=
  ∀ s : State,
    ((∀ o b live, s.port.inFlight ≠ some (.fetch o b live)) → exec .fetchBurstComplete s = .next s) ∧
    ∀ o b live, s.port.inFlight = some (.fetch o b live) → b.addr < 2097152 →
      let idle : State := { s with port := { s.port with inFlight := none } }
      let u := s.ou o
      let taken (h : LineHalf) : LineHalf :=
        if h.condition = .fetching then
          { h with areas := h.areas.mapIdx fun i a =>
              if i = b.area then
                { a with
                  pixels := a.pixels ++ blockPixels s.mem (s.surface a.surface) a b.addr
                  complete := !h.todo.any fun later => decide (later.area = i) }
              else a }
        else h
      exec .fetchBurstComplete s = .next (arbitrate (
        if live then idle.setOu o { u with halfA := taken u.halfA, halfB := taken u.halfB } else idle))

/-- R119, R136, R138, R140: LINE_START begins the next line of the frame. The SHOWN half becomes FREE; on an active line
the FETCHING half is shown, its fetch ended, and the line driven from its areas; and the next fetch begins where one
does, in the half that was SHOWN (R136). R118, R119, R135: FIELD_START, at the first line of the top field's blank,
makes the field BOTTOM. The model's choices: after the last line, before a field start that is due, and while timing is
stopped LINE_START changes nothing (logs 7 and 2); off its line, and while timing is stopped, FIELD_START changes
nothing (log 2); the two rows of the field's line come in this order (log 7). -/
def Obligations.LineStart : Prop :=
  ∀ (o : OutputId) (s : State),
    let u := s.ou o
    let t := u.timing
    let p := u.scanLine + 1
    let freed (h : LineHalf) : LineHalf := if h.condition = .shown then .free else h
    let shown (h : LineHalf) : LineHalf := if h.condition = .fetching then { h with condition := .shown, todo := [] } else h
    let v : OutputUnit := { u with scanLine := p, driven := none, halfA := freed u.halfA, halfB := freed u.halfB }
    let driven (y : Nat) : State :=
      let w := killFetchBurst o (s.setOu o { v with halfA := shown v.halfA, halfB := shown v.halfB })
      let areas := if u.halfA.condition = .fetching then u.halfA.areas
        else if u.halfB.condition = .fetching then u.halfB.areas else []
      let d := driveLine o y areas w
      if areas.any fun a => !a.complete then
        raise (.lineMiss o 1 y y) (d.setOu o { d.ou o with lineMiss := min 4294967295 ((d.ou o).lineMiss + 1) })
      else d
    let begun := match t.lineKind p with
      | .active y => driven y
      | .blank => s.setOu o v
    let due : Prop := t.interlace = true ∧ u.scanLine = t.vblank + 1 + t.vactive / 2 ∧ u.field = .top
    (u.timingRuns = false ∨ t.frameLines ≤ p ∨ due → exec (.lineStart o) s = .next s) ∧
    (u.timingRuns = true → p < t.frameLines → ¬ due →
      exec (.lineStart o) s = .next ((t.fetchAt p).elim begun fun y =>
        beginFetch o y (decide (u.halfB.condition = .shown)) begun)) ∧
    (u.timingRuns = true → due → exec (.fieldStart o) s = .next (s.setOu o { u with field := .bottom })) ∧
    (u.timingRuns = false ∨ ¬ due → exec (.fieldStart o) s = .next s)

/-- R105, R132, R143: the colours driven on an output line: the composed line, or with the flicker filter floor((above +
2 × here + below) / 4) per channel, the lines above and below standing in the carry, head and second composed lines, and
the line itself at the first and last line of the frame; and what the carry and head lines then hold. The model's
choices: a carry or head line that holds no line stands for the line itself (log 18), an area missing for one source
line is left out of that composition only (log 24), and the carry line is kept at the last line (log 25). -/
def Obligations.DrivenLine : Prop :=
  ∀ (o : OutputId) (y : Nat) (areas : List Area) (s : State),
    let u := s.ou o
    let t := u.timing
    let compose (line : Nat) : List Colour := (List.range t.hactive).map fun x => composePixel s o areas x line
    let d := (driveLine o y areas s).ou o
    (t.flicker = false → driveLine o y areas s = s.setOu o { u with driven := some (compose y) }) ∧
    (t.flicker = true →
      let above := if y = 0 then compose y else if y = 1 then u.head.getD (compose y) else u.carry.getD (compose y)
      let below := if y + 1 < t.vactive then compose (y + 1) else compose y
      let channel (a h b : Byte) : Byte := byteOf ((a.toNat + 2 * h.toNat + b.toNat) / 4)
      (∃ line, d.driven = some line ∧ line.length = t.hactive ∧ ∀ x < t.hactive,
        let a := above.getD x .black
        let h := (compose y).getD x .black
        let b := below.getD x .black
        line.getD x .black = ⟨channel a.r h.r b.r, channel a.g h.g b.g, channel a.b h.b b.b⟩) ∧
      d.carry = (if y + 1 < t.vactive then some (compose (y + 1)) else u.carry) ∧
      d.head = (if y = 0 then some (compose 0) else u.head) ∧
      driveLine o y areas s = s.setOu o { u with driven := d.driven, carry := d.carry, head := d.head })

/-- R96, R97, R98, R103, R140: a pixel is formed from the background, or black with no current frame, by the layers
bottom first and then the cursor; a layer that does not cover it, or whose area is missing or not complete, is
skipped. R33, R34, R99 to R102: what a covering layer does with the raw value it samples, by its format and mode. -/
def Obligations.ComposedPixel : Prop :=
  (∀ (s : State) (o : OutputId) (areas : List Area) (x y : Nat),
     let p := s.pres o
     let ready (owner : AreaOwner) : Option Area :=
       areas.find? fun a => decide (a.owner = owner ∧ a.line = y ∧ a.complete = true)
     let layered (i : Nat) (l : Layer) (below : Colour) : Colour :=
       (ready (.layer i)).elim below fun a =>
         if l.dx ≤ x ∧ (x : Int) < l.dx + l.source.w then
           layerEffect l (s.surface l.surface).format (s.ou o).active (a.pixels.getD (x - l.dx.toNat) 0) below
         else below
     let cursor (below : Colour) : Colour :=
       (p.binding.bind fun b => (ready .cursor).map fun a => (b, a)).elim below fun ba =>
         if p.position.x ≤ x ∧ (x : Int) < p.position.x + 64 then
           ov2Effect ba.1.colour0 ba.1.colour1 (ba.2.pixels.getD ((x : Int) - p.position.x).toNat 0) below
         else below
     (p.current = none → composePixel s o areas x y = cursor .black) ∧
     ∀ r, p.current = some r → composePixel s o areas x y =
       cursor (r.layers.zipIdx.foldl (fun below li => layered li.2 li.1 below) r.background)) ∧
  (∀ (l : Layer) (palette : List Colour) (raw : Nat) (below : Colour),
     let mixed (c : Colour) : Colour := match l.mode with
       | .opaqueMode => c
       | .keyed key => if c = key then below else c
       | .alphaMode a =>
         let blend (x y : Byte) : Byte := byteOf ((a * x.toNat + (16 - a) * y.toNat) / 16)
         ⟨blend c.r below.r, blend c.g below.g, blend c.b below.b⟩
     (∀ colour0 colour1, ov2Effect colour0 colour1 0 below = colour0 ∧ ov2Effect colour0 colour1 1 below = colour1 ∧
       ov2Effect colour0 colour1 2 below = below ∧ ov2Effect colour0 colour1 3 below =
         ⟨byteOf (255 - below.r.toNat), byteOf (255 - below.g.toNat), byteOf (255 - below.b.toNat)⟩) ∧
     layerEffect l .ix8 palette raw below = mixed (palette.getD raw .black) ∧
     (∀ bank, l.bank = some bank → layerEffect l .ix4 palette raw below = mixed (palette.getD (bank * 16 + raw) .black)) ∧
     layerEffect l .rgb16 palette raw below = mixed (rgb16Colour raw) ∧
     ∀ colour0 colour1, l.pair = some (colour0, colour1) →
       layerEffect l .ov2 palette 0 below = colour0 ∧ layerEffect l .ov2 palette 1 below = colour1 ∧
       layerEffect l .ov2 palette 2 below = below ∧
       layerEffect l .ov2 palette 3 below =
         ⟨byteOf (255 - below.r.toNat), byteOf (255 - below.g.toNat), byteOf (255 - below.b.toNat)⟩)

/-- R32: the conversion of an RGB16 pixel. -/
def Obligations.Rgb16Widening : Prop :=
  ∀ r5 g6 b5 : Nat, r5 < 32 → g6 < 64 → b5 < 32 →
    rgb16Colour (r5 * 2048 + g6 * 32 + b5) = ⟨byteOf (r5 * 8 + r5 / 4), byteOf (g6 * 4 + g6 / 16), byteOf (b5 * 8 + b5 / 4)⟩

/-! ### Frames, the cursor and admission (chapters 4 and 5) -/

/-- R83: the line bytes of a layer entry on an output. -/
def Obligations.LayerLineBytes : Prop :=
  ∀ (s : State) (t : Timing) (l : Layer),
    let clipped : Int := min (l.dx + l.source.w) t.hactive - max l.dx 0
    layerLineBytes s t l =
      if 0 < clipped ∧ l.dy < t.vactive ∧ 0 < l.dy + l.source.h then
        ceilDiv (clipped.toNat * (s.surface l.surface).format.bpp) 64 * 8
      else 0

/-- R60, R62, R194: the length walk accepts exactly the announced number of entries laid end to end, each as long as its
own mode and flags call for. R192, R194: where the fields of an entry stand, and how a field is read: unsigned and
signed numbers low byte first, a colour red, green, blue. R84, R85: the cursor term and D. R62 to R69, R87, R88, R89:
PRESENT checks in order with the index of the entry that failed, and on acceptance appends a record with the next token,
a scan reference for each of its entries, and the reserved load found; REPLACE first drops the queue. -/
def Obligations.Present : Prop :=
  (∀ (n : Nat) (bytes : List Byte) (layers : List LayerArgs),
     walkLayers n bytes = some layers ↔
       ∃ entries : List (List Byte), entries.flatten = bytes ∧ entries.length = n ∧ layers = entries.map layerArgs ∧
         ∀ e ∈ entries, 16 ≤ e.length ∧ e.length = 16 +
           (if arg8 e 13 = 1 then 3 else if arg8 e 13 = 2 then 1 else 0) + (if arg8 e 14 = 1 then 1 else 0) +
           (if arg8 e 15 = 1 then 6 else 0)) ∧
  (∀ e : List Byte,
     let mode := arg8 e 13
     let bankAt := 16 + (if mode = 1 then 3 else if mode = 2 then 1 else 0)
     let pairAt := bankAt + (if arg8 e 14 = 1 then 1 else 0)
     layerArgs e =
       { surface := arg8 e 0, source := ⟨arg16 e 1, arg16 e 3, arg16 e 5, arg16 e 7⟩, dx := argSigned e 9
         dy := argSigned e 11, mode := mode, bankFlag := arg8 e 14, colourFlag := arg8 e 15
         key := if mode = 1 then argColour e 16 else .black, alpha := if mode = 2 then arg8 e 16 else 0
         bank := if arg8 e 14 = 1 then arg8 e bankAt else 0
         colour0 := if arg8 e 15 = 1 then argColour e pairAt else .black
         colour1 := if arg8 e 15 = 1 then argColour e (pairAt + 3) else .black }) ∧
  (∀ (args : List Byte) (i : Nat),
     let byte (k : Nat) : Byte := args.getD (i + k) 0
     arg8 args i = (byte 0).toNat ∧ arg16 args i = (byte 0).toNat + 256 * (byte 1).toNat ∧
       argSigned args i = (byte 1 ++ byte 0 : BitVec 16).toInt ∧ argColour args i = ⟨byte 0, byte 1, byte 2⟩) ∧
  (∀ p : Presentation, p.cursorTerm = match p.binding, p.pendingBinding with
     | some _, _ | none, .bind _ => 16
     | none, .noChange | none, .unbind => 0) ∧
  (∀ u : OutputUnit, u.loadD = if u.valid then u.timing.divider * (u.timing.hactive + u.timing.hblank) else 1) ∧
  (∀ (s : State) (seq : Byte) (args : List Byte), Taking s seq 0x40 args →
     let walked := if args.length < 6 then none else walkLayers (arg8 args 5) (args.drop 6)
     let entries := walked.getD []
     let n := arg8 args 0
     let o : OutputId := if n = 0 then .out0 else .out1
     let replace : Bool := arg8 args 1 = 1
     let u := s.ou o
     let p := s.pres o
     let other := otherOutput o
     let f := if u.timing.flicker then 2 else 1
     let outOfRange (l : LayerArgs) : Bool := decide (64 ≤ l.surface ∨ l.dx < -2048 ∨ 2047 < l.dx ∨ l.dy < -2048 ∨
       2047 < l.dy ∨ 2 < l.mode ∨ 16 < l.alpha ∨ 15 < l.bank ∨ 1 < l.bankFlag ∨ 1 < l.colourFlag)
     let empty (l : LayerArgs) : Bool := decide ((s.surface l.surface).state = .empty)
     let notReady (l : LayerArgs) : Bool := decide ((s.surface l.surface).state ≠ .ready)
     let misfits (l : LayerArgs) : Bool :=
       let r := s.surface l.surface
       !l.source.within r.storedWidth r.storedHeight || decide ((r.format = .ix4) ≠ (l.bankFlag = 1)) ||
         decide ((r.format = .ov2) ≠ (l.colourFlag = 1)) || decide (r.format = .ov2 ∧ l.mode ≠ 0)
     let index (bad : LayerArgs → Bool) : Byte := byteOf ((entries.findIdx? bad).getD 0xFF)
     let layers : List Layer := entries.map fun l =>
       { surface := l.surface, source := l.source, dx := l.dx, dy := l.dy
         mode := if l.mode = 1 then .keyed l.key else if l.mode = 2 then .alphaMode l.alpha else .opaqueMode
         bank := if l.bankFlag = 1 then some l.bank else none
         pair := if l.colourFlag = 1 then some (l.colour0, l.colour1) else none }
     let load := (layers.map (layerLineBytes s u.timing)).sum
     let kept := if replace then [] else p.queue
     let loads := (p.current.toList ++ kept).map (·.load) ++ [load]
     let loadN := f * (loads.foldl max 0 + p.cursorTerm)
     let token := if p.token = 65535 then 1 else p.token + 1
     let record : FrameRecord :=
       { output := o, background := argColour args 2, layers := layers, token := token, load := load }
     let emptied := if replace then
         releaseScans (p.queue.map fun r => r.layers.map (·.surface)).flatten (s.setPres o { p with queue := [] })
       else s
     exec .present s = .next (answerByIndex seq 0x40
       [(walked.isNone, .badLength, 0xFF), (decide (1 < n ∨ 1 < arg8 args 1 ∨ 4 < arg8 args 5), .badArgument, 0xFF),
        (entries.any outOfRange, .badArgument, index outOfRange),
        (decide (u.state ≠ .powerUp ∧ u.state ≠ .running), .wrongState, 0xFF),
        (entries.any empty, .noSuchSurface, index empty), (entries.any notReady, .wrongState, index notReady),
        (entries.any misfits, .badArgument, index misfits),
        (!replace && decide (3 ≤ p.queue.length), .queueFull, 0xFF),
        (decide (6144 < f * (load + p.cursorTerm)), .overBudget, 0xFF),
        (decide (s.share * u.loadD * (s.ou other).loadD <
           12 * (loadN * (s.ou other).loadD + (s.pres other).loadN * u.loadD)), .overBudget, 0xFF)] s
       (answered seq ([0x40, 0x00] ++ le16 token ++
           [byteOf (kept.length + 1), if replace then byteOf p.queue.length else 0])
         ((layers.foldl (fun w l => addScan l.surface w) emptied).setPres o
           { p with queue := kept ++ [record], token := token, loadN := loadN }))))

/-- R74, R75, R90: SET_CURSOR replaces the pending binding when the load allows it, releasing the one before. -/
def Obligations.SetCursor : Prop :=
  ∀ (s : State) (seq : Byte) (args : List Byte), Taking s seq 0x41 args →
    let n := arg8 args 0
    let o : OutputId := if n = 0 then .out0 else .out1
    let id := arg8 args 1
    let u := s.ou o
    let p := s.pres o
    let r := s.surface id
    let other := otherOutput o
    let f := if u.timing.flicker then 2 else 1
    let unbind := id = 0xFF
    let loads := (p.current.toList ++ p.queue).map (·.load)
    let bound := f * (loads.foldl max 0 + 16)
    let pending : PendingBinding := if unbind then .unbind else .bind ⟨id, argColour args 2, argColour args 5⟩
    let dropped := releaseScans p.pendingBinding.surfaces (s.setPres o { p with pendingBinding := pending })
    exec .setCursor s = .next (answerBy seq 0x41
      [(decide (args.length ≠ 8), .badLength), (decide (1 < n ∨ (64 ≤ id ∧ ¬ unbind)), .badArgument),
       (decide (u.state ≠ .powerUp ∧ u.state ≠ .running), .wrongState),
       (decide (¬ unbind ∧ r.state = .empty), .noSuchSurface), (decide (¬ unbind ∧ r.state ≠ .ready), .wrongState),
       (decide (¬ unbind ∧ ¬ (r.format = .ov2 ∧ r.width = 64 ∧ r.height = 64)), .badArgument),
       (decide (¬ unbind ∧ ((∃ load ∈ loads, 6144 < f * (load + 16)) ∨
          s.share * u.loadD * (s.ou other).loadD <
            12 * (bound * (s.ou other).loadD + (s.pres other).loadN * u.loadD))), .overBudget)] s
      (answered seq [0x41, 0x00] ((if unbind then dropped else addScan id dropped).setPres o { p with
        pendingBinding := pending
        loadN := f * (loads.foldl max 0 + if p.binding.isSome ∨ ¬ unbind then 16 else 0) })))

/-- R76: MOVE_CURSOR replaces the pending position. -/
def Obligations.MoveCursor : Prop :=
  ∀ (s : State) (seq : Byte) (args : List Byte), Taking s seq 0x42 args →
    let n := arg8 args 0
    let o : OutputId := if n = 0 then .out0 else .out1
    let x := argSigned args 1
    let y := argSigned args 3
    let visible := arg8 args 5
    let u := s.ou o
    exec .moveCursor s = .next (answerBy seq 0x42
      [(decide (args.length ≠ 6), .badLength),
       (decide (1 < n ∨ x < -63 ∨ 2047 < x ∨ y < -63 ∨ 2047 < y ∨ 1 < visible), .badArgument),
       (decide (u.state ≠ .powerUp ∧ u.state ≠ .running), .wrongState)] s
      (answered seq [0x42, 0x00] (s.setPres o { s.pres o with pendingPosition := ⟨x, y, visible = 1⟩ })))

/-- R94: SET_BUDGET replaces the share when the reserved loads fit it; both replies carry the share in force and the
least share the loads allow, which is never above the share in force, so raising it always passes. -/
def Obligations.SetBudget : Prop :=
  ∀ (s : State) (seq : Byte) (args : List Byte), Taking s seq 0x43 args →
    let share := arg8 args 0
    let d0 := s.ou0.loadD
    let d1 := s.ou1.loadD
    let sum := s.pres0.loadN * d1 + s.pres1.loadN * d0
    let least := max 4 (ceilDiv (12 * sum) (d0 * d1))
    exec .setBudget s = .next (answerBy seq 0x43
      [(decide (args.length ≠ 1), .badLength), (decide (share < 4 ∨ 9 < share), .badArgument)] s
      (if 12 * sum ≤ share * d0 * d1 then answered seq [0x43, 0x00, byteOf share, byteOf least] { s with share := share }
       else answered seq [0x43, 0x0A, byteOf s.share, byteOf least] s)) ∧
    (OutputLaw s → BudgetLaw s → least ≤ s.share ∧ (s.share ≤ share → 12 * sum ≤ share * d0 * d1) ∧
      (4 ≤ share → (12 * sum ≤ share * d0 * d1 ↔ least ≤ share)))

/-- R70, R71, R77, R91: a take makes the oldest queued record current and retires the old one, counts it, latches the
cursor, and recomputes the reserved load; with an empty queue the current frame stays and no FRAME_SHOWN is raised.
R8, R79: a release empties what an output presents, gives up every scan reference of it, and keeps the positions and
the token; references are added and given up one for one. R10: references given up are the lowered counts, and then each
surface named is settled, as CompletionAndRelease says: a DISCARDING one without uses is freed with SURFACE_FREED raised
(in the order of log 12). -/
def Obligations.TakeAndRelease : Prop :=
  (∀ (o : OutputId) (s : State),
     let t := take o s
     let p := s.pres o
     let q := t.pres o
     let retired := if p.queue = [] then [] else (p.current.elim [] (·.layers)).map (·.surface)
     let unbound := if p.pendingBinding = .noChange then [] else (p.binding.map (·.surface)).toList
     q = { p with
       queue := p.queue.tail, current := if p.queue = [] then p.current else p.queue.head?
       binding := match p.pendingBinding with
         | .noChange => p.binding
         | .unbind => none
         | .bind b => some b
       pendingBinding := .noChange, position := p.pendingPosition
       loadN := (if (s.ou o).timing.flicker then 2 else 1) *
         (((q.current.toList ++ q.queue).map (·.load)).foldl max 0 + if q.binding.isSome then 16 else 0) } ∧
     t.ou o = { s.ou o with
       framesShown := if p.queue = [] then (s.ou o).framesShown else ((s.ou o).framesShown + 1) % 4294967296 } ∧
     (let shown : State := match p.queue with
        | [] => s
        | r :: rest =>
          let w := scansGivenUp retired (s.setPres o { p with queue := rest, current := some r })
          raise (.frameShown o r.token 1)
            (w.setOu o { w.ou o with framesShown := ((s.ou o).framesShown + 1) % 4294967296 })
      let latched := scansGivenUp unbound (shown.setPres o { q with loadN := p.loadN })
      t = latched.setPres o q) ∧
     (∀ id, (s.surface id).state = .ready → t.surface id =
       { s.surface id with scanRefs := (s.surface id).scanRefs - retired.count id - unbound.count id }) ∧
     (p.queue = [] → p.pendingBinding = .noChange → t.notices = s.notices) ∧
     (∀ r rest, p.queue = r :: rest → unbound = [] → t.notices =
       (raise (.frameShown o r.token 1) (releaseScans retired (s.setPres o { p with queue := rest, current := some r }))).notices) ∧
     t.pres (otherOutput o) = s.pres (otherOutput o) ∧ t.ou (otherOutput o) = s.ou (otherOutput o) ∧ t.mem = s.mem ∧
     t.pe = s.pe ∧ t.port = s.port ∧ t.share = s.share ∧ t.slots = s.slots ∧ t.arrival = s.arrival ∧ t.rx = s.rx ∧
     t.tx = s.tx ∧ t.held = s.held) ∧
  (∀ (o : OutputId) (s : State),
     let t := releaseOutput o s
     let p := s.pres o
     let uses := ((p.queue ++ p.current.toList).map fun r => r.layers.map (·.surface)).flatten ++
       (p.binding.map (·.surface)).toList ++ p.pendingBinding.surfaces
     t = scansGivenUp uses (s.setPres o
       { p with queue := [], current := none, binding := none, pendingBinding := .noChange, loadN := 0 }) ∧
     t.pres o = { p with queue := [], current := none, binding := none, pendingBinding := .noChange, loadN := 0 } ∧
     (∀ id, (s.surface id).state = .ready → t.surface id =
       { s.surface id with scanRefs := (s.surface id).scanRefs - uses.count id }) ∧
     (∀ id, uses.count id = 0 → t.surface id = s.surface id) ∧
     (∃ surfaces granules notices nextNotice replies cache pendingReplies, t = { s.setPres o (t.pres o) with
       surfaces := surfaces, granules := granules, notices := notices, nextNotice := nextNotice, replies := replies,
       cache := cache, pendingReplies := pendingReplies }) ∧
     ∀ (ids : List Nat) (id : Nat), id < s.surfaces.length → (ids.foldl (fun w i => addScan i w) s).surface id =
       { s.surface id with scanRefs := (s.surface id).scanRefs + ids.count id })

/-! ### Notices (chapter 11) -/

/-- R181, R182: the key of a notice and the marker. R183, R184: a raise updates the unsent entry of its key, or appends
an entry, or is counted as lost in the marker. R185: the next notice seq advances by one from 255 to 0, passing over the
values held by entries present. R10, R71, R130, R141, R156, R158, R189: how an entry takes a newer notice of its key, by
an update or by folding. -/
def Obligations.RaisingANotice : Prop :=
  (∀ n : Notice,
     let number (o : OutputId) : Nat := match o with
       | .out0 => 0
       | .out1 => 1
     n.key = (n.kindCode, match n with
       | .frameShown o _ _ | .outputState o _ _ _ | .lineMiss o _ _ _ => number o
       | .surfaceFreed id _ _ => id
       | .ready _ | .linkError _ _ _ _ | .linkDrop _ _ | .overflow _ _ => 0) ∧
     n.isMarker = decide (n.kindCode = 8)) ∧
  (∀ (n : Notice) (s : State),
     let same (e : NoticeEntry) : Bool := !e.sent && decide (e.notice.key = n.key)
     let append (m : Notice) (kept : List NoticeEntry) : State :=
       let entries := kept ++ [⟨m, s.nextNotice, false⟩]
       { s with notices := entries, nextNotice := nextSeqAfter (entries.map (·.seq)) s.nextNotice }
     let ordinary := s.notices.filter fun e => !e.notice.isMarker
     (s.notices.any same = true → raise n s = { s with
       notices := s.notices.map fun e => if same e then { e with notice := e.notice.combine n } else e }) ∧
     (s.notices.any same = false → ordinary.length < 15 → raise n s = append n s.notices) ∧
     (s.notices.any same = false → 15 ≤ ordinary.length →
       (s.notices = ordinary → raise n s = append (.overflow 1 n.kindCode) s.notices) ∧
       ∀ before lost kind seq sent after, s.notices = before ++ ⟨.overflow lost kind, seq, sent⟩ :: after →
         ordinary = before ++ after →
         raise n s = if sent then append (.overflow (min 65535 (lost + 1)) n.kindCode) ordinary
           else { s with notices := before ++ ⟨.overflow (min 65535 (lost + 1)) n.kindCode, seq, false⟩ :: after })) ∧
  (∀ (held : List Nat) (v : Nat), held.length < 256 →
     nextSeqAfter held v ∉ held ∧
       ∃ d, nextSeqAfter held v = (v + 1 + d) % 256 ∧ ∀ e < d, (v + 1 + e) % 256 ∈ held) ∧
  ((∀ o token takes token' takes', Notice.combine (.frameShown o token takes) (.frameShown o token' takes') =
     .frameShown o token' (min 255 (takes + takes'))) ∧
   (∀ o st changes released st' changes' released',
     Notice.combine (.outputState o st changes released) (.outputState o st' changes' released') =
       .outputState o st' (min 255 (changes + changes')) (min 255 (released + released'))) ∧
   (∀ o count first last count' first' last',
     Notice.combine (.lineMiss o count first last) (.lineMiss o count' first' last') =
       .lineMiss o (min 65535 (count + count')) first last') ∧
   (∀ id base granules base' granules', Notice.combine (.surfaceFreed id base granules) (.surfaceFreed id base' granules') =
     .surfaceFreed id base' granules') ∧
   (∀ a b c d a' b' c' d', Notice.combine (.linkError a b c d) (.linkError a' b' c' d') =
     .linkError (min 255 (a + a')) (min 255 (b + b')) (min 255 (c + c')) (min 255 (d + d'))) ∧
   ∀ count seq count' seq', Notice.combine (.linkDrop count seq) (.linkDrop count' seq') =
     .linkDrop (min 255 (count + count')) seq')

/-- R187: ACK_NOTICES removes a sent entry and every older one; a seq that no sent entry has is refused. -/
def Obligations.AckNotices : Prop :=
  ∀ (s : State) (seq : Byte) (args : List Byte), Taking s seq 0x50 args → NoticeLaw s →
    let n := arg8 args 0
    (args.length ≠ 1 ∨ (∀ e ∈ s.notices, e.seq = n → e.sent = false) → exec .ackNotices s = .next (answerBy seq 0x50
      [(decide (args.length ≠ 1), .badLength), (true, .badArgument)] s s)) ∧
    ∀ (older newer : List NoticeEntry) (e : NoticeEntry), args.length = 1 → s.notices = older ++ e :: newer →
      e.seq = n → e.sent = true → (∀ x ∈ older, x.sent = true) ∧
      exec .ackNotices s = .next (answered seq [0x50, 0x00, byteOf (older.length + 1), byteOf newer.length]
        { s with notices := newer })

/-- R188, R189: RESEND_NOTICES makes every entry unsent in its place; entries that then share a key are folded, in
queue order, into the oldest of them. -/
def Obligations.ResendNotices : Prop :=
  ∀ (s : State) (seq : Byte) (args : List Byte), Taking s seq 0x51 args →
    ∃ folded : List NoticeEntry,
      (folded.map (·.seq)).Sublist (s.notices.map (·.seq)) ∧ (folded.map (·.notice.key)).Nodup ∧
      (∀ older e newer, s.notices = older ++ e :: newer → e.notice.key ∉ older.map (·.notice.key) →
        ⟨((newer.filter fun x => decide (x.notice.key = e.notice.key)).map (·.notice)).foldl Notice.combine e.notice,
          e.seq, false⟩ ∈ folded) ∧
      (∀ x ∈ folded, x.sent = false ∧ ∃ e ∈ s.notices, e.seq = x.seq ∧ e.notice.key = x.notice.key) ∧
      let made := folded.filter fun x => s.notices.any fun e => decide (e.seq = x.seq) && e.sent
      exec .resendNotices s = .next (answerBy seq 0x51 [(decide (args.length ≠ 0), .badLength)] s
        (if s.notices.all (fun e => !e.sent) then answered seq [0x51, 0x00, 0, 0] s
         else answered seq [0x51, 0x00, byteOf made.length, byteOf (s.notices.length - folded.length)]
          { s with notices := folded }))

/-! ### The link and the resets (chapters 9 and 10) -/

/-- R148: a UART character is a start bit low, the data bits least significant first and a stop bit high; R149: an
exchange carries its byte most significant bit first. R151: the CRC is the register of the generator 0x1021 from 0xFFFF,
over the bits most significant first; sent low byte first. -/
def Obligations.BytesOnTheLine : Prop :=
  (∀ b : Byte,
     uartCharacter b = [false, b.getLsbD 0, b.getLsbD 1, b.getLsbD 2, b.getLsbD 3, b.getLsbD 4, b.getLsbD 5, b.getLsbD 6,
       b.getLsbD 7, true] ∧
     spiExchange b = [b.getLsbD 7, b.getLsbD 6, b.getLsbD 5, b.getLsbD 4, b.getLsbD 3, b.getLsbD 2, b.getLsbD 1,
       b.getLsbD 0]) ∧
  ((∀ bytes : List Byte, crc16 bytes =
     (bytes.flatMap fun b => (List.range 8).map fun i => b.getMsbD i).foldl
       (fun (r : BitVec 16) bit => (r <<< 1) ^^^ (if r.msb != bit then 0x1021 else 0)) 0xFFFF) ∧
   (∀ bytes : List Byte, crcField bytes = [(crc16 bytes).extractLsb' 0 8, (crc16 bytes).extractLsb' 8 8]) ∧
   crcField [0x31, 0x32, 0x33, 0x34, 0x35, 0x36, 0x37, 0x38, 0x39] = [0xB1, 0x29])

/-- R152, R153, R154, R156, R157, R158: what the receiver does with one byte, by its state, when a whole one comes in
(as an SPI target CS_N falls first if it is high, and the outbound half of the exchange follows, R149, R161, log 26).
R155, R156: outside HUNT the expiry of the inter-byte timer is a TIMEOUT error; in HUNT there is none (log 2). -/
def Obligations.ReceiverByByte : Prop :=
  (∀ (s : State) (b : Byte), s.inReset = false → s.wire.bits = [] → s.linkMode ≠ none →
     let begun := wholeBegun s
     let bytes := s.rx.bytes ++ [b]
     let n := arg16 bytes 0
     let rxIs (phase : ReceiverPhase) (held : List Byte) : State := { begun with rx := ⟨phase, held⟩ }
     let hunt := rxIs .hunt []
     let gives (t : State) : Prop := exec (.receivedByte (.whole b)) s = .next (wholeEnded t)
     (s.rx.phase = .hunt → gives (if b = 0xA5 then rxIs .header [] else begun)) ∧
     (s.rx.phase = .header → gives (
       if bytes.length = 2 ∧ 1024 < n then raise (.linkError 1 0 0 0) hunt
       else if bytes.length < 5 then rxIs .header bytes
       else if n = 0 then rxIs .check bytes
       else rxIs .body bytes)) ∧
     (s.rx.phase = .body → gives (rxIs (if bytes.length < 5 + n then .body else .check) bytes)) ∧
     (s.rx.phase = .check → bytes.length < 7 + n → gives (rxIs .check bytes)) ∧
     (s.rx.phase = .check → bytes.length = 7 + n →
       (crcField (bytes.take (5 + n)) ≠ bytes.drop (5 + n) → gives (raise (.linkError 0 1 0 0) hunt)) ∧
       (crcField (bytes.take (5 + n)) = bytes.drop (5 + n) →
         (bytes.getD 2 0 ≠ 0x01 → gives (raise (.linkError 0 0 1 0) hunt)) ∧
         (bytes.getD 2 0 = 0x01 →
           (∀ i < 6, s.slots.getD i none = none → (∀ j < i, s.slots.getD j none ≠ none) →
             gives { hunt with
               slots := s.slots.set i (some ⟨bytes.getD 3 0, (bytes.drop 5).take n⟩), arrival := s.arrival ++ [i] }) ∧
           ((∀ i < 6, s.slots.getD i none ≠ none) → gives (raise (.linkDrop 1 (bytes.getD 3 0)) hunt)))))) ∧
  (∀ s : State, exec .interByteTimeout s = .next (
     if s.rx.phase = .hunt then s else raise (.linkError 0 0 0 1) { s with rx := ⟨.hunt, []⟩ }))

/-- R150, R151, R153, R154, R157, R158: a whole request frame, as the spec lays it out, is received from HUNT into the
lowest free slot with its seq and payload unchanged, or dropped when no slot is free; as an SPI target the outbound half
of each of its exchanges follows the receiver (R149, R161; the model's choice, log 26), so that a frame taken at the end
of the last one already counts the slot. R153, R163; log 1: RECEIVE_FRAME is its bytes received one after another; in
hard reset no byte is taken. -/
def Obligations.RequestFramesArriveWhole : Prop :=
  (∀ (s : State) (seq aux : Byte) (payload : List Byte), s.inReset = false → s.rx = ⟨.hunt, []⟩ → s.wire.bits = [] →
     s.linkMode ≠ none → payload.length ≤ 1024 →
     let frame := linkFrame 0x01 seq aux payload
     let before := (frame.drop 1).foldl (fun w _ => wholeEnded w) (wholeBegun s)
     frame.take 6 = [0xA5, byteOf payload.length, byteOf (payload.length / 256), 0x01, seq, aux] ∧
     (frame.drop 6).take payload.length = payload ∧ frame.length = payload.length + 8 ∧
     (∀ i < 6, s.slots.getD i none = none → (∀ j < i, s.slots.getD j none ≠ none) →
       exec (.receiveFrame frame) s = .next (wholeEnded { before with
         slots := s.slots.set i (some ⟨seq, payload⟩), arrival := s.arrival ++ [i] })) ∧
     ((∀ i < 6, s.slots.getD i none ≠ none) →
       exec (.receiveFrame frame) s = .next (wholeEnded (raise (.linkDrop 1 seq) before)))) ∧
  (∀ (s : State),
     (s.inReset = true → (∀ bytes, exec (.receiveFrame bytes) s = .next s) ∧ ∀ e, exec (.receivedByte e) s = .next s) ∧
     (s.inReset = false → exec (.receiveFrame []) s = .next s ∧
       ∀ b bytes t, exec (.receivedByte (.whole b)) s = .next t →
         exec (.receiveFrame (b :: bytes)) s = exec (.receiveFrame bytes) t))

/-- R159, R160, R161, R186: the transmitter takes the reply at the head of the queue, or else the oldest unsent notice,
which becomes sent; none while a DEVICE_RESET drains; the frame carries the credit count; and a reply leaves the queue
when its last byte has been sent. As a UART it takes by TRANSMIT_TAKE and its last byte is FRAME_SENT. As an SPI target
it takes at the decision points, the fall of CS_N and the end of an exchange; each exchange sends one byte, and these
two commands, which then have no occasion of their own, change nothing (logs 15 and 2). The frame is held as its whole
list of bytes with the count sent (log 15). R162: ATTN_N is low exactly while a reply, an unsent notice or a frame in
the transmit position stands, and the part is not in hard reset (R163). R196: the payload of each kind of notice, its
numbers low byte first (R192). -/
def Obligations.TransmitterAndAttention : Prop :=
  (∀ s : State,
     let credits := byteOf (6 - (s.slots.filter (·.isSome)).length)
     (∀ f, s.tx = some f → takeOutbound s = s) ∧
     (s.tx = none →
       (∀ r rest, s.replies = r :: rest → takeOutbound s = { s with
         tx := some ⟨true, linkFrame 0x81 r.seq credits r.payload, 0⟩ }) ∧
       (s.replies = [] → s.draining = true ∨ s.inReset = true ∨ (∀ e ∈ s.notices, e.sent = true) → takeOutbound s = s) ∧
       ∀ older e newer, s.replies = [] → s.draining = false → s.inReset = false → s.notices = older ++ e :: newer →
         (∀ x ∈ older, x.sent = true) → e.sent = false → takeOutbound s = { s with
           tx := some ⟨false, linkFrame 0x82 (byteOf e.seq) credits e.notice.payload, 0⟩
           notices := older ++ { e with sent := true } :: newer })) ∧
  (∀ s : State,
     let ended (f : OutboundFrame) : State :=
       { s with tx := none, replies := if f.isReply then s.replies.tail else s.replies }
     (∀ baud, s.linkMode = some (.uart baud) →
       exec .transmitTake s = .next (takeOutbound s) ∧
       (s.tx = none → exec .frameSent s = .next s) ∧
       ∀ f, s.tx = some f → exec .frameSent s = .next (ended f)) ∧
     (s.linkMode = some .spi → exec .transmitTake s = .next s ∧ exec .frameSent s = .next s) ∧
     (s.linkMode = some .spi → s.inReset = false →
       let t := takeOutbound { s with wire := { s.wire with selected := true, bits := [] } }
       exec (.receivedByte .csnFalls) s =
         .next { t with wire := { t.wire with sckHigh := false, sdo := t.spiOffer.getLsbD 7 } }) ∧
     (s.tx = none → s.spiOffer = 0x00 ∧ exchangeSent s = takeOutbound s) ∧
     ∀ f, s.tx = some f → s.spiOffer = f.bytes.getD f.sent 0 ∧ exchangeSent s =
       if f.sent + 1 < f.bytes.length then { s with tx := some { f with sent := f.sent + 1 } }
       else takeOutbound (ended f)) ∧
  (∀ s : State, s.attnPin = false ↔
     s.inReset = false ∧ (s.replies ≠ [] ∨ (∃ e ∈ s.notices, e.sent = false) ∨ s.tx ≠ none)) ∧
  (let number (o : OutputId) : Byte := match o with
     | .out0 => 0
     | .out1 => 1
   let cause (c : ReadyCause) : Byte := match c with
     | .powerOn => 0
     | .pin => 1
     | .request => 2
   let entered (st : OutputState) : Byte := match st with
     | .off => 0
     | .powerUp => 1
     | .running => 2
     | .ending => 3
     | .powerDown => 4
   (∀ n : Nat, le16 n = [byteOf n, byteOf (n / 256)] ∧
     le32 n = [byteOf n, byteOf (n / 256), byteOf (n / 65536), byteOf (n / 16777216)]) ∧
   (∀ n : Notice, n.kindCode ≤ 8 ∧ n.payload.head? = some (byteOf n.kindCode)) ∧
   (∀ c, (Notice.ready c).payload = [0x01, cause c]) ∧
   (∀ o token takes, (Notice.frameShown o token takes).payload = [0x02, number o] ++ le16 token ++ [byteOf takes]) ∧
   (∀ o st changes released, (Notice.outputState o st changes released).payload =
     [0x03, number o, entered st, byteOf changes, byteOf released]) ∧
   (∀ o count first last, (Notice.lineMiss o count first last).payload =
     [0x04, number o] ++ le16 count ++ le16 first ++ le16 last) ∧
   (∀ id base granules, (Notice.surfaceFreed id base granules).payload = [0x05, byteOf id] ++ le16 base ++ le16 granules) ∧
   (∀ lengths crcs kinds timeouts, (Notice.linkError lengths crcs kinds timeouts).payload =
     [0x06, byteOf lengths, byteOf crcs, byteOf kinds, byteOf timeouts]) ∧
   (∀ count seq, (Notice.linkDrop count seq).payload = [0x07, byteOf count, seq]) ∧
   ∀ lost kind, (Notice.overflow lost kind).payload = [0x08] ++ le16 lost ++ [byteOf kind])

/-- R22, R58, R81, R131, R145, R147, R163, R164, R165, R166, R179, R180, R190: a reset gives every block its reset
values and the queue one READY. What is kept is the link mode and the byte in progress on the wires of a soft reset, the
supply mark, the burst in progress with its data unwanted (log 21), and the model's own era (log 5) and commands; both
ends of a hard reset set the values (log 13), after which only the next fall of CS_N begins an exchange. A soft reset
that takes effect between two SPI exchanges chooses the next outbound byte, the sync of READY, whose first bit is on SDO
when SCK is low (log 27). The model's choice (log 2): SOFT_RESET before its drain is over or while the part is held
in hard reset, and a release while RESET_N is high, change nothing. -/
def Obligations.Resets : Prop :=
  ∀ s : State,
    let ignored (g : Grant) : Grant := match g with
      | .fetch o b _ => .fetch o b false
      | .engine b _ => .engine b false
    let cleared (ready : List NoticeEntry) : State := { State.reset with
      inReset := s.inReset, freshSupply := s.freshSupply, linkMode := s.linkMode, notices := ready
      nextNotice := 1, era := s.era, pending := s.pending
      port := { lastScan := .out1, inFlight := s.port.inFlight.map ignored } }
    let ready (cause : ReadyCause) : List NoticeEntry := [⟨.ready cause, 0, false⟩]
    (exec .softReset s = .next (
      if s.inReset = false ∧ s.draining = true ∧ s.replies = [] ∧ s.tx = none then
        if s.linkMode = some .spi ∧ s.wire.selected = true ∧ s.wire.bits = [] then
          { cleared [⟨.ready .request, 0, true⟩] with
            wire := if s.wire.sckHigh then s.wire else { s.wire with sdo := true }
            tx := some ⟨false, linkFrame 0x82 0x00 6 [0x01, 0x02], 0⟩ }
        else { cleared (ready .request) with wire := s.wire }
      else s)) ∧
    (exec (.hardResetAssert .pinLow) s = .next { cleared [] with inReset := true }) ∧
    (exec (.hardResetAssert .powerUp) s = .next { cleared [] with
      inReset := true, freshSupply := true, linkMode := none }) ∧
    ∀ lmode1 lmode0, exec (.hardResetRelease lmode1 lmode0) s = .next (
      if s.inReset = true then { cleared (ready (if s.freshSupply then .powerOn else .pin)) with
        inReset := false, freshSupply := false
        linkMode := some (match lmode1, lmode0 with
          | false, false => .spi
          | false, true => .uart 0
          | true, false => .uart 1
          | true, true => .uart 2) }
      else s)

/-- R147, R148, R149: the signals below a byte. As a UART the ten levels of a character hand over its byte; a stop bit
low is one framing error, after which RXD must be high before a start bit counts; idle levels do nothing. As an SPI
target eight rising edges of SCK with CS_N low complete an exchange; SDO has the first bit of the offered byte from the
fall of CS_N on, keeps its level at a rising edge and takes the next bit at a falling edge; CS_N high discards the bits
and the outbound byte is offered again; a fall of CS_N begins anew; SCK is ignored while CS_N is high. R163: SDO/TXD
carries the characters or the offered byte, and rests high or high-impedance. The model's choice (log 2): a whole byte
while one is in progress, a rise of a SCK that is high and a fall of one that is low change nothing. -/
def Obligations.CharactersAndExchanges : Prop :=
  (∀ (s : State) (e : LineEvent), s.inReset = false → exec (.receivedByte e) s = .next (lineEvent e s)) ∧
  (∀ (s : State) (baud : Nat), s.linkMode = some (.uart baud) →
     let sampled (levels : List Bool) (w : State) : State := levels.foldl (fun v level => lineEvent (.rxd level) v) w
     let waits : State := { s with wire := { s.wire with bits := [], awaitsHigh := true } }
     (s.wire.bits = [] → s.wire.awaitsHigh = false →
       (∀ b, sampled (uartCharacter b) s = lineEvent (.whole b) s) ∧ sampled [true] s = s ∧
       ∀ data : List Bool, data.length = 8 → ∀ k, sampled (false :: data ++ List.replicate (k + 1) false) s = waits) ∧
     (s.wire.bits = [] → sampled [true] waits = { s with wire := { s.wire with awaitsHigh := false } } ∧
       ∀ b, sampled (true :: uartCharacter b) waits = lineEvent (.whole b) s) ∧
     ∀ e, e = .csnFalls ∨ e = .csnRises ∨ e = .sckFalls ∨ (∃ sdi, e = .sckRises sdi) → lineEvent e s = s) ∧
  (∀ s : State, s.linkMode = some .spi →
     let clocked (levels : List Bool) (w : State) : State :=
       levels.foldl (fun v sdi => lineEvent .sckFalls (lineEvent (.sckRises sdi) v)) w
     let risen : State := { s with wire := { s.wire with selected := false, bits := [], sckHigh := false, sdo := false } }
     (s.wire.bits = [] → s.wire.selected = true → s.wire.sckHigh = false →
       ∀ b, clocked (spiExchange b) s = lineEvent (.whole b) s) ∧
     (s.wire.bits = [] → s.wire.selected = true → s.wire.sckHigh = true →
       ∀ b, lineEvent (.whole b) (lineEvent .sckFalls s) = lineEvent (.whole b) s) ∧
     (s.wire.bits = [] → s.wire.selected = false →
       ∀ b, clocked (spiExchange b) (lineEvent .csnFalls s) = lineEvent (.whole b) s) ∧
     (s.wire.bits = [] → s.wire.selected = true → s.wire.sckHigh = false → ∀ levels : List Bool, levels.length < 8 →
       clocked levels s = { s with wire := { s.wire with
         bits := levels, sdo := if levels = [] then s.wire.sdo else s.spiOffer.getLsbD (7 - levels.length) } } ∧
       lineEvent .csnRises (clocked levels s) = risen ∧ risen.spiOffer = s.spiOffer ∧
       lineEvent .csnFalls (clocked levels s) = lineEvent .csnFalls s) ∧
     (let t := lineEvent .csnFalls s
      t.wire.sdo = t.spiOffer.getLsbD 7 ∧ t.wire.sckHigh = false) ∧
     (∀ sdi, let t := lineEvent (.sckRises sdi) s
       t.wire.sdo = s.wire.sdo ∧ (s.wire.selected = true → t.wire.sckHigh = true) ∧ (s.wire.sckHigh = true → t = s)) ∧
     (s.wire.selected = true → s.wire.sckHigh = true → s.wire.bits.length < 8 →
       lineEvent .sckFalls s = { s with wire := { s.wire with
         sckHigh := false, sdo := s.spiOffer.getLsbD (7 - s.wire.bits.length) } }) ∧
     (s.wire.sckHigh = false → lineEvent .sckFalls s = s) ∧
     (s.wire.selected = false → (∀ levels, clocked levels s = s) ∧ lineEvent .sckFalls s = s) ∧
     ∀ level, lineEvent (.rxd level) s = s) ∧
  (∀ (s : State) (b : Byte), s.wire.bits ≠ [] → lineEvent (.whole b) s = s) ∧
  (∀ (s : State) (n : Nat),
     (s.linkMode = none → s.sdoPin n = none) ∧
     (∀ baud, s.linkMode = some (.uart baud) →
       (s.inReset = true ∨ s.tx = none → s.sdoPin n = some true) ∧
       ∀ f, s.inReset = false → s.tx = some f → s.sdoPin n = some
         (if n < 10 * f.bytes.length then (uartCharacter (f.bytes.getD (n / 10) 0)).getD (n % 10) true else true)) ∧
     (s.linkMode = some .spi →
       (s.inReset = true ∨ s.wire.selected = false → s.sdoPin n = none) ∧
       (s.inReset = false → s.wire.selected = true → s.sdoPin n = some s.wire.sdo)))

end
end

