-- ==== Sys2Proof/Laws/State.lean ====
section
/-! SUPPORT. What each named update of State leaves as it was, field by field, and the accessors after it. -/

namespace Sys2Proof.Machine

/-! ### setSurface -/

@[simp] theorem State.setSurface_inReset (s : State) (id : Nat) (r : Surface) : (s.setSurface id r).inReset = s.inReset := rfl

@[simp] theorem State.setSurface_freshSupply (s : State) (id : Nat) (r : Surface) : (s.setSurface id r).freshSupply = s.freshSupply := rfl

@[simp] theorem State.setSurface_linkMode (s : State) (id : Nat) (r : Surface) : (s.setSurface id r).linkMode = s.linkMode := rfl

@[simp] theorem State.setSurface_wire (s : State) (id : Nat) (r : Surface) : (s.setSurface id r).wire = s.wire := rfl

@[simp] theorem State.setSurface_rx (s : State) (id : Nat) (r : Surface) : (s.setSurface id r).rx = s.rx := rfl

@[simp] theorem State.setSurface_slots (s : State) (id : Nat) (r : Surface) : (s.setSurface id r).slots = s.slots := rfl

@[simp] theorem State.setSurface_arrival (s : State) (id : Nat) (r : Surface) : (s.setSurface id r).arrival = s.arrival := rfl

@[simp] theorem State.setSurface_tx (s : State) (id : Nat) (r : Surface) : (s.setSurface id r).tx = s.tx := rfl

@[simp] theorem State.setSurface_held (s : State) (id : Nat) (r : Surface) : (s.setSurface id r).held = s.held := rfl

@[simp] theorem State.setSurface_replies (s : State) (id : Nat) (r : Surface) : (s.setSurface id r).replies = s.replies := rfl

@[simp] theorem State.setSurface_cache (s : State) (id : Nat) (r : Surface) : (s.setSurface id r).cache = s.cache := rfl

@[simp] theorem State.setSurface_pendingReplies (s : State) (id : Nat) (r : Surface) : (s.setSurface id r).pendingReplies = s.pendingReplies := rfl

@[simp] theorem State.setSurface_notices (s : State) (id : Nat) (r : Surface) : (s.setSurface id r).notices = s.notices := rfl

@[simp] theorem State.setSurface_nextNotice (s : State) (id : Nat) (r : Surface) : (s.setSurface id r).nextNotice = s.nextNotice := rfl

@[simp] theorem State.setSurface_granules (s : State) (id : Nat) (r : Surface) : (s.setSurface id r).granules = s.granules := rfl

@[simp] theorem State.setSurface_mem (s : State) (id : Nat) (r : Surface) : (s.setSurface id r).mem = s.mem := rfl

@[simp] theorem State.setSurface_era (s : State) (id : Nat) (r : Surface) : (s.setSurface id r).era = s.era := rfl

@[simp] theorem State.setSurface_pe (s : State) (id : Nat) (r : Surface) : (s.setSurface id r).pe = s.pe := rfl

@[simp] theorem State.setSurface_pres0 (s : State) (id : Nat) (r : Surface) : (s.setSurface id r).pres0 = s.pres0 := rfl

@[simp] theorem State.setSurface_pres1 (s : State) (id : Nat) (r : Surface) : (s.setSurface id r).pres1 = s.pres1 := rfl

@[simp] theorem State.setSurface_share (s : State) (id : Nat) (r : Surface) : (s.setSurface id r).share = s.share := rfl

@[simp] theorem State.setSurface_ou0 (s : State) (id : Nat) (r : Surface) : (s.setSurface id r).ou0 = s.ou0 := rfl

@[simp] theorem State.setSurface_ou1 (s : State) (id : Nat) (r : Surface) : (s.setSurface id r).ou1 = s.ou1 := rfl

@[simp] theorem State.setSurface_port (s : State) (id : Nat) (r : Surface) : (s.setSurface id r).port = s.port := rfl

@[simp] theorem State.setSurface_pending (s : State) (id : Nat) (r : Surface) : (s.setSurface id r).pending = s.pending := rfl

/-! ### setPe -/

@[simp] theorem State.setPe_inReset (s : State) (e : Engine) : (s.setPe e).inReset = s.inReset := rfl

@[simp] theorem State.setPe_freshSupply (s : State) (e : Engine) : (s.setPe e).freshSupply = s.freshSupply := rfl

@[simp] theorem State.setPe_linkMode (s : State) (e : Engine) : (s.setPe e).linkMode = s.linkMode := rfl

@[simp] theorem State.setPe_wire (s : State) (e : Engine) : (s.setPe e).wire = s.wire := rfl

@[simp] theorem State.setPe_rx (s : State) (e : Engine) : (s.setPe e).rx = s.rx := rfl

@[simp] theorem State.setPe_slots (s : State) (e : Engine) : (s.setPe e).slots = s.slots := rfl

@[simp] theorem State.setPe_arrival (s : State) (e : Engine) : (s.setPe e).arrival = s.arrival := rfl

@[simp] theorem State.setPe_tx (s : State) (e : Engine) : (s.setPe e).tx = s.tx := rfl

@[simp] theorem State.setPe_held (s : State) (e : Engine) : (s.setPe e).held = s.held := rfl

@[simp] theorem State.setPe_replies (s : State) (e : Engine) : (s.setPe e).replies = s.replies := rfl

@[simp] theorem State.setPe_cache (s : State) (e : Engine) : (s.setPe e).cache = s.cache := rfl

@[simp] theorem State.setPe_pendingReplies (s : State) (e : Engine) : (s.setPe e).pendingReplies = s.pendingReplies := rfl

@[simp] theorem State.setPe_notices (s : State) (e : Engine) : (s.setPe e).notices = s.notices := rfl

@[simp] theorem State.setPe_nextNotice (s : State) (e : Engine) : (s.setPe e).nextNotice = s.nextNotice := rfl

@[simp] theorem State.setPe_surfaces (s : State) (e : Engine) : (s.setPe e).surfaces = s.surfaces := rfl

@[simp] theorem State.setPe_granules (s : State) (e : Engine) : (s.setPe e).granules = s.granules := rfl

@[simp] theorem State.setPe_mem (s : State) (e : Engine) : (s.setPe e).mem = s.mem := rfl

@[simp] theorem State.setPe_era (s : State) (e : Engine) : (s.setPe e).era = s.era := rfl

@[simp] theorem State.setPe_pres0 (s : State) (e : Engine) : (s.setPe e).pres0 = s.pres0 := rfl

@[simp] theorem State.setPe_pres1 (s : State) (e : Engine) : (s.setPe e).pres1 = s.pres1 := rfl

@[simp] theorem State.setPe_share (s : State) (e : Engine) : (s.setPe e).share = s.share := rfl

@[simp] theorem State.setPe_ou0 (s : State) (e : Engine) : (s.setPe e).ou0 = s.ou0 := rfl

@[simp] theorem State.setPe_ou1 (s : State) (e : Engine) : (s.setPe e).ou1 = s.ou1 := rfl

@[simp] theorem State.setPe_port (s : State) (e : Engine) : (s.setPe e).port = s.port := rfl

@[simp] theorem State.setPe_pending (s : State) (e : Engine) : (s.setPe e).pending = s.pending := rfl

@[simp] theorem State.setPe_pe (s : State) (e : Engine) : (s.setPe e).pe = e := rfl

/-! ### setInFlight -/

@[simp] theorem State.setInFlight_inReset (s : State) (g : Option Grant) : (s.setInFlight g).inReset = s.inReset := rfl

@[simp] theorem State.setInFlight_freshSupply (s : State) (g : Option Grant) : (s.setInFlight g).freshSupply = s.freshSupply := rfl

@[simp] theorem State.setInFlight_linkMode (s : State) (g : Option Grant) : (s.setInFlight g).linkMode = s.linkMode := rfl

@[simp] theorem State.setInFlight_wire (s : State) (g : Option Grant) : (s.setInFlight g).wire = s.wire := rfl

@[simp] theorem State.setInFlight_rx (s : State) (g : Option Grant) : (s.setInFlight g).rx = s.rx := rfl

@[simp] theorem State.setInFlight_slots (s : State) (g : Option Grant) : (s.setInFlight g).slots = s.slots := rfl

@[simp] theorem State.setInFlight_arrival (s : State) (g : Option Grant) : (s.setInFlight g).arrival = s.arrival := rfl

@[simp] theorem State.setInFlight_tx (s : State) (g : Option Grant) : (s.setInFlight g).tx = s.tx := rfl

@[simp] theorem State.setInFlight_held (s : State) (g : Option Grant) : (s.setInFlight g).held = s.held := rfl

@[simp] theorem State.setInFlight_replies (s : State) (g : Option Grant) : (s.setInFlight g).replies = s.replies := rfl

@[simp] theorem State.setInFlight_cache (s : State) (g : Option Grant) : (s.setInFlight g).cache = s.cache := rfl

@[simp] theorem State.setInFlight_pendingReplies (s : State) (g : Option Grant) : (s.setInFlight g).pendingReplies = s.pendingReplies := rfl

@[simp] theorem State.setInFlight_notices (s : State) (g : Option Grant) : (s.setInFlight g).notices = s.notices := rfl

@[simp] theorem State.setInFlight_nextNotice (s : State) (g : Option Grant) : (s.setInFlight g).nextNotice = s.nextNotice := rfl

@[simp] theorem State.setInFlight_surfaces (s : State) (g : Option Grant) : (s.setInFlight g).surfaces = s.surfaces := rfl

@[simp] theorem State.setInFlight_granules (s : State) (g : Option Grant) : (s.setInFlight g).granules = s.granules := rfl

@[simp] theorem State.setInFlight_mem (s : State) (g : Option Grant) : (s.setInFlight g).mem = s.mem := rfl

@[simp] theorem State.setInFlight_era (s : State) (g : Option Grant) : (s.setInFlight g).era = s.era := rfl

@[simp] theorem State.setInFlight_pe (s : State) (g : Option Grant) : (s.setInFlight g).pe = s.pe := rfl

@[simp] theorem State.setInFlight_pres0 (s : State) (g : Option Grant) : (s.setInFlight g).pres0 = s.pres0 := rfl

@[simp] theorem State.setInFlight_pres1 (s : State) (g : Option Grant) : (s.setInFlight g).pres1 = s.pres1 := rfl

@[simp] theorem State.setInFlight_share (s : State) (g : Option Grant) : (s.setInFlight g).share = s.share := rfl

@[simp] theorem State.setInFlight_ou0 (s : State) (g : Option Grant) : (s.setInFlight g).ou0 = s.ou0 := rfl

@[simp] theorem State.setInFlight_ou1 (s : State) (g : Option Grant) : (s.setInFlight g).ou1 = s.ou1 := rfl

@[simp] theorem State.setInFlight_pending (s : State) (g : Option Grant) : (s.setInFlight g).pending = s.pending := rfl

@[simp] theorem State.setInFlight_inFlight (s : State) (g : Option Grant) : (s.setInFlight g).port.inFlight = g := rfl

@[simp] theorem State.setInFlight_lastScan (s : State) (g : Option Grant) : (s.setInFlight g).port.lastScan = s.port.lastScan := rfl

/-! ### setOu -/

@[simp] theorem State.setOu_inReset (s : State) (o : OutputId) (u : OutputUnit) : (s.setOu o u).inReset = s.inReset := by
  cases o <;> rfl

@[simp] theorem State.setOu_freshSupply (s : State) (o : OutputId) (u : OutputUnit) : (s.setOu o u).freshSupply = s.freshSupply := by
  cases o <;> rfl

@[simp] theorem State.setOu_linkMode (s : State) (o : OutputId) (u : OutputUnit) : (s.setOu o u).linkMode = s.linkMode := by
  cases o <;> rfl

@[simp] theorem State.setOu_wire (s : State) (o : OutputId) (u : OutputUnit) : (s.setOu o u).wire = s.wire := by
  cases o <;> rfl

@[simp] theorem State.setOu_rx (s : State) (o : OutputId) (u : OutputUnit) : (s.setOu o u).rx = s.rx := by
  cases o <;> rfl

@[simp] theorem State.setOu_slots (s : State) (o : OutputId) (u : OutputUnit) : (s.setOu o u).slots = s.slots := by
  cases o <;> rfl

@[simp] theorem State.setOu_arrival (s : State) (o : OutputId) (u : OutputUnit) : (s.setOu o u).arrival = s.arrival := by
  cases o <;> rfl

@[simp] theorem State.setOu_tx (s : State) (o : OutputId) (u : OutputUnit) : (s.setOu o u).tx = s.tx := by
  cases o <;> rfl

@[simp] theorem State.setOu_held (s : State) (o : OutputId) (u : OutputUnit) : (s.setOu o u).held = s.held := by
  cases o <;> rfl

@[simp] theorem State.setOu_replies (s : State) (o : OutputId) (u : OutputUnit) : (s.setOu o u).replies = s.replies := by
  cases o <;> rfl

@[simp] theorem State.setOu_cache (s : State) (o : OutputId) (u : OutputUnit) : (s.setOu o u).cache = s.cache := by
  cases o <;> rfl

@[simp] theorem State.setOu_pendingReplies (s : State) (o : OutputId) (u : OutputUnit) : (s.setOu o u).pendingReplies = s.pendingReplies := by
  cases o <;> rfl

@[simp] theorem State.setOu_notices (s : State) (o : OutputId) (u : OutputUnit) : (s.setOu o u).notices = s.notices := by
  cases o <;> rfl

@[simp] theorem State.setOu_nextNotice (s : State) (o : OutputId) (u : OutputUnit) : (s.setOu o u).nextNotice = s.nextNotice := by
  cases o <;> rfl

@[simp] theorem State.setOu_surfaces (s : State) (o : OutputId) (u : OutputUnit) : (s.setOu o u).surfaces = s.surfaces := by
  cases o <;> rfl

@[simp] theorem State.setOu_granules (s : State) (o : OutputId) (u : OutputUnit) : (s.setOu o u).granules = s.granules := by
  cases o <;> rfl

@[simp] theorem State.setOu_mem (s : State) (o : OutputId) (u : OutputUnit) : (s.setOu o u).mem = s.mem := by
  cases o <;> rfl

@[simp] theorem State.setOu_era (s : State) (o : OutputId) (u : OutputUnit) : (s.setOu o u).era = s.era := by
  cases o <;> rfl

@[simp] theorem State.setOu_pe (s : State) (o : OutputId) (u : OutputUnit) : (s.setOu o u).pe = s.pe := by
  cases o <;> rfl

@[simp] theorem State.setOu_pres0 (s : State) (o : OutputId) (u : OutputUnit) : (s.setOu o u).pres0 = s.pres0 := by
  cases o <;> rfl

@[simp] theorem State.setOu_pres1 (s : State) (o : OutputId) (u : OutputUnit) : (s.setOu o u).pres1 = s.pres1 := by
  cases o <;> rfl

@[simp] theorem State.setOu_share (s : State) (o : OutputId) (u : OutputUnit) : (s.setOu o u).share = s.share := by
  cases o <;> rfl

@[simp] theorem State.setOu_port (s : State) (o : OutputId) (u : OutputUnit) : (s.setOu o u).port = s.port := by
  cases o <;> rfl

@[simp] theorem State.setOu_pending (s : State) (o : OutputId) (u : OutputUnit) : (s.setOu o u).pending = s.pending := by
  cases o <;> rfl

/-! ### setPres -/

@[simp] theorem State.setPres_inReset (s : State) (o : OutputId) (p : Presentation) : (s.setPres o p).inReset = s.inReset := by
  cases o <;> rfl

@[simp] theorem State.setPres_freshSupply (s : State) (o : OutputId) (p : Presentation) : (s.setPres o p).freshSupply = s.freshSupply := by
  cases o <;> rfl

@[simp] theorem State.setPres_linkMode (s : State) (o : OutputId) (p : Presentation) : (s.setPres o p).linkMode = s.linkMode := by
  cases o <;> rfl

@[simp] theorem State.setPres_wire (s : State) (o : OutputId) (p : Presentation) : (s.setPres o p).wire = s.wire := by
  cases o <;> rfl

@[simp] theorem State.setPres_rx (s : State) (o : OutputId) (p : Presentation) : (s.setPres o p).rx = s.rx := by
  cases o <;> rfl

@[simp] theorem State.setPres_slots (s : State) (o : OutputId) (p : Presentation) : (s.setPres o p).slots = s.slots := by
  cases o <;> rfl

@[simp] theorem State.setPres_arrival (s : State) (o : OutputId) (p : Presentation) : (s.setPres o p).arrival = s.arrival := by
  cases o <;> rfl

@[simp] theorem State.setPres_tx (s : State) (o : OutputId) (p : Presentation) : (s.setPres o p).tx = s.tx := by
  cases o <;> rfl

@[simp] theorem State.setPres_held (s : State) (o : OutputId) (p : Presentation) : (s.setPres o p).held = s.held := by
  cases o <;> rfl

@[simp] theorem State.setPres_replies (s : State) (o : OutputId) (p : Presentation) : (s.setPres o p).replies = s.replies := by
  cases o <;> rfl

@[simp] theorem State.setPres_cache (s : State) (o : OutputId) (p : Presentation) : (s.setPres o p).cache = s.cache := by
  cases o <;> rfl

@[simp] theorem State.setPres_pendingReplies (s : State) (o : OutputId) (p : Presentation) : (s.setPres o p).pendingReplies = s.pendingReplies := by
  cases o <;> rfl

@[simp] theorem State.setPres_notices (s : State) (o : OutputId) (p : Presentation) : (s.setPres o p).notices = s.notices := by
  cases o <;> rfl

@[simp] theorem State.setPres_nextNotice (s : State) (o : OutputId) (p : Presentation) : (s.setPres o p).nextNotice = s.nextNotice := by
  cases o <;> rfl

@[simp] theorem State.setPres_surfaces (s : State) (o : OutputId) (p : Presentation) : (s.setPres o p).surfaces = s.surfaces := by
  cases o <;> rfl

@[simp] theorem State.setPres_granules (s : State) (o : OutputId) (p : Presentation) : (s.setPres o p).granules = s.granules := by
  cases o <;> rfl

@[simp] theorem State.setPres_mem (s : State) (o : OutputId) (p : Presentation) : (s.setPres o p).mem = s.mem := by
  cases o <;> rfl

@[simp] theorem State.setPres_era (s : State) (o : OutputId) (p : Presentation) : (s.setPres o p).era = s.era := by
  cases o <;> rfl

@[simp] theorem State.setPres_pe (s : State) (o : OutputId) (p : Presentation) : (s.setPres o p).pe = s.pe := by
  cases o <;> rfl

@[simp] theorem State.setPres_share (s : State) (o : OutputId) (p : Presentation) : (s.setPres o p).share = s.share := by
  cases o <;> rfl

@[simp] theorem State.setPres_ou0 (s : State) (o : OutputId) (p : Presentation) : (s.setPres o p).ou0 = s.ou0 := by
  cases o <;> rfl

@[simp] theorem State.setPres_ou1 (s : State) (o : OutputId) (p : Presentation) : (s.setPres o p).ou1 = s.ou1 := by
  cases o <;> rfl

@[simp] theorem State.setPres_port (s : State) (o : OutputId) (p : Presentation) : (s.setPres o p).port = s.port := by
  cases o <;> rfl

@[simp] theorem State.setPres_pending (s : State) (o : OutputId) (p : Presentation) : (s.setPres o p).pending = s.pending := by
  cases o <;> rfl

/-! ### Accessors after an update -/

@[simp] theorem State.ou_setOu_self (s : State) (o : OutputId) (u : OutputUnit) : (s.setOu o u).ou o = u := by
  cases o <;> rfl

theorem State.ou_setOu_other (s : State) {o o' : OutputId} (u : OutputUnit) (h : o' ≠ o) : (s.setOu o u).ou o' = s.ou o' := by
  cases o <;> cases o' <;> first | rfl | exact absurd rfl h

@[simp] theorem State.pres_setPres_self (s : State) (o : OutputId) (p : Presentation) : (s.setPres o p).pres o = p := by
  cases o <;> rfl

theorem State.pres_setPres_other (s : State) {o o' : OutputId} (p : Presentation) (h : o' ≠ o) :
    (s.setPres o p).pres o' = s.pres o' := by
  cases o <;> cases o' <;> first | rfl | exact absurd rfl h

@[simp] theorem State.pres_setOu (s : State) (o o' : OutputId) (u : OutputUnit) : (s.setOu o u).pres o' = s.pres o' := by
  cases o <;> cases o' <;> rfl

@[simp] theorem State.ou_setPres (s : State) (o o' : OutputId) (p : Presentation) : (s.setPres o p).ou o' = s.ou o' := by
  cases o <;> cases o' <;> rfl

@[simp] theorem State.setOu_setOu (s : State) (o : OutputId) (u v : OutputUnit) : (s.setOu o u).setOu o v = s.setOu o v := by
  cases o <;> rfl

@[simp] theorem State.setPres_setPres (s : State) (o : OutputId) (p q : Presentation) :
    (s.setPres o p).setPres o q = s.setPres o q := by
  cases o <;> rfl

@[simp] theorem State.ou_setSurface (s : State) (o : OutputId) (id : Nat) (r : Surface) : (s.setSurface id r).ou o = s.ou o := by
  cases o <;> rfl

@[simp] theorem State.pres_setSurface (s : State) (o : OutputId) (id : Nat) (r : Surface) :
    (s.setSurface id r).pres o = s.pres o := by
  cases o <;> rfl

@[simp] theorem State.ou_setPe (s : State) (o : OutputId) (e : Engine) : (s.setPe e).ou o = s.ou o := by
  cases o <;> rfl

@[simp] theorem State.pres_setPe (s : State) (o : OutputId) (e : Engine) : (s.setPe e).pres o = s.pres o := by
  cases o <;> rfl

@[simp] theorem State.surface_setOu (s : State) (o : OutputId) (u : OutputUnit) (id : Nat) :
    (s.setOu o u).surface id = s.surface id := by
  cases o <;> rfl

@[simp] theorem State.surface_setPres (s : State) (o : OutputId) (p : Presentation) (id : Nat) :
    (s.setPres o p).surface id = s.surface id := by
  cases o <;> rfl

@[simp] theorem State.surface_setPe (s : State) (e : Engine) (id : Nat) : (s.setPe e).surface id = s.surface id := rfl

@[simp] theorem State.surfaces_setSurface (s : State) (id : Nat) (r : Surface) :
    (s.setSurface id r).surfaces = s.surfaces.set id r := rfl

/-- A record of the table reads as what was put there. -/
theorem State.surface_setSurface_self (s : State) {id : Nat} (r : Surface) (h : id < s.surfaces.length) :
    (s.setSurface id r).surface id = r := by
  simp [State.surface, h]

/-- Every other record reads as before. -/
theorem State.surface_setSurface_other (s : State) {id id' : Nat} (r : Surface) (h : id' ≠ id) :
    (s.setSurface id r).surface id' = s.surface id' := by
  simp [State.surface, List.getElem?_set_ne (Ne.symm h)]

end Sys2Proof.Machine
end

