-- ==== Sys2Proof/Laws/Memory.lean ====
section
/-! SUPPORT. Frame memory: every operation keeps the canonical form, and what a byte reads as after it. -/

namespace Sys2Proof.Machine

/-! ### The canonical form as a sorted list -/

/-- The canonical form in words: addresses strictly rising, each inside the memory. -/
theorem Memory.wf_iff (m : List Host.Cell) :
    Memory.wf m = true ↔ m.Pairwise (fun c d => c.1 < d.1) ∧ ∀ c ∈ m, c.1 < Config.memoryBytes := by
  induction m with
  | nil => simp [Memory.wf]
  | cons c m ih =>
    cases m with
    | nil => simp [Memory.wf]
    | cons d m =>
      rw [Memory.wf, Bool.and_eq_true, decide_eq_true_eq, ih]
      constructor
      · rintro ⟨hcd, hp, hb⟩
        refine ⟨List.pairwise_cons.2 ⟨fun e he => ?_, hp⟩, fun e he => ?_⟩
        · rcases List.mem_cons.1 he with rfl | he
          · exact hcd
          · exact lt_trans hcd ((List.pairwise_cons.1 hp).1 e he)
        · rcases List.mem_cons.1 he with rfl | he
          · exact lt_trans hcd (hb d (List.mem_cons_self ..))
          · exact hb e he
      · rintro ⟨hp, hb⟩
        have h := List.pairwise_cons.1 hp
        exact ⟨h.1 d (List.mem_cons_self ..), h.2, fun e he => hb e (List.mem_cons_of_mem _ he)⟩

theorem Memory.mem_insert {m : List Host.Cell} {a : Nat} {b : Byte} {c : Host.Cell} (h : c ∈ Memory.insert m a b) :
    c = (a, b) ∨ c ∈ m := by
  induction m with
  | nil => simpa [Memory.insert] using h
  | cons d m ih =>
    obtain ⟨x, v⟩ := d
    rw [Memory.insert] at h
    split at h
    · rcases List.mem_cons.1 h with h | h
      · exact .inl h
      · exact .inr h
    · split at h
      · rcases List.mem_cons.1 h with h | h
        · exact .inl h
        · exact .inr (List.mem_cons_of_mem _ h)
      · rcases List.mem_cons.1 h with h | h
        · exact .inr (h ▸ List.mem_cons_self ..)
        · exact (ih h).imp id (List.mem_cons_of_mem _)

theorem Memory.insert_sorted {m : List Host.Cell} (a : Nat) (b : Byte) (h : m.Pairwise fun c d => c.1 < d.1) :
    (Memory.insert m a b).Pairwise fun c d => c.1 < d.1 := by
  induction m with
  | nil => simp [Memory.insert]
  | cons d m ih =>
    obtain ⟨x, v⟩ := d
    have hx := List.pairwise_cons.1 h
    rw [Memory.insert]
    split
    · rename_i hlt
      refine List.pairwise_cons.2 ⟨fun e he => ?_, h⟩
      rcases List.mem_cons.1 he with rfl | he
      · exact hlt
      · exact lt_trans hlt (hx.1 e he)
    · split
      · rename_i heq
        exact List.pairwise_cons.2 ⟨fun e he => heq ▸ hx.1 e he, hx.2⟩
      · refine List.pairwise_cons.2 ⟨fun e he => ?_, ih hx.2⟩
        rcases Memory.mem_insert he with rfl | he
        · simp only at *; omega
        · exact hx.1 e he

/-! ### Every operation keeps the canonical form -/

theorem Memory.write_wf {m : List Host.Cell} (a : Nat) (b : Byte) (h : Memory.wf m = true) :
    Memory.wf (Memory.write m a b) = true := by
  rw [Memory.write]
  split
  · rename_i ha
    rw [Memory.wf_iff] at h ⊢
    refine ⟨Memory.insert_sorted a b h.1, fun c hc => ?_⟩
    rcases Memory.mem_insert hc with rfl | hc
    · exact ha
    · exact h.2 c hc
  · exact h

theorem Memory.forget_wf {m : List Host.Cell} (lo hi : Nat) (h : Memory.wf m = true) :
    Memory.wf (Memory.forget m lo hi) = true := by
  rw [Memory.wf_iff] at h ⊢
  exact ⟨h.1.filter _, fun c hc => h.2 c (List.mem_of_mem_filter hc)⟩

theorem Memory.change_wf {m : List Host.Cell} (era : Nat) (c : ByteChange) (h : Memory.wf m = true) :
    Memory.wf (Memory.change m era c) = true := Memory.write_wf _ _ h

theorem applyChanges_wf {m : List Host.Cell} (era : Nat) (changes : List ByteChange) (h : Memory.wf m = true) :
    Memory.wf (applyChanges m era changes) = true := by
  induction changes with
  | nil => exact h
  | cons c cs ih => exact Memory.change_wf era c ih

theorem State.reset_mem_wf : Memory.wf State.reset.mem = true := rfl

/-! ### Reading after an operation -/

theorem Memory.read_insert (m : List Host.Cell) (a x : Nat) (b : Byte) (h : m.Pairwise fun c d => c.1 < d.1) :
    Memory.read (Memory.insert m a b) x = if x = a then some b else Memory.read m x := by
  induction m with
  | nil => simp [Memory.insert, Memory.read, eq_comm]
  | cons d m ih =>
    obtain ⟨y, v⟩ := d
    have hy := List.pairwise_cons.1 h
    rw [Memory.insert]
    split
    · simp [Memory.read, eq_comm]
    · split
      · rename_i heq
        subst heq
        by_cases hx : x = a
        · simp [Memory.read, hx]
        · simp [Memory.read, hx, Ne.symm hx]
      · rename_i hne
        simp only [Memory.read, ih hy.2]
        by_cases hx : x = a
        · subst hx
          simp [Ne.symm hne]
        · simp [hx]

/-- R1: a byte that exists reads as what was written to it, and every other byte as before. -/
theorem Memory.read_write {m : List Host.Cell} (a x : Nat) (b : Byte) (h : Memory.wf m = true)
    (ha : a < Config.memoryBytes) : Memory.read (Memory.write m a b) x = if x = a then some b else Memory.read m x := by
  rw [Memory.write, if_pos ha]
  exact Memory.read_insert m a x b ((Memory.wf_iff m).1 h).1

/-- Every byte but the one written reads as before, whether or not the address exists. -/
theorem Memory.read_write_other {m : List Host.Cell} {a x : Nat} (b : Byte) (h : Memory.wf m = true) (hx : x ≠ a) :
    Memory.read (Memory.write m a b) x = Memory.read m x := by
  by_cases ha : a < Config.memoryBytes
  · rw [Memory.read_write a x b h ha, if_neg hx]
  · rw [Memory.write, if_neg ha]

/-- R25: a change touches no byte but its own. -/
theorem Memory.read_change_other {m : List Host.Cell} {x : Nat} (era : Nat) (c : ByteChange) (h : Memory.wf m = true)
    (hx : x ≠ c.addr) : Memory.read (Memory.change m era c) x = Memory.read m x := Memory.read_write_other _ h hx

/-- R25, R36: a burst written back touches no byte but the changed ones. -/
theorem read_applyChanges_other {m : List Host.Cell} {x : Nat} (era : Nat) (changes : List ByteChange)
    (h : Memory.wf m = true) (hx : ∀ c ∈ changes, x ≠ c.addr) :
    Memory.read (applyChanges m era changes) x = Memory.read m x := by
  induction changes with
  | nil => rfl
  | cons c cs ih =>
    rw [applyChanges, List.foldr_cons]
    exact (Memory.read_change_other era c (applyChanges_wf era cs h) (hx c (List.mem_cons_self ..))).trans
      (ih fun d hd => hx d (List.mem_cons_of_mem _ hd))

/-- R1: what is forgotten lists nothing, and every other byte reads as before. -/
theorem Memory.read_forget (m : List Host.Cell) (lo hi x : Nat) :
    Memory.read (Memory.forget m lo hi) x = if lo ≤ x ∧ x < hi then none else Memory.read m x := by
  induction m with
  | nil => simp [Memory.forget, Memory.read]
  | cons c m ih =>
    obtain ⟨y, v⟩ := c
    rw [Memory.forget] at ih ⊢
    by_cases hy : y < lo ∨ hi ≤ y
    · have hk : (decide (y < lo) || decide (hi ≤ y)) = true := by simpa using hy
      rw [List.filter_cons, if_pos hk, Memory.read, Memory.read, ih]
      by_cases hx : y = x
      · subst hx
        rw [if_pos rfl, if_neg (by omega), if_pos rfl]
      · rw [if_neg hx, if_neg hx]
    · have hk : ¬ (decide (y < lo) || decide (hi ≤ y)) = true := by simpa using hy
      rw [List.filter_cons, if_neg hk, Memory.read, ih]
      by_cases hx : y = x
      · subst hx
        rw [if_pos (by omega), if_pos (by omega)]
      · rw [if_neg hx]

end Sys2Proof.Machine
end

