-- ==== Sys2Proof/Laws/Shared.lean ====
section
/-! SUPPORT. What each shared operation can change, said once: the operation's result is its argument with the named
fields replaced. -/

namespace Sys2Proof.Machine

/-! ### Notices and replies -/

theorem appendNotice_eq (n : Notice) (s : State) : ∃ ns k, appendNotice n s = { s with notices := ns, nextNotice := k } :=
  ⟨_, _, rfl⟩

theorem countLoss_eq (kind : Nat) (s : State) : ∃ ns k, countLoss kind s = { s with notices := ns, nextNotice := k } := by
  unfold countLoss
  split
  · exact appendNotice_eq _ s
  · dsimp only
    split
    · exact ⟨_, _, rfl⟩
    · exact ⟨_, s.nextNotice, rfl⟩

/-- R183: a raise changes the Notice Queue only. -/
theorem raise_eq (n : Notice) (s : State) : ∃ ns k, raise n s = { s with notices := ns, nextNotice := k } := by
  unfold raise
  split
  · exact ⟨_, s.nextNotice, rfl⟩
  · split
    · exact appendNotice_eq n s
    · exact countLoss_eq _ s

/-- R174: a completion changes the Request Handler's three collections only. -/
theorem completeSeq_eq (seq : Byte) (st : Status) (fields : List Byte) (s : State) :
    ∃ rs c ps, completeSeq seq st fields s = { s with replies := rs, cache := c, pendingReplies := ps } := by
  unfold completeSeq
  split
  · exact ⟨s.replies, s.cache, s.pendingReplies, rfl⟩
  · exact ⟨_, _, _, rfl⟩

/-- A completion of a request whose entry is no longer occupied does nothing (R174). -/
theorem completeSeq_absent {seq : Byte} {s : State} (st : Status) (fields : List Byte) (h : s.isPending seq = false) :
    completeSeq seq st fields s = s := by
  have hnone : s.pendingReplies.find? (fun p => decide (p.seq = seq)) = none := by
    rw [State.isPending, List.any_eq_false] at h
    exact List.find?_eq_none.2 h
  rw [completeSeq, hnone]

theorem foldl_completeSeq_eq (ps : List PendingReply) (st : Status) (s : State) :
    ∃ rs c qs, ps.foldl (fun acc p => completeSeq p.seq st [] acc) s =
      { s with replies := rs, cache := c, pendingReplies := qs } := by
  induction ps generalizing s with
  | nil => exact ⟨s.replies, s.cache, s.pendingReplies, rfl⟩
  | cons p ps ih =>
    obtain ⟨a, b, c, h⟩ := completeSeq_eq p.seq st [] s
    obtain ⟨a', b', c', h'⟩ := ih (completeSeq p.seq st [] s)
    exact ⟨a', b', c', by rw [List.foldl_cons, h', h]⟩

/-- R174: completing every request of one reference changes the Request Handler's collections only. -/
theorem completeRef_eq (ref : PendingRef) (st : Status) (s : State) :
    ∃ rs c ps, completeRef ref st s = { s with replies := rs, cache := c, pendingReplies := ps } :=
  foldl_completeSeq_eq _ st s

theorem cancelPending_eq (s : State) :
    ∃ rs c ps, cancelPending s = { s with replies := rs, cache := c, pendingReplies := ps } :=
  foldl_completeSeq_eq _ .cancelled s

/-! ### Claims -/

/-- A fold of operations that change the Surface Table only changes it only. -/
theorem foldl_surfaces_eq (f : Nat → State → State) (hf : ∀ id s, ∃ l, f id s = { s with surfaces := l }) (ids : List Nat)
    (s : State) : ∃ l, ids.foldl (fun acc id => f id acc) s = { s with surfaces := l } := by
  induction ids generalizing s with
  | nil => exact ⟨s.surfaces, rfl⟩
  | cons id ids ih =>
    obtain ⟨l, h⟩ := hf id s
    obtain ⟨l', h'⟩ := ih (f id s)
    exact ⟨l', by rw [List.foldl_cons, h', h]⟩

theorem foldl_addScan_eq (ids : List Nat) (s : State) :
    ∃ l, ids.foldl (fun acc id => addScan id acc) s = { s with surfaces := l } :=
  foldl_surfaces_eq addScan (fun _ _ => ⟨_, rfl⟩) ids s

theorem foldl_dropScan_eq (ids : List Nat) (s : State) :
    ∃ l, ids.foldl (fun acc id => dropScan id acc) s = { s with surfaces := l } :=
  foldl_surfaces_eq dropScan (fun _ _ => ⟨_, rfl⟩) ids s

/-- R37: the uses of a new entry change the Surface Table only. -/
theorem addJobUses_eq (k : JobKind) (s : State) : ∃ l, addJobUses k s = { s with surfaces := l } := by
  obtain ⟨l, h⟩ := foldl_surfaces_eq addJobRef (fun _ _ => ⟨_, rfl⟩) k.surfaces s
  unfold addJobUses
  cases k.destination with
  | none => exact ⟨l, h⟩
  | some id => exact ⟨_, by rw [h]; rfl⟩

theorem dropJobUses_eq (k : JobKind) (s : State) : ∃ l, dropJobUses k s = { s with surfaces := l } := by
  obtain ⟨l, h⟩ := foldl_surfaces_eq dropJobRef (fun _ _ => ⟨_, rfl⟩) k.surfaces s
  unfold dropJobUses
  cases k.destination with
  | none => exact ⟨l, h⟩
  | some id => exact ⟨_, by rw [h]; rfl⟩

/-- `t` is `s` but for what a released claim can change (R10): counts and records, granules, the answer of a seal, and
SURFACE_FREED. -/
def ClaimFrame (s t : State) : Prop :=
  ∃ su gr rs c ps ns k, t = { s with surfaces := su, granules := gr, replies := rs, cache := c, pendingReplies := ps,
                                     notices := ns, nextNotice := k }

theorem ClaimFrame.refl (s : State) : ClaimFrame s s := ⟨_, _, _, _, _, _, _, rfl⟩

theorem ClaimFrame.trans {s t u : State} (h : ClaimFrame s t) (h' : ClaimFrame t u) : ClaimFrame s u := by
  obtain ⟨_, _, _, _, _, _, _, rfl⟩ := h
  obtain ⟨_, _, _, _, _, _, _, rfl⟩ := h'
  exact ⟨_, _, _, _, _, _, _, rfl⟩

theorem ClaimFrame.of_surfaces {s t : State} (h : ∃ l, t = { s with surfaces := l }) : ClaimFrame s t := by
  obtain ⟨l, rfl⟩ := h
  exact ⟨l, s.granules, s.replies, s.cache, s.pendingReplies, s.notices, s.nextNotice, rfl⟩

theorem ClaimFrame.of_replies {s t : State}
    (h : ∃ rs c ps, t = { s with replies := rs, cache := c, pendingReplies := ps }) : ClaimFrame s t := by
  obtain ⟨rs, c, ps, rfl⟩ := h
  exact ⟨s.surfaces, s.granules, rs, c, ps, s.notices, s.nextNotice, rfl⟩

theorem ClaimFrame.of_notices {s t : State} (h : ∃ ns k, t = { s with notices := ns, nextNotice := k }) :
    ClaimFrame s t := by
  obtain ⟨ns, k, rfl⟩ := h
  exact ⟨s.surfaces, s.granules, s.replies, s.cache, s.pendingReplies, ns, k, rfl⟩

theorem settleSurface_frame (id : Nat) (s : State) : ClaimFrame s (settleSurface id s) := by
  unfold settleSurface
  dsimp only
  split
  · split
    · exact (ClaimFrame.of_surfaces ⟨_, rfl⟩).trans (.of_replies (completeRef_eq _ _ _))
    · exact .refl s
  · split
    · have hfree : ClaimFrame s (freeSurface id s) := ⟨_, _, s.replies, s.cache, s.pendingReplies, s.notices, s.nextNotice, rfl⟩
      exact hfree.trans (.of_notices (raise_eq _ _))
    · exact .refl s
  · exact .refl s
  · exact .refl s
  · exact .refl s

theorem settleSurfaces_frame (ids : List Nat) (s : State) : ClaimFrame s (settleSurfaces ids s) := by
  unfold settleSurfaces
  induction ids generalizing s with
  | nil => exact .refl s
  | cons id ids ih => exact (settleSurface_frame id s).trans (ih (settleSurface id s))

/-- R10: releasing scan references is a claim. -/
theorem releaseScans_frame (ids : List Nat) (s : State) : ClaimFrame s (releaseScans ids s) :=
  (ClaimFrame.of_surfaces (foldl_dropScan_eq ids s)).trans (settleSurfaces_frame ids _)

/-- R45: releasing an entry's uses is a claim. -/
theorem releaseJob_frame (k : JobKind) (s : State) : ClaimFrame s (releaseJob k s) :=
  (ClaimFrame.of_surfaces (dropJobUses_eq k s)).trans (settleSurfaces_frame _ _)

/-- R46: so is releasing a cancelled entry's uses. -/
theorem releaseCancelled_frame (self : Nat) (k : JobKind) (s : State) : ClaimFrame s (releaseCancelled self k s) :=
  (ClaimFrame.of_surfaces (dropJobUses_eq k s)).trans (settleSurfaces_frame _ _)

/-! ### The Pixel Engine and the Memory Port -/

/-- `t` is `s` but for what the Pixel Engine can change without a burst: its own state and its claims. -/
def EngineFrame (s t : State) : Prop := ∃ e, ClaimFrame (s.setPe e) t

theorem EngineFrame.refl (s : State) : EngineFrame s s := ⟨s.pe, .refl s⟩

theorem EngineFrame.of_claim {s t : State} (h : ClaimFrame s t) : EngineFrame s t := ⟨s.pe, h⟩

theorem EngineFrame.of_setPe (s : State) (e : Engine) : EngineFrame s (s.setPe e) := ⟨e, .refl _⟩

theorem EngineFrame.trans {s t u : State} (h : EngineFrame s t) (h' : EngineFrame t u) : EngineFrame s u := by
  obtain ⟨_, _, _, _, _, _, _, _, rfl⟩ := h
  obtain ⟨e, _, _, _, _, _, _, _, rfl⟩ := h'
  exact ⟨e, _, _, _, _, _, _, _, rfl⟩

/-- R45: a completion changes the Pixel Engine and makes its claim and reply. -/
theorem completeActive_frame (s : State) : EngineFrame s (completeActive s) := by
  unfold completeActive
  split
  · exact .refl s
  · dsimp only
    have hdrop := EngineFrame.of_setPe s { s.pe.dropActive with jobs := ‹List Job› }
    have hjob (k : JobKind) (t : State) : EngineFrame t (releaseJob k t) := .of_claim (releaseJob_frame k t)
    have hseq (seq : Byte) (st : Status) (fs : List Byte) (t : State) : EngineFrame t (completeSeq seq st fs t) :=
      .of_claim (.of_replies (completeSeq_eq seq st fs t))
    split
    · exact hdrop.trans (hjob _ _)
    · exact hdrop.trans (hjob _ _)
    · exact hdrop.trans ((hjob _ _).trans (hseq _ _ _ _))
    · exact hdrop.trans ((hjob _ _).trans (hseq _ _ _ _))
    · split
      · exact hdrop.trans (hjob _ _)
      · rename_i x _
        cases x.link with
        | none => exact hdrop.trans ((EngineFrame.of_setPe _ _).trans (hjob _ _))
        | some link => exact hdrop.trans ((EngineFrame.of_setPe _ _).trans ((hjob _ _).trans (hseq _ _ _ _)))

/-- R36: running the Pixel Engine changes its own state and makes the claims and replies of the jobs that complete. -/
theorem runEngine_frame (fuel : Nat) (s : State) : EngineFrame s (runEngine fuel s) := by
  induction fuel generalizing s with
  | zero => exact .refl s
  | succ fuel ih =>
    rw [runEngine]
    split
    · exact .refl s
    · split
      · exact .refl s
      · split
        · exact .of_setPe s _
        · exact (EngineFrame.of_setPe s _).trans (ih _)
        · exact (completeActive_frame s).trans (ih _)
        · exact .refl s

/-- R52: the pixels at hand are pixels of the job. -/
theorem readyPixels_le (s : State) (k : JobKind) : s.readyPixels k ≤ k.pixels := by
  unfold State.readyPixels
  split
  · split
    · exact Nat.min_le_left _ _
    · exact Nat.zero_le _
  all_goals exact Nat.le_refl _

/-- R36: a move that is no request brings the bound down. -/
theorem moveBound_go {s : State} {j : Job} {rest : List Job} {e : Engine} (hj : s.pe.jobs = j :: rest)
    (h : s.engineMove j rest = .go e) : e.moveBound < s.pe.moveBound := by
  have hready := readyPixels_le s j.kind
  have hpixel (n : Nat) (hn : n = j.progress + s.pe.heldPixels) (hmore : n < s.readyPixels j.kind)
      (hm : s.pixelMove j rest n = .go e) : e.moveBound < s.pe.moveBound := by
    unfold State.pixelMove at hm
    dsimp only at hm
    have hs : s.pe.moveBound = 2 * (j.kind.pixels - (j.progress + s.pe.heldPixels)) +
      (if s.pe.heldBurst.isSome then 1 else 0) + 2 + (rest.map fun k => 2 * k.kind.pixels + 2).sum := by
      simp only [Engine.moveBound, hj]
    rw [hs]
    split at hm
    · cases hm
      simp only [Engine.moveBound, Engine.heldPixels] at *
      omega
    · cases hm
    all_goals
      generalize s.keyedOut j.kind n = keyedOut at hm
      cases hb : s.pe.heldBurst with
      | some b =>
        cases hd : j.kind.destinationPixel n with
        | none => simp only [hb, hd] at hm; cases hm
        | some p =>
          simp only [hb, hd] at hm
          cases hm
          simp only [Engine.moveBound, Engine.heldPixels, hj, hb, Option.elim_some, Option.isSome_some, if_true] at *
          omega
      | none =>
        cases hd : j.kind.destinationPixel n with
        | none => simp only [hb, hd] at hm; cases hm
        | some p =>
          simp only [hb, hd] at hm
          cases keyedOut with
          | false => cases hm
          | true =>
            cases hm
            simp only [Engine.moveBound, Engine.heldPixels, hb, Option.elim_none] at *
            simp
            omega
  unfold State.engineMove at h
  dsimp only at h
  split at h
  · rename_i b hb
    split at h
    · unfold State.writeBackMove at h
      split at h
      · cases h
        simp [Engine.moveBound, Engine.heldPixels, hj, hb]
      · cases h
    · rename_i hl
      have hmore : j.progress + s.pe.heldPixels < s.readyPixels j.kind := by
        simp at hl
        omega
      split at h
      · split at h
        · exact hpixel _ rfl hmore h
        · cases h
      · exact hpixel _ rfl hmore h
  · split at h
    · unfold State.exhaustedMove at h
      split at h
      · split at h
        · split at h <;> cases h
        · cases h
      all_goals cases h
    · rename_i hl
      have hmore : j.progress + s.pe.heldPixels < s.readyPixels j.kind := by
        simp at hl
        omega
      split at h
      · split at h
        · exact hpixel _ rfl hmore h
        · cases h
      · exact hpixel _ rfl hmore h

/-- R45: so does a completion. -/
theorem moveBound_completeActive {s : State} {j : Job} {rest : List Job} (hj : s.pe.jobs = j :: rest) :
    (completeActive s).pe.moveBound < s.pe.moveBound := by
  have claim {a b : State} (h : ClaimFrame a b) : b.pe = a.pe := by
    obtain ⟨_, _, _, _, _, _, _, rfl⟩ := h; rfl
  have reply (seq : Byte) (st : Status) (fs : List Byte) (a : State) : (completeSeq seq st fs a).pe = a.pe :=
    claim (.of_replies (completeSeq_eq seq st fs a))
  have job (k : JobKind) (a : State) : (releaseJob k a).pe = a.pe := claim (releaseJob_frame k a)
  have left : (completeActive s).pe.jobs = rest ∧ (completeActive s).pe.heldBurst = none := by
    unfold completeActive
    rw [hj]
    dsimp only
    split
    · rw [job]; exact ⟨rfl, rfl⟩
    · rw [job]; exact ⟨rfl, rfl⟩
    · rw [reply, job]; exact ⟨rfl, rfl⟩
    · rw [reply, job]; exact ⟨rfl, rfl⟩
    · split
      · rw [job]; exact ⟨rfl, rfl⟩
      · rename_i x _
        cases x.link with
        | none => rw [Option.elim_none, job]; exact ⟨rfl, rfl⟩
        | some link => rw [Option.elim_some, reply, job]; exact ⟨rfl, rfl⟩
  obtain ⟨hl, hb⟩ := left
  cases rest with
  | nil => simp [Engine.moveBound, hj, hl]
  | cons k rest =>
    simp only [Engine.moveBound, hj, hl, hb, Engine.heldPixels, Option.elim_none, List.map_cons, List.sum_cons]
    simp
    omega

/-- R36: any bound above `moveBound` runs the engine to the same state. -/
theorem runEngine_stable {s : State} (n m : Nat) (hn : s.pe.moveBound < n) (hm : s.pe.moveBound < m) :
    runEngine n s = runEngine m s := by
  induction n generalizing s m with
  | zero => omega
  | succ n ih =>
    cases m with
    | zero => omega
    | succ m =>
      rw [runEngine, runEngine]
      split
      · rfl
      · split
        · rfl
        · rename_i j rest hj
          split
          · rfl
          · rename_i e he
            have := moveBound_go hj he
            exact ih m (by rw [State.setPe_pe]; omega) (by rw [State.setPe_pe]; omega)
          · have := moveBound_completeActive hj
            exact ih m (by omega) (by omega)
          · rfl

/-- `t` is `s` but for a grant: the Memory Port, the engine's standing request, and the bursts the halves still have to
request. -/
def GrantFrame (s t : State) : Prop :=
  ∃ port r a0 b0 a1 b1, t = { s with port := port, pe := { s.pe with request := r },
                                     ou0 := { s.ou0 with halfA := a0, halfB := b0 },
                                     ou1 := { s.ou1 with halfA := a1, halfB := b1 } }

theorem GrantFrame.refl (s : State) : GrantFrame s s :=
  ⟨s.port, s.pe.request, s.ou0.halfA, s.ou0.halfB, s.ou1.halfA, s.ou1.halfB, rfl⟩

theorem grantFetch_frame (o : OutputId) (b : FetchBurst) (s : State) : GrantFrame s (grantFetch o b s) := by
  cases o with
  | out0 => exact ⟨_, s.pe.request, _, _, s.ou1.halfA, s.ou1.halfB, rfl⟩
  | out1 => exact ⟨_, s.pe.request, s.ou0.halfA, s.ou0.halfB, _, _, rfl⟩

/-- R145: the arbiter changes only what a grant changes. -/
theorem arbitrate_frame (s : State) : GrantFrame s (arbitrate s) := by
  unfold arbitrate
  split
  · exact .refl s
  · split
    · split <;> exact grantFetch_frame _ _ s
    · exact grantFetch_frame _ _ s
    · exact grantFetch_frame _ _ s
    · exact ⟨_, _, s.ou0.halfA, s.ou0.halfB, s.ou1.halfA, s.ou1.halfB, rfl⟩
    · exact .refl s

/-- R145: a busy port grants nothing. -/
theorem arbitrate_busy {s : State} {g : Grant} (h : s.port.inFlight = some g) : arbitrate s = s := by
  rw [arbitrate, h]

/-! ### The link (R148 to R161) -/

/-- R153, R154: a byte handed to the receiver changes the receiver, the slots and the Notice Queue only. -/
theorem receiveByte_eq (b : Byte) (s : State) :
    ∃ rx slots arrival ns k, receiveByte b s =
      { s with rx := rx, slots := slots, arrival := arrival, notices := ns, nextNotice := k } := by
  have same (rx : Receiver) : ∃ rx' slots arrival ns k, ({ s with rx := rx } : State) =
      { s with rx := rx', slots := slots, arrival := arrival, notices := ns, nextNotice := k } :=
    ⟨rx, s.slots, s.arrival, s.notices, s.nextNotice, rfl⟩
  have error (n : Notice) : ∃ rx slots arrival ns k, raise n (hunt s) =
      { s with rx := rx, slots := slots, arrival := arrival, notices := ns, nextNotice := k } := by
    obtain ⟨ns, k, h⟩ := raise_eq n (hunt s)
    exact ⟨_, s.slots, s.arrival, ns, k, h⟩
  have keep : ∃ rx slots arrival ns k, s =
      { s with rx := rx, slots := slots, arrival := arrival, notices := ns, nextNotice := k } :=
    ⟨s.rx, s.slots, s.arrival, s.notices, s.nextNotice, rfl⟩
  unfold receiveByte
  dsimp only
  split
  · split
    · exact same _
    · exact keep
  · split
    · exact error _
    · split <;> exact same _
  · exact same _
  · split
    · exact same _
    · unfold judgeFrame
      dsimp only
      split
      · exact error _
      · split
        · exact error _
        · unfold offerFrame
          split
          · exact ⟨_, _, _, s.notices, s.nextNotice, rfl⟩
          · exact error _

/-- R160: a take changes the transmit position and the sent marks only. -/
theorem takeOutbound_eq (s : State) : ∃ tx ns, takeOutbound s = { s with tx := tx, notices := ns } := by
  unfold takeOutbound
  split
  · exact ⟨s.tx, s.notices, rfl⟩
  · split
    · exact ⟨_, s.notices, rfl⟩
    · split
      · exact ⟨s.tx, s.notices, rfl⟩
      · split
        · exact ⟨_, _, rfl⟩
        · exact ⟨s.tx, s.notices, rfl⟩

/-- R160: the end of a frame changes the transmit position and the reply queue only. -/
theorem endOutbound_eq (s : State) : ∃ tx rs, endOutbound s = { s with tx := tx, replies := rs } := by
  unfold endOutbound
  split
  · exact ⟨s.tx, s.replies, rfl⟩
  · exact ⟨_, _, rfl⟩

/-- R161: the outbound half of an exchange changes the transmit position, the reply queue and the sent marks only. -/
theorem exchangeSent_eq (s : State) :
    ∃ tx rs ns, exchangeSent s = { s with tx := tx, replies := rs, notices := ns } := by
  unfold exchangeSent
  split
  · obtain ⟨tx, ns, h⟩ := takeOutbound_eq s
    exact ⟨tx, s.replies, ns, h⟩
  · split
    · exact ⟨_, s.replies, s.notices, rfl⟩
    · obtain ⟨_, rs, he⟩ := endOutbound_eq s
      obtain ⟨tx, ns, h⟩ := takeOutbound_eq (endOutbound s)
      exact ⟨tx, rs, ns, by rw [h, he]⟩

/-- `t` is `s` but for what the wires can change: the link's own state, the slots, the reply queue and the notices. -/
def LinkFrame (s t : State) : Prop :=
  ∃ w rx slots arrival tx rs ns k, t = { s with wire := w, rx := rx, slots := slots, arrival := arrival, tx := tx,
                                                replies := rs, notices := ns, nextNotice := k }

theorem LinkFrame.refl (s : State) : LinkFrame s s := ⟨_, _, _, _, _, _, _, _, rfl⟩

theorem LinkFrame.trans {s t u : State} (h : LinkFrame s t) (h' : LinkFrame t u) : LinkFrame s u := by
  obtain ⟨_, _, _, _, _, _, _, _, rfl⟩ := h
  obtain ⟨_, _, _, _, _, _, _, _, rfl⟩ := h'
  exact ⟨_, _, _, _, _, _, _, _, rfl⟩

theorem LinkFrame.of_wire (s : State) (w : Wire) : LinkFrame s { s with wire := w } :=
  ⟨w, s.rx, s.slots, s.arrival, s.tx, s.replies, s.notices, s.nextNotice, rfl⟩

theorem receiveByte_frame (b : Byte) (s : State) : LinkFrame s (receiveByte b s) := by
  obtain ⟨rx, slots, arrival, ns, k, h⟩ := receiveByte_eq b s
  exact ⟨s.wire, rx, slots, arrival, s.tx, s.replies, ns, k, h⟩

theorem takeOutbound_frame (s : State) : LinkFrame s (takeOutbound s) := by
  obtain ⟨tx, ns, h⟩ := takeOutbound_eq s
  exact ⟨s.wire, s.rx, s.slots, s.arrival, tx, s.replies, ns, s.nextNotice, h⟩

theorem exchangeByte_frame (b : Byte) (s : State) : LinkFrame s (exchangeByte b s) := by
  obtain ⟨tx, rs, ns, h⟩ := exchangeSent_eq (receiveByte b s)
  exact (receiveByte_frame b s).trans ⟨_, _, _, _, tx, rs, ns, _, h⟩

theorem selectLink_frame (s : State) : LinkFrame s (selectLink s) :=
  ((LinkFrame.of_wire s _).trans (takeOutbound_frame _)).trans (.of_wire _ _)

theorem receiveWhole_frame (b : Byte) (s : State) : LinkFrame s (receiveWhole b s) := by
  unfold receiveWhole
  split
  · exact .refl s
  · split
    · exact (LinkFrame.of_wire s _).trans (receiveByte_frame b _)
    · split
      · exact (exchangeByte_frame b s).trans (.of_wire _ _)
      · exact ((selectLink_frame s).trans (exchangeByte_frame b _)).trans (.of_wire _ _)
    · exact .refl s

theorem sampleRxd_frame (level : Bool) (s : State) : LinkFrame s (sampleRxd level s) := by
  unfold sampleRxd
  dsimp only
  split
  · exact .of_wire s _
  · split
    · exact .refl s
    · split
      · exact .of_wire s _
      · split
        · exact (LinkFrame.of_wire s _).trans (receiveByte_frame _ _)
        · exact .of_wire s _

theorem sampleSdi_frame (level : Bool) (s : State) : LinkFrame s (sampleSdi level s) := by
  unfold sampleSdi
  dsimp only
  split
  · exact .refl s
  · split
    · exact .of_wire s _
    · exact (LinkFrame.of_wire s _).trans (exchangeByte_frame _ _)

theorem shiftSdo_frame (s : State) : LinkFrame s (shiftSdo s) := by
  unfold shiftSdo
  split
  · exact .of_wire s _
  · exact .refl s

/-- R147 to R149: an event on the wires changes nothing beyond the link, the reply queue and the notices. -/
theorem lineEvent_frame (e : LineEvent) (s : State) : LinkFrame s (lineEvent e s) := by
  unfold lineEvent
  split
  · exact receiveWhole_frame _ s
  · exact sampleRxd_frame _ s
  · exact selectLink_frame s
  · exact .of_wire s _
  · exact sampleSdi_frame _ s
  · exact shiftSdo_frame s
  all_goals exact .refl s

/-! ### The line fetch (R136, R138) -/

/-- R136: a fetch that begins changes one FREE half only, or nothing when none is FREE. -/
theorem OutputUnit.fillFree_cases (u : OutputUnit) (wasB : Bool) (h : LineHalf) :
    (u.halfA.condition = .free ∧ u.fillFree wasB h = { u with halfA := h }) ∨
      (u.halfB.condition = .free ∧ u.fillFree wasB h = { u with halfB := h }) ∨
      (u.halfA.condition ≠ .free ∧ u.halfB.condition ≠ .free ∧ u.fillFree wasB h = u) := by
  unfold OutputUnit.fillFree
  by_cases hb : u.halfB.condition = .free
  · by_cases hw : wasB ∨ u.halfA.condition ≠ .free
    · exact .inr (.inl ⟨hb, if_pos ⟨hb, hw⟩⟩)
    · have ha : u.halfA.condition = .free := Classical.byContradiction fun ha => hw (.inr ha)
      exact .inl ⟨ha, by rw [if_neg fun c => hw c.2, if_pos ha]⟩
  · by_cases ha : u.halfA.condition = .free
    · exact .inl ⟨ha, by rw [if_neg fun c => hb c.1, if_pos ha]⟩
    · exact .inr (.inr ⟨ha, hb, by rw [if_neg fun c => hb c.1, if_neg ha]⟩)

/-! ### Taking a request (R168) -/

/-- Reading a new request's conditions off `Taking`. -/
theorem Taking.canTake {s : State} {seq code : Byte} {args : List Byte} (h : Taking s seq code args) :
    s.canTake = true := by
  obtain ⟨⟨hr, hh, hf⟩, hd, _, _⟩ := h
  have hfree : s.freeReplies ≠ 0 := by
    simp only [State.freeReplies, Config.replyQueueLength]
    omega
  simp [State.canTake, State.handlerReady, State.holdCauses, hr, hh, hd, hfree]

/-- R168: releasing the head slot is `slotReleased` whenever a frame stands there. -/
theorem releaseHead_eq {s : State} (h : s.headFrame.isSome = true) : releaseHead s = slotReleased s := by
  unfold State.headFrame at h
  unfold releaseHead slotReleased
  cases ha : s.arrival with
  | nil => simp [ha] at h
  | cons i rest => simp

/-- R168: a new request of a row's codes is handed to its owner, and then what follows goes on. -/
theorem takeRequest_taking {names : Byte → Bool} {seq code : Byte} {args : List Byte} {s : State} (body : RequestBody)
    (after : State → State) (h : Taking s seq code args) (hn : names code = true) :
    takeRequest names body after s = after (executeRequest body seq code args s) := by
  have hc := h.canTake
  obtain ⟨_, hd, hcache, hp⟩ := h
  simp [takeRequest, hc, hd, handleFrame, hcache, hp, RequestFrame.code, hn]

/-- R169: while no frame can be taken a request row does nothing (log 2). -/
theorem takeRequest_waits {s : State} (names : Byte → Bool) (body : RequestBody) (after : State → State)
    (h : s.canTake = false) : takeRequest names body after s = s := by
  simp [takeRequest, h]

/-! ### Outcomes -/

/-- Every command but a burst completion answers a next state. -/
theorem exec_next (i : Instr) (s : State) (hp : i ≠ .peBurstComplete) (hf : i ≠ .fetchBurstComplete) :
    ∃ t, exec i s = .next t := by
  cases i with
  | peBurstComplete => exact absurd rfl hp
  | fetchBurstComplete => exact absurd rfl hf
  | heldUploadDataExecute =>
    simp only [exec, execHeldUploadDataExecute]
    split
    · split <;> exact ⟨_, rfl⟩
    · exact ⟨_, rfl⟩
  | softReset => simp only [exec, execSoftReset]; split <;> exact ⟨_, rfl⟩
  | hardResetAssert e => cases e <;> exact ⟨_, rfl⟩
  | hardResetRelease a b => simp only [exec, execHardResetRelease]; split <;> exact ⟨_, rfl⟩
  | receiveFrame bs => simp only [exec, execReceiveFrame]; split <;> exact ⟨_, rfl⟩
  | interByteTimeout => simp only [exec, execInterByteTimeout]; split <;> exact ⟨_, rfl⟩
  | transmitTake => simp only [exec, execTransmitTake]; split <;> exact ⟨_, rfl⟩
  | frameSent => simp only [exec, execFrameSent]; split <;> exact ⟨_, rfl⟩
  | lineStart o => simp only [exec, execLineStart]; split <;> exact ⟨_, rfl⟩
  | frameStart o => simp only [exec, execFrameStart]; split <;> exact ⟨_, rfl⟩
  | fieldStart o => simp only [exec, execFieldStart]; split <;> exact ⟨_, rfl⟩
  | powerWaitExpiry o => simp only [exec, execPowerWaitExpiry]; split <;> exact ⟨_, rfl⟩
  | clockWaitExpiry o => simp only [exec, execClockWaitExpiry]; split <;> exact ⟨_, rfl⟩
  | backlightWaitExpiry o => simp only [exec, execBacklightWaitExpiry]; split <;> exact ⟨_, rfl⟩
  | supplyWaitExpiry o => simp only [exec, execSupplyWaitExpiry]; split <;> exact ⟨_, rfl⟩
  | receivedByte b => simp only [exec, execReceivedByte]; split <;> exact ⟨_, rfl⟩
  | _ => exact ⟨_, rfl⟩

end Sys2Proof.Machine
end

