-- ==== Sys2Proof/Tests/Slice0.lean ====
section
/-! SUPPORT. Tests: the checks of well-formedness, the spec's worked values, each row on a small state, and for every
obligation with hypotheses a state and operands that meet them (`test_meets_…`). -/

namespace Sys2Proof.Tests

open Sys2Proof Sys2Proof.Machine

set_option Elab.async false

/-! ### Small states -/

/-- The state after reset with one request frame waiting. -/
def framed (seq : Byte) (payload : List Byte) : State :=
  { State.reset with slots := [some ⟨seq, payload⟩, none, none, none, none, none], arrival := [0] }

/-- A FILLING 8 × 4 IX8 surface in granule 0. -/
def tile : Surface :=
  { Surface.empty with state := .filling, format := .ix8, width := 8, height := 4, storedWidth := 8, storedHeight := 4,
                       stride := 8, granules := 1 }

/-- A READY 64 × 64 OV2 cursor in granule 1. -/
def arrow : Surface :=
  { Surface.empty with state := .ready, format := .ov2, width := 64, height := 64, storedWidth := 64, storedHeight := 64,
                       stride := 16, base := 1, granules := 1 }

/-- Surface 0 is `r` and surface 1 the cursor. -/
def furnished (r : Surface) (s : State) : State :=
  { s with surfaces := r :: arrow :: List.replicate 62 Surface.empty
           granules := some 0 :: some 1 :: List.replicate 510 none }

/-- A timing set at the lower ends of its ranges. -/
def tight : Timing :=
  { Timing.zero with divider := 6, hactive := 16, hblank := 24, hsyncOffset := 16, hsyncWidth := 8, vactive := 8,
                     vblank := 2, vsyncOffset := 1, vsyncWidth := 1 }

/-- An output at a step of a state, with the tight timing set. -/
def unit (st : OutputState) (step : SequenceStep) (timer : Option Nat) : OutputUnit :=
  { OutputUnit.reset with timing := tight, valid := true, state := st, step := step, timer := timer }

/-- Output 0 shows. -/
def showing (s : State) : State := { s with ou0 := unit .running .showing none }

/-- Output 0 shows the last line of a frame. -/
def atLastLine (s : State) : State := { s with ou0 := { unit .running .showing none with scanLine := 9 } }

/-- Output 1 shows the bottom half of an interlaced frame about to begin: the first line of the top field's blank. -/
def atFieldStart (s : State) : State :=
  { s with ou1 := { unit .running .showing none with timing := { tight with interlace := true }, scanLine := 7 } }

/-- The link is a UART. -/
def asUart (s : State) : State := { s with linkMode := some (.uart 1) }

/-- The part is an SPI target with CS_N low, these levels of SDI sampled, and a frame in the transmit position. -/
def asTarget (bits : List Bool) (tx : Option OutboundFrame) : State :=
  { State.reset with wire := ⟨true, bits, false, false, false⟩, tx := tx }

/-- An open session on the tile, with its STREAM entry at the head. -/
def uploading (s : State) : State :=
  { furnished { tile with jobRefs := 1, writers := 1 } s with
    pe := { Engine.reset with
      jobs := [⟨.stream 0 ⟨0, 0, 8, 4⟩, 0⟩]
      session := some { dst := 0, rect := ⟨0, 0, 8, 4⟩, expected := 32, received := 0, written := 0,
                        endRequested := false, link := none } } }

/-- The payload of the newest reply of a next state. -/
def replied : Result → Option (List Byte)
  | .next t => t.replies.getLast?.map (·.payload)
  | .fault _ | .refused _ => none

/-- A property of the next state of an outcome. -/
def after (r : Result) (p : State → Bool) : Bool :=
  match r with
  | .next t => p t
  | .fault _ | .refused _ => false

/-! ### Well-formedness -/

theorem test_wellFormed_refuses_no_bytes : (Instr.receiveFrame []).wellFormed = false := by decide
theorem test_wellFormed_refuses_a_long_frame : (Instr.receiveFrame (List.replicate 1033 0)).wellFormed = false := by
  decide +kernel
theorem test_wellFormed_takes_the_longest_frame : (Instr.receiveFrame (List.replicate 1032 0)).wellFormed = true := by
  decide +kernel
theorem test_no_word_decodes : decodeTableWord 8 1 = none ∧ State.reset.withFetchWord 8 1 = State.reset := by decide +kernel

/-! ### Worked values of the spec -/

theorem test_crc_of_the_nine_digits :
    crc16 [0x31, 0x32, 0x33, 0x34, 0x35, 0x36, 0x37, 0x38, 0x39] = 0x29B1#16 := by
  decide +kernel
theorem test_geometry_of_the_first_surfaces :
    strideOf .rgb16 800 = 1600 ∧ granulesOf 1600 480 = 188 ∧ strideOf .rgb16 1024 = 2048 ∧ granulesOf 2048 600 = 300 ∧
      strideOf .ov2 64 = 16 ∧ granulesOf 16 64 = 1 := by decide
theorem test_rgb16_colours :
    rgb16Colour 0xF81F = ⟨0xFF, 0x00, 0xFF⟩ ∧ rgb16Colour 0x07E0 = ⟨0x00, 0xFF, 0x00⟩ := by decide
theorem test_invert : Colour.invert ⟨0x00, 0xFF, 0x40⟩ = ⟨0xFF, 0x00, 0xBF⟩ := by decide
theorem test_filter_channels : filterChannel 0 255 0 = 127 ∧ filterChannel 255 255 0 = 191 ∧ filterChannel 0 0 255 = 63 := by
  decide
theorem test_clipped_line_bytes :
    layerLineBytes (furnished tile State.reset) { tight with hactive := 800, vactive := 480 }
      ⟨0, ⟨0, 0, 300, 4⟩, 650, 0, .opaqueMode, none, none⟩ = 152 := by decide +kernel
theorem test_first_fit_places_in_turn :
    State.reset.place 188 .low = some 0 ∧ State.reset.place 1 .high = some 511 ∧ State.reset.place 513 .low = none ∧
      State.reset.longestFreeRun = 512 := by decide +kernel

/-! ### Request rows: one request each -/

theorem test_ping : replied (exec .ping (framed 7 [0x01])) = some [0x01, 0x00] := by decide +kernel
theorem test_getInfo : replied (exec .getInfo (framed 7 [0x02])) =
    some [0x02, 0x00, 0x12, 0x06, 1, 0x00, 0x02, 0x00, 0x10, 64, 6, 0, 0xFF] := by decide +kernel
theorem test_deviceReset : after (exec .deviceReset (framed 7 [0x03])) (fun t => t.draining && t.pe.stopped) = true := by
  decide +kernel
theorem test_createSurface :
    replied (exec .createSurface (framed 7 [0x10, 3, 0, 0x20, 0x03, 0xE0, 0x01, 0])) =
      some [0x10, 0x00, 0, 0, 0, 188, 0, 0x40, 0x06] := by decide +kernel
theorem test_createSurface_too_large :
    replied (exec .createSurface (framed 7 [0x10, 3, 0, 0x00, 0x08, 0x00, 0x08, 0])) = some [0x10, 0x07, 0, 2] := by
  decide +kernel
theorem test_discardSurface :
    replied (exec .discardSurface (furnished { tile with state := .ready } (framed 7 [0x11, 0]))) =
      some [0x11, 0x00, 1, 0] := by decide +kernel
theorem test_discardSurface_cancels :
    replied (exec .discardSurface (uploading (framed 7 [0x11, 0]))) = some [0x11, 0x00, 1, 1] := by decide +kernel
theorem test_sealSurface :
    after (exec .sealSurface (furnished tile (framed 7 [0x12, 0]))) (fun t => (t.surface 0).state = .ready) = true := by
  decide +kernel
theorem test_sealSurface_waits_for_writers :
    after (exec .sealSurface (furnished { tile with jobRefs := 1, writers := 1 } (framed 7 [0x12, 0])))
      (fun t => (t.surface 0).state = .sealing && t.pendingReplies.length = 1) = true := by decide +kernel
theorem test_reopenSurface :
    replied (exec .reopenSurface (furnished { tile with state := .ready } (framed 7 [0x13, 0]))) = some [0x13, 0x00] := by
  decide +kernel
theorem test_getSurface :
    replied (exec .getSurface (furnished tile (framed 7 [0x14, 0]))) =
      some [0x14, 0x00, 1, 2, 0, 8, 0, 4, 0, 8, 0, 4, 0, 8, 0, 0, 0, 1, 0, 0, 0, 0, 0, 0] := by decide +kernel
theorem test_getMemoryMap :
    replied (exec .getMemoryMap (furnished tile (framed 7 [0x15]))) =
      some [0x15, 0x00, 3, 0, 0, 1, 0, 0, 1, 0, 1, 0, 1, 2, 0, 0xFE, 0x01, 0xFF] := by decide +kernel
theorem test_beginUpload :
    replied (exec .beginUpload (furnished tile (framed 7 [0x20, 0, 0, 0, 0, 0, 8, 0, 4, 0]))) =
      some [0x20, 0x00, 32, 0, 0, 0, 1] := by decide +kernel
theorem test_uploadData :
    replied (exec .uploadData (uploading (framed 7 [0x21, 1, 2, 3]))) = some [0x21, 0x00, 3, 0, 3, 0, 0, 0] := by
  decide +kernel
theorem test_heldUploadDataExecute :
    after (exec .heldUploadDataExecute { uploading (framed 7 [0x21, 1]) with held := some .upload })
      (fun t => t.held = none && t.arrival = []) = true := by decide +kernel
theorem test_endUpload :
    replied (exec .endUpload (uploading (framed 7 [0x22]))) = some [0x22, 0x0F, 0, 0, 0, 0, 0, 0, 0, 0] := by
  decide +kernel
theorem test_abortUpload :
    replied (exec .abortUpload (uploading (framed 7 [0x23]))) = some [0x23, 0x00, 0, 0, 0, 0, 0, 0, 0, 0] := by
  decide +kernel
theorem test_fillRect :
    after (exec .fillRect (furnished tile (framed 7 [0x24, 0, 0, 0, 0, 0, 1, 0, 1, 0, 5, 0])))
      (fun t => t.pe.jobs.length = 1 && t.port.inFlight = some (.engine (.readDestination 0) true)) = true := by
  decide +kernel
theorem test_copyRect :
    replied (exec .copyRect (furnished tile
      (framed 7 [0x25, 0, 0, 0, 0, 0, 0, 4, 0, 4, 0, 4, 0, 0, 0, 1, 2, 0]))) = some [0x25, 0x00, 1] := by decide +kernel
theorem test_copyRect_overlap :
    replied (exec .copyRect (furnished tile
      (framed 7 [0x25, 0, 0, 0, 0, 0, 0, 4, 0, 4, 0, 3, 0, 0, 0, 0, 0, 0]))) = some [0x25, 0x03] := by decide +kernel
theorem test_readPixels :
    after (exec .readPixels (furnished tile (framed 7 [0x26, 0, 0, 0, 0, 0, 8, 0, 4, 0])))
      (fun t => t.pendingReplies.length = 1 && t.port.inFlight = some (.engine (.readSource 0) true)) = true := by
  decide +kernel
theorem test_fence : replied (exec .fence (framed 7 [0x27])) = some [0x27, 0x00] := by decide +kernel
theorem test_setOutput :
    replied (exec .setOutput (framed 7
      [0x30, 0, 6, 16, 0, 24, 0, 16, 0, 8, 0, 8, 0, 2, 1, 1, 0, 0, 0, 0, 0, 0, 0, 0])) = some [0x30, 0x00, 0xFF] := by
  decide +kernel
theorem test_setOutput_flicker_needs_interlace :
    replied (exec .setOutput (framed 7
      [0x30, 1, 6, 16, 0, 24, 0, 16, 0, 8, 0, 8, 0, 2, 1, 1, 0, 0, 0, 0, 0, 1, 0, 0])) = some [0x30, 0x03, 15] := by
  decide +kernel
theorem test_startOutput :
    after (exec .startOutput { framed 7 [0x31, 0] with ou0 := unit .off .off none })
      (fun t => t.ou0.step = .showing && t.replies.length = 1 && t.pendingReplies = []) = true := by decide +kernel
theorem test_stopOutput :
    after (exec .stopOutput (showing (framed 7 [0x32, 0])))
      (fun t => t.ou0.state = .ending && t.pendingReplies.length = 1) = true := by decide +kernel
theorem test_getOutput : after (exec .getOutput (showing (framed 7 [0x33, 0])))
      (fun t => (t.replies.map (·.payload.take 6)) = [[0x33, 0x00, 2, 3, 1, 1]]) = true := by decide +kernel
theorem test_setPalette :
    after (exec .setPalette (framed 7 [0x34, 0, 255, 1, 0, 9, 8, 7]))
      (fun t => t.ou0.active.getLast? = some ⟨9, 8, 7⟩ && t.ou0.staging = t.ou0.active) = true := by decide +kernel
theorem test_present :
    replied (exec .present (showing (framed 7 [0x40, 0, 0, 1, 2, 3, 0]))) = some [0x40, 0x00, 1, 0, 1, 0] := by
  decide +kernel
theorem test_present_names_the_entry :
    replied (exec .present (showing (furnished tile (framed 7
      [0x40, 0, 0, 1, 2, 3, 1, 0, 0, 0, 0, 0, 8, 0, 4, 0, 0, 0, 0, 0, 0, 0, 0])))) = some [0x40, 0x05, 0] := by
  decide +kernel
theorem test_setCursor :
    after (exec .setCursor (showing (furnished tile (framed 7 [0x41, 0, 1, 1, 2, 3, 4, 5, 6]))))
      (fun t => (t.surface 1).scanRefs = 1 && t.pres0.loadN = 16) = true := by decide +kernel
theorem test_moveCursor :
    after (exec .moveCursor (showing (framed 7 [0x42, 0, 0xC1, 0xFF, 0xFF, 0x07, 1])))
      (fun t => t.pres0.pendingPosition = ⟨-63, 2047, true⟩) = true := by decide +kernel
theorem test_setBudget : replied (exec .setBudget (framed 7 [0x43, 9])) = some [0x43, 0x00, 9, 4] := by decide +kernel
theorem test_ackNotices :
    replied (exec .ackNotices { framed 7 [0x50, 0] with notices := [⟨.ready .powerOn, 0, true⟩] }) =
      some [0x50, 0x00, 1, 0] := by decide +kernel
theorem test_resendNotices :
    replied (exec .resendNotices { framed 7 [0x51] with
      notices := [⟨.linkDrop 200 1, 0, true⟩, ⟨.linkDrop 100 2, 1, false⟩] }) = some [0x51, 0x00, 1, 1] := by
  decide +kernel
theorem test_unknownRequest : replied (exec .unknownRequest (framed 7 [0x04, 1])) = some [0x04, 0x02] := by decide +kernel

/-! ### Link and reset rows -/

theorem test_receiveFrame_good :
    after (exec (.receiveFrame (linkFrame 0x01 0x2A 0 [0x01])) State.reset)
      (fun t => t.slots.getD 0 none = some ⟨0x2A, [0x01]⟩ && t.arrival = [0]) = true := by decide +kernel
theorem test_receivedByte :
    after (exec (.receivedByte (.whole 0xA5)) State.reset) (fun t => t.rx = ⟨.header, []⟩ && t.tx.isSome) = true := by
  decide +kernel
theorem test_receivedByte_last_edge :
    after (exec (.receivedByte (.sckRises true)) (asTarget [true, false, true, false, false, true, false] none))
      (fun t => t.rx = ⟨.header, []⟩ && t.wire.bits = []) = true := by decide +kernel
theorem test_receivedByte_framing_error :
    after (exec (.receivedByte (.rxd false)) (asUart { State.reset with wire := ⟨false, List.replicate 9 false, false, false, false⟩ }))
      (fun t => t.wire = ⟨false, [], true, false, false⟩ && t.rx = ⟨.hunt, []⟩) = true := by decide +kernel
theorem test_csn_falls_offers_the_sync :
    after (exec (.receivedByte .csnFalls) State.reset) (fun t => t.spiOffer = 0xA5 && t.sdoPin 0 = some true) = true := by
  decide +kernel
theorem test_sdo_changes_when_sck_falls :
    let edges (s : State) : List (Option Bool) :=
      let high := lineEvent (.sckRises false) s
      [s.sdoPin 0, high.sdoPin 0, (lineEvent .sckFalls high).sdoPin 0]
    edges (lineEvent .csnFalls State.reset) = [some true, some true, some false] := by decide +kernel
theorem test_interByteTimeout :
    after (exec .interByteTimeout { State.reset with rx := ⟨.header, []⟩ })
      (fun t => t.rx = ⟨.hunt, []⟩ && t.notices.length = 2) = true := by decide +kernel
theorem test_transmitTake :
    after (exec .transmitTake (asUart State.reset))
      (fun t => t.notices = [⟨.ready .powerOn, 0, true⟩] &&
        t.tx.map (·.bytes.take 8) = some [0xA5, 2, 0, 0x82, 0, 6, 1, 0]) = true := by decide +kernel
theorem test_frameSent :
    after (exec .frameSent (asUart { State.reset with tx := some ⟨true, [1], 0⟩, replies := [⟨7, [1, 0]⟩] }))
      (fun t => t.tx = none && t.replies = []) = true := by decide +kernel
theorem test_softReset :
    after (exec .softReset { State.reset with held := some (.reset 7), share := 9 })
      (fun t => t.share = 4 && t.notices = [⟨.ready .request, 0, false⟩]) = true := by decide +kernel
theorem test_hardResetAssert :
    after (exec (.hardResetAssert .pinLow) State.reset) (fun t => t.inReset && t.notices = [] && !t.attnLow) = true := by
  decide +kernel
theorem test_hardResetRelease :
    after (exec (.hardResetRelease true true) { State.reset with inReset := true })
      (fun t => t.linkMode = some (.uart 2) && t.notices = [⟨.ready .pin, 0, false⟩]) = true := by decide +kernel

/-! ### Burst and output rows -/

theorem test_peBurstComplete_writes :
    after (exec .peBurstComplete { furnished { tile with jobRefs := 1, writers := 1 } State.reset with
        pe := { Engine.reset with jobs := [⟨.fill 0 ⟨0, 0, 1, 1⟩ 5, 0⟩], heldBurst := some ⟨0, [⟨0, 0xFF, 5⟩], 1⟩ }
        port := ⟨some (.engine (.writeDestination 0) true), .out1⟩ })
      (fun t => t.mem = [(0, 5)] && t.pe.jobs = [] && (t.surface 0).writers = 0) = true := by decide +kernel
theorem test_fetchBurstComplete :
    after (exec .fetchBurstComplete { State.reset with port := ⟨some (.fetch .out0 ⟨0, 64⟩ true), .out1⟩ })
      (fun t => t.port.inFlight = none) = true := by decide +kernel
theorem test_lineStart :
    after (exec (.lineStart .out0) (showing { State.reset with pending := [] }))
      (fun t => t.ou0.scanLine = 1) = true := by decide +kernel
/-- Output 0 before its first active line, fetched with the cursor's row, of code 1 throughout, complete or not. -/
def beforeCursorLine (complete : Bool) : State :=
  let area : Area := ⟨.cursor, 0, 1, 0, 0, 64, List.replicate 64 1, complete⟩
  { State.reset with
    ou0 := { unit .running .showing none with
      scanLine := 1, halfB := { LineHalf.free with condition := .fetching, lines := [0], areas := [area] } }
    pres0 := { Presentation.reset with binding := some ⟨1, .black, ⟨9, 8, 7⟩⟩, position := ⟨2, 0, true⟩ } }

theorem test_lineStart_draws_complete_areas :
    after (exec (.lineStart .out0) (beforeCursorLine true))
      (fun t => t.dataPins .out0 1 = 0 && t.dataPins .out0 2 = 0x090807 && t.ou0.lineMiss = 0) = true := by decide +kernel
theorem test_lineStart_leaves_incomplete_areas_out :
    after (exec (.lineStart .out0) (beforeCursorLine false))
      (fun t => t.dataPins .out0 2 = 0 && t.ou0.lineMiss = 1 && t.notices.length = 2) = true := by decide +kernel
theorem test_frameStart_takes :
    after (exec (.frameStart .out0) { atLastLine State.reset with
        pres0 := { Presentation.reset with queue := [⟨.out0, .black, [], 1, 0⟩], token := 1 } })
      (fun t => t.ou0.framesShown = 1 && t.pres0.current.isSome && t.pres0.queue = []) = true := by decide +kernel
theorem test_fieldStart :
    after (exec (.fieldStart .out1) (atFieldStart State.reset)) (fun t => t.ou1.field = .bottom) = true := by
  decide +kernel
theorem test_frameStart_fetches_into_the_shown_half :
    after (exec (.frameStart .out0) { atLastLine State.reset with
        ou0 := { (atLastLine State.reset).ou0 with halfB := { LineHalf.free with condition := .shown } } })
      (fun t => t.ou0.halfA.condition = .free && t.ou0.halfB.condition = .fetching) = true := by decide +kernel
theorem test_powerWaitExpiry :
    after (exec (.powerWaitExpiry .out0) { State.reset with ou0 := unit .powerUp .powerWait (some 5) })
      (fun t => t.ou0.step = .showing) = true := by decide +kernel
theorem test_clockWaitExpiry :
    after (exec (.clockWaitExpiry .out0) { State.reset with ou0 := unit .powerUp .clockWait (some 0) })
      (fun t => t.ou0.state = .running) = true := by decide +kernel
theorem test_backlightWaitExpiry :
    after (exec (.backlightWaitExpiry .out0) { State.reset with ou0 := unit .powerDown .backlightWait (some 0) })
      (fun t => t.ou0.state = .off) = true := by decide +kernel
theorem test_supplyWaitExpiry :
    after (exec (.supplyWaitExpiry .out0) { State.reset with ou0 := unit .powerDown .supplyWait (some 0) })
      (fun t => t.ou0.step = .off && t.notices.length = 2) = true := by decide +kernel

/-! ### The hypotheses of the statements are met -/

/-- The parts of `Taking`, as one decidable check. -/
theorem taking_of {s : State} {seq code : Byte} {args : List Byte}
    (h : (s.inReset = false ∧ s.held = none ∧ s.replies.length + s.pendingReplies.length < 8) ∧
      s.headFrame = some ⟨seq, code :: args⟩ ∧ s.cached seq = none ∧ s.isPending seq = false) : Taking s seq code args := h

/-- A half that fetches line 0 of a frame of no layers. -/
def fetchingLine0 : LineHalf := { LineHalf.free with condition := .fetching, lines := [0] }

/-- A state of many parts at work: two surfaces, an upload in progress, Output 0 RUNNING at its first blank line, and a
command waiting. -/
def atWork : State :=
  { uploading State.reset with
    ou0 := { unit .running .showing none with halfA := fetchingLine0 }, pending := [.interByteTimeout] }

theorem getD_replicate_self {α : Type} (a : α) (n k : Nat) : (List.replicate n a).getD k a = a := by
  induction n generalizing k with
  | zero => rfl
  | succ n ih => cases k with
    | zero => rfl
    | succ k => exact ih k

theorem atWork_surface_high (id : Nat) (h : 2 ≤ id) : atWork.surface id = Surface.empty := by
  obtain ⟨k, rfl⟩ : ∃ k, id = k + 2 := ⟨id - 2, by omega⟩
  exact getD_replicate_self Surface.empty 62 k

theorem atWork_granule_high (g : Nat) (h : 2 ≤ g) : atWork.granules.getD g none = none := by
  obtain ⟨k, rfl⟩ : ∃ k, g = k + 2 := ⟨g - 2, by omega⟩
  exact getD_replicate_self none 510 k

theorem atWork_jobs : atWork.pe.jobs = [⟨.stream 0 ⟨0, 0, 8, 4⟩, 0⟩] := rfl

theorem atWork_surfaceTableLaw : SurfaceTableLaw atWork := by
  refine ⟨by decide +kernel, by decide +kernel, ?_, ?_, ?_, ?_⟩
  · simp only [surfaceShaped]; decide +kernel
  · decide +kernel
  · intro g hg id hid
    by_cases h2 : 2 ≤ id
    · rw [atWork_surface_high id h2]
      by_cases hg2 : 2 ≤ g
      · rw [atWork_granule_high g hg2]; simp [Surface.empty]
      · have : g = 0 ∨ g = 1 := by omega
        rcases this with rfl | rfl
        · show some 0 = some id ↔ _
          simp [Surface.empty]; omega
        · show some 1 = some id ↔ _
          simp [Surface.empty]; omega
    · have : id = 0 ∨ id = 1 := by omega
      by_cases hg2 : 2 ≤ g
      · rw [atWork_granule_high g hg2]
        have hb0 : (atWork.surface 0).base + (atWork.surface 0).granules = 1 := by decide +kernel
        have hb1 : (atWork.surface 1).base + (atWork.surface 1).granules = 2 := by decide +kernel
        rcases this with rfl | rfl
        · rw [hb0]; constructor
          · intro h; cases h
          · omega
        · rw [hb1]; constructor
          · intro h; cases h
          · omega
      · have hg' : g = 0 ∨ g = 1 := by omega
        rcases this with rfl | rfl <;> rcases hg' with rfl | rfl <;> decide +kernel
  · intro g hg
    by_cases hg2 : 2 ≤ g
    · rw [atWork_granule_high g hg2]; trivial
    · have hg' : g = 0 ∨ g = 1 := by omega
      rcases hg' with rfl | rfl
      · show (0 : Nat) < 64; decide
      · show (1 : Nat) < 64; decide

/-- Every law of the device holds in a state at work, and it steps. -/
theorem test_meets_the_laws_that_are_kept : DeviceLaw atWork ∧ ∃ t, step atWork = .next t := by
  refine ⟨⟨?_, ?_, ?_, ?_, ?_, ?_, ?_, ?_, ?_, ?_, ?_, atWork_surfaceTableLaw, ?_, ?_, ?_, ?_, ?_, ?_, ?_, ?_⟩, ⟨_, rfl⟩⟩
  · exact ⟨by decide, by decide, by decide, by decide, by decide, by decide, nofun, nofun⟩
  · simp only [SlotsLaw]; decide +kernel
  · exact ⟨rfl, by decide, fun _ => rfl, nofun⟩
  · exact (rfl : atWork.rx.bytes = [])
  · trivial
  · simp only [NoticeLaw]; decide +kernel
  · simp only [OutputLaw, outputLawful, Timing.inRange]
    refine ⟨⟨⟨Or.inl rfl, rfl⟩, by decide, by decide, by decide, by decide, by decide⟩,
      ⟨⟨rfl, rfl⟩, by decide, by decide, by decide, by decide, by decide⟩⟩
  · simp only [PresentationLaw, presentationLawful]; decide +kernel
  · simp only [BudgetLaw, reservedLawful]; decide +kernel
  · simp only [PaletteLaw, paletteLawful]; decide +kernel
  · simp only [LineStoreLaw, lineStoreLawful]; decide +kernel
  · refine ⟨by decide +kernel, by decide +kernel, ?_⟩
    intro id hid
    by_cases h2 : 2 ≤ id
    · have hne : ¬ id = 0 := by omega
      have hsurf : atWork.jobsNaming id = 0 := by
        simp only [State.jobsNaming, atWork_jobs]
        rw [List.filter_cons_of_neg]
        · rfl
        · show ¬ [0].contains id = true
          simpa using hne
      have hwr : atWork.jobsWriting id = 0 := by
        simp only [State.jobsWriting, atWork_jobs]
        rw [List.filter_cons_of_neg]
        · rfl
        · show ¬ decide (some 0 = some id) = true
          simp; omega
      rw [atWork_surface_high id h2, hsurf, hwr]
      exact ⟨rfl, rfl, rfl, rfl, rfl⟩
    · have hid' : id = 0 ∨ id = 1 := by omega
      rcases hid' with rfl | rfl
      · exact ⟨by decide +kernel, by decide +kernel, by decide +kernel, by decide +kernel, by decide +kernel⟩
      · exact ⟨by decide +kernel, by decide +kernel, by decide +kernel, by decide +kernel, by decide +kernel⟩
  · simp only [FrameShapeLaw, framesShaped]; decide +kernel
  · refine ⟨by decide +kernel, ?_, by decide +kernel, ?_⟩
    rotate_left
    · show 0 + atWork.pe.heldPixels ≤ atWork.readyPixels (.stream 0 ⟨0, 0, 8, 4⟩)
      decide +kernel
    intro j hj
    rw [atWork_jobs, List.mem_singleton] at hj
    subst hj
    show Rect.within _ _ _ = true
    decide +kernel
  · have held : atWork.pe.heldBurst = none := rfl
    simp only [SessionLaw, show atWork.pe.session = some
      { dst := 0, rect := ⟨0, 0, 8, 4⟩, expected := 32, received := 0, written := 0, endRequested := false,
        link := none } from rfl, held, Option.elim_none]
    decide +kernel
  · exact Or.inr (Or.inr (Or.inr (show atWork.engineMove ⟨.stream 0 ⟨0, 0, 8, 4⟩, 0⟩ [] = .wait by decide +kernel)))
  · simp only [MemoryLaw]; decide +kernel
  · simp only [PortLaw]; decide +kernel
  · refine ⟨trivial, trivial, trivial, by decide +kernel⟩

/-- Surface 63 is `r`, every other record EMPTY. -/
def at63 (r : Surface) (s : State) : State := { s with surfaces := (List.replicate 64 Surface.empty).set 63 r }

/-- A burst granted. -/
def granted (g : Grant) (s : State) : State := { s with port := ⟨some g, .out1⟩ }

theorem test_meets_OutcomesAndTheQueue :
    State.reset.pending = [] ∧ (∃ t, exec .ping State.reset = .next t) ∧
      grantExists (granted (.fetch .out0 ⟨0, 2097088⟩ true) State.reset) ∧
      (granted (.fetch .out0 ⟨0, 2097152⟩ true) State.reset).port.inFlight = some (.fetch .out0 ⟨0, 2097152⟩ true) ∧
      (granted (.engine (.readSource 2097152) true) State.reset).port.inFlight =
        some (.engine (.readSource 2097152) true) :=
  ⟨rfl, ⟨_, rfl⟩, by show 2097088 < 2097152; decide, rfl, rfl⟩

theorem test_meets_TakingAFrame :
    let cached := { framed 7 [0x02] with cache := [⟨7, [0x02, 0x00]⟩], replies := List.replicate 7 ⟨1, []⟩ }
    let waiting := { framed 7 [0x12, 0] with pendingReplies := [⟨7, 0x12, .surfaceManager, .seal 0⟩] }
    (HandlerFree cached ∧ cached.headFrame = some ⟨7, [0x02]⟩ ∧ Handles .getInfo ⟨7, [0x02]⟩ ∧
      cached.cached 7 = some ⟨7, [0x02, 0x00]⟩) ∧
    (HandlerFree waiting ∧ waiting.headFrame = some ⟨7, [0x12, 0]⟩ ∧ Handles .sealSurface ⟨7, [0x12, 0]⟩ ∧
      waiting.cached 7 = none ∧ waiting.isPending 7 = true) ∧
    (HandlerFree (framed 7 []) ∧ (framed 7 []).headFrame = some ⟨7, []⟩ ∧ Handles .ping ⟨7, []⟩) ∧
    (isRequest .ping ∧ ¬ HandlerFree { framed 7 [0x01] with replies := List.replicate 8 ⟨1, []⟩ }) ∧
    (isRequest .unknownRequest ∧ State.reset.headFrame.elim True fun f => ¬ Handles .unknownRequest f) ∧
    (framed 7 [0x01]).headFrame.elim True fun f => ¬ Handles .unknownRequest f := by
  refine ⟨⟨by simp only [HandlerFree]; decide, rfl, Or.inl rfl, rfl⟩, ⟨by simp only [HandlerFree]; decide, rfl, Or.inl rfl,
    rfl, rfl⟩, ⟨by simp only [HandlerFree]; decide, rfl, Or.inl rfl⟩, ⟨Or.inl rfl, by simp only [HandlerFree]; decide⟩,
    ⟨Or.inr rfl, trivial⟩, ?_⟩
  show ¬ (_ ∨ _)
  decide

theorem test_meets_PingInfoAndUnknown :
    Taking (framed 7 [0x01]) 7 0x01 [] ∧ Taking (framed 7 [0x02, 0]) 7 0x02 [0] ∧
      (Taking (framed 7 [0x04]) 7 0x04 [] ∧ (0x04 : Byte) ∉ catalogue) ∧
      Taking (framed 7 [0xFF]) 7 0xFF [] ∧ (0xFF : Byte) ∉ catalogue :=
  ⟨taking_of (by decide), taking_of (by decide), ⟨taking_of (by decide), by decide⟩, taking_of (by decide), by decide⟩

theorem test_meets_RepliesAndTheCache :
    let p : PendingReply := ⟨3, 0x27, .pixelEngine, .job⟩
    let q : PendingReply := ⟨4, 0x32, .outputUnit, .stop .out0⟩
    let s := { State.reset with pendingReplies := [p, q] }
    (List.replicate 8 (⟨1, []⟩ : Reply)).length ≤ 8 ∧ (s.pendingReplies.map (·.seq)).Nodup ∧ s.isPending 5 = false ∧
      p ∈ s.pendingReplies ∧ p.seq = 3 := by decide

theorem test_meets_DeviceResetBeginsTheDrain :
    let s := { framed 7 [0x03] with pendingReplies := [⟨3, 0x27, .pixelEngine, .job⟩] }
    Taking s 7 0x03 [] ∧ (s.pendingReplies.map (·.seq)).Nodup := ⟨taking_of (by decide), by decide⟩

theorem test_meets_CreateSurface :
    Taking (framed 7 [0x10, 3, 3, 0, 8, 0, 1, 1]) 7 0x10 [3, 3, 0, 8, 0, 1, 1] := taking_of (by decide)

theorem test_meets_PlacementIsFirstFit :
    let s := furnished tile State.reset
    State.reset.granules.length = 512 ∧ s.granules.length = 512 ∧ State.reset.place 512 .high = some 0 ∧
      s.place 1 .low = some 2 ∧ s.place 2 .high = some 510 ∧ s.place 511 .low = none := by decide +kernel

theorem test_meets_DiscardOfAReadySurface :
    Taking (at63 { tile with state := .ready } (framed 7 [0x11, 63])) 7 0x11 [63] ∧
      ((at63 { tile with state := .ready } (framed 7 [0x11, 63])).surface 63).state = .ready ∧
      Taking (at63 { tile with state := .discarding, scanRefs := 1 } (framed 7 [0x11, 63])) 7 0x11 [63] ∧
      ((at63 { tile with state := .discarding, scanRefs := 1 } (framed 7 [0x11, 63])).surface 63).state = .discarding ∧
      Taking (framed 7 [0x11, 63]) 7 0x11 [63] ∧ ((framed 7 [0x11, 63]).surface 63).state = .empty ∧
      Taking (framed 7 [0x11, 64]) 7 0x11 [64] ∧ 64 ≤ arg8 [64] 0 ∧ Taking (framed 7 [0x11]) 7 0x11 [] :=
  ⟨taking_of (by decide +kernel), by decide +kernel, taking_of (by decide +kernel), by decide +kernel,
    taking_of (by decide +kernel), by decide +kernel, taking_of (by decide +kernel), by decide, taking_of (by decide +kernel)⟩

theorem test_meets_DiscardOfAnUnfinishedSurface :
    (Taking (at63 tile (framed 7 [0x11, 63])) 7 0x11 [63] ∧
      ((at63 tile (framed 7 [0x11, 63])).surface 63).state = .filling) ∧
    (Taking (at63 { tile with state := .sealing, sealPending := true } (framed 7 [0x11, 63])) 7 0x11 [63] ∧
      ((at63 { tile with state := .sealing, sealPending := true } (framed 7 [0x11, 63])).surface 63).state = .sealing) ∧
    (let s := { State.reset with
        pendingReplies := [⟨3, 0x26, .pixelEngine, .job⟩]
        pe := { Engine.reset with jobs := [⟨.read 0 ⟨0, 0, 1, 1⟩ 3, 0⟩] } }
     (s.pendingReplies.map (·.seq)).Nodup ∧ ⟨.read 0 ⟨0, 0, 1, 1⟩ 3, 0⟩ ∈ s.pe.jobs ∧
       (⟨3, 0x26, .pixelEngine, .job⟩ : PendingReply) ∈ s.pendingReplies ∧
       s.pe.jobs.head?.elim false (fun j => j.kind.surfaces.contains 0) = true ∧
       s.pe.jobs.head?.elim false (fun j => j.kind.surfaces.contains 1) = false) ∧
    (uploading State.reset).pe.jobs.any (fun j => j.kind.surfaces.contains 0 && j.isStream) = true :=
  ⟨⟨taking_of (by decide +kernel), by decide +kernel⟩, ⟨taking_of (by decide +kernel), by decide +kernel⟩,
    by decide, by decide +kernel⟩

theorem test_meets_SealReopenAndGetSurface :
    Taking (framed 7 [0x12, 63]) 7 0x12 [63] ∧ Taking (framed 7 [0x13, 64]) 7 0x13 [64] ∧
      Taking (framed 7 [0x14, 0]) 7 0x14 [0] := ⟨taking_of (by decide), taking_of (by decide), taking_of (by decide)⟩

theorem test_meets_MemoryMapIsItsRuns :
    Taking (framed 7 [0x15]) 7 0x15 [] ∧ State.reset.runs[0]? = some ⟨0, 512, none⟩ ∧
      atWork.runs[0]? = some ⟨0, 1, some 0⟩ ∧ atWork.runs[1]? = some ⟨1, 1, some 1⟩ ∧ SurfaceTableLaw atWork :=
  ⟨taking_of (by decide), by decide +kernel, by decide +kernel, by decide +kernel, atWork_surfaceTableLaw⟩

theorem test_meets_TransformIsOneToOne :
    let r := { tile with transform := .t90, width := 1, height := 2048, storedWidth := 2048, storedHeight := 1 }
    (r.storedWidth, r.storedHeight) = storedSize r.transform r.width r.height ∧ 0 < r.width ∧ 2047 < r.height ∧
      2047 < r.storedWidth ∧ r.storedPosition 0 0 = (2047, 0) := by decide

theorem test_meets_PixelsInMemoryAndOnTheLink :
    let r := { tile with format := .rgb16, storedWidth := 2048, storedHeight := 1, stride := 4096, base := 511 }
    let b : Surface := { tile with storedWidth := 2048, storedHeight := 2, stride := 2048, base := 511 }
    (r.stride = strideOf r.format r.storedWidth ∧ 2047 < r.storedWidth ∧
      r.pixelAddress 2047 0 + (if r.format = .rgb16 then 2 else 1) = 2097152 ∧ 65535 < 2 ^ r.format.bpp) ∧
    (b.stride = strideOf b.format b.storedWidth ∧ 2047 < b.storedWidth ∧
      b.pixelAddress 2047 1 + (if b.format = .rgb16 then 2 else 1) = 2097152 ∧ 255 < 2 ^ b.format.bpp) ∧
    (∀ p ∈ [3, 0, 1], p < 2 ^ Format.ov2.bpp) ∧ [3, 0, 1][2]? = some 1 ∧
      3 * Format.ov2.bpp ≤ 7 ∧ 7 < 8 * (packPixels .ov2 [3, 0, 1]).length := by decide +kernel

theorem test_meets_FillAndCopy :
    Taking (framed 7 [0x24, 63, 0, 0, 0, 0, 1, 0, 1, 0, 5, 0]) 7 0x24 [63, 0, 0, 0, 0, 1, 0, 1, 0, 5, 0] ∧
      Taking (framed 7 [0x25, 0, 0, 0, 0, 0, 0, 4, 0, 4, 0, 4, 0, 0, 0, 1, 2, 0]) 7 0x25
        [0, 0, 0, 0, 0, 0, 4, 0, 4, 0, 4, 0, 0, 0, 1, 2, 0] ∧
      (1 ≤ (Rect.mk 0 0 4 4).w ∧ (Rect.mk 0 0 4 4).overlaps ⟨3, 3, 1, 1⟩ = true ∧
        (Rect.mk 0 0 4 4).overlaps ⟨4, 0, 4, 4⟩ = false) :=
  ⟨taking_of (by decide), taking_of (by decide), by decide⟩

theorem test_meets_ReadFenceAndBeginUpload :
    Taking (framed 7 [0x26, 63, 0, 0, 0, 0, 8, 0, 4, 0]) 7 0x26 [63, 0, 0, 0, 0, 8, 0, 4, 0] ∧
      Taking (framed 7 [0x27]) 7 0x27 [] ∧
      Taking (framed 7 [0x20, 63, 0, 0, 0, 0, 8, 0, 4, 0]) 7 0x20 [63, 0, 0, 0, 0, 8, 0, 4, 0] :=
  ⟨taking_of (by decide), taking_of (by decide), taking_of (by decide)⟩

theorem test_meets_UploadData :
    (Taking (framed 7 [0x21]) 7 0x21 [] ∧ (framed 7 [0x21]).pe.session = none) ∧
    (Taking (uploading (framed 7 [0x21, 1])) 7 0x21 [1] ∧ (uploading (framed 7 [0x21, 1])).pe.session.isSome = true) ∧
    (let s := { uploading (framed 7 [0x21, 1]) with held := some .upload }
     s.held = some .upload ∧ s.headFrame = some ⟨7, [0x21, 1]⟩ ∧ s.pe.session.isSome = true) ∧
    State.reset.held ≠ some .upload :=
  ⟨⟨taking_of (by decide), rfl⟩, ⟨taking_of (by decide), rfl⟩, ⟨rfl, rfl, rfl⟩, by decide⟩

/-- An abort during an upload whose END_UPLOAD waits, with the write of its one byte granted. -/
def aborting : State :=
  { uploading (framed 7 [0x23]) with
    pendingReplies := [⟨3, 0x22, .pixelEngine, .session⟩]
    port := ⟨some (.engine (.writeDestination 0) true), .out1⟩
    pe := { Engine.reset with
      jobs := [⟨.stream 0 ⟨0, 0, 8, 4⟩, 0⟩], heldBurst := some ⟨0, [⟨0, 0xFF, 9⟩], 1⟩, staging := [9]
      session := some { dst := 0, rect := ⟨0, 0, 8, 4⟩, expected := 32, received := 1, written := 0,
                        endRequested := true, link := some 3 } } }

/-- An abort while a FILL is ahead of the STREAM, with nothing received. -/
def abortingBehind : State :=
  { furnished { tile with jobRefs := 2, writers := 2 } (framed 7 [0x23]) with
    pe := { Engine.reset with
      jobs := [⟨.fill 0 ⟨0, 0, 1, 1⟩ 5, 0⟩, ⟨.stream 0 ⟨0, 0, 8, 4⟩, 0⟩]
      session := some { dst := 0, rect := ⟨0, 0, 8, 4⟩, expected := 32, received := 0, written := 0,
                        endRequested := false, link := none } } }

theorem test_meets_EndAndAbortUpload :
    (Taking (framed 7 [0x22]) 7 0x22 [] ∧ (framed 7 [0x22]).pe.session = none) ∧
    (Taking (uploading (framed 7 [0x22])) 7 0x22 [] ∧ (uploading (framed 7 [0x22])).pe.session.isSome = true) ∧
    (Taking (framed 7 [0x23]) 7 0x23 [] ∧ (framed 7 [0x23]).pe.session = none) ∧
    (Taking (uploading (framed 7 [0x23, 0])) 7 0x23 [0] ∧ (uploading (framed 7 [0x23, 0])).pe.session.isSome = true) ∧
    (Taking aborting 7 0x23 [] ∧ SessionLaw aborting ∧ (aborting.pendingReplies.map (·.seq)).Nodup ∧
      aborting.pe.jobs.head? = some ⟨.stream 0 ⟨0, 0, 8, 4⟩, 0⟩ ∧
      aborting.pe.heldBurst = some ⟨0, [⟨0, 0xFF, 9⟩], 1⟩ ∧
      (⟨3, 0x22, .pixelEngine, .session⟩ : PendingReply) ∈ aborting.pendingReplies) ∧
    (Taking { aborting with port := ⟨none, .out1⟩ } 7 0x23 [] ∧ SessionLaw { aborting with port := ⟨none, .out1⟩ }) ∧
    Taking abortingBehind 7 0x23 [] ∧ abortingBehind.pe.jobs.head?.elim false Job.isStream = false ∧
      SessionLaw abortingBehind := by
  have session : aborting.pe.session = some ⟨0, ⟨0, 0, 8, 4⟩, 32, 1, 0, true, some 3⟩ := rfl
  have law : SessionLaw aborting := by
    simp only [SessionLaw, session, show aborting.pe.heldBurst = some ⟨0, [⟨0, 0xFF, 9⟩], 1⟩ from rfl, Option.elim_some]
    decide +kernel
  refine ⟨⟨taking_of (by decide), rfl⟩, ⟨taking_of (by decide), rfl⟩, ⟨taking_of (by decide), rfl⟩,
    ⟨taking_of (by decide), rfl⟩,
    ⟨taking_of (by decide), law, by decide, rfl, rfl, by decide⟩, ⟨taking_of (by decide), law⟩, taking_of (by decide), rfl, ?_⟩
  simp only [SessionLaw, show abortingBehind.pe.session = some ⟨0, ⟨0, 0, 8, 4⟩, 32, 0, 0, false, none⟩ from rfl,
    show abortingBehind.pe.heldBurst = none from rfl, Option.elim_none]
  decide +kernel

theorem test_meets_EngineBurstCompletes :
    (∀ b live, State.reset.port.inFlight ≠ some (.engine b live)) ∧
    ((granted (.engine (.readSource 2097088) false) State.reset).port.inFlight =
      some (.engine (.readSource 2097088) false) ∧ (EngineBurst.readSource 2097088).addr < 2097152) ∧
    (EngineBurst.readDestination 0).addr < 2097152 ∧
    (let j : Job := ⟨.fill 0 ⟨0, 0, 1, 1⟩ 5, 0⟩
     let s := granted (.engine (.writeDestination 2097088) true)
       { State.reset with pe := { Engine.reset with jobs := [j], heldBurst := some ⟨2097088, [⟨2097088, 0xFF, 5⟩], 1⟩ } }
     s.pe.jobs = j :: [] ∧ s.pe.heldBurst = some ⟨2097088, [⟨2097088, 0xFF, 5⟩], 1⟩ ∧ j.kind.destination = some 0 ∧
       j.isStream = false) ∧
    (aborting.port.inFlight = some (.engine (.writeDestination 0) true) ∧ aborting.pe.session.isSome = true ∧
      aborting.pe.jobs = [⟨.stream 0 ⟨0, 0, 8, 4⟩, 0⟩] ∧ (aborting.pe.heldBurst.map (·.pixels)) = some 1 ∧
      (⟨.stream 0 ⟨0, 0, 8, 4⟩, 0⟩ : Job).isStream = true) :=
  ⟨nofun, ⟨rfl, by decide⟩, by decide, ⟨rfl, rfl, rfl, rfl⟩, rfl, rfl, rfl, rfl, rfl⟩

/-- The Pixel Engine on the tile, whose pixel (0, 0) is 5. -/
def engaged (e : Engine) : State := { furnished tile State.reset with pe := e, mem := [(0, 5)] }

/-- A COPY of the tile's pixel (0, 0) to its pixel (4, 0). -/
def oneCopied (key : Option Nat) : Job := ⟨.copy 0 0 ⟨0, 0, 1, 1⟩ 4 0 key, 0⟩

/-- A FILL of the tile's pixel (0, 0). -/
def oneFilled : Job := ⟨.fill 0 ⟨0, 0, 1, 1⟩ 5, 0⟩

theorem test_meets_EngineMovesInJobOrder :
    (State.reset.pe.session = none ∧ aborting.pe.session = some ⟨0, ⟨0, 0, 8, 4⟩, 32, 1, 0, true, some 3⟩ ∧
      ([9] : List Byte).drop 0 = aborting.pe.staging ∧ 8 * 0 ≤ 0 * (aborting.surface 0).format.bpp) ∧
    (let s := engaged { Engine.reset with jobs := [oneCopied none] }
     0 < s.readyPixels (oneCopied none).kind ∧ (oneCopied none).kind.sourcePixel 0 = some (0, 0, 0) ∧
       s.pe.source ≠ some (s.pixelBlock (0, 0, 0)) ∧ s.pe.heldBurst = none) ∧
    (let s := engaged { Engine.reset with jobs := [oneCopied none], heldBurst := some ⟨0, [], 0⟩ }
     s.pe.source ≠ some (s.pixelBlock (0, 0, 0)) ∧ (oneCopied none).kind.destinationPixel 0 = some (0, 4, 0) ∧
       s.pixelBlock (0, 4, 0) = 0) ∧
    (let s := engaged { Engine.reset with jobs := [oneFilled] }
     0 < s.readyPixels oneFilled.kind ∧ oneFilled.kind.sourcePixel 0 = none ∧ s.pe.heldBurst = none ∧
       oneFilled.kind.destinationPixel 0 = some (0, 0, 0)) ∧
    (let s := engaged { Engine.reset with jobs := [oneCopied (some 6)], source := some 0 }
     s.pe.source = some (s.pixelBlock (0, 0, 0)) ∧ s.jobValue (oneCopied (some 6)).kind 0 ≠ 6) ∧
    (let s := engaged { Engine.reset with jobs := [oneFilled], heldBurst := some ⟨0, [], 0⟩ }
     0 < s.readyPixels oneFilled.kind ∧ s.pixelBlock (0, 0, 0) = 0) ∧
    (let s := engaged { Engine.reset with jobs := [oneFilled], heldBurst := some ⟨0, [⟨0, 0xFF, 5⟩], 1⟩ }
     ¬ 0 + s.pe.heldPixels < s.readyPixels oneFilled.kind) ∧
    (let s := engaged { Engine.reset with jobs := [oneFilled], heldBurst := some ⟨64, [⟨64, 0xFF, 5⟩], 0⟩ }
     s.pixelBlock (0, 0, 0) ≠ 64) ∧
    (let k := JobKind.read 0 ⟨0, 0, 1, 1⟩ 3
     let s := engaged { Engine.reset with jobs := [⟨k, 0⟩], source := some 0 }
     0 < s.readyPixels k ∧ k.sourcePixel 0 = some (0, 0, 0) ∧ s.pe.source = some (s.pixelBlock (0, 0, 0))) ∧
    (let s := engaged { Engine.reset with jobs := [oneCopied (some 5)], source := some 0 }
     s.jobValue (oneCopied (some 5)).kind 0 = 5 ∧ s.pe.source = some (s.pixelBlock (0, 0, 0))) ∧
    (let s := engaged { Engine.reset with jobs := [oneCopied (some 5)], source := some 0, heldBurst := some ⟨0, [], 0⟩ }
     s.jobValue (oneCopied (some 5)).kind 0 = 5 ∧ s.pixelBlock (0, 4, 0) = 0) ∧
    (let s := engaged { Engine.reset with jobs := [oneCopied (some 5)], source := some 0, heldBurst := some ⟨0, [], 1⟩ }
     ¬ 0 + s.pe.heldPixels < s.readyPixels (oneCopied (some 5)).kind ∧
       s.engineMove (oneCopied (some 5)) [] =
         .go { s.pe with heldBurst := none, jobs := [{ oneCopied (some 5) with progress := 1 }] }) ∧
    (let s := engaged { Engine.reset with jobs := [⟨.fence 3, 0⟩] }
     ¬ 0 < s.readyPixels (.fence 3) ∧ s.pe.heldBurst = none) ∧
    (¬ 0 < (uploading State.reset).readyPixels (.stream 0 ⟨0, 0, 8, 4⟩)) := by decide +kernel

theorem test_meets_CompletionAndRelease :
    (∀ j ∈ [oneFilled, oneCopied none, ⟨.read 0 ⟨0, 0, 1, 1⟩ 3, 1⟩, ⟨.fence 3, 0⟩],
      (engaged { Engine.reset with jobs := [j] }).pe.jobs = [j]) ∧
    (uploading State.reset).pe.session.isSome = true ∧
    (uploading State.reset).pe.jobs = [⟨.stream 0 ⟨0, 0, 8, 4⟩, 0⟩] ∧
    ((uploading State.reset).surface 0).state = .filling ∧ ((uploading State.reset).surface 1).state = .ready := by
  decide +kernel

/-- An output whose half A waits for two bursts. -/
def wanting : OutputUnit :=
  { unit .running .showing none with
    halfA := { fetchingLine0 with areas := [⟨.cursor, 0, 1, 0, 0, 64, [], false⟩], todo := [⟨0, 4096⟩, ⟨0, 4160⟩] } }

theorem test_meets_SettlingAndTheArbiter :
    let waiting := { State.reset with pe := { Engine.reset with request := some (.readSource 0) } }
    let free (s : State) : Prop := s.pe.stopped = false ∧ s.pe.request = none ∧ s.engineBurstLive = false
    let filling := engaged { Engine.reset with jobs := [oneFilled], heldBurst := some ⟨0, [], 0⟩ }
    let fenced := engaged { Engine.reset with jobs := [⟨.fence 3, 0⟩] }
    (free (engaged { Engine.reset with jobs := [oneFilled] }) ∧
      (engaged { Engine.reset with jobs := [oneFilled] }).engineMove oneFilled [] = .ask (.readDestination 0)) ∧
    (free filling ∧ filling.engineMove oneFilled [] = .go { filling.pe with heldBurst := some ⟨0, [⟨0, 0xFF, 5⟩], 1⟩ }) ∧
    (free fenced ∧ fenced.engineMove ⟨.fence 3, 0⟩ [] = .finish) ∧
    (free (uploading State.reset) ∧
      (uploading State.reset).engineMove ⟨.stream 0 ⟨0, 0, 8, 4⟩, 0⟩ [] = .wait) ∧
    EngineRestLaw State.reset ∧ PortLaw State.reset ∧
    (granted (.engine (.readSource 0) true) State.reset).port.inFlight ≠ none ∧ State.reset.port.inFlight = none ∧
    wanting.fetchRequest = some ⟨0, 4096⟩ ∧ State.reset.ou0.fetchRequest = none ∧ State.reset.ou1.fetchRequest = none ∧
    waiting.pe.request = some (.readSource 0) ∧ State.reset.pe.request = none := by
  refine ⟨by decide +kernel, by decide +kernel, by decide +kernel, by decide +kernel, Or.inr (Or.inr (Or.inr trivial)), ?_⟩
  simp only [PortLaw]; decide +kernel

theorem test_meets_SetOutput :
    Taking (framed 7 [0x30, 1, 255, 0, 5, 0, 4, 0, 0, 1, 0, 0, 4, 255, 0, 1, 1, 1, 1, 1, 1, 1, 255, 255]) 7 0x30
      [1, 255, 0, 5, 0, 4, 0, 0, 1, 0, 0, 4, 255, 0, 1, 1, 1, 1, 1, 1, 1, 255, 255] := taking_of (by decide)

theorem test_meets_StartAndStopOutput :
    Taking (framed 7 [0x31, 1]) 7 0x31 [1] ∧ Taking (framed 7 [0x32, 1]) 7 0x32 [1] :=
  ⟨taking_of (by decide), taking_of (by decide)⟩

theorem test_meets_WaitExpiries :
    (granted (.fetch .out0 ⟨0, 64⟩ true) State.reset).port.inFlight = some (.fetch .out0 ⟨0, 64⟩ true) ∧
      ∀ o b live, State.reset.port.inFlight ≠ some (.fetch o b live) := ⟨rfl, nofun⟩

theorem test_meets_FrameStart :
    (unit .powerUp .powerWait (some 0)).timingRuns = false ∧ (unit .powerDown .supplyWait (some 0)).timingRuns = false ∧
      (unit .powerUp .clockWait (some 0)).step = .clockWait ∧
      (unit .powerDown .backlightWait (some 0)).step = .backlightWait ∧ (unit .running .showing none).state = .running ∧
      (unit .ending .showing none).state = .ending ∧ (unit .ending .showing none).step = .showing ∧
      tight.frameLines = 10 ∧ (atLastLine State.reset).ou0.scanLine = 9 ∧
      ¬ tight.frameLines ≤ (unit .running .showing none).scanLine + 1 := by decide

theorem test_meets_GetOutputAndSetPalette :
    Taking (framed 7 [0x33, 1]) 7 0x33 [1] ∧ Taking (framed 7 [0x34, 1, 255, 1, 0, 9, 8, 7]) 7 0x34 [1, 255, 1, 0, 9, 8, 7] ∧
      PaletteLaw (framed 7 [0x34, 1, 255, 1, 0, 9, 8, 7]) :=
  ⟨taking_of (by decide), taking_of (by decide), by simp only [PaletteLaw, paletteLawful]; decide +kernel⟩

theorem test_meets_OutputPins :
    State.reset.ou0.timingRuns = false ∧ (showing State.reset).ou0.timingRuns = true ∧
      (showing State.reset).ou0.driven = none ∧
      ({ unit .running .showing none with driven := some [.black] } : OutputUnit).driven = some [.black] ∧
      0 < [Colour.black].length ∧ [Colour.black].length ≤ 1 := by decide

/-- An interlaced timing set at the upper ends of its ranges. -/
def wide : Timing :=
  { Timing.zero with divider := 255, hactive := 1280, hblank := 1024, hsyncOffset := 0, hsyncWidth := 1024, vactive := 1024,
                     vblank := 255, vsyncOffset := 254, vsyncWidth := 1, interlace := true, flicker := true, tPwr := 255,
                     tClk := 255 }

theorem test_meets_FrameGeometryAndFetchTimes :
    tight.inRange ∧ wide.inRange ∧ tight.lineKind 2 = .active 0 ∧ tight.lineKind 1 = .blank ∧ 9 < tight.frameLines ∧
      tight.lineKind 9 = .active 7 ∧ tight.lineKind 8 = .active 6 ∧ tight.fetchAt 0 = some 0 ∧ tight.fetchAt 8 = some 7 := by
  simp only [Timing.inRange]; decide

theorem test_meets_FetchReadsWhatTheLineNeeds :
    let b : Binding := ⟨1, .black, .black⟩
    let l : Layer := ⟨0, ⟨0, 0, 8, 4⟩, -7, 0, .opaqueMode, none, none⟩
    let p := { Presentation.reset with
      binding := some b, position := ⟨15, 0, true⟩, current := some ⟨.out0, .black, [l], 1, 8⟩ }
    (lineAreas p tight 0).map (fun a => (a.owner, a.first, a.count)) = [(.cursor, 0, 64), (.layer 0, 7, 1)] ∧
      lineAreas p tight 4 = [⟨.cursor, 4, 1, 4, 0, 64, [], false⟩] ∧
      (unit .running .showing none).halfA.condition = .free ∧ wanting.halfA.condition ≠ .free ∧
      wanting.halfB.condition = .free ∧ (unit .running .showing none).halfB.condition = .free := by decide

theorem test_meets_FetchBurstCompletes :
    (∀ o b live, State.reset.port.inFlight ≠ some (.fetch o b live)) ∧
      (granted (.fetch .out1 ⟨0, 2097088⟩ true) State.reset).port.inFlight = some (.fetch .out1 ⟨0, 2097088⟩ true) ∧
      2097088 < 2097152 := ⟨nofun, rfl, by decide⟩

theorem test_meets_LineStart :
    let due (u : OutputUnit) : Prop :=
      u.timing.interlace = true ∧ u.scanLine = u.timing.vblank + 1 + u.timing.vactive / 2 ∧ u.field = .top
    State.reset.ou0.timingRuns = false ∧ (showing State.reset).ou0.timingRuns = true ∧ ¬ due (showing State.reset).ou0 ∧
      (showing State.reset).ou0.scanLine + 1 < tight.frameLines ∧
      tight.frameLines ≤ (atLastLine State.reset).ou0.scanLine + 1 ∧ ¬ due (atLastLine State.reset).ou0 ∧
      (atFieldStart State.reset).ou1.timingRuns = true ∧ due (atFieldStart State.reset).ou1 ∧
      ¬ due { (atFieldStart State.reset).ou1 with scanLine := 6 } ∧
      ¬ due { (atFieldStart State.reset).ou1 with field := .bottom } ∧
      (∀ complete ∈ [true, false], (beforeCursorLine complete).ou0.timingRuns = true ∧
        ¬ due (beforeCursorLine complete).ou0 ∧ tight.lineKind 2 = .active 0 ∧
        (beforeCursorLine complete).ou0.halfA.condition ≠ .fetching ∧
        (beforeCursorLine complete).ou0.halfB.condition = .fetching ∧
        (beforeCursorLine complete).ou0.halfB.areas.map (·.complete) = [complete]) := by decide

theorem test_meets_DrivenLine : tight.flicker = false ∧ wide.flicker = true ∧ 1279 < wide.hactive := by decide

theorem test_meets_ComposedPixel :
    let l : Layer := ⟨0, ⟨0, 0, 8, 4⟩, 0, 0, .opaqueMode, some 15, some (.black, .black)⟩
    State.reset.pres0.current = none ∧
      ({ Presentation.reset with current := some ⟨.out0, .black, [l], 1, 8⟩ } : Presentation).current.isSome = true ∧
      l.bank = some 15 ∧ l.pair = some (.black, .black) := by decide

theorem test_meets_Rgb16Widening : 31 < 32 ∧ 63 < 64 ∧ rgb16Colour (31 * 2048 + 63 * 32 + 31) = ⟨255, 255, 255⟩ := by decide

/-- Two layer entries, the second with every field an entry can have. -/
def twoEntries : List Byte :=
  [0, 0, 0, 0, 0, 8, 0, 4, 0, 0, 0, 0, 0, 0, 0, 0] ++ [63, 0, 0, 0, 0, 8, 0, 4, 0, 0, 0, 0, 0, 1, 1, 1] ++
    [1, 2, 3] ++ [15] ++ [1, 2, 3, 4, 5, 6]

theorem test_meets_Present :
    ((walkLayers 2 twoEntries).map fun ls => ls.map (·.surface)) = some [0, 63] ∧
      Taking (framed 7 ([0x40, 0, 0, 1, 2, 3, 2] ++ twoEntries)) 7 0x40 ([0, 0, 1, 2, 3, 2] ++ twoEntries) :=
  ⟨by decide, taking_of (by decide)⟩

theorem test_meets_SetCursor :
    Taking (framed 7 [0x41, 1, 0xFF, 1, 2, 3, 4, 5, 6]) 7 0x41 [1, 0xFF, 1, 2, 3, 4, 5, 6] := taking_of (by decide)

theorem test_meets_MoveCursor :
    Taking (framed 7 [0x42, 1, 0xC1, 0xFF, 0xFF, 0x07, 1]) 7 0x42 [1, 0xC1, 0xFF, 0xFF, 0x07, 1] := taking_of (by decide)

theorem test_meets_SetBudget :
    Taking (framed 7 [0x43, 9]) 7 0x43 [9] ∧ OutputLaw (framed 7 [0x43, 9]) ∧ BudgetLaw (framed 7 [0x43, 9]) := by
  refine ⟨taking_of (by decide), ?_, by simp only [BudgetLaw, reservedLawful]; decide +kernel⟩
  simp only [OutputLaw, outputLawful]
  exact ⟨⟨⟨rfl, rfl⟩, nofun, fun _ => ⟨rfl, rfl⟩, fun _ => ⟨rfl, rfl⟩, fun _ => rfl, nofun⟩,
    ⟨⟨rfl, rfl⟩, nofun, fun _ => ⟨rfl, rfl⟩, nofun, fun _ => rfl, nofun⟩⟩

theorem test_meets_TakeAndRelease :
    (atWork.surface 1).state = .ready ∧ State.reset.pres0.queue = [] ∧ State.reset.pres0.pendingBinding = .noChange ∧
      ({ Presentation.reset with queue := [⟨.out0, .black, [], 65535, 0⟩] } : Presentation).queue =
        [⟨.out0, .black, [], 65535, 0⟩] ∧ ([] : List Nat).count 63 = 0 ∧ 63 < State.reset.surfaces.length := by
  decide +kernel

/-- The Notice Queue with its fifteen ordinary entries full, all sent. -/
def fullNotices (marker : List NoticeEntry) : State :=
  { State.reset with
    notices := ((List.range 15).map fun i => ⟨.surfaceFreed i 0 1, i, true⟩) ++ marker, nextNotice := 20 }

theorem test_meets_RaisingANotice :
    let same (n : Notice) (e : NoticeEntry) : Bool := !e.sent && decide (e.notice.key = n.key)
    let ordinary (s : State) := s.notices.filter fun e => !e.notice.isMarker
    State.reset.notices.any (same (.ready .pin)) = true ∧
    State.reset.notices.any (same (.linkDrop 1 2)) = false ∧ (ordinary State.reset).length < 15 ∧
    ((fullNotices []).notices.any (same (.linkDrop 1 2)) = false ∧ 15 ≤ (ordinary (fullNotices [])).length ∧
      (fullNotices []).notices = ordinary (fullNotices [])) ∧
    (∀ sent ∈ [true, false], (fullNotices [⟨.overflow 65535 5, 15, sent⟩]).notices =
        (fullNotices []).notices ++ ⟨.overflow 65535 5, 15, sent⟩ :: [] ∧
      ordinary (fullNotices [⟨.overflow 65535 5, 15, sent⟩]) = (fullNotices []).notices ++ []) ∧
    (List.range 255).length < 256 ∧ nextSeqAfter (List.range 255) 254 = 255 := by decide +kernel

theorem test_meets_AckNotices :
    let s := { framed 7 [0x50, 255] with
      notices := [⟨.linkDrop 1 2, 254, true⟩, ⟨.ready .pin, 255, true⟩, ⟨.ready .pin, 0, false⟩] }
    (Taking s 7 0x50 [255] ∧ NoticeLaw s ∧ s.notices = [⟨.linkDrop 1 2, 254, true⟩] ++ ⟨.ready .pin, 255, true⟩ ::
      [⟨.ready .pin, 0, false⟩]) ∧
    (Taking (framed 7 [0x50, 0]) 7 0x50 [0] ∧ NoticeLaw (framed 7 [0x50, 0]) ∧
      ∀ e ∈ (framed 7 [0x50, 0]).notices, e.seq = 0 → e.sent = false) ∧
    Taking (framed 7 [0x50]) 7 0x50 [] ∧ NoticeLaw (framed 7 [0x50]) := by
  refine ⟨⟨taking_of (by decide), by simp only [NoticeLaw]; decide, rfl⟩,
    ⟨taking_of (by decide), by simp only [NoticeLaw]; decide, by decide⟩, taking_of (by decide),
    by simp only [NoticeLaw]; decide⟩

theorem test_meets_ResendNotices :
    let s := { framed 7 [0x51] with notices := [⟨.linkDrop 200 1, 0, true⟩, ⟨.linkDrop 100 2, 1, false⟩] }
    Taking s 7 0x51 [] ∧ s.notices = [] ++ ⟨.linkDrop 200 1, 0, true⟩ :: [⟨.linkDrop 100 2, 1, false⟩] ∧
      (⟨.linkDrop 300 1, 0, true⟩ : NoticeEntry).notice.key ∉ ([] : List NoticeEntry).map (·.notice.key) :=
  ⟨taking_of (by decide), rfl, by decide⟩

/-- The receiver with these bytes held. -/
def receiving (phase : ReceiverPhase) (bytes : List Byte) : State := { State.reset with rx := ⟨phase, bytes⟩ }

theorem test_meets_ReceiverByByte :
    let good := (linkFrame 0x01 9 0 []).drop 1
    let badKind := (linkFrame 0x02 9 0 []).drop 1
    State.reset.inReset = false ∧ State.reset.wire.bits = [] ∧ State.reset.linkMode ≠ none ∧
    (asUart State.reset).linkMode ≠ none ∧ State.reset.rx.phase = .hunt ∧
    (arg16 [0, 4] 0 = 1024 ∧ arg16 [1, 4] 0 = 1025 ∧ (receiving .header [0]).rx.phase = .header) ∧
    (receiving .body [1, 0, 1, 9, 0]).rx.phase = .body ∧
    ((receiving .check [0, 0, 1, 9, 0]).rx.phase = .check ∧ ([0, 0, 1, 9, 0, 7] : List Byte).length < 7 + 0) ∧
    (good.length = 7 ∧ arg16 good 0 = 0 ∧ crcField (good.take 5) = good.drop 5 ∧ good.getD 2 0 = 0x01) ∧
    (crcField (badKind.take 5) = badKind.drop 5 ∧ badKind.getD 2 0 ≠ 0x01) ∧
    crcField ((List.replicate 7 (0 : Byte)).take 5) ≠ (List.replicate 7 0).drop 5 ∧
    State.reset.slots.getD 0 none = none ∧
    (∀ i < 6, ({ State.reset with slots := List.replicate 6 (some ⟨1, []⟩) } : State).slots.getD i none ≠ none) ∧
    ({ State.reset with slots := List.replicate 5 (some ⟨1, []⟩) ++ [none] } : State).slots.getD 5 none = none := by
  decide +kernel

theorem test_meets_RequestFramesArriveWhole :
    State.reset.inReset = false ∧ State.reset.rx = ⟨.hunt, []⟩ ∧ State.reset.wire.bits = [] ∧
      State.reset.linkMode ≠ none ∧ (asUart State.reset).linkMode ≠ none ∧ ([] : List Byte).length ≤ 1024 ∧
      (List.replicate 1024 (0 : Byte)).length ≤ 1024 ∧ State.reset.slots.getD 0 none = none ∧
      (∀ i < 6, ({ State.reset with slots := List.replicate 6 (some ⟨1, []⟩) } : State).slots.getD i none ≠ none) ∧
      ({ State.reset with inReset := true } : State).inReset = true ∧ ∃ t, exec (.receivedByte (.whole 0xA5)) State.reset = .next t :=
  ⟨rfl, rfl, rfl, by decide, by decide, by decide, by decide +kernel, rfl, by decide, rfl, ⟨_, rfl⟩⟩

theorem test_meets_TransmitterAndAttention :
    State.reset.tx = none ∧ ({ State.reset with replies := [⟨1, []⟩] } : State).replies = ⟨1, []⟩ :: [] ∧
      ({ State.reset with held := some (.reset 1) } : State).draining = true ∧
      State.reset.replies = [] ∧ State.reset.draining = false ∧ State.reset.inReset = false ∧
      State.reset.notices = [] ++ ⟨.ready .powerOn, 0, false⟩ :: [] ∧
      (asUart State.reset).linkMode = some (.uart 1) ∧ State.reset.linkMode = some .spi ∧
      (asTarget [] (some ⟨true, [1, 2], 0⟩)).tx = some ⟨true, [1, 2], 0⟩ ∧ 0 + 1 < ([1, 2] : List Byte).length ∧
      ¬ 1 + 1 < ([1, 2] : List Byte).length ∧ State.reset.attnPin = false := by decide

theorem test_meets_Resets :
    let drained (s : State) : State := { s with held := some (.reset 7) }
    (let s := drained (asTarget [] none)
     s.draining = true ∧ s.replies = [] ∧ s.tx = none ∧ s.linkMode = some .spi ∧ s.wire.selected = true ∧
       s.wire.bits = [] ∧ s.inReset = false) ∧
    (let s := drained (asTarget [true] none)
     s.draining = true ∧ s.replies = [] ∧ s.tx = none ∧ s.wire.bits ≠ []) ∧
    (drained { asTarget [] none with wire := ⟨true, [], false, true, false⟩ }).wire.sckHigh = true ∧
    (drained { asUart State.reset with tx := none }).linkMode = some (.uart 1) ∧
    ¬ (State.reset.draining = true) ∧ State.reset.inReset = false ∧
    ({ State.reset with inReset := true } : State).inReset = true := by decide

theorem test_meets_CharactersAndExchanges :
    (asUart State.reset).linkMode = some (.uart 1) ∧ State.reset.linkMode = some .spi ∧ State.reset.inReset = false ∧
      State.reset.wire.bits = [] ∧ State.reset.wire.awaitsHigh = false ∧ State.reset.wire.selected = false ∧
      (asTarget [] none).wire.selected = true ∧ (asTarget [] none).wire.bits = [] ∧
      (List.replicate 8 false).length = 8 ∧ (List.replicate 7 true).length < 8 ∧
      (asTarget [true] none).wire.bits ≠ [] ∧ (asTarget (List.replicate 7 true) none).wire.bits.length = 7 ∧
      (asTarget [] none).wire.sckHigh = false ∧
      (let s := { State.reset with wire := ⟨true, [true], false, true, false⟩ }
       s.wire.selected = true ∧ s.wire.sckHigh = true ∧ s.wire.bits.length < 8) ∧
      ({ State.reset with wire := ⟨true, [], false, true, false⟩ } : State).wire.bits = [] ∧
      ({ State.reset with linkMode := none } : State).linkMode = none ∧
      ({ State.reset with inReset := true } : State).inReset = true ∧
      (asUart { State.reset with tx := some ⟨true, [1], 0⟩ }).tx = some ⟨true, [1], 0⟩ ∧
      9 < 10 * ([1] : List Byte).length ∧ ¬ 10 < 10 * ([1] : List Byte).length := by decide

end Sys2Proof.Tests
end

