-- ==== Sys2Proof/Proofs/AnswerByChecks.lean ====
section
/-! SUPPORT. What the Request Handler does with an owner's answer, and how a rule's table of checks is read row by row. -/

namespace Sys2Proof.Machine

/-! ### Dealing with an owner's answer (R168) -/

/-- R168: what the Request Handler does with the result of a request body. -/
def dealtWith (seq code : Byte) : State × Answer → State
  | (t, .reply st fields) => finishRequest seq (replyPayload code st fields) t
  | (t, .deferred) => releaseHead t
  | (t, .heldInSlot) => t

theorem executeRequest_eq_dealtWith (body : RequestBody) (seq code : Byte) (args : List Byte) (s : State) :
    executeRequest body seq code args s = dealtWith seq code (body seq code args s) := by
  unfold executeRequest
  rcases body seq code args s with ⟨t, _ | _ | _⟩ <;> rfl

/-- R168: a request row that takes a new request answers by what is done with its body's result. -/
theorem exec_of_dealtWith {i : Instr} {names : Byte → Bool} {body : RequestBody} {after : State → State}
    {seq code : Byte} {args : List Byte} {s t : State} (hrow : exec i s = .next (takeRequest names body after s))
    (h : Taking s seq code args) (hn : names code = true) (ht : dealtWith seq code (body seq code args s) = t) :
    exec i s = .next (after t) := by
  rw [hrow, takeRequest_taking body after h hn, executeRequest_eq_dealtWith, ht]

theorem Taking.headFrame_isSome {s : State} {seq code : Byte} {args : List Byte} (h : Taking s seq code args) :
    s.headFrame.isSome = true := by
  obtain ⟨_, hframe, _, _⟩ := h
  rw [hframe]
  rfl

/-- R168: a reply of the owner is queued and cached, and the slot released. -/
theorem dealtWith_reply {t : State} (seq code : Byte) (st : Status) (fields : List Byte)
    (ht : t.headFrame.isSome = true) :
    dealtWith seq code (t, .reply st fields) = answered seq (code :: st.code :: fields) t :=
  releaseHead_eq (s := pushReply seq (replyPayload code st fields) t) ht

/-- R173: a deferred request holds a pending-reply entry, and its slot is released. -/
theorem dealtWith_bindPending {t : State} (seq code : Byte) (owner : Block) (ref : PendingRef)
    (ht : t.headFrame.isSome = true) :
    dealtWith seq code (bindPending seq code owner ref t, .deferred) = boundTo seq code owner ref t :=
  releaseHead_eq (s := bindPending seq code owner ref t) ht

/-! ### Tables of checks (R176) -/

@[simp] theorem answerBy_nil (seq code : Byte) (s done : State) : answerBy seq code [] s done = done := rfl

/-- R176: a check that fails gives the answer. -/
@[simp] theorem answerBy_cons_true (seq code : Byte) (st : Status) (checks : List (Bool × Status)) (s done : State) :
    answerBy seq code ((true, st) :: checks) s done = answered seq [code, st.code] s := rfl

/-- R176: a check that passes leaves the answer to the checks after it. -/
@[simp] theorem answerBy_cons_false (seq code : Byte) (st : Status) (checks : List (Bool × Status)) (s done : State) :
    answerBy seq code ((false, st) :: checks) s done = answerBy seq code checks s done := rfl

/-- R176: a body that begins with a check is answered by a table that begins with its row. -/
theorem dealtWith_check {s : State} {seq code : Byte} {c : Prop} [Decidable c] {st : Status} {rest : State × Answer}
    {checks : List (Bool × Status)} {done : State} (hs : s.headFrame.isSome = true)
    (hrest : ¬ c → dealtWith seq code rest = answerBy seq code checks s done) :
    dealtWith seq code (if c then refuse st s else rest) =
      answerBy seq code ((decide c, st) :: checks) s done := by
  by_cases hc : c
  · rw [if_pos hc, decide_eq_true hc, answerBy_cons_true]
    exact dealtWith_reply seq code st [] hs
  · rw [if_neg hc, decide_eq_false hc, answerBy_cons_false]
    exact hrest hc

/-- R11: a body behind the surface checks is answered by a table that begins with them. -/
theorem dealtWith_withSurface {s : State} {seq code : Byte} {args : List Byte} {rest : Nat → Surface → State × Answer}
    {checks : List (Bool × Status)} {done : State} (hs : s.headFrame.isSome = true)
    (hrest : dealtWith seq code (rest (arg8 args 0) (s.surface (arg8 args 0))) = answerBy seq code checks s done) :
    dealtWith seq code (withSurface args s rest) = answerBy seq code (surfaceChecks args s ++ checks) s done :=
  dealtWith_check hs fun _ => dealtWith_check hs fun _ => dealtWith_check hs fun _ => hrest

end Sys2Proof.Machine
end

