-- ==== Sys2Proof/Proofs/SurfaceState.lean ====
section
/-! PROOF. SEAL_SURFACE, REOPEN_SURFACE and GET_SURFACE (R17 to R20). -/

namespace Sys2Proof.Machine

/-- R17, R47: the open session's destination. -/
theorem sessionOn_iff (s : State) (id : Nat) : s.sessionOn id = true ↔ s.pe.session.map (·.dst) = some id := by
  unfold State.sessionOn
  cases s.pe.session <;> simp

/-- R173: no entry is free exactly when the table is full. -/
theorem not_pendingFree (s : State) : (!s.pendingFree) = tableFull s :=
  decide_not.symm.trans (decide_eq_decide.2 Nat.not_lt)

/-- R17, R18: the checks of a seal, and what it does. -/
theorem dealtWith_seal {s : State} (seq code : Byte) (args : List Byte) (hs : s.headFrame.isSome = true) :
    let id := arg8 args 0
    let r := s.surface id
    dealtWith seq code (sealBody seq code args s) = answerBy seq code
      (surfaceChecks args s ++
        [(decide (r.state ≠ .filling), .wrongState), (decide (s.pe.session.map (·.dst) = some id), .sessionOpen),
         (decide (r.writers ≠ 0) && tableFull s, .busy)]) s
      (if r.writers = 0 then answered seq [code, 0x00] (s.setSurface id { r with state := .ready })
       else boundTo seq code .surfaceManager (.seal id)
         (s.setSurface id { r with state := .sealing, sealPending := true })) := by
  intro id r
  simp only [← sessionOn_iff]
  refine dealtWith_withSurface hs (dealtWith_check hs fun _ => dealtWith_check hs fun _ => ?_)
  by_cases hw : r.writers = 0
  · rw [if_pos hw, if_pos hw, decide_eq_false (not_not.2 hw), Bool.false_and, answerBy_cons_false, answerBy_nil]
    exact dealtWith_reply seq code .ok [] hs
  · rw [if_neg hw, if_neg hw, decide_eq_true hw, Bool.true_and, not_pendingFree]
    have hfull := dealtWith_check (c := tableFull s = true) (st := .busy) (checks := []) hs
      fun _ => dealtWith_bindPending (t := s.setSurface id { r with state := .sealing, sealPending := true }) seq code
        .surfaceManager (.seal id) hs
    rwa [Bool.decide_eq_true] at hfull

/-- R19: the checks of a reopen, and what it does. -/
theorem dealtWith_reopen {s : State} (seq code : Byte) (args : List Byte) (hs : s.headFrame.isSome = true) :
    let id := arg8 args 0
    let r := s.surface id
    dealtWith seq code (reopenBody seq code args s) = answerBy seq code
      (surfaceChecks args s ++
        [(decide (r.state ≠ .ready), .wrongState), (decide (r.scanRefs ≠ 0 ∨ r.jobRefs ≠ 0), .busy)]) s
      (answered seq [code, 0x00] (s.setSurface id { r with state := .filling })) := by
  intro id r
  have huse : (r.scanRefs ≠ 0 ∨ r.jobRefs ≠ 0) ↔ ¬ (r.scanRefs = 0 ∧ r.jobRefs = 0) := not_and_or.symm
  refine dealtWith_withSurface hs (dealtWith_check hs fun _ => ?_)
  rw [← ite_not]
  simp only [huse]
  exact dealtWith_check hs fun _ => dealtWith_reply seq code .ok [] hs

/-- R20: a GET_SURFACE has no checks of its own, and reports the record. -/
theorem dealtWith_getSurface {s : State} (seq code : Byte) (args : List Byte) (hs : s.headFrame.isSome = true) :
    dealtWith seq code (getSurfaceBody seq code args s) = answerBy seq code (surfaceChecks args s) s
      (answered seq ([code, 0x00] ++ surfaceFields (s.surface (arg8 args 0))) s) :=
  dealtWith_withSurface (checks := []) hs (dealtWith_reply seq code .ok _ hs)

/-- Settles O21, from what is done with the result of each row's body. -/
theorem sealReopenAndGetSurface : Obligations.SealReopenAndGetSurface := by
  unfold Obligations.SealReopenAndGetSurface
  refine ⟨fun s seq args h => ?_, fun s seq args => ⟨fun h => ?_, fun h => ?_⟩⟩
  · exact exec_of_dealtWith (body := sealBody) (after := id) rfl h rfl (dealtWith_seal seq 0x12 args h.headFrame_isSome)
  · exact exec_of_dealtWith (body := reopenBody) (after := id) rfl h rfl
      (dealtWith_reopen seq 0x13 args h.headFrame_isSome)
  · exact exec_of_dealtWith (body := getSurfaceBody) (after := id) rfl h rfl
      (dealtWith_getSurface seq 0x14 args h.headFrame_isSome)

end Sys2Proof.Machine
end

