-- ==== Sys2Proof/Proofs/MemoryMap.lean ====
section
/-! PROOF. The runs of the Granule Map and GET_MEMORY_MAP (R5, R21). -/

namespace Sys2Proof.Machine

/-! ### The runs of a map (R5) -/

/-- R5: one more granule in front either begins a run of its own or joins the first run, whose owner it has. -/
theorem runsFrom_cons (start : Nat) (g : Option Nat) (gs : List (Option Nat)) :
    (runsFrom start (g :: gs) = ⟨start, 1, g⟩ :: runsFrom (start + 1) gs ∧
        ∀ r ∈ (runsFrom (start + 1) gs).head?, g ≠ r.owner) ∨
      ∃ r rs, runsFrom (start + 1) gs = r :: rs ∧ r.owner = g ∧
        runsFrom start (g :: gs) = ⟨start, r.length + 1, g⟩ :: rs := by
  rw [runsFrom]
  cases hruns : runsFrom (start + 1) gs with
  | nil => exact .inl ⟨rfl, by simp⟩
  | cons r rs =>
    by_cases howner : r.owner = g
    · exact .inr ⟨r, rs, rfl, howner, if_pos howner⟩
    · exact .inl ⟨if_neg howner, by simpa using Ne.symm howner⟩

/-- The granules of a list of runs laid end to end. -/
def granulesOfRuns (runs : List Run) : List (Option Nat) := (runs.map fun r => List.replicate r.length r.owner).flatten

@[simp] theorem granulesOfRuns_cons (r : Run) (rs : List Run) :
    granulesOfRuns (r :: rs) = List.replicate r.length r.owner ++ granulesOfRuns rs := rfl

/-- R21: the runs of a map, laid end to end, are the map. -/
theorem granulesOfRuns_runsFrom (start : Nat) (gs : List (Option Nat)) : granulesOfRuns (runsFrom start gs) = gs := by
  induction gs generalizing start with
  | nil => rfl
  | cons g gs ih =>
    have htail := ih (start + 1)
    obtain ⟨hruns, _⟩ | ⟨r, rs, hrest, howner, hruns⟩ := runsFrom_cons start g gs
    · rw [hruns, granulesOfRuns_cons, htail]
      rfl
    · rw [hrest, granulesOfRuns_cons, howner] at htail
      rw [hruns, granulesOfRuns_cons, List.replicate_succ, List.cons_append, htail]

/-- R5: neighbouring runs have different owners: the runs are maximal. -/
theorem runsFrom_isChain (start : Nat) (gs : List (Option Nat)) :
    (runsFrom start gs).IsChain fun r q => r.owner ≠ q.owner := by
  induction gs generalizing start with
  | nil => exact .nil
  | cons g gs ih =>
    have htail := ih (start + 1)
    obtain ⟨hruns, hne⟩ | ⟨r, rs, hrest, howner, hruns⟩ := runsFrom_cons start g gs
    · rw [hruns]
      exact List.isChain_cons.2 ⟨hne, htail⟩
    · rw [hrest, List.isChain_cons, howner] at htail
      rw [hruns]
      exact List.isChain_cons.2 htail

/-- Runs laid end to end from a granule on, none of them empty. -/
def laidFrom : Nat → List Run → Prop
  | _, [] => True
  | start, r :: rs => r.start = start ∧ 1 ≤ r.length ∧ laidFrom (start + r.length) rs

/-- R21: the runs of a map lie end to end from its first granule on. -/
theorem runsFrom_laidFrom (start : Nat) (gs : List (Option Nat)) : laidFrom start (runsFrom start gs) := by
  induction gs generalizing start with
  | nil => trivial
  | cons g gs ih =>
    have htail := ih (start + 1)
    obtain ⟨hruns, _⟩ | ⟨r, rs, hrest, _, hruns⟩ := runsFrom_cons start g gs
    · rw [hruns]
      exact ⟨rfl, le_rfl, htail⟩
    · rw [hrest] at htail
      obtain ⟨_, _, hlaid⟩ := htail
      rw [hruns]
      exact ⟨rfl, Nat.le_add_left 1 r.length, by rwa [Nat.add_right_comm] at hlaid⟩

/-- Each run laid end to end starts where the lengths before it end. -/
theorem laidFrom_getElem? {start i : Nat} {runs : List Run} {r : Run} (h : laidFrom start runs) (hr : runs[i]? = some r) :
    1 ≤ r.length ∧ r.start = start + ((runs.take i).map (·.length)).sum := by
  induction runs generalizing start i with
  | nil => cases hr
  | cons q qs ih =>
    obtain ⟨hstart, hlength, hlaid⟩ := h
    cases i with
    | zero =>
      cases hr
      exact ⟨hlength, hstart⟩
    | succ i =>
      obtain ⟨hpos, hsum⟩ := ih hlaid hr
      exact ⟨hpos, by rw [hsum, List.take_succ_cons, List.map_cons, List.sum_cons, Nat.add_assoc]⟩

/-- Every run starts at or after the granule the runs are laid from, and its first granule has its owner. -/
theorem laidFrom_first_granule {start : Nat} {runs : List Run} {r : Run} (h : laidFrom start runs) (hr : r ∈ runs) :
    start ≤ r.start ∧ (granulesOfRuns runs)[r.start - start]? = some r.owner := by
  induction runs generalizing start with
  | nil => cases hr
  | cons q qs ih =>
    obtain ⟨hstart, hlength, hlaid⟩ := h
    rw [granulesOfRuns_cons]
    cases hr with
    | head =>
      refine ⟨hstart.ge, ?_⟩
      rw [List.getElem?_append_left (by simp; omega), List.getElem?_replicate, if_pos (by omega)]
    | tail _ hr =>
      obtain ⟨hle, hgranule⟩ := ih hlaid hr
      refine ⟨by omega, ?_⟩
      rw [List.getElem?_append_right (by simp; omega), List.length_replicate, ← hgranule]
      congr 1
      omega

/-- Runs laid end to end start in ascending order. -/
theorem laidFrom_pairwise_start {start : Nat} {runs : List Run} (h : laidFrom start runs) :
    runs.Pairwise fun r q => r.start < q.start := by
  induction runs generalizing start with
  | nil => exact .nil
  | cons r rs ih =>
    obtain ⟨hstart, hlength, hlaid⟩ := h
    refine .cons (fun q hq => ?_) (ih hlaid)
    have := (laidFrom_first_granule hlaid hq).1
    omega

theorem runs_first_granule {s : State} {r : Run} (hr : r ∈ s.runs) : s.granules[r.start]? = some r.owner := by
  have hgranule := (laidFrom_first_granule (runsFrom_laidFrom 0 s.granules) hr).2
  rwa [granulesOfRuns_runsFrom] at hgranule

/-! ### How many runs there are (R21) -/

/-- Where neighbours differ in `f`, at most every other element has no value. -/
theorem length_le_of_isChain_ne {α β : Type} (f : α → Option β) :
    ∀ l : List α, l.IsChain (fun a b => f a ≠ f b) → l.length ≤ 2 * (l.filterMap f).length + 1
  | [], _ => by simp
  | [a], _ => by simp
  | a :: b :: l, h => by
    obtain ⟨hab, hb⟩ := List.isChain_cons_cons.1 h
    cases ha : f a with
    | some x =>
      have := length_le_of_isChain_ne f (b :: l) hb
      rw [List.filterMap_cons_some ha, List.length_cons, List.length_cons (as := List.filterMap f _)]
      omega
    | none =>
      obtain ⟨y, hy⟩ := Option.ne_none_iff_exists'.1 (ha ▸ hab.symm)
      have := length_le_of_isChain_ne f l hb.tail
      rw [List.filterMap_cons_none ha, List.filterMap_cons_some hy]
      simp only [List.length_cons]
      omega

/-- R5: the owner of a run is a surface of the table. -/
theorem run_owner_lt {s : State} (h : SurfaceTableLaw s) {r : Run} (hr : r ∈ s.runs) {id : Nat}
    (hid : r.owner = some id) : id < 64 := by
  obtain ⟨_, hlength, _, _, _, hknown⟩ := h
  have hgranule := runs_first_granule hr
  have hlt : r.start < 512 := hlength ▸ (List.getElem?_eq_some_iff.1 hgranule).1
  have := hknown r.start hlt
  rwa [List.getD_eq_getElem?_getD, hgranule, Option.getD_some, hid] at this

/-- R5: a surface owns a run exactly when the run starts in the surface's region. -/
theorem run_owner_iff {s : State} (h : SurfaceTableLaw s) {r : Run} (hr : r ∈ s.runs) {id : Nat} (hid : id < 64) :
    r.owner = some id ↔ (s.surface id).state ≠ .empty ∧ (s.surface id).base ≤ r.start ∧
      r.start < (s.surface id).base + (s.surface id).granules := by
  obtain ⟨_, hlength, _, _, hregion, _⟩ := h
  have hgranule := runs_first_granule hr
  have hlt : r.start < 512 := hlength ▸ (List.getElem?_eq_some_iff.1 hgranule).1
  rw [← hregion r.start hlt id hid, List.getD_eq_getElem?_getD, hgranule, Option.getD_some]

/-- R21: held runs appear one per surface. Between two runs of one surface every run would start in its region, and so be
its own, but neighbours have different owners. -/
theorem owners_nodup {s : State} (h : SurfaceTableLaw s) : (s.runs.filterMap (·.owner)).Nodup := by
  have hstart := List.pairwise_iff_getElem.1 (laidFrom_pairwise_start (runsFrom_laidFrom 0 s.granules))
  have hchain := List.isChain_iff_getElem.1 (runsFrom_isChain 0 s.granules)
  rw [List.Nodup, List.pairwise_filterMap, List.pairwise_iff_getElem]
  rintro i j hi hj hij id hri _ hrj rfl
  have hnext : i + 1 < s.runs.length := by omega
  have h64 := run_owner_lt h (List.getElem_mem hi) hri
  obtain ⟨hstate, hlo, _⟩ := (run_owner_iff h (List.getElem_mem hi) h64).1 hri
  obtain ⟨_, _, hhi⟩ := (run_owner_iff h (List.getElem_mem hj) h64).1 hrj
  have hfirst : s.runs[i].start < s.runs[i + 1].start := hstart i (i + 1) hi hnext (Nat.lt_succ_self i)
  have hlast : s.runs[i + 1].start ≤ s.runs[j].start := by
    obtain hlt | rfl := Nat.lt_or_eq_of_le hij
    · exact (hstart (i + 1) j hnext hj hlt).le
    · exact le_rfl
  have hown : s.runs[i + 1].owner = some id :=
    (run_owner_iff h (List.getElem_mem hnext) h64).2 ⟨hstate, hlo.trans hfirst.le, hlast.trans_lt hhi⟩
  exact hchain i hnext (hri.trans hown.symm)

/-- R21: no more held runs than surfaces. -/
theorem owners_length_le {s : State} (h : SurfaceTableLaw s) : (s.runs.filterMap (·.owner)).length ≤ 64 := by
  have hsubset : s.runs.filterMap (·.owner) ⊆ List.range 64 := by
    intro id hid
    obtain ⟨r, hr, howner⟩ := List.mem_filterMap.1 hid
    exact List.mem_range.2 (run_owner_lt h hr howner)
  simpa using (List.subperm_of_subset (owners_nodup h) hsubset).length_le

/-- R21: the run count is 1 to 129. -/
theorem runs_length_bounds {s : State} (h : SurfaceTableLaw s) : 1 ≤ s.runs.length ∧ s.runs.length ≤ 129 := by
  have hheld := owners_length_le h
  have hfree := length_le_of_isChain_ne (·.owner) s.runs (runsFrom_isChain 0 s.granules)
  refine ⟨List.length_pos_iff.2 fun hnil => ?_, by omega⟩
  obtain ⟨_, hlength, _⟩ := h
  have hmap := granulesOfRuns_runsFrom 0 s.granules
  rw [← State.runs, hnil] at hmap
  rw [← hmap] at hlength
  cases hlength

/-- R21: GET_MEMORY_MAP takes no arguments and reports the runs. -/
theorem dealtWith_getMemoryMap {s : State} (seq code : Byte) (args : List Byte) (hs : s.headFrame.isSome = true) :
    dealtWith seq code (getMemoryMapBody seq code args s) =
      answerBy seq code [(decide (args.length ≠ 0), .badLength)] s
        (answered seq ([code, 0x00, byteOf s.runs.length] ++ (s.runs.map runFields).flatten) s) :=
  dealtWith_check hs fun _ => dealtWith_reply seq code .ok _ hs

/-- Settles O22: the runs of a map are laid end to end over it, neighbours differ in owner, and with a lawful table each
surface has one run at most. -/
theorem memoryMapIsItsRuns : Obligations.MemoryMapIsItsRuns := by
  unfold Obligations.MemoryMapIsItsRuns
  refine ⟨fun s seq args h => ?_, fun s => ⟨granulesOfRuns_runsFrom 0 s.granules, fun i r hr => ?_,
    fun i r q hr hq => ?_, runs_length_bounds⟩⟩
  · exact exec_of_dealtWith (body := getMemoryMapBody) (after := id) rfl h rfl
      (dealtWith_getMemoryMap seq 0x15 args h.headFrame_isSome)
  · have hplace := laidFrom_getElem? (runsFrom_laidFrom 0 s.granules) hr
    rwa [Nat.zero_add] at hplace
  · obtain ⟨_, rfl⟩ := List.getElem?_eq_some_iff.1 hr
    obtain ⟨hnext, rfl⟩ := List.getElem?_eq_some_iff.1 hq
    exact List.isChain_iff_getElem.1 (runsFrom_isChain 0 s.granules) i hnext

end Sys2Proof.Machine
end

