-- ==== Sys2Proof/Proofs/PixelFormats.lean ====
section
/-! PROOF. The storage transforms and the widening of RGB16 (R29, R32). -/

namespace Sys2Proof.Machine

/-! ### The storage transforms (R29) -/

/-- R29: the logical position of stored pixel (u, v), the third column of the table. -/
def Surface.logicalPosition (r : Surface) (u v : Nat) : Nat × Nat :=
  match r.transform with
  | .t0 => (u, v)
  | .t90 => (v, r.height - 1 - u)
  | .t180 => (r.width - 1 - u, r.height - 1 - v)
  | .t270 => (r.width - 1 - v, u)

/-- Counting from the far side twice gives the position back. -/
theorem reflect_reflect {n i : Nat} (h : i < n) : n - 1 - (n - 1 - i) = i := Nat.sub_sub_self (Nat.le_sub_one_of_lt h)

/-- R29: a logical pixel lies within the stored bounds. -/
theorem Surface.storedPosition_lt {r : Surface} {x y : Nat} (hx : x < r.width) (hy : y < r.height) :
    (r.storedPosition x y).1 < (storedSize r.transform r.width r.height).1 ∧
      (r.storedPosition x y).2 < (storedSize r.transform r.width r.height).2 := by
  unfold storedPosition
  cases r.transform with
  | t0 => exact ⟨hx, hy⟩
  | t90 => exact ⟨Nat.sub_one_sub_lt hy, hx⟩
  | t180 => exact ⟨Nat.sub_one_sub_lt hx, Nat.sub_one_sub_lt hy⟩
  | t270 => exact ⟨hy, Nat.sub_one_sub_lt hx⟩

/-- R29: the table gives every stored pixel a position within the logical bounds. -/
theorem Surface.logicalPosition_lt {r : Surface} {u v : Nat}
    (hu : u < (storedSize r.transform r.width r.height).1) (hv : v < (storedSize r.transform r.width r.height).2) :
    (r.logicalPosition u v).1 < r.width ∧ (r.logicalPosition u v).2 < r.height := by
  unfold logicalPosition
  generalize r.transform = t at hu hv ⊢
  cases t with
  | t0 => exact ⟨hu, hv⟩
  | t90 => exact ⟨hv, Nat.sub_one_sub_lt hu⟩
  | t180 => exact ⟨Nat.sub_one_sub_lt hu, Nat.sub_one_sub_lt hv⟩
  | t270 => exact ⟨Nat.sub_one_sub_lt hv, hu⟩

/-- R29: a pixel is read back at the logical position it was placed from. -/
theorem Surface.logicalPosition_storedPosition {r : Surface} {x y : Nat} (hx : x < r.width) (hy : y < r.height) :
    r.logicalPosition (r.storedPosition x y).1 (r.storedPosition x y).2 = (x, y) := by
  unfold logicalPosition storedPosition
  cases r.transform with
  | t0 => rfl
  | t90 => exact Prod.ext rfl (reflect_reflect hy)
  | t180 => exact Prod.ext (reflect_reflect hx) (reflect_reflect hy)
  | t270 => exact Prod.ext (reflect_reflect hx) rfl

/-- R29: the logical position the table gives for a stored pixel is placed at that pixel. -/
theorem Surface.storedPosition_logicalPosition {r : Surface} {u v : Nat}
    (hu : u < (storedSize r.transform r.width r.height).1) (hv : v < (storedSize r.transform r.width r.height).2) :
    r.storedPosition (r.logicalPosition u v).1 (r.logicalPosition u v).2 = (u, v) := by
  unfold logicalPosition storedPosition
  generalize r.transform = t at hu hv ⊢
  cases t with
  | t0 => rfl
  | t90 => exact Prod.ext (reflect_reflect hu) rfl
  | t180 => exact Prod.ext (reflect_reflect hu) (reflect_reflect hv)
  | t270 => exact Prod.ext rfl (reflect_reflect hv)

/-- Settles O23: within the bounds, the stored position and the table's logical position are inverse to each other. -/
theorem transformIsOneToOne : Obligations.TransformIsOneToOne := by
  unfold Obligations.TransformIsOneToOne
  intro r hsize
  obtain ⟨hwidth, hheight⟩ := Prod.mk.inj hsize
  refine ⟨?_, fun x y hx hy => ⟨rfl, ?_⟩, fun u v hu hv => ?_⟩
  · rw [hsize]
    cases r.transform <;> rfl
  · rw [hwidth, hheight]
    exact Surface.storedPosition_lt hx hy
  · rw [hwidth] at hu
    rw [hheight] at hv
    obtain ⟨hx, hy⟩ := Surface.logicalPosition_lt hu hv
    refine ⟨_, _, hx, hy, Surface.storedPosition_logicalPosition hu hv, rfl, fun x y hx' hy' hplace => ?_⟩
    have hback := Surface.logicalPosition_storedPosition hx' hy'
    rw [hplace] at hback
    exact Prod.ext_iff.1 hback.symm

/-! ### The widening of RGB16 (R32) -/

/-- R32: the channels of a raw value are its bits 15 to 11, 10 to 5 and 4 to 0. -/
theorem rgb16_channels {r5 g6 b5 : Nat} (hr : r5 < 32) (hg : g6 < 64) (hb : b5 < 32) :
    (r5 * 2048 + g6 * 32 + b5) / 2048 % 32 = r5 ∧ (r5 * 2048 + g6 * 32 + b5) / 32 % 64 = g6 ∧
      (r5 * 2048 + g6 * 32 + b5) % 32 = b5 := by
  omega

/-- Settles O45: the raw value splits into its channels, and each is widened. -/
theorem rgb16Widening : Obligations.Rgb16Widening := by
  unfold Obligations.Rgb16Widening
  intro r5 g6 b5 hr hg hb
  obtain ⟨hred, hgreen, hblue⟩ := rgb16_channels hr hg hb
  simp only [rgb16Colour, hred, hgreen, hblue]

end Sys2Proof.Machine
end

