-- ==== Sys2Proof/Proofs/FillAndCopy.lean ====
section
/-! PROOF. FILL_RECT and COPY_RECT (R28, R37, R38, R40). -/

namespace Sys2Proof.Machine

/-! ### Rectangles (R28, R40) -/

/-- R28: a rectangle lies within bounds when it is not empty and ends within them. -/
theorem Rect.within_iff (a : Rect) (width height : Nat) :
    a.within width height = true ↔ 1 ≤ a.w ∧ 1 ≤ a.h ∧ a.x + a.w ≤ width ∧ a.y + a.h ≤ height := by
  simp only [Rect.within, Bool.and_eq_true, decide_eq_true_eq, and_assoc]

/-- Two spans of at least one place share a place exactly when each begins before the other ends: the later of the two
beginnings is then in both. -/
theorem spans_meet_iff {p m q n : Nat} (hm : 1 ≤ m) (hn : 1 ≤ n) :
    (p < q + n ∧ q < p + m) ↔ ∃ i, (p ≤ i ∧ i < p + m) ∧ q ≤ i ∧ i < q + n := by
  constructor
  · rintro ⟨hp, hq⟩
    exact ⟨max p q, by omega⟩
  · rintro ⟨i, _, _⟩
    omega

/-- R40: rectangles that are not empty overlap when some pixel lies in both: their columns and their rows meet. -/
theorem Rect.overlaps_iff {a b : Rect} (haw : 1 ≤ a.w) (hah : 1 ≤ a.h) (hbw : 1 ≤ b.w) (hbh : 1 ≤ b.h) :
    a.overlaps b = true ↔ ∃ x y, (a.x ≤ x ∧ x < a.x + a.w ∧ a.y ≤ y ∧ y < a.y + a.h) ∧
      b.x ≤ x ∧ x < b.x + b.w ∧ b.y ≤ y ∧ y < b.y + b.h := by
  have hmeet : a.overlaps b = true ↔
      (a.x < b.x + b.w ∧ b.x < a.x + a.w) ∧ a.y < b.y + b.h ∧ b.y < a.y + a.h := by
    simp only [Rect.overlaps, Bool.and_eq_true, decide_eq_true_eq, and_assoc]
  rw [hmeet, spans_meet_iff haw hbw, spans_meet_iff hah hbh]
  constructor
  · rintro ⟨⟨x, ⟨hax, hax'⟩, hbx⟩, y, hay, hby⟩
    exact ⟨x, y, ⟨hax, hax', hay⟩, hbx.1, hbx.2, hby⟩
  · rintro ⟨x, y, ⟨hax, hax', hay⟩, hbx, hbx', hby⟩
    exact ⟨⟨x, ⟨hax, hax'⟩, hbx, hbx'⟩, y, hay, hby⟩

/-! ### The uses of a new entry (R37) -/

/-- R37: a job reference and then a writer are the use of a destination. -/
theorem addWriter_addJobRef (id : Nat) (s : State) : addWriter id (addJobRef id s) = withUse id 1 s := by
  by_cases hid : id < s.surfaces.length
  · simp only [addWriter, addJobRef, withUse, State.surface_setSurface_self s _ hid]
    simp only [State.setSurface, List.set_set]
  · have hset (r : Surface) : s.setSurface id r = s := by
      rw [State.setSurface, List.set_eq_of_length_le (Nat.le_of_not_lt hid)]
    simp only [addWriter, addJobRef, withUse, hset]

/-- R37: references on different surfaces are added in either order. -/
theorem addJobRef_comm {id id' : Nat} (h : id ≠ id') (s : State) :
    addJobRef id (addJobRef id' s) = addJobRef id' (addJobRef id s) := by
  simp only [addJobRef, State.surface_setSurface_other _ _ h, State.surface_setSurface_other _ _ h.symm]
  simp only [State.setSurface, List.set_comm _ _ h]

/-- R37, R38: a FILL joins the queue with one reference and one writer on its destination. -/
theorem appendJob_fill (dst : Nat) (rect : Rect) (value : Nat) (s : State) :
    appendJob (.fill dst rect value) s = withUse dst 1 (queued (.fill dst rect value) s) :=
  addWriter_addJobRef dst _

/-- R37, R40: a COPY joins the queue with one reference on each surface it names and one writer on its destination. -/
theorem appendJob_copy (dst src : Nat) (source : Rect) (dx dy : Nat) (key : Option Nat) (s : State) :
    let job := JobKind.copy dst src source dx dy key
    appendJob job s =
      if dst = src then withUse dst 1 (queued job s) else withUse dst 1 (withUse src 0 (queued job s)) := by
  intro job
  by_cases hsame : dst = src
  · have hnames : job.surfaces = [dst] := if_pos hsame
    rw [if_pos hsame, ← addWriter_addJobRef, appendJob, addJobUses, hnames]
    rfl
  · have hnames : job.surfaces = [dst, src] := if_neg hsame
    have huse : withUse src 0 (queued job s) = addJobRef src (queued job s) := rfl
    rw [if_neg hsame, huse, ← addWriter_addJobRef, addJobRef_comm hsame, appendJob, addJobUses, hnames]
    rfl

/-- R37: the uses of an entry change the Surface Table only, so the entry is one more in the queue. -/
theorem appendJob_jobs_length (k : JobKind) (s : State) : (appendJob k s).pe.jobs.length = s.pe.jobs.length + 1 := by
  obtain ⟨_, huses⟩ := addJobUses_eq k (queued k s)
  rw [appendJob, ← queued, huses]
  exact List.length_append

/-- R37: an entry that joins the queue leaves the frame being taken in its slot. -/
theorem appendJob_headFrame (k : JobKind) (s : State) : (appendJob k s).headFrame = s.headFrame := by
  obtain ⟨_, huses⟩ := addJobUses_eq k (queued k s)
  rw [appendJob, ← queued, huses]
  rfl

/-! ### Answers of the Pixel Engine (R37, R38, R40) -/

/-- R37: an accepted entry is answered OK with the queue depth. -/
theorem dealtWith_acceptJob {s : State} (seq code : Byte) (k : JobKind) (hs : s.headFrame.isSome = true) :
    dealtWith seq code ((acceptJob k s).1, .reply .ok [byteOf (acceptJob k s).2]) =
      answered seq [code, 0x00, byteOf (s.pe.jobs.length + 1)] (appendJob k s) := by
  have hhead : (appendJob k s).headFrame.isSome = true := by rwa [appendJob_headFrame]
  rw [← appendJob_jobs_length k s]
  exact dealtWith_reply seq code .ok _ hhead

/-- R176: a check that the model computes as a truth value is the row with that value. -/
theorem dealtWith_flag {s : State} {seq code : Byte} {b : Bool} {st : Status} {rest : State × Answer}
    {checks : List (Bool × Status)} {done : State} (hs : s.headFrame.isSome = true)
    (hrest : dealtWith seq code rest = answerBy seq code checks s done) :
    dealtWith seq code (if b then refuse st s else rest) = answerBy seq code ((b, st) :: checks) s done := by
  have hrow := dealtWith_check (c := b = true) (st := st) hs fun _ => hrest
  rwa [Bool.decide_eq_true] at hrow

/-- R23: the values outside a format's range. -/
theorem Format.not_holds (f : Format) (value : Nat) : (!f.holds value) = decide (2 ^ f.bpp ≤ value) :=
  decide_not.symm.trans (decide_eq_decide.2 Nat.not_lt)

/-- R38: the checks of a fill, and what it does. -/
theorem dealtWith_fill {s : State} (seq code : Byte) (args : List Byte) (hs : s.headFrame.isSome = true) :
    let dst := arg8 args 0
    let rect := argRect args 1
    let value := arg16 args 9
    let d := s.surface dst
    dealtWith seq code (fillBody seq code args s) = answerBy seq code
      [(decide (args.length ≠ 11), .badLength), (decide (64 ≤ dst), .badArgument),
       (decide (d.state = .empty), .noSuchSurface), (decide (d.state ≠ .filling), .wrongState),
       (!rect.within d.width d.height || decide (2 ^ d.format.bpp ≤ value), .badArgument),
       (decide (8 ≤ s.pe.jobs.length), .queueFull)] s
      (answered seq [code, 0x00, byteOf (s.pe.jobs.length + 1)] (withUse dst 1 (queued (.fill dst rect value) s))) := by
  intro dst rect value d
  rw [← appendJob_fill, ← Format.not_holds, ← Bool.not_and]
  exact dealtWith_check hs fun _ => dealtWith_check hs fun _ => dealtWith_check hs fun _ => dealtWith_check hs fun _ =>
    dealtWith_flag hs (dealtWith_flag hs (dealtWith_acceptJob seq code (.fill dst rect value) hs))

/-- R192: a flag is 0 or 1, and no other value. -/
theorem flagOf_eq (n : Nat) : flagOf n = if 1 < n then none else some (decide (n = 1)) := by
  match n with
  | 0 => rfl
  | 1 => rfl
  | n + 2 => exact (if_pos (Nat.lt_add_left n Nat.one_lt_two)).symm

/-- R40: the row of the format, the key, the bounds and the overlap fails exactly when the copy does not fit. -/
theorem not_copyFits (dst src : Nat) (d r : Surface) (source : Rect) (dx dy flag key : Nat) :
    let target : Rect := ⟨dx, dy, source.w, source.h⟩
    (!copyFits dst src d r source dx dy (if flag = 1 then some key else none)) =
      (decide (r.format ≠ d.format ∨ (flag = 1 ∧ 2 ^ r.format.bpp ≤ key)) || !source.within r.width r.height ||
        !target.within d.width d.height || (decide (dst = src) && source.overlaps target)) := by
  intro target
  have hkey : (!(if flag = 1 then some key else none).elim true r.format.holds) =
      decide (flag = 1 ∧ 2 ^ r.format.bpp ≤ key) := by
    by_cases hflag : flag = 1
    · simp only [hflag, if_true, Option.elim_some, Format.not_holds, true_and]
    · simp only [hflag, if_false, Option.elim_none, Bool.not_true, false_and, decide_false]
  simp only [copyFits, Bool.not_and, Bool.not_or, Bool.not_not, hkey, Bool.decide_or, decide_not, target]

/-- R40: the checks of a copy, and what it does. -/
theorem dealtWith_copy {s : State} (seq code : Byte) (args : List Byte) (hs : s.headFrame.isSome = true) :
    let dst := arg8 args 0
    let src := arg8 args 1
    let source := argRect args 2
    let target : Rect := ⟨arg16 args 10, arg16 args 12, source.w, source.h⟩
    let flag := arg8 args 14
    let key := arg16 args 15
    let d := s.surface dst
    let r := s.surface src
    let job := JobKind.copy dst src source target.x target.y (if flag = 1 then some key else none)
    dealtWith seq code (copyBody seq code args s) = answerBy seq code
      [(decide (args.length ≠ 17), .badLength), (decide (64 ≤ dst ∨ 64 ≤ src ∨ 1 < flag), .badArgument),
       (decide (d.state = .empty ∨ r.state = .empty), .noSuchSurface),
       (decide (d.state ≠ .filling ∨ (dst ≠ src ∧ r.state ≠ .ready)), .wrongState),
       (decide (r.format ≠ d.format ∨ (flag = 1 ∧ 2 ^ r.format.bpp ≤ key)) || !source.within r.width r.height ||
          !target.within d.width d.height || (decide (dst = src) && source.overlaps target), .badArgument),
       (decide (8 ≤ s.pe.jobs.length), .queueFull)] s
      (answered seq [code, 0x00, byteOf (s.pe.jobs.length + 1)]
        (if dst = src then withUse dst 1 (queued job s) else withUse dst 1 (withUse src 0 (queued job s)))) := by
  intro dst src source target flag key d r job
  rw [← appendJob_copy, ← not_copyFits]
  refine dealtWith_check hs fun _ => ?_
  by_cases hflag : 1 < flag
  · have hnone : flagOf (arg8 args 14) = none := (flagOf_eq flag).trans (if_pos hflag)
    rw [hnone, decide_eq_true (Or.inr (Or.inr hflag)), answerBy_cons_true]
    exact dealtWith_reply seq code .badArgument [] hs
  · have hsome : flagOf (arg8 args 14) = some (decide (flag = 1)) := (flagOf_eq flag).trans (if_neg hflag)
    simp only [hsome, hflag, or_false, decide_eq_true_eq]
    exact dealtWith_check hs fun _ => dealtWith_check hs fun _ => dealtWith_check hs fun _ =>
      dealtWith_flag hs (dealtWith_flag hs (dealtWith_acceptJob seq code job hs))

/-- Settles O25, from the two facts on rectangles and what is done with the result of each row's body. -/
theorem fillAndCopy : Obligations.FillAndCopy := by
  unfold Obligations.FillAndCopy
  refine ⟨Rect.within_iff, fun a b haw hah hbw hbh => Rect.overlaps_iff haw hah hbw hbh, fun s seq args h => ?_,
    fun s seq args h => ?_⟩
  · exact exec_of_dealtWith (body := fillBody) (after := settle) rfl h rfl
      (dealtWith_fill seq 0x24 args h.headFrame_isSome)
  · exact exec_of_dealtWith (body := copyBody) (after := settle) rfl h rfl
      (dealtWith_copy seq 0x25 args h.headFrame_isSome)

end Sys2Proof.Machine
end

