-- ==== Sys2Proof/Proofs/MoveCursor.lean ====
section
/-! PROOF. MOVE_CURSOR (R61, R76). -/

namespace Sys2Proof.Machine

/-! ### The values the checks read (R76, R192) -/

/-- R192: an output number is 0 or 1, and no other value. -/
theorem outputOf_eq (n : Nat) : outputOf n = if 1 < n then none else some (if n = 0 then .out0 else .out1) := by
  match n with
  | 0 => rfl
  | 1 => rfl
  | n + 2 => exact (if_pos (Nat.lt_add_left n Nat.one_lt_two)).symm

/-- R76: the coordinates outside the range. -/
theorem not_cursorCoordinate (x : Int) : (!cursorCoordinate x) = decide (x < -63 ∨ 2047 < x) := by
  simp only [cursorCoordinate, Bool.not_and, ← decide_not, Int.not_le, Bool.decide_or]

/-- R61: the states in which an output takes no cursor. -/
theorem OutputUnit.not_accepts (u : OutputUnit) :
    (!u.accepts) = decide (u.state ≠ .powerUp ∧ u.state ≠ .running) :=
  decide_not.symm.trans (decide_eq_decide.2 not_or)

/-! ### MOVE_CURSOR (R76) -/

/-- R61: what an output shows does not touch the frame being taken. -/
@[simp] theorem State.headFrame_setPres (s : State) (o : OutputId) (p : Presentation) :
    (s.setPres o p).headFrame = s.headFrame := by
  cases o <;> rfl

/-- R76: the checks of a move, and what it does. The row of the fields is one row of the rule; the body reads the output
and the flag before it looks at the coordinates. -/
theorem dealtWith_moveCursor {s : State} (seq code : Byte) (args : List Byte) (hs : s.headFrame.isSome = true) :
    let n := arg8 args 0
    let o : OutputId := if n = 0 then .out0 else .out1
    let x := argSigned args 1
    let y := argSigned args 3
    let visible := arg8 args 5
    let u := s.ou o
    dealtWith seq code (moveCursorBody seq code args s) = answerBy seq code
      [(decide (args.length ≠ 6), .badLength),
       (decide (1 < n ∨ x < -63 ∨ 2047 < x ∨ y < -63 ∨ 2047 < y ∨ 1 < visible), .badArgument),
       (decide (u.state ≠ .powerUp ∧ u.state ≠ .running), .wrongState)] s
      (answered seq [code, 0x00] (s.setPres o { s.pres o with pendingPosition := ⟨x, y, visible = 1⟩ })) := by
  intro n o x y visible u
  refine dealtWith_check hs fun _ => ?_
  by_cases hnames : 1 < n ∨ 1 < visible
  · have hrow : 1 < n ∨ x < -63 ∨ 2047 < x ∨ y < -63 ∨ 2047 < y ∨ 1 < visible := by omega
    rw [decide_eq_true hrow, answerBy_cons_true]
    split
    · next ho hflag =>
      have hn : ¬ 1 < n := fun h => by simp [outputOf_eq, n, h] at ho
      have hvisible : ¬ 1 < visible := fun h => by simp [flagOf_eq, visible, h] at hflag
      exact absurd hnames (not_or.2 ⟨hn, hvisible⟩)
    · exact dealtWith_reply seq code .badArgument [] hs
  · obtain ⟨hn, hvisible⟩ := not_or.1 hnames
    have ho : outputOf (arg8 args 0) = some o := (outputOf_eq n).trans (if_neg hn)
    have hflag : flagOf (arg8 args 5) = some (decide (visible = 1)) := (flagOf_eq visible).trans (if_neg hvisible)
    have hrow : (!(cursorCoordinate x && cursorCoordinate y)) =
        decide (1 < n ∨ x < -63 ∨ 2047 < x ∨ y < -63 ∨ 2047 < y ∨ 1 < visible) := by
      rw [Bool.not_and, not_cursorCoordinate, not_cursorCoordinate, ← Bool.decide_or, decide_eq_decide]
      omega
    rw [ho, hflag, ← hrow, ← OutputUnit.not_accepts]
    exact dealtWith_flag hs (dealtWith_flag hs (dealtWith_reply seq code .ok [] (by rwa [State.headFrame_setPres])))

/-- Settles O49, from what is done with the result of the row's body. -/
theorem moveCursor : Obligations.MoveCursor := by
  unfold Obligations.MoveCursor
  intro s seq args h
  exact exec_of_dealtWith (body := moveCursorBody) (after := id) rfl h rfl
    (dealtWith_moveCursor seq 0x42 args h.headFrame_isSome)

end Sys2Proof.Machine
end

