-- ==== Sys2Proof/Proofs/FetchLoad.lean ====
section
/-! PROOF. The line bytes of a layer entry, and SET_BUDGET (R83, R88, R94). -/

namespace Sys2Proof.Machine

/-! ### Line bytes (R83) -/

/-- R83: a clipped width counts exactly when the difference it is taken from is positive. -/
theorem clippedWidth_pos_iff (dx : Int) (w hactive : Nat) :
    0 < clippedWidth dx w hactive ↔ 0 < min (dx + w) (hactive : Int) - max dx 0 := by
  rw [clippedWidth, Int.lt_toNat, Int.natCast_zero]

/-- Settles O46: the clipped width is positive exactly when the difference is. (`layerLineBytes` itself names the
model's function.) -/
theorem layerLineBytes_eq : Obligations.LayerLineBytes := by
  unfold Obligations.LayerLineBytes
  intro s t l clipped
  exact if_congr (and_congr_left' (clippedWidth_pos_iff l.dx l.source.w t.hactive)) rfl rfl

/-! ### The least share (R88, R94) -/

/-- The spec's ceil is the library's `⌈/⌉`: a quotient rounded up is at most `c` exactly when the dividend is at
most `c` times the divisor. -/
theorem ceilDiv_le_iff {a b c : Nat} (hb : 0 < b) : ceilDiv a b ≤ c ↔ a ≤ c * b := by
  rw [ceilDiv, ← Nat.ceilDiv_eq_add_pred_div, ceilDiv_le_iff_le_mul hb, Nat.mul_comm]

/-- R85: D is at least 1, since a timing set in range has a divider and a line. -/
theorem outputLawful.loadD_pos {o : OutputId} {u : OutputUnit} (h : outputLawful o u) : 0 < u.loadD := by
  obtain ⟨_, hrange, _⟩ := h
  unfold OutputUnit.loadD
  split
  · next hvalid =>
    obtain ⟨hdivider, _, hactive, _⟩ := hrange hvalid
    have hline : 0 < u.timing.htotal := Nat.add_pos_left (by omega) u.timing.hblank
    exact Nat.mul_pos (by omega) hline
  · exact Nat.one_pos

/-- R94: the least share is at most a share of 4 and above exactly when the reserved loads fit that share. -/
theorem leastShare_le_iff {s : State} (h : OutputLaw s) {share : Nat} (hshare : 4 ≤ share) :
    s.leastShare ≤ share ↔
      12 * (s.pres0.loadN * s.ou1.loadD + s.pres1.loadN * s.ou0.loadD) ≤ share * s.ou0.loadD * s.ou1.loadD := by
  obtain ⟨h0, h1⟩ := h
  rw [State.leastShare, max_le_iff, ceilDiv_le_iff (Nat.mul_pos h0.loadD_pos h1.loadD_pos), Nat.mul_assoc share]
  exact and_iff_right hshare

/-- R88, R94: the least share is never above the share in force. -/
theorem leastShare_le_share {s : State} (h : OutputLaw s) (hbudget : BudgetLaw s) : s.leastShare ≤ s.share := by
  obtain ⟨hfour, _, _, _, hfits⟩ := hbudget
  exact (leastShare_le_iff h hfour).2 hfits

/-! ### SET_BUDGET (R94) -/

/-- R94: the checks of a new share, and what it does. The least share depends on the reserved loads alone, so both
replies carry the one of the state before the request. -/
theorem dealtWith_setBudget {s : State} (seq code : Byte) (args : List Byte) (hs : s.headFrame.isSome = true) :
    let share := arg8 args 0
    dealtWith seq code (setBudgetBody seq code args s) = answerBy seq code
      [(decide (args.length ≠ 1), .badLength), (decide (share < 4 ∨ 9 < share), .badArgument)] s
      (if 12 * (s.pres0.loadN * s.ou1.loadD + s.pres1.loadN * s.ou0.loadD) ≤ share * s.ou0.loadD * s.ou1.loadD then
         answered seq [code, 0x00, byteOf share, byteOf s.leastShare] { s with share := share }
       else answered seq [code, 0x0A, byteOf s.share, byteOf s.leastShare] s) := by
  intro share
  refine dealtWith_check hs fun _ => dealtWith_check hs fun _ => ?_
  simp only [budgetHolds, decide_eq_true_eq, answerBy_nil]
  split
  · exact dealtWith_reply (t := { s with share := share }) seq code .ok _ hs
  · exact dealtWith_reply seq code .overBudget _ hs

/-- Settles O50, from what is done with the result of the row's body and the bounds of the least share. -/
theorem setBudget : Obligations.SetBudget := by
  unfold Obligations.SetBudget
  intro s seq args h
  refine ⟨exec_of_dealtWith (body := setBudgetBody) (after := id) rfl h rfl
    (dealtWith_setBudget seq 0x43 args h.headFrame_isSome), fun hout hbudget => ?_⟩
  have hleast := leastShare_le_share hout hbudget
  obtain ⟨hfour, _⟩ := hbudget
  exact ⟨hleast, fun hraise => (leastShare_le_iff hout (hfour.trans hraise)).1 (hleast.trans hraise),
    fun hshare => (leastShare_le_iff hout hshare).symm⟩

end Sys2Proof.Machine
end

