-- ==== Sys2Proof/Proofs/SetOutput.lean ====
section
/-! PROOF. SET_OUTPUT (R113 to R115). -/

namespace Sys2Proof.Machine

/-! ### Tables of checks whose refusals carry an index (R114, R176) -/

/-- R176: a check that fails gives the answer. -/
@[simp] theorem answerByIndex_cons_true (seq code : Byte) (st : Status) (index : Byte)
    (checks : List (Bool × Status × Byte)) (s done : State) :
    answerByIndex seq code ((true, st, index) :: checks) s done = answered seq [code, st.code, index] s := rfl

/-- R176: a check that passes leaves the answer to the checks after it. -/
@[simp] theorem answerByIndex_cons_false (seq code : Byte) (st : Status) (index : Byte)
    (checks : List (Bool × Status × Byte)) (s done : State) :
    answerByIndex seq code ((false, st, index) :: checks) s done = answerByIndex seq code checks s done := rfl

/-- R114: a reply of SET_OUTPUT is its status and its index. -/
theorem dealtWith_answerIndex {t : State} (seq code : Byte) (st : Status) (index : Nat)
    (ht : t.headFrame.isSome = true) :
    dealtWith seq code (answerIndex st index t) = answered seq [code, st.code, byteOf index] t :=
  dealtWith_reply seq code st [byteOf index] ht

/-- R114: a body that begins with an indexed check is answered by a table that begins with its row. -/
theorem dealtWith_checkIndex {s : State} {seq code : Byte} {c : Prop} [Decidable c] {st : Status} {index : Nat}
    {rest : State × Answer} {checks : List (Bool × Status × Byte)} {done : State} (hs : s.headFrame.isSome = true)
    (hrest : ¬ c → dealtWith seq code rest = answerByIndex seq code checks s done) :
    dealtWith seq code (if c then answerIndex st index s else rest) =
      answerByIndex seq code ((decide c, st, byteOf index) :: checks) s done := by
  by_cases hc : c
  · rw [if_pos hc, decide_eq_true hc, answerByIndex_cons_true]
    exact dealtWith_answerIndex seq code st index hs
  · rw [if_neg hc, decide_eq_false hc, answerByIndex_cons_false]
    exact hrest hc

/-! ### The ranges of a timing set (R113) -/

/-- R113, R114: the rows of the ranges, in index order; t_pwr and t_clk take every value of a byte. -/
def timingRows (args : List Byte) : List (Bool × Status × Byte) :=
  let t := timingArgs args
  let interlace := arg8 args 19
  let flicker := arg8 args 20
  [(decide (t.divider < 6), .badArgument, 1),
   (decide (t.hactive < 16 ∨ 1280 < t.hactive ∨ t.hactive % 8 ≠ 0), .badArgument, 2),
   (decide (t.hblank < 24 ∨ 1024 < t.hblank), .badArgument, 3),
   (decide (t.hblank < t.hsyncOffset + 8), .badArgument, 4),
   (decide (t.hsyncWidth < 1 ∨ t.hblank < t.hsyncOffset + t.hsyncWidth), .badArgument, 5),
   (decide (1024 < t.vactive ∨ (if interlace = 1 then t.vactive < 16 ∨ t.vactive % 2 ≠ 0 else t.vactive < 8)),
     .badArgument, 6),
   (decide (t.vblank < 2), .badArgument, 7), (decide (t.vblank < t.vsyncOffset + 1), .badArgument, 8),
   (decide (t.vsyncWidth < 1 ∨ t.vblank < t.vsyncOffset + t.vsyncWidth), .badArgument, 9),
   (decide (1 < arg8 args 15), .badArgument, 10), (decide (1 < arg8 args 16), .badArgument, 11),
   (decide (1 < arg8 args 17), .badArgument, 12), (decide (1 < arg8 args 18), .badArgument, 13),
   (decide (1 < interlace), .badArgument, 14),
   (decide (1 < flicker ∨ (flicker = 1 ∧ interlace ≠ 1)), .badArgument, 15)]

@[simp] theorem timingArgs_interlace (args : List Byte) : (timingArgs args).interlace = decide (arg8 args 19 = 1) := rfl

@[simp] theorem timingArgs_flicker (args : List Byte) : (timingArgs args).flicker = decide (arg8 args 20 = 1) := rfl

/-- R113, R114: the range of vactive is the interlaced one when the interlace field holds 1. -/
theorem not_vactiveRange (args : List Byte) (vactive : Nat) :
    (!(if (timingArgs args).interlace then decide (16 ≤ vactive ∧ vactive ≤ 1024 ∧ vactive % 2 = 0)
       else decide (8 ≤ vactive ∧ vactive ≤ 1024))) =
      decide (1024 < vactive ∨ (if arg8 args 19 = 1 then vactive < 16 ∨ vactive % 2 ≠ 0 else vactive < 8)) := by
  by_cases h : arg8 args 19 = 1
  · simp only [timingArgs_interlace, h, decide_true, if_true, ← decide_not, decide_eq_decide]
    omega
  · simp only [timingArgs_interlace, h, decide_false, Bool.false_eq_true, if_false, ← decide_not, decide_eq_decide]
    omega

/-- R113, R114: a flicker field of 1 needs an interlace field of 1. -/
theorem not_flickerRange (args : List Byte) :
    (!(decide (arg8 args 20 ≤ 1) && (!(timingArgs args).flicker || (timingArgs args).interlace))) =
      decide (1 < arg8 args 20 ∨ (arg8 args 20 = 1 ∧ arg8 args 19 ≠ 1)) := by
  simp only [timingArgs_interlace, timingArgs_flicker, ← decide_not, ← Bool.decide_and, ← Bool.decide_or,
    decide_eq_decide]
  omega

/-- R113: a range check passes exactly when its row does not fail, and the checks of t_pwr and t_clk always pass. -/
theorem timingChecks_rows (args : List Byte) :
    (timingChecks args).map (fun c => (!c.2, Status.badArgument, byteOf c.1)) =
      timingRows args ++ [(false, .badArgument, 16), (false, .badArgument, 17)] := by
  simp only [timingChecks, List.map_cons, List.map_nil]
  rw [not_vactiveRange, not_flickerRange]
  simp only [← decide_not, not_and_or, Nat.not_le]
  rfl

/-- R114: the first argument outside its range is the first row that fails. -/
theorem firstFailure_timingRows (args : List Byte) :
    firstFailure (timingRows args) = (firstBadTiming args).map fun i => (.badArgument, byteOf i) := by
  calc firstFailure (timingRows args)
      = firstFailure (timingRows args ++ [(false, .badArgument, 16), (false, .badArgument, 17)]) := by
        simp [firstFailure, List.find?_append]
    _ = firstFailure ((timingChecks args).map fun c => (!c.2, .badArgument, byteOf c.1)) := by
        rw [timingChecks_rows]
    _ = (firstBadTiming args).map fun i => (.badArgument, byteOf i) := by
        simp [firstFailure, firstBadTiming, List.find?_map, Function.comp_def]

/-- R114: the rows of the ranges answer with the index of the first argument outside its range. -/
theorem answerByIndex_timingRows (seq code : Byte) (args : List Byte) (s done : State) :
    answerByIndex seq code (timingRows args) s done =
      (firstBadTiming args).elim done fun i => answered seq [code, Status.badArgument.code, byteOf i] s := by
  rw [answerByIndex, firstFailure_timingRows]
  cases firstBadTiming args <;> rfl

/-! ### SET_OUTPUT (R114, R115) -/

/-- R113: what an output is driven with does not touch the frame being taken. -/
@[simp] theorem State.headFrame_setOu (s : State) (o : OutputId) (u : OutputUnit) :
    (s.setOu o u).headFrame = s.headFrame := by
  cases o <;> rfl

/-- R114, R115: the checks of a timing set, and what it does. -/
theorem dealtWith_setOutput {s : State} (seq code : Byte) (args : List Byte) (hs : s.headFrame.isSome = true) :
    let n := arg8 args 0
    let o : OutputId := if n = 0 then .out0 else .out1
    let u := s.ou o
    dealtWith seq code (setOutputBody seq code args s) = answerByIndex seq code
      ([(decide (args.length ≠ 23), .badLength, 0xFF), (decide (1 < n), .badArgument, 0),
        (decide (u.state ≠ .off), .wrongState, 0xFF), (decide (n = 0 ∧ arg8 args 19 = 1), .unsupported, 14),
        (decide (n = 0 ∧ arg8 args 20 = 1), .unsupported, 15)] ++ timingRows args) s
      (answered seq [code, 0x00, 0xFF] (s.setOu o { u with timing := timingArgs args, valid := true })) := by
  intro n o u
  have hout0 : n = 0 ↔ o = .out0 := by
    by_cases hn : n = 0 <;> simp [o, hn]
  simp only [hout0]
  refine dealtWith_checkIndex hs fun _ => ?_
  by_cases hn : 1 < n
  · rw [outputOf_eq, if_pos hn, decide_eq_true hn]
    exact dealtWith_answerIndex seq code .badArgument 0 hs
  · rw [outputOf_eq, if_neg hn, decide_eq_false hn]
    refine dealtWith_checkIndex hs fun _ => dealtWith_checkIndex hs fun _ => dealtWith_checkIndex hs fun _ => ?_
    refine Eq.trans ?_ (answerByIndex_timingRows seq code args s _).symm
    cases firstBadTiming args with
    | none => exact dealtWith_answerIndex seq code .ok 0xFF (by rwa [State.headFrame_setOu])
    | some i => exact dealtWith_answerIndex seq code .badArgument i hs

/-- Settles O33, from what is done with the result of the row's body. -/
theorem setOutput : Obligations.SetOutput := by
  unfold Obligations.SetOutput
  intro s seq args h
  exact exec_of_dealtWith (body := setOutputBody) (after := id) rfl h rfl
    (dealtWith_setOutput seq 0x30 args h.headFrame_isSome)

end Sys2Proof.Machine
end

