-- ==== Sys2Proof/Proofs/RaisingNotices.lean ====
section
/-! PROOF. Raising a notice: the next notice seq, the marker, and what a raise does (R181 to R185). -/

namespace Sys2Proof.Machine

/-! ### The next notice seq (R185) -/

/-- The values after `v`, from 255 to 0, each of them once. -/
def valuesAfter (v : Nat) : List Nat := (List.range 256).map fun d => (v + 1 + d) % 256

@[simp] theorem valuesAfter_length (v : Nat) : (valuesAfter v).length = 256 := by simp [valuesAfter]

@[simp] theorem valuesAfter_getElem (v d : Nat) (h : d < (valuesAfter v).length) :
    (valuesAfter v)[d] = (v + 1 + d) % 256 := by
  simp [valuesAfter]

theorem valuesAfter_nodup (v : Nat) : (valuesAfter v).Nodup := by
  refine List.nodup_range.map_on fun a ha b hb hab => ?_
  have ha := List.mem_range.1 ha
  have hb := List.mem_range.1 hb
  omega

/-- R185: the next seq is looked for among the values after `v`, in their order. -/
theorem nextSeqAfter_eq (held : List Nat) (v : Nat) :
    nextSeqAfter held v = ((valuesAfter v).find? fun c => !held.contains c).getD ((v + 1) % 256) := rfl

/-- R185: with fewer than 256 values held, some value is free: 256 different values do not fit among them. -/
theorem exists_find?_valuesAfter {held : List Nat} (h : held.length < 256) (v : Nat) :
    ∃ c, ((valuesAfter v).find? fun c => !held.contains c) = some c := by
  refine Option.ne_none_iff_exists'.1 fun hnone => ?_
  have hsub : valuesAfter v ⊆ held := fun c hc => by simpa using List.find?_eq_none.1 hnone c hc
  have hlength := ((valuesAfter_nodup v).subperm hsub).length_le
  rw [valuesAfter_length] at hlength
  omega

/-- R185: the next notice seq is the first free value after `v`. -/
theorem nextSeqAfter_first_free {held : List Nat} (h : held.length < 256) (v : Nat) :
    nextSeqAfter held v ∉ held ∧ ∃ d, nextSeqAfter held v = (v + 1 + d) % 256 ∧ ∀ e < d, (v + 1 + e) % 256 ∈ held := by
  obtain ⟨c, hc⟩ := exists_find?_valuesAfter h v
  have hnext : nextSeqAfter held v = c := by rw [nextSeqAfter_eq, hc, Option.getD_some]
  obtain ⟨hfree, d, hd, hvalue, hbefore⟩ := List.find?_eq_some_iff_getElem.1 hc
  rw [hnext]
  refine ⟨by simpa using hfree, d, by simpa using hvalue.symm, fun e he => ?_⟩
  simpa using hbefore e he

/-! ### The marker (R181, R184) -/

/-- R184: with no marker present, a loss creates one. -/
theorem countLoss_of_no_marker {s : State} (kind : Nat) (h : ∀ e ∈ s.notices, e.notice.isMarker = false) :
    countLoss kind s = appendNotice (.overflow 1 kind) s := by
  have hfind : s.notices.find? (fun e => e.notice.isMarker) = none :=
    List.find?_eq_none.2 fun e he => Bool.eq_false_iff.1 (h e he)
  rw [countLoss, hfind]

/-- R184: with a marker among ordinary entries, a loss is counted in it where it stands when it is unsent, and re-arms
it at the tail when it was sent. -/
theorem countLoss_of_marker {s : State} {before after : List NoticeEntry} {lost last seq : Nat} {sent : Bool}
    (kind : Nat) (hs : s.notices = before ++ ⟨.overflow lost last, seq, sent⟩ :: after)
    (hordinary : ∀ e ∈ before ++ after, e.notice.isMarker = false) :
    countLoss kind s = if sent then
        appendNotice (.overflow (min 65535 (lost + 1)) kind) { s with notices := before ++ after }
      else { s with notices := before ++ ⟨.overflow (min 65535 (lost + 1)) kind, seq, false⟩ :: after } := by
  obtain ⟨hbefore, hafter⟩ := List.forall_mem_append.1 hordinary
  have hfind : s.notices.find? (fun e => e.notice.isMarker) = some ⟨.overflow lost last, seq, sent⟩ := by
    rw [hs, List.find?_append, List.find?_eq_none.2 fun e he => Bool.eq_false_iff.1 (hbefore e he)]
    rfl
  rw [countLoss, hfind]
  cases sent with
  | true =>
    have hfilter : s.notices.filter (fun e => !e.notice.isMarker) = before ++ after := by
      rw [hs, List.filter_append, List.filter_cons_of_neg (by simp [Notice.isMarker]), ← List.filter_append]
      exact List.filter_eq_self.2 fun e he => by rw [hordinary e he, Bool.not_false]
    simp only [hfilter, hold, if_true]
  | false =>
    have hkept (l : List NoticeEntry) (hl : ∀ e ∈ l, e.notice.isMarker = false) (n : Notice) :
        l.map (fun e => if e.notice.isMarker then { e with notice := n } else e) = l :=
      (List.map_congr_left fun e he => if_neg (Bool.eq_false_iff.1 (hl e he))).trans l.map_id
    simp only [hs, List.map_append, List.map_cons, hkept _ hbefore, hkept _ hafter]
    rfl

/-! ### A raise (R183, R184) -/

/-- R183: with an unsent entry of the key present, it takes the notice in place. -/
theorem raise_of_takes {n : Notice} {s : State} (h : s.notices.any (·.takes n.key) = true) :
    raise n s = { s with
      notices := s.notices.map fun e => if e.takes n.key then { e with notice := e.notice.combine n } else e } :=
  if_pos h

/-- R183: with no unsent entry of the key present and a place for an ordinary entry, the notice takes a new entry. -/
theorem raise_of_room {n : Notice} {s : State} (h : s.notices.any (·.takes n.key) = false)
    (hroom : s.ordinaryCount < 15) : raise n s = appendNotice n s :=
  (if_neg (Bool.eq_false_iff.1 h)).trans (if_pos hroom)

/-- R184: with neither, the notice is lost. -/
theorem raise_of_full {n : Notice} {s : State} (h : s.notices.any (·.takes n.key) = false)
    (hfull : 15 ≤ s.ordinaryCount) : raise n s = countLoss n.kindCode s :=
  (if_neg (Bool.eq_false_iff.1 h)).trans (if_neg (Nat.not_lt.2 hfull))

/-- R181: a list that the ordinary entries are holds no marker. -/
theorem isMarker_of_ordinary_eq {l entries : List NoticeEntry} (h : (entries.filter fun e => !e.notice.isMarker) = l) :
    ∀ e ∈ l, e.notice.isMarker = false := fun e he => by
  rw [← h, List.mem_filter] at he
  simpa using he.2

/-- Settles O52: the key by the kinds, a raise by its three outcomes, the next seq by counting the values held, and each
kind's rule as the model writes it. -/
theorem raisingANotice : Obligations.RaisingANotice := by
  unfold Obligations.RaisingANotice
  refine ⟨fun n => ?_, fun n s => ⟨raise_of_takes, raise_of_room, fun hnone hfull => ⟨fun hall => ?_, ?_⟩⟩,
    fun held v h => nextSeqAfter_first_free h v, ?_⟩
  · cases n <;> exact ⟨rfl, rfl⟩
  · exact (raise_of_full hnone hfull).trans (countLoss_of_no_marker _ (isMarker_of_ordinary_eq hall.symm))
  · intro before lost last seq sent after hs hordinary
    rw [hordinary]
    exact (raise_of_full hnone hfull).trans (countLoss_of_marker _ hs (isMarker_of_ordinary_eq hordinary))
  · exact ⟨fun _ _ _ _ _ => rfl, fun _ _ _ _ _ _ _ => rfl, fun _ _ _ _ _ _ _ => rfl, fun _ _ _ _ _ => rfl,
      fun _ _ _ _ _ _ _ _ => rfl, fun _ _ _ _ => rfl⟩

end Sys2Proof.Machine
end

