-- ==== Sys2Proof/Proofs/NoticeRequests.lean ====
section
/-! PROOF. ACK_NOTICES and RESEND_NOTICES (R187 to R189). -/

namespace Sys2Proof.Machine

/-! ### ACK_NOTICES (R187) -/

/-- R185: the entries older than a sent one are sent, and have other seqs. -/
theorem NoticeLaw.older_of_sent {s : State} {older newer : List NoticeEntry} {e : NoticeEntry} (h : NoticeLaw s)
    (hs : s.notices = older ++ e :: newer) (he : e.sent = true) : ∀ x ∈ older, x.sent = true ∧ x.seq ≠ e.seq := by
  obtain ⟨_, _, _, hseqs, _, _, _, hsent⟩ := h
  rw [hs] at hsent hseqs
  have hseqs := List.pairwise_map.1 hseqs
  exact fun x hx => ⟨(List.pairwise_append.1 hsent).2.2 x hx e (List.mem_cons_self ..) he,
    (List.pairwise_append.1 hseqs).2.2 x hx e (List.mem_cons_self ..)⟩

/-- R187: naming a sent entry behind sent entries with other seqs leaves what is newer. -/
theorem removeAcknowledged_append {n : Nat} {older newer : List NoticeEntry} {e : NoticeEntry}
    (holder : ∀ x ∈ older, x.sent = true ∧ x.seq ≠ n) (hn : e.seq = n) (he : e.sent = true) :
    removeAcknowledged n (older ++ e :: newer) = newer := by
  induction older with
  | nil => rw [List.nil_append, removeAcknowledged, if_pos hn, if_pos he]
  | cons x older ih =>
    obtain ⟨⟨hx, hxn⟩, hrest⟩ := List.forall_mem_cons.1 holder
    rw [List.cons_append, removeAcknowledged, if_neg hxn, if_pos hx, ih hrest]

/-- R187: the checks of an acknowledgement, and what it does. -/
theorem dealtWith_ack {s : State} (seq code : Byte) (args : List Byte) (hs : s.headFrame.isSome = true) :
    let n := arg8 args 0
    let rest := removeAcknowledged n s.notices
    dealtWith seq code (ackBody seq code args s) = answerBy seq code
      [(decide (args.length ≠ 1), .badLength),
       (decide ¬ (s.notices.any fun e => decide (e.seq = n) && e.sent) = true, .badArgument)] s
      (answered seq [code, 0x00, byteOf (s.notices.length - rest.length), byteOf rest.length]
        { s with notices := rest }) := by
  intro n rest
  refine dealtWith_check hs fun _ => ?_
  rw [← ite_not]
  exact dealtWith_check hs fun _ => dealtWith_reply (t := { s with notices := rest }) seq code .ok _ hs

/-- Settles O53, from what is done with the result of the row's body and the order of the sent entries. -/
theorem ackNotices : Obligations.AckNotices := by
  unfold Obligations.AckNotices
  intro s seq args h hlaw n
  have hexec := exec_of_dealtWith (body := ackBody) (after := id) (i := .ackNotices) rfl h rfl
    (dealtWith_ack seq 0x50 args h.headFrame_isSome)
  refine ⟨fun hrefused => hexec.trans ?_, fun older newer e hlength hs hn he => ?_⟩
  · by_cases hlength : args.length ≠ 1
    · rw [decide_eq_true hlength]
      rfl
    · have hunsent := hrefused.resolve_left hlength
      have hnone : ¬ (s.notices.any fun e => decide (e.seq = n) && e.sent) = true := by
        simpa using hunsent
      rw [decide_eq_true hnone, decide_eq_false hlength]
      rfl
  · have holder := hlaw.older_of_sent hs he
    have hany : (s.notices.any fun x => decide (x.seq = n) && x.sent) = true :=
      List.any_eq_true.2 ⟨e, by simp [hs], by simp [hn, he]⟩
    have hrest : removeAcknowledged n s.notices = newer := by
      rw [hs]
      exact removeAcknowledged_append (hn ▸ holder) hn he
    have hremoved : s.notices.length - newer.length = older.length + 1 := by
      rw [hs, List.length_append, List.length_cons]
      omega
    refine ⟨fun x hx => (holder x hx).1, hexec.trans ?_⟩
    rw [hrest, hremoved, decide_eq_false (not_not.2 hlength), decide_eq_false (not_not.2 hany)]
    rfl

/-! ### Folding (R189) -/

/-- R189: an entry keeps its key as it takes newer notices. -/
@[simp] theorem Notice.combine_key (old new : Notice) : (old.combine new).key = old.key := by
  unfold Notice.combine
  split <;> rfl

/-- What an entry keeps as others are folded into it: its key and its seq. -/
def NoticeEntry.label (e : NoticeEntry) : (Nat × Nat) × Nat := (e.notice.key, e.seq)

/-- The notices of one key, in queue order. -/
def noticesOfKey (key : Nat × Nat) (entries : List NoticeEntry) : List Notice :=
  (entries.filter fun x => decide (x.notice.key = key)).map (·.notice)

theorem noticesOfKey_cons_same {key : Nat × Nat} {e : NoticeEntry} (h : e.notice.key = key) (es : List NoticeEntry) :
    noticesOfKey key (e :: es) = e.notice :: noticesOfKey key es := by
  rw [noticesOfKey, List.filter_cons_of_pos (by simpa using h), List.map_cons, noticesOfKey]

theorem noticesOfKey_cons_other {key : Nat × Nat} {e : NoticeEntry} (h : e.notice.key ≠ key) (es : List NoticeEntry) :
    noticesOfKey key (e :: es) = noticesOfKey key es := by
  rw [noticesOfKey, List.filter_cons_of_neg (by simpa using h), noticesOfKey]

theorem any_key_iff (key : Nat × Nat) (kept : List NoticeEntry) :
    (kept.any fun k => decide (k.notice.key = key)) = true ↔ key ∈ kept.map (·.notice.key) := by
  simp

/-- R189: an entry of a key not kept yet is kept, unsent, behind the others. -/
theorem foldEntry_of_new_key {kept : List NoticeEntry} {e : NoticeEntry} (h : e.notice.key ∉ kept.map (·.notice.key)) :
    foldEntry kept e = kept ++ [{ e with sent := false }] :=
  if_neg (mt (any_key_iff _ kept).1 h)

/-- R189: an entry of a key kept already goes into the entries of its key. -/
theorem foldEntry_of_kept_key {kept : List NoticeEntry} {e : NoticeEntry} (h : e.notice.key ∈ kept.map (·.notice.key)) :
    foldEntry kept e =
      kept.map fun k => if k.notice.key = e.notice.key then { k with notice := k.notice.combine e.notice } else k :=
  if_pos ((any_key_iff _ kept).2 h)

/-- R189: folding an entry in keeps the labels, or adds the entry's own at the tail if its key is new. -/
theorem foldEntry_labels (kept : List NoticeEntry) (e : NoticeEntry) :
    (e.notice.key ∈ kept.map (·.notice.key) ∧ (foldEntry kept e).map (·.label) = kept.map (·.label)) ∨
      (e.notice.key ∉ kept.map (·.notice.key) ∧
        (foldEntry kept e).map (·.label) = kept.map (·.label) ++ [e.label]) := by
  by_cases h : e.notice.key ∈ kept.map (·.notice.key)
  · refine .inl ⟨h, ?_⟩
    rw [foldEntry_of_kept_key h, List.map_map]
    refine List.map_congr_left fun k _ => ?_
    by_cases hk : k.notice.key = e.notice.key <;> simp [NoticeEntry.label, hk]
  · exact .inr ⟨h, by rw [foldEntry_of_new_key h, List.map_append]; rfl⟩

theorem map_key_eq_labels (l : List NoticeEntry) : l.map (·.notice.key) = (l.map (·.label)).map (·.1) := by
  rw [List.map_map]
  rfl

theorem map_seq_eq_labels (l : List NoticeEntry) : l.map (·.seq) = (l.map (·.label)).map (·.2) := by
  rw [List.map_map]
  rfl

/-- R188: the entries that remain keep their keys, seqs and places. -/
theorem foldl_foldEntry_labels (kept entries : List NoticeEntry) :
    ((entries.foldl foldEntry kept).map (·.label)).Sublist (kept.map (·.label) ++ entries.map (·.label)) := by
  induction entries generalizing kept with
  | nil => simp
  | cons e es ih =>
    refine (ih (foldEntry kept e)).trans ?_
    obtain ⟨_, hlabels⟩ | ⟨_, hlabels⟩ := foldEntry_labels kept e
    · rw [hlabels, List.map_cons]
      exact (List.sublist_cons_self _ _).append_left _
    · rw [hlabels, List.append_assoc]
      exact .refl _

/-- R189: folding keeps the keys of the entries kept distinct. -/
theorem foldl_foldEntry_keys_nodup {kept : List NoticeEntry} (entries : List NoticeEntry)
    (h : (kept.map (·.notice.key)).Nodup) : ((entries.foldl foldEntry kept).map (·.notice.key)).Nodup := by
  induction entries generalizing kept with
  | nil => exact h
  | cons e es ih =>
    refine ih ?_
    rw [map_key_eq_labels]
    obtain ⟨_, hlabels⟩ | ⟨hnew, hlabels⟩ := foldEntry_labels kept e
    · rwa [hlabels, ← map_key_eq_labels]
    · rw [hlabels, List.map_append, ← map_key_eq_labels]
      exact List.concat_eq_append ▸ h.concat hnew

/-- R188: folding keeps every entry kept unsent. -/
theorem foldl_foldEntry_unsent {kept : List NoticeEntry} (entries : List NoticeEntry) (h : ∀ k ∈ kept, k.sent = false) :
    ∀ x ∈ entries.foldl foldEntry kept, x.sent = false := by
  induction entries generalizing kept with
  | nil => exact h
  | cons e es ih =>
    refine ih ?_
    by_cases hkey : e.notice.key ∈ kept.map (·.notice.key)
    · rw [foldEntry_of_kept_key hkey, List.forall_mem_map]
      intro k hk
      split <;> exact h k hk
    · rw [foldEntry_of_new_key hkey, List.forall_mem_append]
      exact ⟨h, List.forall_mem_singleton.2 rfl⟩

/-- R189: an entry kept takes the notices of its key, in queue order. -/
theorem mem_foldl_foldEntry {kept : List NoticeEntry} {k : NoticeEntry} (entries : List NoticeEntry) (hk : k ∈ kept) :
    { k with notice := (noticesOfKey k.notice.key entries).foldl Notice.combine k.notice } ∈
      entries.foldl foldEntry kept := by
  induction entries generalizing kept k with
  | nil => exact hk
  | cons e es ih =>
    rw [List.foldl_cons]
    by_cases hsame : e.notice.key = k.notice.key
    · have hkept : { k with notice := k.notice.combine e.notice } ∈ foldEntry kept e := by
        rw [foldEntry_of_kept_key (hsame ▸ List.mem_map_of_mem hk)]
        exact List.mem_map.2 ⟨k, hk, if_pos hsame.symm⟩
      have htail := ih hkept
      rw [Notice.combine_key] at htail
      rwa [noticesOfKey_cons_same hsame, List.foldl_cons]
    · have hkept : k ∈ foldEntry kept e := by
        by_cases hkey : e.notice.key ∈ kept.map (·.notice.key)
        · rw [foldEntry_of_kept_key hkey]
          exact List.mem_map.2 ⟨k, hk, if_neg (Ne.symm hsame)⟩
        · rw [foldEntry_of_new_key hkey]
          exact List.mem_append_left _ hk
      rw [noticesOfKey_cons_other hsame]
      exact ih hkept

/-- R189: the labels of the folded queue are among those of the queue, in its order. -/
theorem foldNotices_labels (entries : List NoticeEntry) :
    ((foldNotices entries).map (·.label)).Sublist (entries.map (·.label)) := foldl_foldEntry_labels [] entries

/-- R189: the oldest entry of a key remains, unsent, with what the newer entries of its key brought. -/
theorem oldest_mem_foldNotices {older newer : List NoticeEntry} {e : NoticeEntry}
    (h : e.notice.key ∉ older.map (·.notice.key)) :
    ⟨(noticesOfKey e.notice.key newer).foldl Notice.combine e.notice, e.seq, false⟩ ∈
      foldNotices (older ++ e :: newer) := by
  have hnew : e.notice.key ∉ (foldNotices older).map (·.notice.key) := fun hmem => by
    rw [map_key_eq_labels] at hmem h
    exact h (((foldNotices_labels older).map _).subset hmem)
  rw [foldNotices, List.foldl_append, List.foldl_cons, ← foldNotices, foldEntry_of_new_key hnew]
  exact mem_foldl_foldEntry newer (k := { e with sent := false })
    (List.mem_append_right _ (List.mem_singleton.2 rfl))

/-! ### RESEND_NOTICES (R188) -/

/-- R188: the check of a resend, and what it does. -/
theorem dealtWith_resend {s : State} (seq code : Byte) (args : List Byte) (hs : s.headFrame.isSome = true) :
    let folded := foldNotices s.notices
    let made := folded.filter fun x => s.notices.any fun e => decide (e.seq = x.seq) && e.sent
    dealtWith seq code (resendBody seq code args s) = answerBy seq code [(decide (args.length ≠ 0), .badLength)] s
      (if s.notices.all (fun e => !e.sent) then answered seq [code, 0x00, 0, 0] s
       else answered seq [code, 0x00, byteOf made.length, byteOf (s.notices.length - folded.length)]
        { s with notices := folded }) := by
  intro folded made
  refine dealtWith_check hs fun _ => ?_
  rw [List.not_any_eq_all_not, answerBy_nil]
  split
  · exact dealtWith_reply seq code .ok [0, 0] hs
  · exact dealtWith_reply (t := { s with notices := folded }) seq code .ok _ hs

/-- Settles O54: the folded queue is the model's, and the reply is what is done with the result of the row's body. -/
theorem resendNotices : Obligations.ResendNotices := by
  unfold Obligations.ResendNotices
  intro s seq args h
  refine ⟨foldNotices s.notices, ?_, foldl_foldEntry_keys_nodup s.notices .nil, fun older e newer hs hkey => ?_,
    fun x hx => ⟨foldl_foldEntry_unsent s.notices (by simp) x hx, ?_⟩, ?_⟩
  · rw [map_seq_eq_labels, map_seq_eq_labels]
    exact (foldNotices_labels s.notices).map _
  · rw [hs]
    exact oldest_mem_foldNotices hkey
  · obtain ⟨e, he, hlabel⟩ := List.mem_map.1 ((foldNotices_labels s.notices).subset (List.mem_map_of_mem hx))
    obtain ⟨hkey, hseq⟩ := Prod.ext_iff.1 hlabel
    exact ⟨e, he, hseq, hkey⟩
  · exact exec_of_dealtWith (body := resendBody) (after := id) rfl h rfl
      (dealtWith_resend seq 0x51 args h.headFrame_isSome)

end Sys2Proof.Machine
end

