-- ==== Sys2Proof/Proofs/RequestRows.lean ====
section
/-! SUPPORT. The request rows as a table, what taking a request comes to case by case (R168 to R171), and what a step
does with the queue of commands. -/

namespace Sys2Proof.Machine

/-! ### Steps -/

/-- What holds where the block idles and after every command holds after every step. -/
theorem step_cases {s t : State} (h : step s = .next t) :
    t = s ∨ ∃ c rest, exec c { s with pending := rest } = .next t := by
  unfold step at h
  split at h
  · exact .inl (Host.Outcome.next.inj h).symm
  · next c rest _ => exact .inr ⟨c, rest, h⟩

/-- Settles O1: a queue with a command in front is not empty. -/
theorem stepRunsTheFrontCommand : Obligations.StepRunsTheFrontCommand := by
  unfold Obligations.StepRunsTheFrontCommand
  exact fun _ _ _ => rfl

/-! ### The request rows (R168, R193) -/

/-- A request row: the request codes it takes, its body, and what the owning blocks go on to do. -/
structure RequestRow where
  names : Byte → Bool
  body : RequestBody
  after : State → State

/-- R193: the row of each request; a step row has none. -/
def requestRow : Instr → Option RequestRow
  | .ping => some ⟨onlyCode 0x01, pingBody, id⟩
  | .getInfo => some ⟨onlyCode 0x02, infoBody, id⟩
  | .deviceReset => some ⟨onlyCode 0x03, deviceResetBody, id⟩
  | .createSurface => some ⟨onlyCode 0x10, createBody, id⟩
  | .discardSurface => some ⟨onlyCode 0x11, discardBody, settle⟩
  | .sealSurface => some ⟨onlyCode 0x12, sealBody, id⟩
  | .reopenSurface => some ⟨onlyCode 0x13, reopenBody, id⟩
  | .getSurface => some ⟨onlyCode 0x14, getSurfaceBody, id⟩
  | .getMemoryMap => some ⟨onlyCode 0x15, getMemoryMapBody, id⟩
  | .beginUpload => some ⟨onlyCode 0x20, beginUploadBody, settle⟩
  | .uploadData => some ⟨onlyCode 0x21, uploadDataBody, settle⟩
  | .endUpload => some ⟨onlyCode 0x22, endUploadBody, settle⟩
  | .abortUpload => some ⟨onlyCode 0x23, abortUploadBody, settle⟩
  | .fillRect => some ⟨onlyCode 0x24, fillBody, settle⟩
  | .copyRect => some ⟨onlyCode 0x25, copyBody, settle⟩
  | .readPixels => some ⟨onlyCode 0x26, readBody, settle⟩
  | .fence => some ⟨onlyCode 0x27, fenceBody, settle⟩
  | .setOutput => some ⟨onlyCode 0x30, setOutputBody, id⟩
  | .startOutput => some ⟨onlyCode 0x31, startBody, id⟩
  | .stopOutput => some ⟨onlyCode 0x32, stopBody, id⟩
  | .getOutput => some ⟨onlyCode 0x33, getOutputBody, id⟩
  | .setPalette => some ⟨onlyCode 0x34, setPaletteBody, id⟩
  | .present => some ⟨onlyCode 0x40, presentBody, id⟩
  | .setCursor => some ⟨onlyCode 0x41, setCursorBody, id⟩
  | .moveCursor => some ⟨onlyCode 0x42, moveCursorBody, id⟩
  | .setBudget => some ⟨onlyCode 0x43, setBudgetBody, id⟩
  | .ackNotices => some ⟨onlyCode 0x50, ackBody, id⟩
  | .resendNotices => some ⟨onlyCode 0x51, resendBody, id⟩
  | .unknownRequest => some ⟨fun c => !catalogue.contains c, unknownBody, id⟩
  | .heldUploadDataExecute | .softReset | .hardResetAssert _ | .hardResetRelease _ _ | .receiveFrame _
  | .interByteTimeout | .transmitTake | .frameSent | .peBurstComplete | .fetchBurstComplete | .lineStart _
  | .frameStart _ | .fieldStart _ | .powerWaitExpiry _ | .clockWaitExpiry _ | .backlightWaitExpiry _
  | .supplyWaitExpiry _ | .receivedByte _ => none

theorem exec_requestRow {i : Instr} {row : RequestRow} (h : requestRow i = some row) (s : State) :
    exec i s = .next (takeRequest row.names row.body row.after s) := by
  cases i <;> cases h <;> rfl

theorem requestRow_isSome_iff (i : Instr) : (requestRow i).isSome = true ↔ isRequest i := by
  cases i <;> simp [requestRow, isRequest, requestCode]

/-- R193: the row of a request takes the frames of its code, UNKNOWN_REQUEST those of no row. -/
theorem requestRow_names {i : Instr} {row : RequestRow} (h : requestRow i = some row) (code : Byte) :
    row.names code = true ↔ requestCode i = some code ∨ (i = .unknownRequest ∧ code ∉ catalogue) := by
  have only (c : Byte) : onlyCode c code = true ↔ some c = some code ∨ False := by
    simp [onlyCode, eq_comm]
  cases i
  case unknownRequest => cases h; simp [requestCode]
  all_goals cases h
  all_goals simpa [requestCode] using only _

/-- R168: a row takes the frames it handles, and any frame with an empty payload (log 1). -/
theorem handles_iff {i : Instr} {row : RequestRow} (h : requestRow i = some row) (f : RequestFrame) :
    Handles i f ↔ f.code.elim true row.names = true := by
  have hi : isRequest i := (requestRow_isSome_iff i).1 (h ▸ rfl)
  unfold Handles RequestFrame.code
  cases f.payload with
  | nil => simp [hi]
  | cons code args => exact (requestRow_names h code).symm

/-! ### Taking a frame (R168 to R171) -/

/-- R168, R169: a frame can be taken exactly when the handler is free and a frame waits. -/
theorem canTake_iff (s : State) : s.canTake = true ↔ HandlerFree s ∧ s.headFrame.isSome = true := by
  have hfree : s.freeReplies = 0 ↔ ¬ s.replies.length + s.pendingReplies.length < 8 := by
    simp only [State.freeReplies, Config.replyQueueLength]
    omega
  unfold State.canTake State.handlerReady State.holdCauses HandlerFree
  by_cases hfull : s.freeReplies = 0
  · simp [hfull, hfree.1 hfull]
  · have hroom := Classical.not_not.1 (mt hfree.2 hfull)
    cases s.held with
    | none => simp [hfull, hroom]
    | some x => cases x <;> simp [hfull]

/-- R168 to R171: what a request row comes to. Nothing, since no frame can be taken or the frame is another row's; a
retry answered again; an empty payload answered; or a new request of the row's own codes. -/
theorem takeRequest_cases (names : Byte → Bool) (body : RequestBody) (after : State → State) (s : State) :
    takeRequest names body after s = s ∨
    (∃ f payload, HandlerFree s ∧ s.headFrame = some f ∧
      takeRequest names body after s = releaseHead (queueReply f.seq payload s)) ∨
    (∃ f, HandlerFree s ∧ s.headFrame = some f ∧ s.cached f.seq = none ∧ s.isPending f.seq = false ∧
      takeRequest names body after s = finishRequest f.seq (replyPayload 0 .badLength []) s) ∨
    ∃ seq code args, Taking s seq code args ∧ names code = true ∧
      takeRequest names body after s = after (dealtWith seq code (body seq code args s)) := by
  unfold takeRequest
  split
  · next hcan =>
    obtain ⟨hfree, hsome⟩ := (canTake_iff s).1 hcan
    split
    · exact .inl rfl
    · next f hf =>
      split
      · next hnames =>
        unfold handleFrame
        split
        · next r hr => exact .inr (.inl ⟨f, _, hfree, hf, rfl⟩)
        · next hcached =>
          split
          · exact .inr (.inl ⟨f, _, hfree, hf, rfl⟩)
          · next hpending =>
            have hpending := Bool.eq_false_iff.2 hpending
            obtain ⟨seq, payload⟩ := f
            cases payload with
            | nil => exact .inr (.inr (.inl ⟨_, hfree, hf, hcached, hpending, rfl⟩))
            | cons code args =>
              refine .inr (.inr (.inr ⟨seq, code, args, ⟨hfree, hf, hcached, hpending⟩, hnames, ?_⟩))
              rw [← executeRequest_eq_dealtWith]
      · exact .inl rfl
  · exact .inl rfl

/-- Settles O13, row by row of the table: the duplicate check and the empty payload come before the row's own body. -/
theorem takingAFrame : Obligations.TakingAFrame := by
  unfold Obligations.TakingAFrame
  refine ⟨fun i f s hfree hf hhandles => ?_, fun i s hi hnot => ?_⟩
  · have hi : isRequest i := by
      unfold Handles at hhandles
      split at hhandles
      · exact hhandles
      · exact hhandles.imp (fun h => by rw [h]; rfl) And.left
    obtain ⟨row, hrow⟩ := Option.isSome_iff_exists.1 ((requestRow_isSome_iff i).2 hi)
    have hsome : s.headFrame.isSome = true := hf ▸ rfl
    have htake : exec i s = .next (handleFrame row.body row.after f s) := by
      rw [exec_requestRow hrow, takeRequest, if_pos ((canTake_iff s).2 ⟨hfree, hsome⟩), hf]
      exact congrArg _ (if_pos ((handles_iff hrow f).1 hhandles))
    rw [htake]
    unfold handleFrame
    refine ⟨fun r hr => ?_, fun hcached hpending => ?_, fun hcached hpending hempty => ?_⟩
    · rw [hr]
      exact congrArg _ (releaseHead_eq (s := queueReply f.seq r.payload s) hsome)
    · rw [hcached, if_pos hpending]
      exact congrArg _ (releaseHead_eq (s := queueReply f.seq _ s) hsome)
    · rw [hcached, if_neg (by simp [hpending]), hempty]
      exact congrArg _ (releaseHead_eq (s := pushReply f.seq _ s) hsome)
  · obtain ⟨row, hrow⟩ := Option.isSome_iff_exists.1 ((requestRow_isSome_iff i).2 hi)
    rw [exec_requestRow hrow, takeRequest]
    split
    · next hcan =>
      obtain ⟨hfree, hsome⟩ := (canTake_iff s).1 hcan
      obtain ⟨f, hf⟩ := Option.isSome_iff_exists.1 hsome
      have hother : ¬ Handles i f := by simpa [hf] using hnot.resolve_left (not_not.2 hfree)
      rw [hf]
      exact congrArg _ (if_neg (mt (handles_iff hrow f).2 hother))
    · rfl

/-! ### PING, GET_INFO and an unknown request (R168, R177) -/

/-- R192: the formats, transforms and hints by their codes. -/
theorem enumerated_fields (n : Nat) :
    formatOf n = [Format.ov2, .ix4, .ix8, .rgb16][n]? ∧ transformOf n = [Transform.t0, .t90, .t180, .t270][n]? ∧
      hintOf n = [Hint.low, .high][n]? := by
  refine ⟨?_, ?_, ?_⟩
  · match n with
    | 0 | 1 | 2 | 3 => rfl
    | _ + 4 => rfl
  · match n with
    | 0 | 1 | 2 | 3 => rfl
    | _ + 4 => rfl
  · match n with
    | 0 | 1 => rfl
    | _ + 2 => rfl

/-- R177: a request without arguments that only reports. -/
theorem dealtWith_report {s : State} (seq code : Byte) (args fields : List Byte) (hs : s.headFrame.isSome = true) :
    dealtWith seq code (if args.length ≠ 0 then refuse .badLength s else (s, .reply .ok fields)) =
      answerBy seq code [(decide (args.length ≠ 0), .badLength)] s (answered seq ([code, 0x00] ++ fields) s) :=
  dealtWith_check hs fun _ => dealtWith_reply seq code .ok fields hs

/-- Settles O14: the codes by their tables, and the three rows by what is done with their bodies' results. -/
theorem pingInfoAndUnknown : Obligations.PingInfoAndUnknown := by
  unfold Obligations.PingInfoAndUnknown
  refine ⟨⟨by decide, enumerated_fields, by decide, by decide, by decide, by decide, by decide, by decide, by decide,
    by decide⟩, fun s seq args => ⟨fun h => ?_, fun h => ?_, fun code h hcode => ?_⟩⟩
  · exact exec_of_dealtWith (body := pingBody) (after := id) rfl h rfl
      (dealtWith_report seq 0x01 args [] h.headFrame_isSome)
  · refine (exec_of_dealtWith (body := infoBody) (after := id) rfl h rfl
      (dealtWith_report seq 0x02 args (infoFields s) h.headFrame_isSome)).trans ?_
    unfold infoFields linkCodes
    cases s.linkMode with
    | none => rfl
    | some mode => cases mode <;> rfl
  · exact exec_of_dealtWith (body := unknownBody) (after := id) rfl h (by simpa using hcode)
      (dealtWith_reply seq code .unknownRequest [] h.headFrame_isSome)

end Sys2Proof.Machine
end

