-- ==== Sys2Proof/Proofs/Replies.lean ====
section
/-! PROOF. The reply cache, the completion of deferred requests, and DEVICE_RESET (R172 to R174, R178). -/

namespace Sys2Proof.Machine

/-! ### The reply cache (R172) -/

/-- R172: the cache keeps the eight newest of its entries of other seqs and the new one. -/
theorem cacheInsert_eq_drop (r : Reply) {cache : List Reply} (h : cache.length ≤ 8) :
    cacheInsert r cache =
      let newest := cache.filter (fun c => decide (c.seq ≠ r.seq)) ++ [r]
      newest.drop (newest.length - 8) := by
  unfold cacheInsert
  have hkept := List.length_filter_le (fun c : Reply => decide (c.seq ≠ r.seq)) cache
  generalize cache.filter (fun c => decide (c.seq ≠ r.seq)) = kept at hkept ⊢
  simp only [List.length_append, List.length_singleton]
  by_cases hfull : Config.replyCacheLength ≤ kept.length
  · have hfull' : 8 ≤ kept.length := hfull
    have hone : kept.length + 1 - 8 = 1 := by omega
    rw [if_pos hfull, hone, List.drop_append_of_le_length (by omega)]
  · have hroom : ¬ 8 ≤ kept.length := hfull
    have hnone : kept.length + 1 - 8 = 0 := by omega
    rw [if_neg hfull, hnone, List.drop_zero]

/-! ### Completing deferred requests (R174) -/

/-- R173: the seqs being distinct, the entry of a seq is the one found. -/
theorem find?_pending {ps : List PendingReply} (h : (ps.map (·.seq)).Nodup) {p : PendingReply} (hp : p ∈ ps) :
    ps.find? (fun q => decide (q.seq = p.seq)) = some p := by
  cases hfind : ps.find? fun q => decide (q.seq = p.seq) with
  | none => exact absurd rfl (of_decide_eq_false (Bool.eq_false_iff.2 (List.find?_eq_none.1 hfind p hp)))
  | some q =>
    have hseq : q.seq = p.seq := of_decide_eq_true (List.find?_some (p := fun q : PendingReply => decide (q.seq = p.seq)) hfind)
    rw [List.inj_on_of_nodup_map h (List.mem_of_find?_eq_some hfind) hp hseq]

/-- R174: the reply of a deferred request moves from its entry to the reply queue and the cache. -/
theorem completeSeq_of_mem {s : State} (h : (s.pendingReplies.map (·.seq)).Nodup) {p : PendingReply}
    (hp : p ∈ s.pendingReplies) (st : Status) (fields : List Byte) :
    completeSeq p.seq st fields s =
      { s with
        replies := s.replies ++ [⟨p.seq, [p.code, st.code] ++ fields⟩]
        cache := cacheInsert ⟨p.seq, [p.code, st.code] ++ fields⟩ s.cache
        pendingReplies := s.pendingReplies.filter fun q => decide (q.seq ≠ p.seq) } := by
  rw [completeSeq, find?_pending h hp]
  rfl

/-- R174: the reply without fields of a deferred request. -/
def PendingReply.reply (st : Status) (p : PendingReply) : Reply := ⟨p.seq, [p.code, st.code]⟩

/-- R174: completing distinct deferred requests queues and caches their replies in order and frees their entries. -/
theorem foldl_completeSeq_of_mem {s : State} (h : (s.pendingReplies.map (·.seq)).Nodup) (st : Status)
    {ps : List PendingReply} (hnodup : ps.Nodup) (hps : ∀ p ∈ ps, p ∈ s.pendingReplies) :
    ps.foldl (fun acc p => completeSeq p.seq st [] acc) s =
      { s with
        replies := s.replies ++ ps.map (PendingReply.reply st)
        cache := (ps.map (PendingReply.reply st)).foldl (fun cache r => cacheInsert r cache) s.cache
        pendingReplies := s.pendingReplies.filter fun q => decide (q ∉ ps) } := by
  induction ps generalizing s with
  | nil => simp
  | cons p ps ih =>
    obtain ⟨hfirst, hlater⟩ := List.nodup_cons.1 hnodup
    have hp := hps p List.mem_cons_self
    have hother (q : PendingReply) (hq : q ∈ s.pendingReplies) : q.seq = p.seq ↔ q = p :=
      ⟨List.inj_on_of_nodup_map h hq hp, congrArg _⟩
    have hfilter : (s.pendingReplies.filter fun q => decide (q.seq ≠ p.seq)) =
        s.pendingReplies.filter fun q => decide (q ≠ p) :=
      List.filter_congr fun q hq => decide_eq_decide.2 (not_congr (hother q hq))
    rw [List.foldl_cons, completeSeq_of_mem h hp, ih _ hlater]
    · simp only [hfilter, List.filter_filter, List.append_assoc, List.mem_cons, not_or, Bool.decide_and]
      congr 1
      exact List.filter_congr fun q _ => Bool.and_comm _ _
    · intro q hq
      have hne : q ≠ p := fun heq => hfirst (heq ▸ hq)
      have hmem := hps q (List.mem_cons_of_mem _ hq)
      exact List.mem_filter.2 ⟨hmem, decide_eq_true (mt (hother q hmem).1 hne)⟩
    · exact h.sublist (List.filter_sublist.map _)

/-- R174: completing the requests of a reference, in the order they were taken. -/
theorem completeRef_eq_done {s : State} (h : (s.pendingReplies.map (·.seq)).Nodup) (ref : PendingRef) (st : Status) :
    let done := (s.pendingReplies.filter fun p => decide (p.ref = ref)).map (PendingReply.reply st)
    completeRef ref st s =
      { s with
        replies := s.replies ++ done
        cache := done.foldl (fun cache r => cacheInsert r cache) s.cache
        pendingReplies := s.pendingReplies.filter fun p => decide (p.ref ≠ ref) } := by
  rw [completeRef, foldl_completeSeq_of_mem h st (h.of_map _ |>.filter _) fun p hp => List.mem_of_mem_filter hp]
  simp only [List.mem_filter, decide_eq_true_eq]
  congr 1
  exact List.filter_congr fun q hq => by simp [hq]

/-- R178: cancelling leaves no request pending. -/
theorem cancelPending_eq_done {s : State} (h : (s.pendingReplies.map (·.seq)).Nodup) :
    let done := s.pendingReplies.map (PendingReply.reply .cancelled)
    cancelPending s =
      { s with
        replies := s.replies ++ done
        cache := done.foldl (fun cache r => cacheInsert r cache) s.cache
        pendingReplies := [] } := by
  rw [cancelPending, foldl_completeSeq_of_mem h _ (h.of_map _) fun _ hp => hp]
  simp only [State.mk.injEq, List.filter_eq_nil_iff, and_true, true_and]
  exact fun p hp => by simp [hp]

/-- Settles O15. -/
theorem repliesAndTheCache : Obligations.RepliesAndTheCache := by
  unfold Obligations.RepliesAndTheCache
  refine ⟨fun r cache h => cacheInsert_eq_drop r h, fun ref st s h => completeRef_eq_done h ref st,
    fun seq st fields s => ⟨completeSeq_absent st fields, fun p hp hseq h => ?_⟩⟩
  subst hseq
  exact completeSeq_of_mem h hp st fields

/-! ### DEVICE_RESET (R178) -/

/-- R178: the check of a reset request, and how the drain begins. -/
theorem dealtWith_deviceReset {s : State} (seq code : Byte) (args : List Byte) (hs : s.headFrame.isSome = true)
    (hseqs : (s.pendingReplies.map (·.seq)).Nodup) :
    let answers := s.pendingReplies.map (PendingReply.reply .cancelled) ++ [⟨seq, [code, 0x00]⟩]
    dealtWith seq code (deviceResetBody seq code args s) = answerBy seq code
      [(decide (args.length ≠ 0), .badLength)] s
      { slotReleased s with
        replies := s.replies ++ answers
        cache := answers.foldl (fun cache r => cacheInsert r cache) s.cache
        pendingReplies := []
        pe := { s.pe with stopped := true, request := none }
        held := some (.reset seq) } := by
  intro answers
  refine dealtWith_check hs fun _ => ?_
  rw [cancelPending_eq_done hseqs]
  simp only [answers, List.foldl_append, ← List.append_assoc]
  exact dealtWith_reply (t := { s with
    replies := _, cache := _, pendingReplies := _, pe := _, held := _ }) seq code .ok [] hs

/-- Settles O16. -/
theorem deviceResetBeginsTheDrain : Obligations.DeviceResetBeginsTheDrain := by
  unfold Obligations.DeviceResetBeginsTheDrain
  intro s seq args h hseqs
  exact exec_of_dealtWith (body := deviceResetBody) (after := id) rfl h rfl
    (dealtWith_deviceReset seq 0x03 args h.headFrame_isSome hseqs)

end Sys2Proof.Machine
end

