-- ==== Sys2Proof/Proofs/Placement.lean ====
section
/-! PROOF. First-fit placement (R6) and CREATE_SURFACE (R1, R3, R12, R13). -/

namespace Sys2Proof.Machine

/-! ### Free windows and free runs (R5, R6) -/

/-- Every granule of a run has the run's owner. -/
theorem laidFrom_granule {start : Nat} {runs : List Run} {r : Run} (h : laidFrom start runs) (hr : r ∈ runs) {g : Nat}
    (hlow : r.start ≤ g) (hhigh : g < r.start + r.length) :
    start ≤ g ∧ (granulesOfRuns runs)[g - start]? = some r.owner := by
  induction runs generalizing start with
  | nil => cases hr
  | cons q qs ih =>
    obtain ⟨hstart, hlength, hlaid⟩ := h
    rw [granulesOfRuns_cons]
    cases hr with
    | head =>
      refine ⟨hstart ▸ hlow, ?_⟩
      rw [List.getElem?_append_left (by simp; omega), List.getElem?_replicate, if_pos (by omega)]
    | tail _ hr =>
      obtain ⟨hle, hgranule⟩ := ih hlaid hr
      refine ⟨by omega, ?_⟩
      rw [List.getElem?_append_right (by simp; omega), List.length_replicate, ← hgranule]
      congr 1
      omega

/-- Runs laid end to end do not meet. -/
theorem laidFrom_pairwise_end {start : Nat} {runs : List Run} (h : laidFrom start runs) :
    runs.Pairwise fun r q => r.start + r.length ≤ q.start := by
  induction runs generalizing start with
  | nil => exact .nil
  | cons r rs ih =>
    obtain ⟨hstart, hlength, hlaid⟩ := h
    refine .cons (fun q hq => ?_) (ih hlaid)
    have := (laidFrom_first_granule hlaid hq).1
    omega

/-- R5: a window of free granules lies within one free run, since the run after a free one is not free. -/
theorem window_in_run {start : Nat} {runs : List Run} (h : laidFrom start runs)
    (hchain : runs.IsChain fun r q => r.owner ≠ q.owner) {b n : Nat} (hn : 1 ≤ n) (hb : start ≤ b)
    (hfree : ∀ g, b ≤ g → g < b + n → (granulesOfRuns runs)[g - start]? = some none) :
    ∃ r ∈ runs, r.owner = none ∧ r.start ≤ b ∧ b + n ≤ r.start + r.length := by
  induction runs generalizing start with
  | nil => cases hfree b le_rfl (by omega)
  | cons r rs ih =>
    obtain ⟨hstart, hlength, hlaid⟩ := h
    obtain ⟨hnext, hchain⟩ := List.isChain_cons.1 hchain
    have hlater (g : Nat) (hg : start + r.length ≤ g) :
        (granulesOfRuns (r :: rs))[g - start]? = (granulesOfRuns rs)[g - (start + r.length)]? := by
      rw [granulesOfRuns_cons, List.getElem?_append_right (by simp; omega), List.length_replicate, Nat.sub_sub]
    by_cases hin : start + r.length ≤ b
    · obtain ⟨q, hq, hrun⟩ := ih hlaid hchain hin fun g hg hg' => by rw [← hlater g (by omega), hfree g hg hg']
      exact ⟨q, List.mem_cons_of_mem _ hq, hrun⟩
    · have howner : r.owner = none := by
        have hfirst := (laidFrom_granule (runs := r :: rs) ⟨hstart, hlength, hlaid⟩ List.mem_cons_self (g := b)
          (by omega) (by omega)).2
        rw [hfree b le_rfl (by omega)] at hfirst
        exact (Option.some.inj hfirst).symm
      refine ⟨r, List.mem_cons_self, howner, by omega, ?_⟩
      by_contra hpast
      have hend := hfree (start + r.length) (by omega) (by omega)
      rw [hlater _ le_rfl] at hend
      cases rs with
      | nil => cases hend
      | cons q qs =>
        have hfirst := (laidFrom_first_granule hlaid List.mem_cons_self).2
        rw [hlaid.1, hend, Option.some.injEq] at hfirst
        exact hnext q rfl (howner.trans hfirst)

theorem windowFree_iff (map : List (Option Nat)) (b n : Nat) :
    windowFree map b n ↔ ∀ g, b ≤ g → g < b + n → map[g]? = some none := by
  have hgranule (g : Nat) : map.getD g (some 0) = none ↔ map[g]? = some none := by
    rw [List.getD_eq_getElem?_getD]
    cases map[g]? <;> simp
  simp only [windowFree, hgranule]

theorem mem_freeRuns {s : State} {r : Run} : r ∈ s.freeRuns ↔ r ∈ s.runs ∧ r.owner = none := by
  simp [State.freeRuns]

/-- R5: a window that lies within a free run is free. -/
theorem windowFree_of_run {s : State} {r : Run} (hr : r ∈ s.freeRuns) {b n : Nat} (hlow : r.start ≤ b)
    (hhigh : b + n ≤ r.start + r.length) : windowFree s.granules b n := by
  obtain ⟨hrun, howner⟩ := mem_freeRuns.1 hr
  refine (windowFree_iff _ _ _).2 fun g hg hg' => ?_
  have hgranule := (laidFrom_granule (runsFrom_laidFrom 0 s.granules) hrun (g := g) (by omega) (by omega)).2
  rwa [granulesOfRuns_runsFrom, howner] at hgranule

/-- R5: and every free window lies within one. -/
theorem exists_run_of_windowFree {s : State} {b n : Nat} (hn : 1 ≤ n) (h : windowFree s.granules b n) :
    ∃ r ∈ s.freeRuns, r.start ≤ b ∧ b + n ≤ r.start + r.length := by
  rw [windowFree_iff] at h
  obtain ⟨r, hr, howner, hwithin⟩ := window_in_run (runsFrom_laidFrom 0 s.granules) (runsFrom_isChain 0 s.granules) hn
    (Nat.zero_le b) fun g hg hg' => by rw [granulesOfRuns_runsFrom]; exact h g hg hg'
  exact ⟨r, mem_freeRuns.2 ⟨hr, howner⟩, hwithin⟩

/-- R6: the free runs long enough, in ascending order. -/
def State.fittingRuns (s : State) (n : Nat) : List Run := s.freeRuns.filter fun r => decide (n ≤ r.length)

theorem mem_fittingRuns {s : State} {n : Nat} {r : Run} : r ∈ s.fittingRuns n ↔ r ∈ s.freeRuns ∧ n ≤ r.length := by
  simp [State.fittingRuns]

theorem fittingRuns_pairwise (s : State) (n : Nat) :
    (s.fittingRuns n).Pairwise fun r q => r.start + r.length ≤ q.start :=
  ((laidFrom_pairwise_end (runsFrom_laidFrom 0 s.granules)).filter _).filter _

theorem exists_fitting_of_windowFree {s : State} {b n : Nat} (hn : 1 ≤ n) (h : windowFree s.granules b n) :
    ∃ r ∈ s.fittingRuns n, r.start ≤ b ∧ b + n ≤ r.start + r.length := by
  obtain ⟨r, hr, hlow, hhigh⟩ := exists_run_of_windowFree hn h
  exact ⟨r, mem_fittingRuns.2 ⟨hr, by omega⟩, hlow, hhigh⟩

theorem place_low (s : State) (n : Nat) : s.place n .low = (s.fittingRuns n).head?.map (·.start) := rfl

theorem place_high (s : State) (n : Nat) :
    s.place n .high = (s.fittingRuns n).getLast?.map fun r => r.start + r.length - n := rfl

/-- R6: a place found is the beginning or the end of a fitting run. -/
theorem place_in_run {s : State} {n b : Nat} {hint : Hint} (h : s.place n hint = some b) :
    ∃ r ∈ s.fittingRuns n, r.start ≤ b ∧ b + n ≤ r.start + r.length := by
  cases hint with
  | low =>
    obtain ⟨r, hr, rfl⟩ := Option.map_eq_some_iff.1 (place_low s n ▸ h)
    have hmem := List.mem_of_mem_head? hr
    have := (mem_fittingRuns.1 hmem).2
    exact ⟨r, hmem, le_rfl, by omega⟩
  | high =>
    obtain ⟨r, hr, rfl⟩ := Option.map_eq_some_iff.1 (place_high s n ▸ h)
    have hmem := List.mem_of_mem_getLast? hr
    have := (mem_fittingRuns.1 hmem).2
    exact ⟨r, hmem, by omega, by omega⟩

/-- R6: no place is found exactly when no run fits. -/
theorem fittingRuns_eq_nil_of_place {s : State} {n : Nat} {hint : Hint} (h : s.place n hint = none) :
    s.fittingRuns n = [] := by
  cases hint with
  | low => exact List.head?_eq_none_iff.1 (Option.map_eq_none_iff.1 (place_low s n ▸ h))
  | high => exact List.getLast?_eq_none_iff.1 (Option.map_eq_none_iff.1 (place_high s n ▸ h))

/-- R6: a window found is free. -/
theorem place_windowFree {s : State} {n b : Nat} {hint : Hint} (h : s.place n hint = some b) :
    windowFree s.granules b n := by
  obtain ⟨r, hr, hlow, hhigh⟩ := place_in_run h
  exact windowFree_of_run (mem_fittingRuns.1 hr).1 hlow hhigh

/-- A free window ends within the map. -/
theorem windowFree_end_le {map : List (Option Nat)} {b n : Nat} (hn : 1 ≤ n) (h : windowFree map b n) :
    b + n ≤ map.length := by
  have hlast := (windowFree_iff _ _ _).1 h (b + n - 1) (by omega) (by omega)
  have := (List.getElem?_eq_some_iff.1 hlast).1
  omega

/-- R6: the longest free run is at least as long as any, and is one of them. -/
theorem le_longestFreeRun_iff (s : State) {n : Nat} (hn : 1 ≤ n) :
    n ≤ s.longestFreeRun ↔ ∃ r ∈ s.freeRuns, n ≤ r.length := by
  have hmax (l : List Nat) (a : Nat) : n ≤ l.foldl max a ↔ n ≤ a ∨ ∃ x ∈ l, n ≤ x := by
    induction l generalizing a with
    | nil => simp
    | cons x xs ih => simp [ih, or_assoc]
  rw [State.longestFreeRun, hmax]
  simp [Nat.not_le.2 hn]

/-- Settles O18, from the correspondence of free windows and free runs. -/
theorem placementIsFirstFit : Obligations.PlacementIsFirstFit := by
  unfold Obligations.PlacementIsFirstFit
  intro s n hlength hn
  refine ⟨fun hint b h => ?_, fun hint h b hfree => ?_, fun b h c hc hfree => ?_, fun b h c hc hfree => ?_, ?_⟩
  · have hfree := place_windowFree h
    exact ⟨hlength ▸ windowFree_end_le hn hfree, hfree⟩
  · obtain ⟨r, hr, _⟩ := exists_fitting_of_windowFree hn hfree
    rw [fittingRuns_eq_nil_of_place h] at hr
    cases hr
  · obtain ⟨q, hq, hlow, _⟩ := exists_fitting_of_windowFree hn hfree
    obtain ⟨r, hr, rfl⟩ := Option.map_eq_some_iff.1 (place_low s n ▸ h)
    obtain ⟨rest, hrest⟩ := List.head?_eq_some_iff.1 hr
    have hpair := fittingRuns_pairwise s n
    rw [hrest] at hq hpair
    rcases List.mem_cons.1 hq with rfl | hq
    · omega
    · have := List.rel_of_pairwise_cons hpair hq
      omega
  · obtain ⟨q, hq, _, hhigh⟩ := exists_fitting_of_windowFree hn hfree
    obtain ⟨r, hr, rfl⟩ := Option.map_eq_some_iff.1 (place_high s n ▸ h)
    obtain ⟨before, hbefore⟩ := List.getLast?_eq_some_iff.1 hr
    have hpair := fittingRuns_pairwise s n
    rw [hbefore] at hq hpair
    have hq' : q.start + q.length ≤ r.start + r.length := by
      rcases List.mem_append.1 hq with hq | hq
      · have := (List.pairwise_append.1 hpair).2.2 q hq r (List.mem_singleton_self r)
        omega
      · rw [List.mem_singleton.1 hq]
    omega
  · rw [le_longestFreeRun_iff s hn]
    constructor
    · rintro ⟨r, hr, hlong⟩
      exact ⟨r.start, windowFree_of_run hr le_rfl (by omega)⟩
    · rintro ⟨b, hfree⟩
      obtain ⟨r, hr, _, _⟩ := exists_run_of_windowFree hn hfree
      exact ⟨r, hr, by omega⟩

/-! ### CREATE_SURFACE (R12, R13) -/

/-- R3: bytes per stored row, as the rule writes them. -/
theorem strideOf_eq (f : Format) (width : Nat) : strideOf f width = (width * f.bpp + 63) / 64 * 8 := rfl

/-- R3: the region size, as the rule writes it. -/
theorem granulesOf_eq (stride height : Nat) : granulesOf stride height = (stride * height + 4095) / 4096 := by
  rw [granulesOf, ceilDiv, Config.granuleBytes, Nat.add_sub_assoc (by decide)]

/-- R13: the lowest id whose record is EMPTY heads the ids whose record is. -/
theorem lowestEmpty_eq_head? (s : State) :
    s.lowestEmpty = ((List.range 64).filter fun id => decide ((s.surface id).state = .empty)).head? :=
  List.head?_filter.symm

theorem not_dimensionOk (n : Nat) : (!dimensionOk n) = decide (n < 1 ∨ 2048 < n) := by
  simp only [dimensionOk, Bool.not_and, ← decide_not, Nat.not_le, Bool.decide_or]

/-- R12, R13: the space checks, and what is created. -/
theorem dealtWith_createPlaced {s : State} (seq code : Byte) (f : Format) (t : Transform) (w h : Nat) (hint : Hint)
    (hs : s.headFrame.isSome = true) :
    let size := storedSize t w h
    let stride := strideOf f size.1
    let n := granulesOf stride size.2
    let ids := (List.range 64).filter fun id => decide ((s.surface id).state = .empty)
    let id := ids.headD 64
    dealtWith seq code (createPlaced f t w h hint s) = answerBy seq code [(decide (ids = []), .tableFull)] s
      (match s.place n hint with
        | none => answered seq ([code, 0x07] ++ le16 s.longestFreeRun) s
        | some base => answered seq ([code, 0x00, byteOf id] ++ le16 base ++ le16 n ++ le16 stride)
            (createAt id (newSurface f t w h base hint s.era) s)) := by
  have hlowest := lowestEmpty_eq_head? s
  generalize (List.range 64).filter (fun id => decide ((s.surface id).state = .empty)) = empties at hlowest ⊢
  intro size stride n ids id
  unfold createPlaced
  rw [hlowest]
  cases empties with
  | nil => exact dealtWith_reply seq code .tableFull [] hs
  | cons first rest =>
    change dealtWith seq code (match s.place n hint with | none => _ | some base => _) =
      (match s.place n hint with | none => _ | some base => _)
    cases s.place n hint with
    | none => exact dealtWith_reply seq code .noSpace _ hs
    | some base => exact dealtWith_reply (t := createAt _ _ s) seq code .ok _ hs

/-- R12, R13: the checks of a CREATE_SURFACE, and what it does. -/
theorem dealtWith_create {s : State} (seq code : Byte) (args : List Byte) (hs : s.headFrame.isSome = true) :
    let f := formatOf (arg8 args 0)
    let tr := transformOf (arg8 args 1)
    let w := arg16 args 2
    let h := arg16 args 4
    let hint := hintOf (arg8 args 6)
    let size := storedSize (tr.getD .t0) w h
    let stride := strideOf (f.getD .ov2) size.1
    let n := granulesOf stride size.2
    let ids := (List.range 64).filter fun id => decide ((s.surface id).state = .empty)
    let id := ids.headD 64
    dealtWith seq code (createBody seq code args s) = answerBy seq code
      [(decide (args.length ≠ 7), .badLength),
       (f.isNone || tr.isNone || hint.isNone || decide (w < 1 ∨ 2048 < w ∨ h < 1 ∨ 2048 < h), .badArgument),
       (decide (f = some .ov2 ∧ tr ≠ some .t0), .unsupported), (decide (ids = []), .tableFull)] s
      (match s.place n (hint.getD .low) with
        | none => answered seq ([code, 0x07] ++ le16 s.longestFreeRun) s
        | some base => answered seq ([code, 0x00, byteOf id] ++ le16 base ++ le16 n ++ le16 stride)
            (createAt id (newSurface (f.getD .ov2) (tr.getD .t0) w h base (hint.getD .low) s.era) s)) := by
  obtain ⟨f, hf⟩ : ∃ f, formatOf (arg8 args 0) = f := ⟨_, rfl⟩
  obtain ⟨tr, htr⟩ : ∃ tr, transformOf (arg8 args 1) = tr := ⟨_, rfl⟩
  obtain ⟨hint, hhint⟩ : ∃ hint, hintOf (arg8 args 6) = hint := ⟨_, rfl⟩
  rw [hf, htr, hhint]
  intro f' tr' w h hint' size stride n ids id
  refine dealtWith_check hs fun _ => ?_
  have hbad : dealtWith seq code (refuse .badArgument s) = answered seq [code, Status.badArgument.code] s :=
    dealtWith_reply seq code .badArgument [] hs
  rw [hf, htr, hhint]
  cases f with
  | none => exact hbad
  | some f =>
    cases tr with
    | none => exact hbad
    | some t =>
      cases hint with
      | none => exact hbad
      | some hint =>
        have hdims : (!(dimensionOk w && dimensionOk h)) =
            ((some f).isNone || (some t).isNone || (some hint).isNone ||
              decide (w < 1 ∨ 2048 < w ∨ h < 1 ∨ 2048 < h)) := by
          simp only [Bool.not_and, not_dimensionOk, ← Bool.decide_or, Option.isNone_some, Bool.false_or, or_assoc]
        rw [← hdims]
        refine dealtWith_flag hs ?_
        simp only [f', tr', hint', Option.some.injEq, ne_eq, Option.getD_some]
        exact dealtWith_check hs fun _ => dealtWith_createPlaced seq code f t w h hint hs

/-- Settles O17. -/
theorem createSurface : Obligations.CreateSurface := by
  unfold Obligations.CreateSurface
  refine ⟨⟨by decide, strideOf_eq, granulesOf_eq, fun tr w h => ?_, Memory.read_forget⟩, fun s seq args h => ?_⟩
  · cases tr <;> rfl
  · exact exec_of_dealtWith (body := createBody) (after := id) rfl h rfl
      (dealtWith_create seq 0x10 args h.headFrame_isSome)

end Sys2Proof.Machine
end

