-- ==== Sys2Proof/Proofs/EngineRequests.lean ====
section
/-! PROOF. DISCARD_SURFACE of a surface in use or ready (R14, R15), READ_PIXELS, FENCE and BEGIN_UPLOAD (R42, R44, R49),
UPLOAD_DATA and its hold (R50, R51). -/

namespace Sys2Proof.Machine

/-! ### DISCARD_SURFACE (R14, R15) -/

/-- R11, R14, R15: the checks of a discard, and what it does to a surface that is READY or DISCARDING. -/
theorem dealtWith_discardReady {s : State} (seq code : Byte) (args : List Byte) (hs : s.headFrame.isSome = true) :
    let id := arg8 args 0
    let r := s.surface id
    (args.length ≠ 1 ∨ 64 ≤ id ∨ r.state = .empty ∨ r.state = .ready ∨ r.state = .discarding) →
    dealtWith seq code (discardBody seq code args s) = answerBy seq code (surfaceChecks args s) s
      (if r.state = .discarding then answered seq [code, 0x00, 0, 0] s
       else if r.scanRefs = 0 ∧ r.jobRefs = 0 then answered seq [code, 0x00, 1, 0] (freeSurface id s)
       else answered seq [code, 0x00, 0, 0] (s.setSurface id { r with state := .discarding })) := by
  intro id r hcase
  unfold surfaceChecks
  refine dealtWith_check hs fun hlength => dealtWith_check hs fun hid => dealtWith_check hs fun hempty => ?_
  change dealtWith seq code (match r.state with
    | .discarding => _ | .ready => _ | .filling | .sealing => _ | .empty => _) = _
  obtain hready | hdiscarding := ((hcase.resolve_left hlength).resolve_left hid).resolve_left hempty
  · have hkept : ¬ SurfaceState.ready = .discarding := by decide
    rw [hready, if_neg hkept]
    by_cases huses : r.scanRefs = 0 ∧ r.jobRefs = 0
    · exact (congrArg _ (if_pos huses)).trans ((dealtWith_reply (t := freeSurface id s) seq code .ok _ hs).trans
        (if_pos huses).symm)
    · exact (congrArg _ (if_neg huses)).trans
        ((dealtWith_reply (t := s.setSurface id { r with state := .discarding }) seq code .ok _ hs).trans
          (if_neg huses).symm)
  · rw [hdiscarding, if_pos rfl]
    exact dealtWith_reply seq code .ok _ hs

/-- Settles O19. -/
theorem discardOfAReadySurface : Obligations.DiscardOfAReadySurface := by
  unfold Obligations.DiscardOfAReadySurface
  intro s seq args h id r hcase
  exact exec_of_dealtWith (body := discardBody) (after := settle) rfl h rfl
    (dealtWith_discardReady seq 0x11 args h.headFrame_isSome hcase)

/-! ### READ_PIXELS and FENCE (R42, R44) -/

/-- R37, R42: a READ joins the queue with one reference on its surface. -/
theorem appendJob_read (target : Nat) (rect : Rect) (link : Byte) (s : State) :
    appendJob (.read target rect link) s = withUse target 0 (queued (.read target rect link) s) := rfl

/-- R37, R44: a FENCE uses no surface. -/
theorem appendJob_fence (link : Byte) (s : State) : appendJob (.fence link) s = queued (.fence link) s := rfl

/-- R37, R49: a STREAM joins the queue with one reference and one writer on its destination. -/
theorem appendJob_stream (dst : Nat) (rect : Rect) (s : State) :
    appendJob (.stream dst rect) s = withUse dst 1 (queued (.stream dst rect) s) :=
  addWriter_addJobRef dst _

/-- R37, R173: an entry whose answer is deferred joins the queue, and its request waits in the table. -/
theorem dealtWith_deferJob {s : State} (seq code : Byte) (k : JobKind) (hs : s.headFrame.isSome = true) :
    dealtWith seq code (appendJob k (bindPending seq code .pixelEngine .job s), .deferred) =
      boundTo seq code .pixelEngine .job (appendJob k s) := by
  have hbound (t : State) : addJobUses k (bindPending seq code .pixelEngine .job t) =
      bindPending seq code .pixelEngine .job (addJobUses k t) := by
    have hfold (ids : List Nat) (t : State) :
        ids.foldl (fun acc id => addJobRef id acc) (bindPending seq code .pixelEngine .job t) =
          bindPending seq code .pixelEngine .job (ids.foldl (fun acc id => addJobRef id acc) t) := by
      induction ids generalizing t with
      | nil => rfl
      | cons id ids ih => exact ih (addJobRef id t)
    unfold addJobUses
    rw [hfold]
    cases k.destination <;> rfl
  have happend : appendJob k (bindPending seq code .pixelEngine .job s) =
      bindPending seq code .pixelEngine .job (appendJob k s) := hbound (queued k s)
  rw [happend]
  exact dealtWith_bindPending seq code .pixelEngine .job (by rwa [appendJob_headFrame])

/-- R42: the checks of a READ_PIXELS, and what it does. -/
theorem dealtWith_read {s : State} (seq code : Byte) (args : List Byte) (hs : s.headFrame.isSome = true) :
    let target := arg8 args 0
    let rect := argRect args 1
    let r := s.surface target
    dealtWith seq code (readBody seq code args s) = answerBy seq code
      [(decide (args.length ≠ 9), .badLength), (decide (64 ≤ target), .badArgument),
       (decide (r.state = .empty), .noSuchSurface), (decide (r.state ≠ .filling ∧ r.state ≠ .ready), .wrongState),
       (!rect.within r.width r.height || decide (1016 < ceilDiv (rect.w * rect.h * r.format.bpp) 8), .badArgument),
       (decide (8 ≤ s.pe.jobs.length), .queueFull), (tableFull s, .busy)] s
      (boundTo seq code .pixelEngine .job (withUse target 0 (queued (.read target rect seq) s))) := by
  intro target rect r
  have hsize : (!decide (transferBytes r.format rect.area ≤ 1016)) =
      decide (1016 < ceilDiv (rect.w * rect.h * r.format.bpp) 8) := by
    rw [← decide_not, decide_eq_decide]
    exact Nat.not_le
  rw [← appendJob_read, ← not_pendingFree, ← hsize, ← Bool.not_and]
  exact dealtWith_check hs fun _ => dealtWith_check hs fun _ => dealtWith_check hs fun _ => dealtWith_check hs fun _ =>
    dealtWith_flag hs (dealtWith_flag hs (dealtWith_flag hs (dealtWith_deferJob seq code (.read target rect seq) hs)))

/-- R44: the checks of a FENCE, and what it does. -/
theorem dealtWith_fence {s : State} (seq code : Byte) (args : List Byte) (hs : s.headFrame.isSome = true) :
    dealtWith seq code (fenceBody seq code args s) = answerBy seq code
      [(decide (args.length ≠ 0), .badLength), (decide (8 ≤ s.pe.jobs.length), .queueFull), (tableFull s, .busy)] s
      (boundTo seq code .pixelEngine .job (queued (.fence seq) s)) := by
  rw [← appendJob_fence, ← not_pendingFree]
  exact dealtWith_check hs fun _ => dealtWith_flag hs (dealtWith_flag hs (dealtWith_deferJob seq code (.fence seq) hs))

/-! ### BEGIN_UPLOAD (R49) -/

/-- R47, R49: the session opened by a BEGIN_UPLOAD. -/
def openedSession (dst : Nat) (rect : Rect) (expected : Nat) : Session :=
  { dst := dst, rect := rect, expected := expected, received := 0, written := 0, endRequested := false, link := none }

/-- R49: the checks of a BEGIN_UPLOAD, and what it does. -/
theorem dealtWith_beginUpload {s : State} (seq code : Byte) (args : List Byte) (hs : s.headFrame.isSome = true) :
    let dst := arg8 args 0
    let rect := argRect args 1
    let d := s.surface dst
    let expected := ceilDiv (rect.w * rect.h * d.format.bpp) 8
    let q := queued (.stream dst rect) s
    dealtWith seq code (beginUploadBody seq code args s) = answerBy seq code
      [(decide (args.length ≠ 9), .badLength), (decide (64 ≤ dst), .badArgument),
       (s.pe.session.isSome, .sessionOpen), (decide (d.state = .empty), .noSuchSurface),
       (decide (d.state ≠ .filling), .wrongState), (!rect.within d.width d.height, .badArgument),
       (decide (8 ≤ s.pe.jobs.length), .queueFull)] s
      (answered seq ([code, 0x00] ++ le32 expected ++ [byteOf (s.pe.jobs.length + 1)])
        (withUse dst 1 { q with pe := { q.pe with session := some (openedSession dst rect expected), staging := [] } })) := by
  intro dst rect d expected q
  have hdone : dealtWith seq code ((appendJob (.stream dst rect) s).setPe { (appendJob (.stream dst rect) s).pe with
      session := some (openedSession dst rect expected), staging := [] },
      .reply .ok (le32 expected ++ [byteOf (appendJob (.stream dst rect) s).pe.jobs.length])) =
      answered seq ([code, 0x00] ++ le32 expected ++ [byteOf (s.pe.jobs.length + 1)])
        (withUse dst 1 { q with pe := { q.pe with
          session := some (openedSession dst rect expected), staging := [] } }) := by
    have hhead : (appendJob (.stream dst rect) s).headFrame.isSome = true := by rwa [appendJob_headFrame]
    rw [appendJob_jobs_length]
    have happend := appendJob_stream dst rect s
    generalize appendJob (.stream dst rect) s = t at hhead happend ⊢
    refine (dealtWith_reply (t := t.setPe { t.pe with
      session := some (openedSession dst rect expected), staging := [] }) seq code .ok _ hhead).trans ?_
    rw [happend]
    rfl
  exact dealtWith_check hs fun _ => dealtWith_check hs fun _ => dealtWith_flag hs (dealtWith_check hs fun _ =>
    dealtWith_check hs fun _ => dealtWith_flag hs (dealtWith_flag hs hdone))

/-- Settles O26, from what is done with the result of each row's body. -/
theorem readFenceAndBeginUpload : Obligations.ReadFenceAndBeginUpload := by
  unfold Obligations.ReadFenceAndBeginUpload
  refine ⟨fun s seq args => ⟨fun h => ?_, fun h => ?_⟩, fun s seq args h => ?_⟩
  · exact exec_of_dealtWith (body := readBody) (after := settle) rfl h rfl
      (dealtWith_read seq 0x26 args h.headFrame_isSome)
  · exact exec_of_dealtWith (body := fenceBody) (after := settle) rfl h rfl
      (dealtWith_fence seq 0x27 args h.headFrame_isSome)
  · exact exec_of_dealtWith (body := beginUploadBody) (after := settle) rfl h rfl
      (dealtWith_beginUpload seq 0x20 args h.headFrame_isSome)

/-! ### UPLOAD_DATA (R50, R51) -/

/-- R50: the bytes that fit the expected count are staged and counted, and the rest is an overrun. -/
def staged (seq code : Byte) (x : Session) (data : List Byte) (s : State) : State :=
  let t := min data.length (x.expected - x.received)
  answered seq ([code, if t < data.length then 0x0E else 0x00] ++ le16 t ++ le32 (x.received + t))
    { s with pe := { s.pe with
      staging := s.pe.staging ++ data.take t, session := some { x with received := x.received + t } } }

theorem dealtWith_stageData {s : State} (seq code : Byte) (x : Session) (data : List Byte)
    (hs : s.headFrame.isSome = true) : dealtWith seq code (stageData x data s) = staged seq code x data s := by
  refine (dealtWith_reply (t := s.setPe { s.pe with
    staging := s.pe.staging ++ data.take (x.takes data)
    session := some { x with received := x.received + x.takes data } }) seq code _ _ hs).trans ?_
  unfold staged Session.takes
  generalize min data.length (x.expected - x.received) = t
  by_cases hover : t < data.length
  · simp only [if_pos hover]
    rfl
  · simp only [if_neg hover]
    rfl

/-- R50: without a session an UPLOAD_DATA is refused. -/
theorem dealtWith_uploadData_none {s : State} (seq code : Byte) (data : List Byte) (hs : s.headFrame.isSome = true)
    (hx : s.pe.session = none) :
    dealtWith seq code (uploadDataBody seq code data s) = answerBy seq code
      [(decide (1020 < data.length), .badLength), (true, .noSession)] s s := by
  refine dealtWith_check hs fun _ => ?_
  rw [hx]
  exact dealtWith_reply seq code .noSession [] hs

/-- R50, R51: the checks of an UPLOAD_DATA; then it is held for room, or its bytes are staged. -/
theorem dealtWith_uploadData {s : State} (seq code : Byte) (data : List Byte) (hs : s.headFrame.isSome = true)
    {x : Session} (hx : s.pe.session = some x) :
    dealtWith seq code (uploadDataBody seq code data s) = answerBy seq code
      [(decide (1020 < data.length), .badLength), (x.endRequested, .wrongState)] s
      (if 4096 - s.pe.staging.length < min data.length (x.expected - x.received) then { s with held := some .upload }
       else staged seq code x data s) := by
  refine dealtWith_check hs fun _ => ?_
  rw [hx]
  refine dealtWith_flag hs ?_
  by_cases hroom : s.pe.room < x.takes data
  · exact (congrArg _ (if_pos hroom)).trans (if_pos hroom).symm
  · exact (congrArg _ (if_neg hroom)).trans ((dealtWith_stageData seq code x data hs).trans (if_neg hroom).symm)

/-- R51: the held UPLOAD_DATA is executed once the room is reached. -/
theorem exec_heldUploadData {s : State} {seq code : Byte} {data : List Byte} {x : Session}
    (hx : s.pe.session = some x) (hheld : s.held = some .upload) (hf : s.headFrame = some ⟨seq, code :: data⟩) :
    exec .heldUploadDataExecute s = .next (
      if 4096 - s.pe.staging.length < min data.length (x.expected - x.received) then s
      else settle (staged seq code x data { s with held := none })) := by
  change execHeldUploadDataExecute s = _
  unfold execHeldUploadDataExecute
  rw [hheld, hf, hx]
  by_cases hroom : s.pe.room < x.takes data
  · exact (if_pos hroom).trans (congrArg _ (if_pos hroom).symm)
  · refine (if_neg hroom).trans ((congrArg _ (congrArg settle ?_)).trans (congrArg _ (if_neg hroom).symm))
    rw [executeRequest_eq_dealtWith]
    exact dealtWith_stageData (s := { s with held := none }) seq code x data (hf ▸ rfl)

/-- Settles O27. -/
theorem uploadData : Obligations.UploadData := by
  unfold Obligations.UploadData
  refine ⟨fun s seq data => ⟨fun h hx => ?_, fun x hx => ⟨fun h => ?_, exec_heldUploadData hx⟩⟩, fun s hheld => ?_⟩
  · exact exec_of_dealtWith (body := uploadDataBody) (after := settle) rfl h rfl
      (dealtWith_uploadData_none seq 0x21 data h.headFrame_isSome hx)
  · exact exec_of_dealtWith (body := uploadDataBody) (after := settle) rfl h rfl
      (dealtWith_uploadData seq 0x21 data h.headFrame_isSome hx)
  · change execHeldUploadDataExecute s = _
    unfold execHeldUploadDataExecute
    split
    · next h _ _ => exact absurd h hheld
    · rfl

end Sys2Proof.Machine
end

