-- ==== Sys2Proof/Proofs/OutputSequence.lean ====
section
/-! PROOF. The power sequence of an output: what its shared steps come to, START_OUTPUT and STOP_OUTPUT (R122 to R126),
the wait expiries (R121, R123, R125) and FRAME_START (R128). -/

namespace Sys2Proof.Machine

/-! ### The burst of an abandoned fetch (R146) -/

/-- R146: killing a fetch's burst changes what the port has granted only. -/
theorem killFetchBurst_eq (o : OutputId) (s : State) : ∃ g, killFetchBurst o s = s.setInFlight g := by
  unfold killFetchBurst
  split
  · split
    · exact ⟨_, rfl⟩
    · exact ⟨s.port.inFlight, rfl⟩
  · exact ⟨s.port.inFlight, rfl⟩
  · exact ⟨s.port.inFlight, rfl⟩

@[simp] theorem killFetchBurst_ou (o o' : OutputId) (s : State) : (killFetchBurst o s).ou o' = s.ou o' := by
  obtain ⟨g, hg⟩ := killFetchBurst_eq o s
  rw [hg]
  cases o' <;> rfl

@[simp] theorem killFetchBurst_pres (o o' : OutputId) (s : State) : (killFetchBurst o s).pres o' = s.pres o' := by
  obtain ⟨g, hg⟩ := killFetchBurst_eq o s
  rw [hg]
  cases o' <;> rfl

/-- R146: the burst is killed whether or not the output is changed before. -/
theorem killFetchBurst_setOu (o o' : OutputId) (u : OutputUnit) (s : State) :
    (killFetchBurst o s).setOu o' u = killFetchBurst o (s.setOu o' u) := by
  unfold killFetchBurst
  rw [State.setOu_port]
  split
  · split
    · cases o' <;> rfl
    · rfl
  · rfl
  · rfl

theorem killFetchBurst_of_fetch {o o' : OutputId} {b : FetchBurst} {live : Bool} {s : State}
    (h : s.port.inFlight = some (.fetch o' b live)) :
    killFetchBurst o s =
      if o' = o then { s with port := { s.port with inFlight := some (.fetch o b false) } } else s := by
  unfold killFetchBurst
  rw [h]
  rfl

theorem killFetchBurst_of_no_fetch {o : OutputId} {s : State}
    (h : ∀ o' b live, s.port.inFlight ≠ some (.fetch o' b live)) : killFetchBurst o s = s := by
  unfold killFetchBurst
  split
  · next o' b live hf => exact absurd hf (h o' b live)
  · rfl
  · rfl

/-! ### What the shared steps come to -/

/-- R110: a copy of the palette, and the mark cleared. -/
theorem OutputUnit.copyPalette_eq (u : OutputUnit) :
    u.copyPalette = { u with active := if u.palettePending then u.staging else u.active, palettePending := false } := by
  unfold OutputUnit.copyPalette
  split
  · rfl
  · next h => rw [← Bool.eq_false_iff.2 h]

/-- R136, R119: the first line of a frame on an output, before the fetch of line 0. -/
def OutputUnit.opened (u : OutputUnit) : OutputUnit :=
  { u with halfA := .free, halfB := .free, scanLine := 0, field := .top, driven := none }

theorem openFrame_eq (o : OutputId) (s : State) : openFrame o s = killFetchBurst o (s.setOu o (s.ou o).opened) := by
  unfold openFrame freeHalves
  simp only [killFetchBurst_ou, killFetchBurst_setOu, State.ou_setOu_self, State.setOu_setOu]
  rfl

/-- R120, R143, R144: an output whose timing has stopped. -/
def OutputUnit.stopped (u : OutputUnit) : OutputUnit :=
  { u with halfA := .free, halfB := .free, carry := none, head := none, driven := none, field := .top, scanLine := 0 }

theorem stopTiming_eq (o : OutputId) (s : State) : stopTiming o s = killFetchBurst o (s.setOu o (s.ou o).stopped) := by
  unfold stopTiming freeHalves
  simp only [killFetchBurst_ou, killFetchBurst_setOu, State.ou_setOu_self, State.setOu_setOu]
  rfl

/-- R111, R124: an output that has entered OFF. -/
def OutputUnit.shutOff (u : OutputUnit) : OutputUnit :=
  { u with state := .off, step := .off, timer := none
           active := if u.palettePending then u.staging else u.active, palettePending := false }

theorem enterOff_eq (o : OutputId) (released : Nat) (s : State) :
    enterOff o released s =
      raise (.outputState o .off 1 released) (completeRef (.stop o) .ok (s.setOu o (s.ou o).shutOff)) := by
  unfold enterOff copyPalette enterStep raiseState
  rw [State.ou_setOu_self, State.setOu_setOu, OutputUnit.copyPalette_eq]
  rfl

theorem enterRunning_eq (o : OutputId) (s : State) :
    enterRunning o s = raise (.outputState o .running 1 0) (completeRef (.start o) .ok
      (s.setOu o { s.ou o with state := .running, step := .showing, timer := none })) := rfl

/-- R120, R123: an output that has entered CLOCK WAIT. -/
def OutputUnit.clockStarted (u : OutputUnit) : OutputUnit :=
  { u with state := .powerUp, step := .clockWait, timer := some u.timing.tClk, halfA := .free, halfB := .free
           scanLine := 0, field := .top, driven := none
           active := if u.palettePending then u.staging else u.active, palettePending := false }

theorem enterClockWait_eq (o : OutputId) (s : State) :
    enterClockWait o s =
      let w := beginFetch o 0 false (killFetchBurst o (s.setOu o (s.ou o).clockStarted))
      if (s.ou o).timing.tClk = 0 then enterRunning o w else w := by
  unfold enterClockWait copyPalette enterStep
  simp only [openFrame_eq, killFetchBurst_ou, killFetchBurst_setOu, State.ou_setOu_self, State.setOu_setOu,
    OutputUnit.copyPalette_eq]
  rfl

/-- R125: an output that has entered SUPPLY WAIT. -/
def OutputUnit.supplyHeld (u : OutputUnit) : OutputUnit :=
  { u with state := .powerDown, step := .supplyWait, timer := some u.timing.tPwr, halfA := .free, halfB := .free
           carry := none, head := none, driven := none, field := .top, scanLine := 0 }

theorem enterSupplyWait_eq (o : OutputId) (s : State) :
    enterSupplyWait o s =
      let w := killFetchBurst o (s.setOu o (s.ou o).supplyHeld)
      if (s.ou o).timing.tPwr = 0 then enterOff o 0 w else w := by
  unfold enterSupplyWait enterStep
  simp only [stopTiming_eq, State.ou_setOu_self, State.setOu_setOu]
  rfl

/-! ### The wait expiries (R121, R123, R125) -/

/-- Settles O35, from what each step entered comes to. -/
theorem waitExpiries : Obligations.WaitExpiries := by
  unfold Obligations.WaitExpiries
  intro o s u off running clockWait supplyWait
  have hoff (w : State) : enterOff o 0 w = off 0 w := enterOff_eq o 0 w
  have hclock : enterClockWait o s = clockWait := enterClockWait_eq o s
  have hsupply : enterSupplyWait o s = supplyWait := by
    simp only [enterSupplyWait_eq, hoff]
    rfl
  refine ⟨?_, ?_, ?_, ?_, hclock, hsupply, fun o' b live h => killFetchBurst_of_fetch h, killFetchBurst_of_no_fetch⟩
  · rw [← hclock]
    exact (apply_ite Host.Outcome.next _ _ _).symm
  · exact (apply_ite Host.Outcome.next _ _ _).symm
  · rw [← hsupply]
    exact (apply_ite Host.Outcome.next _ _ _).symm
  · rw [← hoff]
    exact (apply_ite Host.Outcome.next _ _ _).symm

/-! ### START_OUTPUT and STOP_OUTPUT (R122, R124, R126) -/

/-- R122: an output switched on. -/
def OutputUnit.powered (u : OutputUnit) : OutputUnit :=
  { u with framesShown := 0, lineMiss := 0, state := .powerUp, step := .powerWait, timer := some u.timing.tPwr }

theorem startSequence_eq (o : OutputId) (s : State) :
    startSequence o s =
      let w := raise (.outputState o .powerUp 1 0) (s.setOu o (s.ou o).powered)
      if (s.ou o).timing.tPwr = 0 then enterClockWait o w else w := by
  unfold startSequence enterStep raiseState
  simp only [State.ou_setOu_self, State.setOu_setOu]
  rfl

/-- The slots and the arrival list, which the steps of an output keep. -/
def State.ingress (s : State) : List (Option RequestFrame) × List Nat := (s.slots, s.arrival)

theorem headFrame_of_ingress {s t : State} (h : t.ingress = s.ingress) : t.headFrame = s.headFrame := by
  obtain ⟨hslots, harrival⟩ := Prod.mk.inj h
  unfold State.headFrame
  change t.slots = s.slots at hslots
  change t.arrival = s.arrival at harrival
  rw [hslots, harrival]

theorem ClaimFrame.ingress {s t : State} (h : ClaimFrame s t) : t.ingress = s.ingress := by
  obtain ⟨_, _, _, _, _, _, _, rfl⟩ := h
  rfl

@[simp] theorem raise_ingress (n : Notice) (s : State) : (raise n s).ingress = s.ingress :=
  (ClaimFrame.of_notices (raise_eq n s)).ingress

@[simp] theorem completeRef_ingress (ref : PendingRef) (st : Status) (s : State) :
    (completeRef ref st s).ingress = s.ingress := (ClaimFrame.of_replies (completeRef_eq ref st s)).ingress

@[simp] theorem releaseScans_ingress (ids : List Nat) (s : State) : (releaseScans ids s).ingress = s.ingress :=
  (releaseScans_frame ids s).ingress

@[simp] theorem setOu_ingress (o : OutputId) (u : OutputUnit) (s : State) : (s.setOu o u).ingress = s.ingress := by
  cases o <;> rfl

@[simp] theorem setPres_ingress (o : OutputId) (p : Presentation) (s : State) :
    (s.setPres o p).ingress = s.ingress := by
  cases o <;> rfl

@[simp] theorem killFetchBurst_ingress (o : OutputId) (s : State) : (killFetchBurst o s).ingress = s.ingress := by
  obtain ⟨g, hg⟩ := killFetchBurst_eq o s
  rw [hg]
  rfl

@[simp] theorem arbitrate_ingress (s : State) : (arbitrate s).ingress = s.ingress := by
  obtain ⟨_, _, _, _, _, _, h⟩ := arbitrate_frame s
  rw [h]
  rfl

@[simp] theorem beginFetch_ingress (o : OutputId) (y : Nat) (wasB : Bool) (s : State) :
    (beginFetch o y wasB s).ingress = s.ingress := by
  simp [beginFetch]

@[simp] theorem enterRunning_ingress (o : OutputId) (s : State) : (enterRunning o s).ingress = s.ingress := by
  simp [enterRunning_eq]

@[simp] theorem enterOff_ingress (o : OutputId) (released : Nat) (s : State) :
    (enterOff o released s).ingress = s.ingress := by
  simp [enterOff_eq]

@[simp] theorem enterClockWait_ingress (o : OutputId) (s : State) : (enterClockWait o s).ingress = s.ingress := by
  rw [enterClockWait_eq]
  dsimp only
  split <;> simp

@[simp] theorem enterSupplyWait_ingress (o : OutputId) (s : State) : (enterSupplyWait o s).ingress = s.ingress := by
  rw [enterSupplyWait_eq]
  dsimp only
  split <;> simp

@[simp] theorem startSequence_ingress (o : OutputId) (s : State) : (startSequence o s).ingress = s.ingress := by
  rw [startSequence_eq]
  dsimp only
  split <;> simp

@[simp] theorem releaseOutput_ingress (o : OutputId) (s : State) : (releaseOutput o s).ingress = s.ingress := by
  simp [releaseOutput]

@[simp] theorem reversePowerUp_ingress (o : OutputId) (s : State) : (reversePowerUp o s).ingress = s.ingress := by
  unfold reversePowerUp raiseState
  dsimp only
  split <;> simp

/-- R157: the slot of the head frame is released in the same way in every state with the same slots. -/
theorem dealtWith_deferred {s t : State} (seq code : Byte) (hs : s.headFrame.isSome = true) (h : t.ingress = s.ingress) :
    dealtWith seq code (t, .deferred) = slotReleased t :=
  releaseHead_eq ((headFrame_of_ingress h).symm ▸ hs)

/-- R122, R124: the checks of a request that carries one output number. -/
theorem dealtWith_withOutput {s : State} {seq code : Byte} {args : List Byte} {rest : OutputId → State × Answer}
    {checks : List (Bool × Status)} {done : State} (hs : s.headFrame.isSome = true)
    (hrest : dealtWith seq code (rest (if arg8 args 0 = 0 then .out0 else .out1)) = answerBy seq code checks s done) :
    dealtWith seq code (withOutput args s rest) = answerBy seq code
      ((decide (args.length ≠ 1), .badLength) :: (decide (1 < arg8 args 0), .badArgument) :: checks) s done := by
  refine dealtWith_check hs fun _ => ?_
  rw [outputOf_eq]
  by_cases hn : 1 < arg8 args 0
  · rw [if_pos hn, decide_eq_true hn]
    exact dealtWith_reply seq code .badArgument [] hs
  · rw [if_neg hn, decide_eq_false hn]
    exact hrest

/-- R122: the checks of a START_OUTPUT, and what it does in each state of the output. -/
theorem dealtWith_start {s : State} (seq code : Byte) (args : List Byte) (hs : s.headFrame.isSome = true) :
    let o : OutputId := if arg8 args 0 = 0 then .out0 else .out1
    let u := s.ou o
    let bound := bindPending seq code .outputUnit (.start o) s
    dealtWith seq code (startBody seq code args s) = answerBy seq code
      [(decide (args.length ≠ 1), .badLength), (decide (1 < arg8 args 0), .badArgument),
       (decide (u.state = .off ∧ u.valid = false), .wrongState),
       (decide (u.state = .ending ∨ u.state = .powerDown), .busy),
       (decide (u.state ≠ .running) && tableFull s, .busy)] s
      (if u.state = .running then answered seq [code, 0x00] s
       else if u.state = .powerUp then slotReleased bound
       else slotReleased (startSequence o bound)) := by
  intro o u bound
  refine dealtWith_withOutput hs ?_
  have hbound : bound.ingress = s.ingress := rfl
  change dealtWith seq code (match u.state with
    | .off => _ | .powerUp => _ | .running => _ | .ending | .powerDown => _) = _
  cases hstate : u.state
  case off =>
    have hvalid : decide (True ∧ u.valid = false) = !u.valid := by cases u.valid <;> rfl
    simp only [reduceCtorEq, or_self, not_false_eq_true, decide_false, decide_true, ne_eq, Bool.true_and, if_false]
    rw [hvalid, ← not_pendingFree]
    refine dealtWith_flag hs ?_
    rw [answerBy_cons_false]
    exact dealtWith_flag hs (dealtWith_deferred seq code hs ((startSequence_ingress o bound).trans hbound))
  case powerUp =>
    simp only [false_and, reduceCtorEq, or_self, not_false_eq_true, decide_false, decide_true, ne_eq, Bool.true_and,
      if_false, if_true, answerBy_cons_false]
    rw [← not_pendingFree]
    exact dealtWith_flag hs (dealtWith_deferred seq code hs hbound)
  case running =>
    exact dealtWith_reply seq code .ok [] hs
  case ending => exact dealtWith_reply seq code .busy [] hs
  case powerDown => exact dealtWith_reply seq code .busy [] hs

/-- R124, R126: the checks of a STOP_OUTPUT, and what it does in each state of the output. -/
theorem dealtWith_stop {s : State} (seq code : Byte) (args : List Byte) (hs : s.headFrame.isSome = true) :
    let o : OutputId := if arg8 args 0 = 0 then .out0 else .out1
    let u := s.ou o
    let bound := bindPending seq code .outputUnit (.stop o) s
    dealtWith seq code (stopBody seq code args s) = answerBy seq code
      [(decide (args.length ≠ 1), .badLength), (decide (1 < arg8 args 0), .badArgument),
       (decide (u.state ≠ .off) && tableFull s, .busy)] s
      (match u.state with
        | .off => answered seq [code, 0x00] s
        | .running => slotReleased (raise (.outputState o .ending 1 0) (bound.setOu o { u with state := .ending }))
        | .powerUp => slotReleased (reversePowerUp o bound)
        | .ending | .powerDown => slotReleased bound) := by
  intro o u bound
  refine dealtWith_withOutput hs ?_
  have hbound : bound.ingress = s.ingress := rfl
  by_cases hoff : u.state = .off
  · rw [hoff]
    exact (congrArg _ (if_pos hoff)).trans (dealtWith_reply seq code .ok [] hs)
  · refine (congrArg _ (if_neg hoff)).trans ?_
    rw [decide_eq_true hoff, Bool.true_and, ← not_pendingFree]
    refine dealtWith_flag hs ?_
    change dealtWith seq code (match u.state with
      | .running => _ | .powerUp => _ | .ending | .powerDown | .off => _) = _
    cases hstate : u.state
    case off => exact absurd hstate hoff
    case powerUp => exact dealtWith_deferred seq code hs ((reversePowerUp_ingress o bound).trans hbound)
    case running => exact dealtWith_deferred seq code hs (by simp only [raiseState, raise_ingress, setOu_ingress]; exact hbound)
    case ending => exact dealtWith_deferred seq code hs hbound
    case powerDown => exact dealtWith_deferred seq code hs hbound

/-- R126: what the reversal of the power-up sequence comes to, by the step reached. -/
theorem reversePowerUp_eq (o : OutputId) (s : State) :
    let released := (s.pres o).queue.length + (s.pres o).current.toList.length
    let reversed := completeRef (.start o) .cancelled (releaseOutput o s)
    reversePowerUp o s =
      if (s.ou o).step = .clockWait then enterSupplyWait o (raise (.outputState o .powerDown 1 released) reversed)
      else raise (.outputState o .off 1 released) (completeRef (.stop o) .ok
        (reversed.setOu o (reversed.ou o).shutOff)) := by
  intro released reversed
  rw [← enterOff_eq]
  rfl

/-- Settles O34, from what is done with the result of each row's body. -/
theorem startAndStopOutput : Obligations.StartAndStopOutput := by
  unfold Obligations.StartAndStopOutput
  refine ⟨fun s seq args h => ?_, fun s seq args h => ?_⟩
  · refine (exec_of_dealtWith (body := startBody) (after := id) rfl h rfl
      (dealtWith_start seq 0x31 args h.headFrame_isSome)).trans ?_
    rw [startSequence_eq]
    generalize (if arg8 args 0 = 0 then OutputId.out0 else OutputId.out1) = o
    cases o <;> rfl
  · refine (exec_of_dealtWith (body := stopBody) (after := id) rfl h rfl
      (dealtWith_stop seq 0x32 args h.headFrame_isSome)).trans ?_
    rw [reversePowerUp_eq]
    generalize (if arg8 args 0 = 0 then OutputId.out0 else OutputId.out1) = o
    cases o <;> rfl

/-! ### FRAME_START (R128) -/

/-- R145: a grant changes the halves of an output only. -/
theorem arbitrate_ou (o : OutputId) (s : State) : ∃ a b, (arbitrate s).ou o = { s.ou o with halfA := a, halfB := b } := by
  obtain ⟨_, _, a0, b0, a1, b1, h⟩ := arbitrate_frame s
  rw [h]
  cases o
  · exact ⟨a0, b0, rfl⟩
  · exact ⟨a1, b1, rfl⟩

/-- R136: so does the beginning of a fetch. -/
theorem beginFetch_ou (o : OutputId) (y : Nat) (wasB : Bool) (s : State) :
    ∃ a b, (beginFetch o y wasB s).ou o = { s.ou o with halfA := a, halfB := b } := by
  unfold beginFetch
  dsimp only
  obtain ⟨a, b, h⟩ := arbitrate_ou o (s.setOu o ((s.ou o).fillFree wasB _))
  refine ⟨a, b, h.trans ?_⟩
  rw [State.ou_setOu_self]
  obtain ⟨_, hfill⟩ | ⟨_, hfill⟩ | ⟨_, _, hfill⟩ := OutputUnit.fillFree_cases (s.ou o) wasB _ <;> rw [hfill]

/-- Settles O36, by the step and the state in which the frame starts. -/
theorem frameStart : Obligations.FrameStart := by
  unfold Obligations.FrameStart
  intro o s u opened copied released shut wasB ended ends
  have hopened : openFrame o s = opened := openFrame_eq o s
  have hcopied (w : State) : copyPalette o w = copied w := by
    rw [copyPalette, OutputUnit.copyPalette_eq]
  have hou : opened.ou o = u.opened := by
    change (killFetchBurst o _).ou o = _
    rw [killFetchBurst_ou, State.ou_setOu_self]
    rfl
  have hpres : opened.pres o = s.pres o := by
    change (killFetchBurst o _).pres o = _
    rw [killFetchBurst_pres, State.pres_setOu]
  have hruns (hstep : u.step = .clockWait ∨ u.step = .backlightWait ∨ u.step = .showing) : u.timingRuns = true := by
    unfold OutputUnit.timingRuns
    obtain h | h | h := hstep <;> rw [h]
  have hexec (hends : ends) (hstep : u.step = .clockWait ∨ u.step = .backlightWait ∨ u.step = .showing) :
      exec (.frameStart o) s = .next (startFrame o s) := if_pos ⟨hruns hstep, hends⟩
  have hframe : startFrame o s = match u.step, u.state with
      | .showing, .running => beginFetch o 0 wasB (copied (take o opened))
      | .showing, .ending =>
        let w := beginFetch o 0 wasB (copied (endShowing o opened))
        if (w.ou o).timer = some 0 then enterSupplyWait o w else w
      | _, _ => beginFetch o 0 wasB (copied opened) := by
    unfold startFrame
    simp only [hopened, hcopied, hou]
    rfl
  refine ⟨fun h => ?_, fun hends hstep => ?_, fun hends hstep hstate => ?_, fun hends hstep hstate => ?_⟩
  · refine if_neg fun hc => ?_
    obtain hstopped | hbefore := h
    · rw [hstopped] at hc
      exact Bool.noConfusion hc.1
    · exact hbefore hc.2
  · rw [hexec hends (hstep.imp_right Or.inl), hframe]
    obtain h | h := hstep <;> rw [h]
  · rw [hexec hends (.inr (.inr hstep)), hframe, hstep, hstate]
  · rw [hexec hends (.inr (.inr hstep)), hframe, hstep, hstate]
    have hshut : endShowing o opened = raise (.outputState o .powerDown 1 released) (shut.setOu o { shut.ou o with
        state := .powerDown, step := .backlightWait, timer := some u.timing.tClk }) := by
      unfold endShowing enterStep raiseState Presentation.heldRecords
      rw [hou, hpres]
      rfl
    rw [hshut]
    have htimer : (ended.ou o).timer = some u.timing.tClk := by
      obtain ⟨a, b, h⟩ := beginFetch_ou o 0 wasB (copied (raise (.outputState o .powerDown 1 released) (shut.setOu o
        { shut.ou o with state := .powerDown, step := .backlightWait, timer := some u.timing.tClk })))
      obtain ⟨ns, k, hraise⟩ := raise_eq (.outputState o .powerDown 1 released) (shut.setOu o { shut.ou o with
        state := .powerDown, step := .backlightWait, timer := some u.timing.tClk })
      refine (congrArg OutputUnit.timer h).trans ?_
      simp only [copied, State.ou_setOu_self, hraise]
      cases o <;> rfl
    change Host.Outcome.next (if (ended.ou o).timer = some 0 then enterSupplyWait o ended else ended) = _
    rw [htimer]
    simp only [Option.some.injEq]

end Sys2Proof.Machine
end

