-- ==== Sys2Proof/Proofs/PalettesAndPins.lean ====
section
/-! PROOF. GET_OUTPUT and SET_PALETTE (R107 to R109, R135), and the pins of an output (R105, R116 to R121). -/

namespace Sys2Proof.Machine

/-! ### Colours of a SET_PALETTE (R107 to R109) -/

theorem coloursOf_length (n : Nat) (bytes : List Byte) : (coloursOf n bytes).length = n := by
  induction n generalizing bytes with
  | zero => rfl
  | succ n ih => rw [coloursOf, List.length_cons, ih]

theorem argColour_drop (bytes : List Byte) (k i : Nat) : argColour (bytes.drop k) i = argColour bytes (k + i) := by
  simp only [argColour, List.getD_eq_getElem?_getD, List.getElem?_drop, Nat.add_assoc]

/-- R192: colour i of the bytes is the one at offset 3 × i. -/
theorem coloursOf_getElem? {n i : Nat} (bytes : List Byte) (h : i < n) :
    (coloursOf n bytes)[i]? = some (argColour bytes (3 * i)) := by
  induction n generalizing bytes i with
  | zero => exact absurd h (Nat.not_lt_zero i)
  | succ n ih =>
    cases i with
    | zero => rfl
    | succ i =>
      rw [coloursOf, List.getElem?_cons_succ, ih _ (Nat.lt_of_succ_lt_succ h), argColour_drop]
      congr 2
      omega

@[simp] theorem writeEntries_length (palette : List Colour) (first : Nat) (colours : List Colour) :
    (writeEntries palette first colours).length = palette.length := List.length_mapIdx

theorem writeEntries_getElem? (palette : List Colour) (first : Nat) (colours : List Colour) (i : Nat) :
    (writeEntries palette first colours)[i]? =
      palette[i]?.map fun c => if first ≤ i then colours.getD (i - first) c else c := List.getElem?_mapIdx

/-- R108: the entries before and after those written are kept. -/
theorem writeEntries_outside {palette : List Colour} {first i : Nat} {colours : List Colour}
    (h : i < first ∨ first + colours.length ≤ i) : (writeEntries palette first colours)[i]? = palette[i]? := by
  rw [writeEntries_getElem?]
  cases palette[i]? with
  | none => rfl
  | some c =>
    by_cases hfirst : first ≤ i
    · have hpast : colours[i - first]? = none := List.getElem?_eq_none (by omega)
      simp [hfirst, hpast]
    · simp [hfirst]

/-- R108: the entries written hold the colours. -/
theorem writeEntries_inside {palette : List Colour} {first i : Nat} {colours : List Colour} {c : Colour}
    (hc : colours[i]? = some c) (hi : first + i < palette.length) :
    (writeEntries palette first colours)[first + i]? = some c := by
  rw [writeEntries_getElem?, List.getElem?_eq_getElem hi]
  simp [hc]

/-! ### GET_OUTPUT and SET_PALETTE -/

theorem OutputUnit.timingRuns_eq (u : OutputUnit) :
    u.timingRuns = decide (u.step = .clockWait ∨ u.step = .showing ∨ u.step = .backlightWait) := by
  unfold OutputUnit.timingRuns
  cases u.step <;> rfl

theorem PaletteLaw.ou {s : State} (h : PaletteLaw s) (o : OutputId) : paletteLawful (s.ou o) := by
  cases o
  · exact h.1
  · exact h.2

/-- R107, R108, R109: the checks of a SET_PALETTE, and what it does. In OFF both palettes hold the same colours, and the
same entries of both are written. -/
theorem dealtWith_setPalette {s : State} (seq code : Byte) (args : List Byte) (hs : s.headFrame.isSome = true)
    (hlaw : PaletteLaw s) :
    let n := arg8 args 0
    let first := arg8 args 1
    let count := arg16 args 2
    let o : OutputId := if n = 0 then .out0 else .out1
    let u := s.ou o
    let palette := writeEntries u.staging first (coloursOf count (args.drop 4))
    dealtWith seq code (setPaletteBody seq code args s) = answerBy seq code
      [(decide (args.length < 4 ∨ args.length ≠ 4 + 3 * count), .badLength), (decide (1 < n), .badArgument),
       (decide (count < 1 ∨ 256 < count ∨ 256 < first + count), .badArgument)] s
      (if u.state = .off then answered seq [code, 0x00, 0]
          (s.setOu o { u with active := palette, staging := palette, palettePending := false })
       else answered seq [code, 0x00, 1] (s.setOu o { u with staging := palette, palettePending := true })) := by
  intro n first count o u palette
  have hlength : (if args.length < 4 then refuse .badLength s else if args.length ≠ 4 + 3 * count then refuse .badLength s
      else (match outputOf (arg8 args 0) with
        | none => refuse .badArgument s
        | some o => if count = 0 ∨ 256 < count ∨ 256 < first + count then refuse .badArgument s else
          if (s.ou o).state = .off then
            (s.setOu o { s.ou o with
              active := writeEntries (s.ou o).active first (coloursOf count (args.drop 4))
              staging := writeEntries (s.ou o).staging first (coloursOf count (args.drop 4)), palettePending := false },
             .reply .ok [0])
          else (s.setOu o { s.ou o with
            staging := writeEntries (s.ou o).staging first (coloursOf count (args.drop 4)), palettePending := true },
             .reply .ok [1]))) = setPaletteBody seq code args s := rfl
  rw [← hlength, ← ite_or]
  refine dealtWith_check hs fun _ => ?_
  rw [outputOf_eq]
  by_cases hn : 1 < arg8 args 0
  · rw [if_pos hn, decide_eq_true (show 1 < n from hn)]
    exact dealtWith_reply seq code .badArgument [] hs
  · rw [if_neg hn, decide_eq_false (show ¬ 1 < n from hn)]
    have hrange : (count < 1 ∨ 256 < count ∨ 256 < first + count) ↔ (count = 0 ∨ 256 < count ∨ 256 < first + count) := by
      omega
    simp only [hrange]
    refine dealtWith_check hs fun _ => ?_
    by_cases hoff : u.state = .off
    · obtain ⟨_, _, hsame, hclear⟩ := hlaw.ou o
      have hboth : u.active = u.staging := (hsame (hclear hoff)).symm
      refine (congrArg _ (if_pos hoff)).trans (.trans ?_ (if_pos hoff).symm)
      change dealtWith seq code (s.setOu o { u with
        active := writeEntries u.active first _, staging := palette, palettePending := false }, .reply .ok [0]) = _
      rw [hboth]
      exact dealtWith_reply seq code .ok _ (by rwa [State.headFrame_setOu])
    · refine (congrArg _ (if_neg hoff)).trans (.trans ?_ (if_neg hoff).symm)
      exact dealtWith_reply (t := s.setOu o { u with staging := palette, palettePending := true }) seq code .ok _
        (by rwa [State.headFrame_setOu])

/-- Settles O37. -/
theorem getOutputAndSetPalette : Obligations.GetOutputAndSetPalette := by
  unfold Obligations.GetOutputAndSetPalette
  refine ⟨fun s seq args h => ?_, fun s seq args h hlaw => ?_⟩
  · intro n o u p d
    rw [← OutputUnit.timingRuns_eq]
    exact exec_of_dealtWith (body := getOutputBody) (after := id) rfl h rfl
      (dealtWith_withOutput (checks := []) h.headFrame_isSome
        (dealtWith_reply seq 0x33 .ok (outputFields o s) h.headFrame_isSome))
  · intro n first count o u
    obtain ⟨_, hlength, _, _⟩ := hlaw.ou o
    refine ⟨writeEntries u.staging first (coloursOf count (args.drop 4)), ?_, fun i hi => ?_, fun i hi hlast => ?_, ?_⟩
    · rw [writeEntries_length]
      exact hlength
    · exact writeEntries_outside (by rwa [coloursOf_length])
    · refine writeEntries_inside ?_ (hlength ▸ hlast)
      rw [coloursOf_getElem? _ hi, argColour_drop]
    · exact exec_of_dealtWith (body := setPaletteBody) (after := id) rfl h rfl
        (dealtWith_setPalette seq 0x34 args h.headFrame_isSome hlaw)

/-! ### The pins of an output (R105, R116 to R121) -/

/-- R113: a pin stands away from its deasserted level exactly when it is asserted. -/
theorem pinLevel_ne_iff (low asserted : Bool) : pinLevel low asserted ≠ low ↔ asserted = true := by
  cases low <;> cases asserted <;> decide

/-- The bits of three bytes side by side. -/
theorem getLsbD_three_bytes (r g b : Byte) (i : Nat) :
    (r ++ g ++ b).getLsbD i =
      if i < 8 then b.getLsbD i else if i - 8 < 8 then g.getLsbD (i - 8) else r.getLsbD (i - 8 - 8) := by
  simp only [BitVec.getLsbD_append]

/-- R105: the channels of a colour on the data pins. -/
theorem Colour.word_channels (c : Colour) :
    c.word.extractLsb' 16 8 = c.r ∧ c.word.extractLsb' 8 8 = c.g ∧ c.word.extractLsb' 0 8 = c.b := by
  have hword (i : Nat) : c.word.getLsbD i = (c.r ++ c.g ++ c.b).getLsbD i := rfl
  refine ⟨?_, ?_, ?_⟩
  · refine BitVec.eq_of_getLsbD_eq fun i hi => ?_
    rw [BitVec.getLsbD_extractLsb', hword, getLsbD_three_bytes, if_neg (by omega), if_neg (by omega), decide_eq_true hi,
      Bool.true_and]
    congr 1
    omega
  · refine BitVec.eq_of_getLsbD_eq fun i hi => ?_
    rw [BitVec.getLsbD_extractLsb', hword, getLsbD_three_bytes, if_neg (by omega), if_pos (by omega), decide_eq_true hi,
      Bool.true_and]
    congr 1
    omega
  · refine BitVec.eq_of_getLsbD_eq fun i hi => ?_
    rw [BitVec.getLsbD_extractLsb', hword, getLsbD_three_bytes, if_pos (by omega), decide_eq_true hi, Bool.true_and,
      Nat.zero_add]

/-- Settles O38, pin by pin. -/
theorem outputPins : Obligations.OutputPins := by
  unfold Obligations.OutputPins
  intro s o x u t p inGroup
  refine ⟨rfl, rfl, fun hstopped => ?_, fun hruns => ?_⟩
  · have hstopped : (s.ou o).timingRuns = false := hstopped
    refine ⟨?_, ?_, ?_, ?_, rfl⟩
    · simp [State.hsPin, pinLevel, hstopped, t, u]
    · simp [State.vsPin, pinLevel, hstopped, t, u]
    · simp [State.dePin, pinLevel, hstopped, t, u]
    · simp [State.dataPins, hstopped]
  · have hruns : (s.ou o).timingRuns = true := hruns
    refine ⟨?_, ?_, ?_, fun hdriven => ?_, fun line hline => ⟨fun hx => ?_, fun hx => ?_⟩⟩
    · unfold State.hsPin
      rw [pinLevel_ne_iff, hruns, Bool.true_and, Timing.hsAsserted, Bool.and_eq_true, decide_eq_true_eq, decide_eq_true_eq]
    · unfold State.vsPin
      rw [pinLevel_ne_iff, hruns, Bool.true_and]
      simp only [Timing.vsAsserted, Bool.or_eq_true, Bool.and_eq_true, decide_eq_true_eq]
      rfl
    · unfold State.dePin
      rw [pinLevel_ne_iff, hruns, Bool.true_and, Timing.deAsserted]
      change (match t.lineKind p with | .active _ => decide (x < t.hactive) | .blank => false) = true ↔ _
      cases t.lineKind p <;> simp
    · have hdriven : (s.ou o).driven = none := hdriven
      simp [State.dataPins, hruns, hdriven]
      decide
    · have hline : (s.ou o).driven = some line := hline
      have hword : s.dataPins o x = (line.getD x .black).word := by simp [State.dataPins, hruns, hline]
      rw [hword]
      exact Colour.word_channels _
    · have hline : (s.ou o).driven = some line := hline
      have hpast : line.getD x .black = .black := List.getD_eq_default _ _ hx
      have hword : s.dataPins o x = (line.getD x .black).word := by simp [State.dataPins, hruns, hline]
      rw [hword, hpast]
      decide

end Sys2Proof.Machine
end

