-- ==== Sys2Proof/Proofs/FrameGeometry.lean ====
section
/-! PROOF. The lines of a frame in order, and where their fetches begin (R117, R118, R138, R142). -/

namespace Sys2Proof.Machine

/-! ### The kind of a line by arithmetic (R117, R118) -/

theorem Timing.lineKind_progressive {t : Timing} (h : t.interlace = false) (p : Nat) :
    t.lineKind p = if p < t.vblank then .blank else .active (p - t.vblank) := by
  simp [Timing.lineKind, h]

theorem Timing.lineKind_interlaced {t : Timing} (h : t.interlace = true) (p : Nat) :
    t.lineKind p =
      if p < t.vblank + 1 then .blank
      else if p < t.topBlankStart then .active (2 * (p - (t.vblank + 1)))
      else if p < t.topBlankStart + t.vblank then .blank
      else .active (2 * (p - (t.topBlankStart + t.vblank)) + 1) := by
  simp [Timing.lineKind, h]

theorem Timing.lineKind_progressive_active {t : Timing} (h : t.interlace = false) {p y : Nat} :
    t.lineKind p = .active y ↔ p = t.vblank + y := by
  rw [t.lineKind_progressive h]
  split
  · simp
    omega
  · simp
    omega

theorem Timing.lineKind_progressive_blank {t : Timing} (h : t.interlace = false) {p : Nat} :
    t.lineKind p = .blank ↔ p < t.vblank := by
  rw [t.lineKind_progressive h]
  split <;> simp [*]

theorem Timing.lineKind_interlaced_active {t : Timing} (h : t.interlace = true) {p y : Nat} :
    t.lineKind p = .active y ↔
      (t.vblank + 1 ≤ p ∧ p < t.topBlankStart ∧ y = 2 * (p - (t.vblank + 1))) ∨
        (t.topBlankStart + t.vblank ≤ p ∧ y = 2 * (p - (t.topBlankStart + t.vblank)) + 1) := by
  have hstart : t.vblank + 1 ≤ t.topBlankStart := Nat.le_add_right _ _
  rw [t.lineKind_interlaced h]
  split
  · simp
    omega
  · split
    · simp
      omega
    · split
      · simp
        omega
      · simp
        omega

theorem Timing.lineKind_interlaced_blank {t : Timing} (h : t.interlace = true) {p : Nat} :
    t.lineKind p = .blank ↔ p < t.vblank + 1 ∨ (t.topBlankStart ≤ p ∧ p < t.topBlankStart + t.vblank) := by
  have hstart : t.vblank + 1 ≤ t.topBlankStart := Nat.le_add_right _ _
  rw [t.lineKind_interlaced h]
  split
  · simp [*]
  · split
    · simp
      omega
    · split
      · simp
        omega
      · simp
        omega

theorem Timing.frameLines_progressive {t : Timing} (h : t.interlace = false) :
    t.frameLines = t.vactive + t.vblank := by
  simp [Timing.frameLines, h]

theorem Timing.frameLines_interlaced {t : Timing} (h : t.interlace = true) (heven : t.vactive % 2 = 0) :
    t.frameLines = t.topBlankStart + t.vblank + t.vactive / 2 := by
  have : t.frameLines = t.vactive + 2 * t.vblank + 1 := by simp [Timing.frameLines, h]
  unfold Timing.topBlankStart
  omega

theorem Timing.inRange.even {t : Timing} (h : t.inRange) (hi : t.interlace = true) :
    16 ≤ t.vactive ∧ t.vactive % 2 = 0 := by
  obtain ⟨_, _, _, _, _, _, _, _, _, _, _, _, heven, _⟩ := h
  exact heven hi

theorem Timing.inRange.lines {t : Timing} (h : t.inRange) : 8 ≤ t.vactive ∧ 2 ≤ t.vblank := by
  obtain ⟨_, _, _, _, _, _, _, _, _, _, hactive, _, _, hblank, _⟩ := h
  exact ⟨hactive, hblank⟩

/-- R117, R118: every active line is driven once in a frame. -/
theorem Timing.lineKind_active_unique {t : Timing} {p q y : Nat} (hp : t.lineKind p = .active y)
    (hq : t.lineKind q = .active y) : p = q := by
  cases h : t.interlace with
  | false =>
    rw [Timing.lineKind_progressive_active h] at hp hq
    omega
  | true =>
    rw [Timing.lineKind_interlaced_active h] at hp hq
    omega

/-! ### The lines of a frame in order -/

/-- The lines of a segment of the frame. -/
theorem Timing.map_lineKind_segment (t : Timing) (start n : Nat) {kind : Nat → LineKind}
    (h : ∀ i < n, t.lineKind (start + i) = kind i) :
    (List.range n).map (fun i => t.lineKind (start + i)) = (List.range n).map kind :=
  List.map_congr_left fun i hi => h i (List.mem_range.1 hi)

theorem Timing.lines_progressive {t : Timing} (h : t.interlace = false) :
    (List.range t.frameLines).map t.lineKind =
      List.replicate t.vblank .blank ++ (List.range t.vactive).map fun i => .active i := by
  rw [Timing.frameLines_progressive h, Nat.add_comm, List.range_add, List.map_append, List.map_map]
  congr 1
  · refine List.eq_replicate_iff.2 ⟨by simp, fun k hk => ?_⟩
    obtain ⟨p, hp, rfl⟩ := List.mem_map.1 hk
    exact (Timing.lineKind_progressive_blank h).2 (List.mem_range.1 hp)
  · exact t.map_lineKind_segment t.vblank t.vactive fun i _ => (Timing.lineKind_progressive_active h).2 rfl

theorem Timing.lines_interlaced {t : Timing} (h : t.interlace = true) (heven : t.vactive % 2 = 0) :
    (List.range t.frameLines).map t.lineKind =
      List.replicate (t.vblank + 1) .blank ++ (List.range (t.vactive / 2)).map (fun i => .active (2 * i)) ++
        List.replicate t.vblank .blank ++ (List.range (t.vactive / 2)).map fun i => .active (2 * i + 1) := by
  have htop : t.topBlankStart = t.vblank + 1 + t.vactive / 2 := rfl
  rw [Timing.frameLines_interlaced h heven, htop, List.range_add, List.range_add, List.range_add]
  simp only [List.map_append, List.map_map]
  congr 1
  · congr 1
    · congr 1
      · refine List.eq_replicate_iff.2 ⟨by simp, fun k hk => ?_⟩
        obtain ⟨p, hp, rfl⟩ := List.mem_map.1 hk
        exact (Timing.lineKind_interlaced_blank h).2 (.inl (List.mem_range.1 hp))
      · exact t.map_lineKind_segment (t.vblank + 1) (t.vactive / 2) fun i hi =>
          (Timing.lineKind_interlaced_active h).2 (.inl (by omega))
    · refine List.eq_replicate_iff.2 ⟨by simp, fun k hk => ?_⟩
      obtain ⟨i, hi, rfl⟩ := List.mem_map.1 hk
      have := List.mem_range.1 hi
      change t.lineKind (t.vblank + 1 + t.vactive / 2 + i) = .blank
      exact (Timing.lineKind_interlaced_blank h).2 (.inr (by omega))
  · exact t.map_lineKind_segment (t.vblank + 1 + t.vactive / 2 + t.vblank) (t.vactive / 2) fun i hi =>
      (Timing.lineKind_interlaced_active h).2 (.inr (by omega))

/-! ### Where a fetch begins (R138, R142) -/

/-- R138, R142: on an active line the next line is fetched for when it is active; on the first line of a blank group the
active line behind the group. -/
theorem Timing.fetchAt_iff (t : Timing) (p y : Nat) :
    t.fetchAt p = some y ↔
      (t.lineKind p = .blank ∧ ((p = 0 ∧ y = 0) ∨ (p ≠ 0 ∧ t.interlace = true ∧ p = t.topBlankStart ∧ y = 1))) ∨
        (t.lineKind p ≠ .blank ∧ p + 1 < t.frameLines ∧ t.lineKind (p + 1) = .active y) := by
  unfold Timing.fetchAt Timing.afterBlankGroup
  cases hkind : t.lineKind p with
  | blank =>
    by_cases hp : p = 0
    · subst hp
      simp only [if_true, Option.some.injEq, true_and, ne_eq, not_true_eq_false, false_and, or_false]
      exact eq_comm
    · by_cases htop : t.interlace = true ∧ p = t.topBlankStart
      · obtain ⟨hi, hstart⟩ := htop
        simp only [hp, hi, hstart.symm, and_self, if_false, if_true, Option.some.injEq, false_and, ne_eq,
          not_false_eq_true, not_true_eq_false, true_and, false_or, or_false]
        exact eq_comm
      · have : ¬ (t.interlace = true ∧ p = t.topBlankStart ∧ y = 1) := fun h => htop ⟨h.1, h.2.1⟩
        simp [hp, htop, this]
  | active _ =>
    by_cases hlast : p + 1 < t.frameLines
    · cases hnext : t.lineKind (p + 1) <;> simp [hlast]
    · simp [hlast]

/-- R138: the fetch for an active line behind another active line begins at that line's start. -/
theorem Timing.fetchAt_after_active {t : Timing} {p q y : Nat} (hrange : t.inRange) (hq : q < t.frameLines)
    (hy : t.lineKind q = .active y) (hbefore : t.lineKind (q - 1) ≠ .blank) :
    t.fetchAt p = some y ↔ p + 1 = q := by
  rw [t.fetchAt_iff]
  constructor
  · rintro (⟨hblank, hgroup⟩ | ⟨_, _, hnext⟩)
    · exfalso
      cases hi : t.interlace with
      | false =>
        rw [Timing.lineKind_progressive_active hi] at hy
        rw [ne_eq, Timing.lineKind_progressive_blank hi] at hbefore
        simp only [hi, Bool.false_eq_true, false_and, and_false, or_false] at hgroup
        have := hrange.lines
        omega
      | true =>
        rw [Timing.lineKind_interlaced_active hi] at hy
        rw [ne_eq, Timing.lineKind_interlaced_blank hi] at hbefore
        have := hrange.lines
        have htop : t.topBlankStart = t.vblank + 1 + t.vactive / 2 := rfl
        omega
    · exact Timing.lineKind_active_unique hnext hy
  · rintro rfl
    exact .inr ⟨hbefore, hq, hy⟩

/-- R138, R142: the fetch for an active line behind a blank group begins at the first line of the group. -/
theorem Timing.fetchAt_after_blank {t : Timing} {p q y : Nat} (hrange : t.inRange)
    (hy : t.lineKind q = .active y) (hbefore : t.lineKind (q - 1) = .blank) :
    t.fetchAt p = some y ↔
      p ≤ q - 1 ∧ (∀ g, p ≤ g → g < q → t.lineKind g = .blank) ∧ (p = 0 ∨ t.lineKind (p - 1) ≠ .blank) := by
  rw [t.fetchAt_iff]
  have hlines := hrange.lines
  cases hi : t.interlace with
  | false =>
    rw [Timing.lineKind_progressive_active hi] at hy
    rw [Timing.lineKind_progressive_blank hi] at hbefore
    simp only [ne_eq, Timing.lineKind_progressive_blank hi, Timing.lineKind_progressive_active hi, Bool.false_eq_true,
      false_and, and_false, or_false]
    constructor
    · intro h
      exact ⟨by omega, fun g _ _ => by omega, by omega⟩
    · rintro ⟨hle, hall, hfirst⟩
      have := hall p le_rfl (by omega)
      omega
  | true =>
    have heven := hrange.even hi
    have htop : t.topBlankStart = t.vblank + 1 + t.vactive / 2 := rfl
    rw [Timing.lineKind_interlaced_active hi] at hy
    rw [Timing.lineKind_interlaced_blank hi] at hbefore
    simp only [ne_eq, Timing.lineKind_interlaced_blank hi, Timing.lineKind_interlaced_active hi, true_and]
    constructor
    · intro h
      exact ⟨by omega, fun g _ _ => by omega, by omega⟩
    · rintro ⟨hle, hall, hfirst⟩
      have hhere := hall p le_rfl (by omega)
      have hpast := hall (t.vblank + 1)
      omega

/-- Settles O39. -/
theorem frameGeometryAndFetchTimes : Obligations.FrameGeometryAndFetchTimes := by
  unfold Obligations.FrameGeometryAndFetchTimes
  refine ⟨fun t hrange => ?_, fun t p q y hrange hq hy _ => ?_⟩
  · cases hi : t.interlace with
    | false => exact Timing.lines_progressive hi
    | true => exact Timing.lines_interlaced hi (hrange.even hi).2
  · by_cases hbefore : t.lineKind (q - 1) = .blank
    · rw [if_pos hbefore]
      exact Timing.fetchAt_after_blank hrange hy hbefore
    · rw [if_neg hbefore]
      exact Timing.fetchAt_after_active hrange hq hy hbefore

end Sys2Proof.Machine
end

