-- ==== Sys2Proof/Proofs/Composition.lean ====
section
/-! PROOF. Bursts of a fetch that complete (R139, R146), LINE_START and FIELD_START (R119, R138, R140), the driven line
(R105, R132, R143) and the composed pixel (R96 to R103). -/

namespace Sys2Proof.Machine

/-! ### FETCH_BURST_COMPLETE (R139, R146) -/

/-- R139: what a half does with a completed burst. -/
theorem LineHalf.take_eq (h : LineHalf) (s : State) (b : FetchBurst) :
    h.take s b =
      if h.condition = .fetching then
        { h with areas := h.areas.mapIdx fun i a =>
            if i = b.area then
              { a with pixels := a.pixels ++ blockPixels s.mem (s.surface a.surface) a b.addr
                       complete := !h.todo.any fun later => decide (later.area = i) }
            else a }
      else h := by
  obtain ⟨condition, lines, areas, todo⟩ := h
  cases condition
  case free => rfl
  case shown => rfl
  case fetching =>
    refine congrArg (fun taken => LineHalf.mk .fetching lines taken todo) ?_
    refine congrArg (List.mapIdx · areas) (funext fun i => funext fun a => ?_)
    by_cases hi : i = b.area
    · rw [if_pos hi, if_pos hi, hi]
      rfl
    · rw [if_neg hi, if_neg hi]

/-- Settles O41. -/
theorem fetchBurstCompletes : Obligations.FetchBurstCompletes := by
  unfold Obligations.FetchBurstCompletes
  intro s
  constructor
  · intro h
    change execFetchBurstComplete s = _
    unfold execFetchBurstComplete
    split
    · next o b live hf => exact absurd hf (h o b live)
    · rfl
    · rfl
  · intro o b live h hb idle u taken
    have htaken : (fun g : LineHalf => g.take idle b) = taken := funext fun g => LineHalf.take_eq g idle b
    change execFetchBurstComplete s = _
    unfold execFetchBurstComplete
    rw [h]
    refine (if_neg (Nat.not_le.2 hb)).trans ?_
    rw [← htaken]
    cases o <;> rfl

/-! ### LINE_START and FIELD_START (R119, R136, R138, R140) -/

theorem LineHalf.release_eq (h : LineHalf) : h.release = if h.condition = .shown then .free else h := by
  unfold LineHalf.release
  cases h.condition <;> rfl

theorem LineHalf.show_eq (h : LineHalf) :
    h.show = if h.condition = .fetching then { h with condition := .shown, todo := [] } else h := by
  unfold LineHalf.show
  cases h.condition <;> rfl

/-- R136: once the SHOWN half is freed and the FETCHING half shown, the areas shown are those that were fetched. -/
theorem shownAreas_of_fetched {u : OutputUnit} {a b : LineHalf} (ha : u.halfA = a.release.show)
    (hb : u.halfB = b.release.show) :
    u.shownAreas = if a.condition = .fetching then a.areas else if b.condition = .fetching then b.areas else [] := by
  have hcond (h : LineHalf) : h.release.show.condition = .shown ↔ h.condition = .fetching := by
    unfold LineHalf.release
    split
    · next hs => rw [hs]; decide
    all_goals unfold LineHalf.show; simp [*]
  have hareas (h : LineHalf) (hf : h.condition = .fetching) : h.release.show.areas = h.areas := by
    simp [LineHalf.release, LineHalf.show, hf]
  unfold OutputUnit.shownAreas
  rw [ha, hb]
  simp only [hcond]
  split
  · next h => exact hareas a h
  · split
    · next h => exact hareas b h
    · rfl

theorem OutputUnit.fieldDue_iff (u : OutputUnit) :
    u.fieldDue = true ↔ u.timing.interlace = true ∧ u.scanLine = u.timing.vblank + 1 + u.timing.vactive / 2 ∧
      u.field = .top := by
  simp only [OutputUnit.fieldDue, Bool.and_eq_true, decide_eq_true_eq, and_assoc]
  rfl

/-- R140: what the line start of an active line comes to. -/
theorem showLine_eq (o : OutputId) (y : Nat) (s : State) {a b : LineHalf} (ha : (s.ou o).halfA = a.release)
    (hb : (s.ou o).halfB = b.release) :
    let areas := if a.condition = .fetching then a.areas else if b.condition = .fetching then b.areas else []
    let w := killFetchBurst o (s.setOu o { s.ou o with halfA := a.release.show, halfB := b.release.show })
    let d := driveLine o y areas w
    showLine o y s = if areas.any fun a => !a.complete then
        raise (.lineMiss o 1 y y) (d.setOu o { d.ou o with lineMiss := min 4294967295 ((d.ou o).lineMiss + 1) })
      else d := by
  intro areas w d
  have hareas : (w.ou o).shownAreas = areas := by
    refine shownAreas_of_fetched ?_ ?_
    · simp only [w, killFetchBurst_ou, State.ou_setOu_self]
    · simp only [w, killFetchBurst_ou, State.ou_setOu_self]
  have hw : killFetchBurst o (s.setOu o { s.ou o with
      halfA := (s.ou o).halfA.show, halfB := (s.ou o).halfB.show }) = w := by rw [ha, hb]
  unfold showLine
  dsimp only
  rw [hw, hareas]
  rfl

/-- Settles O42. -/
theorem lineStart : Obligations.LineStart := by
  unfold Obligations.LineStart
  intro o s u t p freed shown v driven begun due
  have hdue : u.fieldDue = true ↔ due := u.fieldDue_iff
  have hfreed : freed = LineHalf.release := funext fun h => (LineHalf.release_eq h).symm
  have hshown : shown = LineHalf.show := funext fun h => (LineHalf.show_eq h).symm
  have hdriven (y : Nat) : showLine o y (s.setOu o v) = driven y := by
    refine (showLine_eq o y (s.setOu o v) (a := u.halfA) (b := u.halfB) ?_ ?_).trans ?_
    · rw [State.ou_setOu_self, ← hfreed]
    · rw [State.ou_setOu_self, ← hfreed]
    · simp only [driven, State.ou_setOu_self, State.setOu_setOu, ← hfreed, ← hshown]
      rfl
  have henter : enterLine o p s = (t.fetchAt p).elim begun fun y =>
      beginFetch o y (decide (u.halfB.condition = .shown)) begun := by
    have hbegun : (match t.lineKind p with
        | .active y => showLine o y (s.setOu o v)
        | .blank => s.setOu o v) = begun := by
      simp only [hdriven]
      rfl
    unfold enterLine
    rw [← hbegun]
    simp only [v, hfreed]
    cases t.fetchAt p <;> rfl
  have hline : exec (.lineStart o) s = if u.timingRuns = true ∧ p < t.frameLines ∧ ¬ u.fieldDue = true then
      .next (enterLine o p s) else .next s := rfl
  refine ⟨fun h => ?_, fun hruns hlast hnot => ?_, fun hruns hfield => ?_, fun h => ?_⟩
  · rw [hline, if_neg]
    rintro ⟨hruns, hlast, hnot⟩
    obtain hstopped | hover | hfield := h
    · rw [hstopped] at hruns
      cases hruns
    · omega
    · exact hnot (hdue.2 hfield)
  · rw [hline, if_pos ⟨hruns, hlast, mt hdue.1 hnot⟩, henter]
  · exact if_pos ⟨hruns, hdue.2 hfield⟩
  · refine if_neg ?_
    rintro ⟨hruns, hfield⟩
    obtain hstopped | hnot := h
    · rw [hstopped] at hruns
      cases hruns
    · exact hnot (hdue.1 hfield)

/-! ### The driven line (R105, R132, R143) -/

theorem composeLine_length (s : State) (o : OutputId) (areas : List Area) (y : Nat) :
    (composeLine s o areas y).length = (s.ou o).timing.hactive := by
  simp [composeLine]

theorem filterLine_length (above here below : List Colour) : (filterLine above here below).length = here.length :=
  List.length_mapIdx

/-- R132: the colours of a filtered line. -/
theorem filterLine_getD {above here below : List Colour} {x : Nat} (h : x < here.length) :
    (filterLine above here below).getD x .black =
      filterColour (above.getD x .black) (here.getD x .black) (below.getD x .black) := by
  simp [filterLine, List.getD_eq_getElem?_getD, List.getElem?_mapIdx, List.getElem?_eq_getElem h]

/-- Settles O43, without and with the flicker filter. -/
theorem drivenLine : Obligations.DrivenLine := by
  unfold Obligations.DrivenLine
  intro o y areas s u t compose d
  have hcompose : composeLine s o areas = compose := rfl
  constructor
  · intro hplain
    have hplain : (s.ou o).timing.flicker = false := hplain
    unfold driveLine
    simp only [hplain, Bool.false_eq_true, if_false, hcompose]
    rfl
  · intro hfilter above below channel
    have hflicker : (s.ou o).timing.flicker = true := hfilter
    have hdrive : driveLine o y areas s = s.setOu o { u with
        driven := some (filterLine above (compose y) below)
        carry := if y + 1 < t.vactive then some (compose (y + 1)) else u.carry
        head := if y = 0 then some (compose y) else u.head } := by
      unfold driveLine lineAbove
      simp only [hflicker, if_true, hcompose]
      rfl
    have hd : d = { u with
        driven := some (filterLine above (compose y) below)
        carry := if y + 1 < t.vactive then some (compose (y + 1)) else u.carry
        head := if y = 0 then some (compose y) else u.head } := by
      simp only [d, hdrive, State.ou_setOu_self]
    have hlength : (compose y).length = t.hactive := composeLine_length s o areas y
    have hhead : (if y = 0 then some (compose y) else u.head) = if y = 0 then some (compose 0) else u.head := by
      by_cases hy : y = 0
      · rw [hy]
      · rw [if_neg hy, if_neg hy]
    rw [hd]
    refine ⟨⟨_, rfl, (filterLine_length _ _ _).trans hlength, fun x hx => ?_⟩, rfl, hhead, hdrive⟩
    exact filterLine_getD (hlength.symm ▸ hx)

/-! ### The composed pixel (R96 to R103) -/

/-- R140: an area is found when it is the owner's, for the line, and complete. -/
theorem areaOf_eq (areas : List Area) (owner : AreaOwner) (y : Nat) :
    areaOf areas owner y = areas.find? fun a => decide (a.owner = owner ∧ a.line = y ∧ a.complete = true) := by
  unfold areaOf
  congr 1
  funext a
  simp only [Bool.decide_and, Bool.decide_eq_true, Bool.and_assoc]

theorem applyLayer_eq (s : State) (o : OutputId) (areas : List Area) (x y : Nat) (below : Colour) (i : Nat) (l : Layer) :
    applyLayer s o areas x y below i l =
      (areas.find? fun a => decide (a.owner = .layer i ∧ a.line = y ∧ a.complete = true)).elim below fun a =>
        if l.dx ≤ x ∧ (x : Int) < l.dx + l.source.w then
          layerEffect l (s.surface l.surface).format (s.ou o).active (a.pixels.getD (x - l.dx.toNat) 0) below
        else below := by
  unfold applyLayer
  rw [areaOf_eq]
  cases areas.find? fun a => decide (a.owner = .layer i ∧ a.line = y ∧ a.complete = true) <;> rfl

theorem applyCursor_eq (p : Presentation) (areas : List Area) (x y : Nat) (below : Colour) :
    applyCursor p areas x y below =
      (p.binding.bind fun b => (areas.find? fun a => decide (a.owner = .cursor ∧ a.line = y ∧ a.complete = true)).map
          fun a => (b, a)).elim below fun ba =>
        if p.position.x ≤ x ∧ (x : Int) < p.position.x + 64 then
          ov2Effect ba.1.colour0 ba.1.colour1 (ba.2.pixels.getD ((x : Int) - p.position.x).toNat 0) below
        else below := by
  unfold applyCursor
  rw [areaOf_eq]
  cases p.binding with
  | none => rfl
  | some b => cases areas.find? fun a => decide (a.owner = .cursor ∧ a.line = y ∧ a.complete = true) <;> rfl

/-- R34: each channel inverted is 255 less it. -/
theorem Colour.invert_eq (c : Colour) :
    c.invert = ⟨byteOf (255 - c.r.toNat), byteOf (255 - c.g.toNat), byteOf (255 - c.b.toNat)⟩ := by
  have hnot (b : Byte) : ~~~b = byteOf (255 - b.toNat) := by
    refine BitVec.eq_of_toNat_eq ?_
    rw [BitVec.toNat_not, byteOf, BitVec.toNat_ofNat]
    omega
  simp only [Colour.invert, hnot]

/-- Settles O44: the pixel is its parts' effects, and each effect is read off its definition. -/
theorem composedPixel : Obligations.ComposedPixel := by
  unfold Obligations.ComposedPixel
  constructor
  · intro s o areas x y p ready layered cursor
    have hlayer (below : Colour) (li : Layer × Nat) : applyLayer s o areas x y below li.2 li.1 = layered li.2 li.1 below :=
      applyLayer_eq s o areas x y below li.2 li.1
    have hcursor (below : Colour) : applyCursor p areas x y below = cursor below := applyCursor_eq p areas x y below
    have hpixel : composePixel s o areas x y = cursor ((p.current.elim [] FrameRecord.layers).zipIdx.foldl
        (fun below li => layered li.2 li.1 below) (p.current.elim Colour.black FrameRecord.background)) := by
      unfold composePixel
      simp only [hlayer]
      exact hcursor _
    refine ⟨fun hnone => ?_, fun r hr => ?_⟩
    · rw [hpixel, hnone]
      rfl
    · rw [hpixel, hr]
      rfl
  · intro l palette raw below mixed
    have hmode (c : Colour) : modeEffect l.mode c below = mixed c := by
      unfold modeEffect mixed
      cases l.mode <;> rfl
    refine ⟨fun colour0 colour1 => ⟨rfl, rfl, rfl, Colour.invert_eq below⟩, hmode _, fun bank hbank => ?_, hmode _,
      fun colour0 colour1 hpair => ?_⟩
    · refine Eq.trans ?_ (hmode _)
      unfold layerEffect
      rw [hbank]
      rfl
    · unfold layerEffect
      rw [hpair]
      exact ⟨rfl, rfl, rfl, Colour.invert_eq below⟩

end Sys2Proof.Machine
end

