-- ==== Sys2Proof/Proofs/LineFetch.lean ====
section
/-! PROOF. The bursts of a span, the areas of a line, and the half a fetch takes (R136 to R139, R143). -/

namespace Sys2Proof.Machine

/-! ### The blocks of a span (R137) -/

theorem Format.bpp_pos (f : Format) : 1 ≤ f.bpp := by cases f <;> decide

theorem blockOf_eq (a : Nat) : blockOf a = a / 64 * 64 := rfl

/-- R137: the first byte of a pixel of a span lies between the first and the last byte of the span. -/
theorem spanByte_bounds {first count i bpp : Nat} (hi : i < count) (hbpp : 1 ≤ bpp) :
    first * bpp / 8 ≤ (first + i) * bpp / 8 ∧ (first + i) * bpp / 8 ≤ ((first + count) * bpp - 1) / 8 := by
  constructor
  · exact Nat.div_le_div_right (Nat.mul_le_mul_right _ (Nat.le_add_right _ _))
  · have hnext : (first + i + 1) * bpp ≤ (first + count) * bpp := Nat.mul_le_mul_right _ (by omega)
    rw [Nat.succ_mul] at hnext
    exact Nat.div_le_div_right (by omega)

/-- R137: the blocks of a span ascend. -/
theorem areaBlocks_pairwise (r : Surface) (a : Area) : (areaBlocks r a).Pairwise (· < ·) := by
  unfold areaBlocks
  refine List.pairwise_map.2 (List.pairwise_lt_range.imp fun h => ?_)
  exact Nat.mul_lt_mul_of_pos_right (Nat.add_lt_add_left h _) (by decide)

/-- R137: and they are the 64-byte blocks that hold a byte of the span. -/
theorem mem_areaBlocks {r : Surface} {a : Area} (h : 1 ≤ a.count) (b : Nat) :
    b ∈ areaBlocks r a ↔ b % 64 = 0 ∧ ∃ k, r.rowAddress a.row + a.first * r.format.bpp / 8 ≤ k ∧
      k ≤ r.rowAddress a.row + ((a.first + a.count) * r.format.bpp - 1) / 8 ∧ b ≤ k ∧ k < b + 64 := by
  obtain ⟨hfirst, hlast⟩ := spanByte_bounds (first := a.first) (i := 0) (bpp := r.format.bpp) h r.format.bpp_pos
  have hle := Nat.add_le_add_left (hfirst.trans hlast) (r.rowAddress a.row)
  have hmem : b ∈ areaBlocks r a ↔
      ∃ i < (r.rowAddress a.row + ((a.first + a.count) * r.format.bpp - 1) / 8) / 64 -
          (r.rowAddress a.row + a.first * r.format.bpp / 8) / 64 + 1,
        ((r.rowAddress a.row + a.first * r.format.bpp / 8) / 64 + i) * 64 = b := by
    unfold areaBlocks
    simp only [List.mem_map, List.mem_range]
    rfl
  rw [hmem]
  generalize r.rowAddress a.row + a.first * r.format.bpp / 8 = low at *
  generalize hhigh : r.rowAddress a.row + ((a.first + a.count) * r.format.bpp - 1) / 8 = high at *
  constructor
  · rintro ⟨i, hi, rfl⟩
    exact ⟨by omega, max low ((low / 64 + i) * 64), by omega, by omega, by omega, by omega⟩
  · rintro ⟨halign, k, hlow, hk, hb, hk'⟩
    exact ⟨b / 64 - low / 64, by omega, by omega⟩

/-! ### Laying a sorted list out by its keys -/

/-- In a list sorted by a key the elements of the least key come first. -/
theorem filter_least_append {α : Type} (f : α → Nat) {b : Nat} {l : List α} (hsorted : l.Pairwise fun x y => f x ≤ f y)
    (hleast : ∀ x ∈ l, b ≤ f x) :
    (l.filter fun x => decide (f x = b)) ++ (l.filter fun x => decide (f x ≠ b)) = l := by
  induction l with
  | nil => rfl
  | cons x xs ih =>
    obtain ⟨hx, hsorted⟩ := List.pairwise_cons.1 hsorted
    by_cases hb : f x = b
    · rw [List.filter_cons_of_pos (by simpa using hb), List.filter_cons_of_neg (by simpa using hb), List.cons_append,
        ih hsorted fun y hy => hleast y (List.mem_cons_of_mem _ hy)]
    · have hlater (y : α) (hy : y ∈ x :: xs) : f y ≠ b := by
        have := hleast x List.mem_cons_self
        rcases List.mem_cons.1 hy with rfl | hy
        · exact hb
        · have := hx y hy
          omega
      rw [List.filter_eq_nil_iff.2 fun y hy => by simpa using hlater y hy,
        List.filter_eq_self.2 fun y hy => by simpa using hlater y hy, List.nil_append]

/-- A list sorted by a key is its elements key by key, over any ascending list of keys that holds them all. -/
theorem flatMap_filter_keys {α : Type} (f : α → Nat) {keys : List Nat} (hkeys : keys.Pairwise (· < ·)) {l : List α}
    (hsorted : l.Pairwise fun x y => f x ≤ f y) (hall : ∀ x ∈ l, f x ∈ keys) :
    (keys.flatMap fun b => l.filter fun x => decide (f x = b)) = l := by
  induction keys generalizing l with
  | nil => exact (List.eq_nil_iff_forall_not_mem.2 fun x hx => nomatch hall x hx).symm
  | cons b keys ih =>
    obtain ⟨hb, hkeys⟩ := List.pairwise_cons.1 hkeys
    have hleast (x : α) (hx : x ∈ l) : b ≤ f x := by
      rcases List.mem_cons.1 (hall x hx) with h | h
      · omega
      · exact (hb _ h).le
    have hrest := ih (l := l.filter fun x => decide (f x ≠ b)) hkeys (hsorted.filter _) fun x hx => by
      obtain ⟨hx, hne⟩ := List.mem_filter.1 hx
      exact (List.mem_cons.1 (hall x hx)).resolve_left (of_decide_eq_true hne)
    rw [List.flatMap_cons]
    conv_rhs => rw [← filter_least_append f hsorted hleast, ← hrest]
    refine congrArg _ (List.flatMap_congr fun c hc => ?_)
    rw [List.filter_filter]
    refine List.filter_congr fun x _ => ?_
    have := hb c hc
    by_cases hx : f x = c
    · rw [decide_eq_true hx, decide_eq_true (show f x ≠ b by omega)]
      rfl
    · rw [decide_eq_false hx]
      rfl

/-- R137: what is kept of the blocks of a span, end to end, is its raw values in order. -/
theorem areaBlocks_flatMap_blockPixels (m : List Host.Cell) (r : Surface) {a : Area} (h : 1 ≤ a.count) :
    (areaBlocks r a).flatMap (blockPixels m r a) = (List.range a.count).map fun i => rawPixel m r (a.first + i) a.row := by
  have hkeys := flatMap_filter_keys (fun i => blockOf (r.pixelAddress (a.first + i) a.row)) (areaBlocks_pairwise r a)
    (l := List.range a.count) ?_ ?_
  · conv_rhs => rw [← hkeys, List.map_flatMap]
    rfl
  · refine List.pairwise_lt_range.imp fun {i j} hij => ?_
    have haddr : r.pixelAddress (a.first + i) a.row ≤ r.pixelAddress (a.first + j) a.row :=
      Nat.add_le_add_left (Nat.div_le_div_right (Nat.mul_le_mul_right _ (by omega))) _
    simp only [blockOf_eq]
    omega
  · intro i hi
    obtain ⟨hlow, hhigh⟩ := spanByte_bounds (first := a.first) (List.mem_range.1 hi) r.format.bpp_pos
    refine (mem_areaBlocks h _).2 ⟨by rw [blockOf_eq]; omega, r.pixelAddress (a.first + i) a.row, ?_, ?_, ?_, ?_⟩
    · exact Nat.add_le_add_left hlow _
    · exact Nat.add_le_add_left hhigh _
    · rw [blockOf_eq]
      omega
    · rw [blockOf_eq]
      omega

/-! ### The areas of a line (R137, R139) -/

/-- R137: the cursor row of a line, when the cursor meets it. -/
theorem cursorArea_eq_some {p : Presentation} {t : Timing} {y : Nat} {a : Area} :
    cursorArea p t y = some a ↔ a.line = y ∧ a.pixels = [] ∧ a.complete = false ∧ a.owner = .cursor ∧
      ∃ b, p.binding = some b ∧ p.position.visible = true ∧ p.position.y ≤ y ∧ (y : Int) < p.position.y + 64 ∧
        p.position.x < t.hactive ∧ 0 < p.position.x + 64 ∧ a.surface = b.surface ∧ (a.row : Int) = y - p.position.y ∧
        a.first = 0 ∧ a.count = 64 := by
  unfold cursorArea
  cases p.binding with
  | none => simp
  | some b =>
    obtain ⟨owner, line, surface, row, first, count, pixels, complete⟩ := a
    simp only [Option.ite_none_right_eq_some, Option.some.injEq, Area.mk.injEq]
    constructor
    · rintro ⟨⟨hv, hy, hy', hx, hx'⟩, rfl, rfl, rfl, rfl, rfl, rfl, rfl, rfl⟩
      exact ⟨rfl, rfl, rfl, rfl, b, rfl, hv, hy, hy', hx, hx', rfl, by omega, rfl, rfl⟩
    · rintro ⟨rfl, rfl, rfl, rfl, b', rfl, hv, hy, hy', hx, hx', rfl, hrow, rfl, rfl⟩
      exact ⟨⟨hv, hy, hy', hx, hx'⟩, rfl, rfl, rfl, by omega, rfl, rfl, rfl, rfl⟩

/-- R137: the span of a layer on a line, when it covers a pixel of it. -/
theorem layerArea_eq_some {i : Nat} {l : Layer} {t : Timing} {y : Nat} {a : Area} :
    layerArea i l t y = some a ↔ a.line = y ∧ a.pixels = [] ∧ a.complete = false ∧ a.owner = .layer i ∧ l.dy ≤ y ∧
      (y : Int) < l.dy + l.source.h ∧ 1 ≤ a.count ∧ a.surface = l.surface ∧ (a.row : Int) = l.source.y + y - l.dy ∧
      (a.first : Int) = l.source.x + max 0 (-l.dx) ∧ (a.count : Int) = min (l.dx + l.source.w) t.hactive - max l.dx 0 := by
  unfold layerArea clippedWidth
  obtain ⟨owner, line, surface, row, first, count, pixels, complete⟩ := a
  simp only [Option.ite_none_right_eq_some, Option.some.injEq, Area.mk.injEq]
  constructor
  · rintro ⟨⟨hy, hy', hc⟩, rfl, rfl, rfl, rfl, rfl, rfl, rfl, rfl⟩
    exact ⟨rfl, rfl, rfl, rfl, hy, hy', hc, rfl, by omega, by omega, by omega⟩
  · rintro ⟨rfl, rfl, rfl, rfl, hy, hy', hc, rfl, hrow, hfirst, hcount⟩
    exact ⟨⟨hy, hy', by omega⟩, rfl, rfl, rfl, by omega, by omega, by omega, rfl, rfl⟩

/-- R139: an area of a line is the cursor's or that of a layer of the current frame. -/
theorem mem_lineAreas {p : Presentation} {t : Timing} {y : Nat} {a : Area} :
    a ∈ lineAreas p t y ↔ cursorArea p t y = some a ∨
      ∃ i r l, p.current = some r ∧ r.layers[i]? = some l ∧ layerArea i l t y = some a := by
  unfold lineAreas
  rw [List.mem_append, Option.mem_toList]
  refine or_congr Iff.rfl ?_
  simp only [List.mem_filterMap, List.mem_mapIdx, id_eq, exists_eq_right]
  cases p.current with
  | none => simp
  | some r =>
    constructor
    · rintro ⟨i, hi, harea⟩
      exact ⟨i, r, r.layers[i], rfl, List.getElem?_eq_getElem hi, harea⟩
    · rintro ⟨i, _, l, hr, hl, harea⟩
      cases hr
      obtain ⟨hi, rfl⟩ := List.getElem?_eq_some_iff.1 hl
      exact ⟨i, hi, harea⟩

/-- R139: the cursor row comes first, and the layers bottom first. -/
theorem lineAreas_pairwise (p : Presentation) (t : Timing) (y : Nat) :
    (lineAreas p t y).Pairwise fun a b =>
      a.owner = .cursor ∨ ∃ i j, a.owner = .layer i ∧ b.owner = .layer j ∧ i < j := by
  have hcursor (a : Area) (ha : a ∈ (cursorArea p t y).toList) : a.owner = .cursor := by
    obtain ⟨_, _, _, howner, _⟩ := cursorArea_eq_some.1 (Option.mem_toList.1 ha)
    exact howner
  have howner {i : Nat} {l : Layer} {a : Area} (ha : layerArea i l t y = some a) : a.owner = .layer i := by
    obtain ⟨_, _, _, howner, _⟩ := layerArea_eq_some.1 ha
    exact howner
  unfold lineAreas
  refine List.pairwise_append.2 ⟨?_, ?_, fun a ha _ _ => .inl (hcursor a ha)⟩
  · cases cursorArea p t y <;> simp
  · refine List.pairwise_filterMap.2 (List.pairwise_iff_getElem.2 fun i j hi hj hij a ha b hb => ?_)
    rw [id_eq, List.getElem_mapIdx] at ha hb
    exact .inr ⟨i, j, howner ha, howner hb, hij⟩

/-! ### The half a fetch takes (R136) -/

theorem OutputUnit.fillFree_halfA {u : OutputUnit} {wasB : Bool} (h : LineHalf) (ha : u.halfA.condition = .free)
    (hb : wasB = false ∨ u.halfB.condition ≠ .free) : u.fillFree wasB h = { u with halfA := h } := by
  unfold OutputUnit.fillFree
  rw [if_neg, if_pos ha]
  rintro ⟨hfree, hwas | hbusy⟩
  · exact hb.elim (fun hnot => by rw [hnot] at hwas; cases hwas) (· hfree)
  · exact hbusy ha

theorem OutputUnit.fillFree_halfB {u : OutputUnit} {wasB : Bool} (h : LineHalf) (hb : u.halfB.condition = .free)
    (ha : wasB = true ∨ u.halfA.condition ≠ .free) : u.fillFree wasB h = { u with halfB := h } := if_pos ⟨hb, ha⟩

/-- Settles O40. -/
theorem fetchReadsWhatTheLineNeeds : Obligations.FetchReadsWhatTheLineNeeds := by
  unfold Obligations.FetchReadsWhatTheLineNeeds
  constructor
  · intro m r a h row
    exact ⟨areaBlocks_pairwise r a, mem_areaBlocks h, areaBlocks_flatMap_blockPixels m r h⟩
  · intro o y wasB s u t p lines areas half
    have hbegin : beginFetch o y wasB s = arbitrate (s.setOu o (u.fillFree wasB half)) := rfl
    refine ⟨fun ha hb => ?_, fun hb ha => ?_, ?_, fun a => ?_, lineAreas_pairwise p t y⟩
    · rw [hbegin, OutputUnit.fillFree_halfA half ha hb]
    · rw [hbegin, OutputUnit.fillFree_halfB half hb ha]
    · unfold fetchBursts
      rw [List.mapIdx_eq_zipIdx_map]
    · rw [mem_lineAreas, cursorArea_eq_some]
      simp only [layerArea_eq_some]
      constructor
      · rintro (⟨hl, hp, hc, ho, hcursor⟩ | ⟨i, r, l, hr, hi, hl, hp, hc, ho, hlayer⟩)
        · exact ⟨hl, hp, hc, .inl ⟨ho, hcursor⟩⟩
        · exact ⟨hl, hp, hc, .inr ⟨i, r, l, ho, hr, hi, hlayer⟩⟩
      · rintro ⟨hl, hp, hc, ⟨ho, hcursor⟩ | ⟨i, r, l, ho, hr, hi, hlayer⟩⟩
        · exact .inl ⟨hl, hp, hc, ho, hcursor⟩
        · exact .inr ⟨i, r, l, hr, hi, hl, hp, hc, ho, hlayer⟩

end Sys2Proof.Machine
end

