-- ==== Sys2Proof/Proofs/Claims.lean ====
section
/-! PROOF. Uses given up and what follows on a surface (R7 to R10), completion of the active job (R45), a take and a
release (R70, R77, R79). -/

namespace Sys2Proof.Machine

/-! ### Records changed in place -/

/-- The state with every record changed by its id. -/
def State.mapSurfaces (s : State) (f : Nat → Surface → Surface) : State := { s with surfaces := s.surfaces.mapIdx f }

/-- Replacing the record of an id by a change of it changes that record only, also where there is none. -/
theorem set_getD_eq_mapIdx {α : Type} (l : List α) (id : Nat) (d : α) (f : α → α) :
    l.set id (f (l.getD id d)) = l.mapIdx fun i r => if i = id then f r else r := by
  refine List.ext_getElem? fun i => ?_
  rw [List.getElem?_set, List.getElem?_mapIdx]
  by_cases hi : id = i
  · subst hi
    rw [if_pos rfl, List.getD_eq_getElem?_getD]
    split
    · next h => simp [List.getElem?_eq_getElem h]
    · next h => simp [List.getElem?_eq_none (Nat.not_lt.1 h)]
  · rw [if_neg hi]
    cases l[i]? <;> simp [Ne.symm hi]

theorem setSurface_eq_mapSurfaces (s : State) (id : Nat) (f : Surface → Surface) :
    s.setSurface id (f (s.surface id)) = s.mapSurfaces fun i r => if i = id then f r else r := by
  unfold State.setSurface State.surface State.mapSurfaces
  rw [set_getD_eq_mapIdx]

theorem mapSurfaces_mapSurfaces (s : State) (f g : Nat → Surface → Surface) :
    (s.mapSurfaces f).mapSurfaces g = s.mapSurfaces fun i r => g i (f i r) := by
  unfold State.mapSurfaces
  rw [List.mapIdx_mapIdx]
  rfl

theorem mapSurfaces_congr (s : State) {f g : Nat → Surface → Surface} (h : ∀ i r, f i r = g i r) :
    s.mapSurfaces f = s.mapSurfaces g := by
  rw [show f = g from funext fun i => funext fun r => h i r]

/-- A change that keeps the EMPTY record is read off at every id. -/
theorem surface_mapSurfaces (s : State) {f : Nat → Surface → Surface} {id : Nat} (h : f id .empty = .empty) :
    (s.mapSurfaces f).surface id = f id (s.surface id) := by
  unfold State.surface State.mapSurfaces
  rw [List.getD_eq_getElem?_getD, List.getD_eq_getElem?_getD, List.getElem?_mapIdx]
  cases s.surfaces[id]? with
  | none => exact h.symm
  | some r => rfl

/-! ### Uses given up (R8, R10) -/

/-- R8: scan references less those given up. -/
def Surface.lessScans (uses : List Nat) (i : Nat) (r : Surface) : Surface :=
  { r with scanRefs := r.scanRefs - uses.count i }

/-- R8: job references and writers less those of an entry. -/
def Surface.lessJob (k : JobKind) (i : Nat) (r : Surface) : Surface :=
  { r with jobRefs := r.jobRefs - (if i ∈ k.surfaces then 1 else 0)
           writers := r.writers - (if k.destination = some i then 1 else 0) }

theorem Surface.lessScans_empty (uses : List Nat) (i : Nat) : Surface.empty.lessScans uses i = .empty := by
  simp [Surface.lessScans, Surface.empty]

theorem Surface.lessJob_empty (k : JobKind) (i : Nat) : Surface.empty.lessJob k i = .empty := by
  simp [Surface.lessJob, Surface.empty]

/-- R8: giving references up one by one lowers each count by the times its surface is named. -/
theorem foldl_dropScan (uses : List Nat) (s : State) :
    uses.foldl (fun acc id => dropScan id acc) s = s.mapSurfaces fun i r => r.lessScans uses i := by
  induction uses generalizing s with
  | nil =>
    have hsame : s.surfaces.mapIdx (fun i r => r.lessScans [] i) = s.surfaces :=
      List.ext_getElem? fun i => by rw [List.getElem?_mapIdx]; cases s.surfaces[i]? <;> rfl
    exact (congrArg (fun l => { s with surfaces := l }) hsame).symm
  | cons id uses ih =>
    have hdrop : dropScan id s = s.mapSurfaces fun i r => if i = id then { r with scanRefs := r.scanRefs - 1 } else r :=
      setSurface_eq_mapSurfaces s id fun r => { r with scanRefs := r.scanRefs - 1 }
    rw [List.foldl_cons, ih, hdrop, mapSurfaces_mapSurfaces]
    refine mapSurfaces_congr s fun i r => ?_
    by_cases hi : i = id
    · subst hi
      simp [Surface.lessScans, Nat.sub_sub, Nat.add_comm]
    · simp [Surface.lessScans, hi, Ne.symm hi]

/-- R10: scan references released are given up as one claim. -/
theorem releaseScans_eq (uses : List Nat) (s : State) : releaseScans uses s = scansGivenUp uses s :=
  congrArg (settleSurfaces uses) (foldl_dropScan uses s)

theorem dropJobRef_eq (id : Nat) (s : State) :
    dropJobRef id s = s.mapSurfaces fun i r => if i = id then { r with jobRefs := r.jobRefs - 1 } else r :=
  setSurface_eq_mapSurfaces s id fun r => { r with jobRefs := r.jobRefs - 1 }

theorem dropWriter_eq (id : Nat) (s : State) :
    dropWriter id s = s.mapSurfaces fun i r => if i = id then { r with writers := r.writers - 1 } else r :=
  setSurface_eq_mapSurfaces s id fun r => { r with writers := r.writers - 1 }

/-- R8: the distinct surfaces an entry names. -/
theorem JobKind.surfaces_nodup (k : JobKind) : k.surfaces.Nodup := by
  cases k with
  | copy dst src source dx dy key =>
    by_cases h : dst = src
    · simp [JobKind.surfaces, h]
    · simp [JobKind.surfaces, h]
  | _ => simp [JobKind.surfaces]

/-- R8: job references given up on distinct surfaces. -/
theorem foldl_dropJobRef {ids : List Nat} (h : ids.Nodup) (s : State) :
    ids.foldl (fun acc id => dropJobRef id acc) s =
      s.mapSurfaces fun i r => { r with jobRefs := r.jobRefs - (if i ∈ ids then 1 else 0) } := by
  induction ids generalizing s with
  | nil =>
    have hsame : s.surfaces.mapIdx (fun i r => { r with jobRefs := r.jobRefs - (if i ∈ [] then 1 else 0) }) =
        s.surfaces := List.ext_getElem? fun i => by rw [List.getElem?_mapIdx]; cases s.surfaces[i]? <;> simp
    exact (congrArg (fun l => { s with surfaces := l }) hsame).symm
  | cons id ids ih =>
    obtain ⟨hnew, hids⟩ := List.nodup_cons.1 h
    rw [List.foldl_cons, ih hids, dropJobRef_eq, mapSurfaces_mapSurfaces]
    refine mapSurfaces_congr s fun i r => ?_
    by_cases hi : i = id
    · subst hi
      simp [hnew]
    · simp [hi]

/-- R8: the uses of an entry are lowered by one on each surface it names. -/
theorem dropJobUses_eq_mapSurfaces (k : JobKind) (s : State) :
    dropJobUses k s = s.mapSurfaces fun i r => r.lessJob k i := by
  unfold dropJobUses
  rw [foldl_dropJobRef k.surfaces_nodup]
  cases hdst : k.destination with
  | none => exact mapSurfaces_congr s fun i r => by simp [Surface.lessJob, hdst]
  | some id =>
    refine (dropWriter_eq id _).trans ((mapSurfaces_mapSurfaces s _ _).trans (mapSurfaces_congr s fun i r => ?_))
    by_cases hi : i = id
    · simp [Surface.lessJob, hdst, hi]
    · simp [Surface.lessJob, hdst, hi, Ne.symm hi]

/-- R10, R45: the uses of an entry released are given up as one claim. -/
theorem releaseJob_eq (k : JobKind) (s : State) : releaseJob k s = jobGivenUp k.surfaces k s :=
  congrArg (settleSurfaces k.surfaces) (dropJobUses_eq_mapSurfaces k s)

/-- R46: so are those of a cancelled entry, but for the surface that is discarded. -/
theorem releaseCancelled_eq (self : Nat) (k : JobKind) (s : State) :
    releaseCancelled self k s = jobGivenUp (k.surfaces.filter fun id => decide (id ≠ self)) k s :=
  congrArg (settleSurfaces _) (dropJobUses_eq_mapSurfaces k s)

/-! ### What follows on a surface (R7, R10) -/

theorem raise_surfaces (n : Notice) (s : State) : (raise n s).surfaces = s.surfaces := by
  obtain ⟨_, _, h⟩ := raise_eq n s
  rw [h]

theorem completeRef_surfaces (ref : PendingRef) (st : Status) (s : State) :
    (completeRef ref st s).surfaces = s.surfaces := by
  obtain ⟨_, _, _, h⟩ := completeRef_eq ref st s
  rw [h]

theorem surface_of_surfaces {s t : State} (h : t.surfaces = s.surfaces) (id : Nat) : t.surface id = s.surface id := by
  unfold State.surface
  rw [h]

/-- R10: what settling one surface comes to. -/
theorem settleSurface_eq (id : Nat) (s : State) :
    let r := s.surface id
    settleSurface id s =
      if r.state = .sealing ∧ r.writers = 0 then
        completeRef (.seal id) .ok (s.setSurface id { r with state := .ready, sealPending := false })
      else if r.state = .discarding ∧ r.scanRefs = 0 ∧ r.jobRefs = 0 then
        raise (.surfaceFreed id r.base r.granules) (freeSurface id s)
      else s := by
  intro r
  unfold settleSurface
  change (match r.state with
    | .sealing => _ | .discarding => _ | .empty | .filling | .ready => _) = _
  cases hstate : r.state <;> simp [r]

/-- R10: settling a surface leaves every other record, and a record that is neither SEALING nor DISCARDING. -/
theorem settleSurface_surface {id i : Nat} {s : State}
    (h : i ≠ id ∨ ((s.surface i).state ≠ .sealing ∧ (s.surface i).state ≠ .discarding)) :
    (settleSurface id s).surface i = s.surface i := by
  rw [settleSurface_eq]
  by_cases hi : i = id
  · subst hi
    obtain ⟨hseal, hdiscard⟩ := h.resolve_left (not_not.2 rfl)
    simp [hseal, hdiscard]
  · split
    · rw [surface_of_surfaces (completeRef_surfaces _ _ _), State.surface_setSurface_other _ _ hi]
    · split
      · rw [surface_of_surfaces (raise_surfaces _ _)]
        exact State.surface_setSurface_other s .empty hi
      · rfl

theorem foldl_settleSurface_surface {ids : List Nat} {i : Nat} {s : State}
    (h : i ∉ ids ∨ ((s.surface i).state ≠ .sealing ∧ (s.surface i).state ≠ .discarding)) :
    (ids.foldl (fun w id => settleSurface id w) s).surface i = s.surface i := by
  induction ids generalizing s with
  | nil => rfl
  | cons id ids ih =>
    have hfirst : (settleSurface id s).surface i = s.surface i :=
      settleSurface_surface (h.imp_left fun hnot heq => hnot (heq ▸ List.mem_cons_self))
    rw [List.foldl_cons, ih, hfirst]
    rw [hfirst]
    exact h.imp_left fun hnot hmem => hnot (List.mem_cons_of_mem _ hmem)

/-- R10: a record that is neither SEALING nor DISCARDING only loses the references given up. -/
theorem scansGivenUp_surface {uses : List Nat} {i : Nat} {s : State}
    (h : i ∉ uses ∨ ((s.surface i).state ≠ .sealing ∧ (s.surface i).state ≠ .discarding)) :
    (scansGivenUp uses s).surface i = (s.surface i).lessScans uses i := by
  have hless : (s.mapSurfaces fun i r => r.lessScans uses i).surface i = (s.surface i).lessScans uses i :=
    surface_mapSurfaces s (Surface.lessScans_empty uses i)
  refine (foldl_settleSurface_surface (s := s.mapSurfaces fun i r => r.lessScans uses i) ?_).trans hless
  rw [hless]
  exact h

theorem jobGivenUp_surface {ids : List Nat} {k : JobKind} {i : Nat} {s : State}
    (h : i ∉ ids ∨ ((s.surface i).state ≠ .sealing ∧ (s.surface i).state ≠ .discarding)) :
    (jobGivenUp ids k s).surface i = (s.surface i).lessJob k i := by
  have hless : (s.mapSurfaces fun i r => r.lessJob k i).surface i = (s.surface i).lessJob k i :=
    surface_mapSurfaces s (Surface.lessJob_empty k i)
  refine (foldl_settleSurface_surface (s := s.mapSurfaces fun i r => r.lessJob k i) ?_).trans hless
  rw [hless]
  exact h

/-! ### Completion (R43 to R45, R54) -/

/-- R45: the state without its active entry. -/
def State.activeLeft (s : State) (rest : List Job) : State :=
  { s with pe := { s.pe with jobs := rest, source := none, heldBurst := none, readOut := [], request := none } }

theorem completeActive_cons {s : State} {j : Job} {rest : List Job} (h : s.pe.jobs = j :: rest) :
    completeActive s = match j.kind with
      | .fill _ _ _ | .copy _ _ _ _ _ _ => releaseJob j.kind (s.activeLeft rest)
      | .read target _ link =>
        let data := packPixels (s.surface target).format s.pe.readOut
        completeSeq link .ok (le16 data.length ++ data) (releaseJob j.kind (s.activeLeft rest))
      | .fence link => completeSeq link .ok [] (releaseJob j.kind (s.activeLeft rest))
      | .stream _ _ =>
        match s.pe.session with
        | none => releaseJob j.kind (s.activeLeft rest)
        | some x =>
          let t := releaseJob j.kind ((s.activeLeft rest).setPe (s.activeLeft rest).pe.closeSession)
          x.link.elim t fun link =>
            completeSeq link (if x.received = x.expected then .ok else .short) (le32 x.received ++ le32 j.progress) t := by
  unfold completeActive
  rw [h]
  rfl

/-- Settles O31. -/
theorem completionAndRelease : Obligations.CompletionAndRelease := by
  unfold Obligations.CompletionAndRelease
  refine ⟨fun k => ?_, fun s j rest h => ?_, settleSurface_eq, fun k s => ?_⟩
  · cases k <;> exact ⟨rfl, rfl⟩
  · have hcomplete := completeActive_cons h
    refine ⟨fun dst r value hk => ?_, fun dst src r dx dy key hk => ?_, fun target r link hk => ?_, fun link hk => ?_,
      fun dst r x hk hx => ?_⟩
    · simp only [hcomplete, hk]
      rfl
    · simp only [hcomplete, hk]
      rfl
    · simp only [hcomplete, hk]
      rfl
    · simp only [hcomplete, hk]
      rfl
    · simp only [hcomplete, hk, hx]
      rfl
  · refine ⟨releaseJob_eq k s, fun id hstate => ?_, ?_⟩
    · rw [releaseJob_eq]
      refine jobGivenUp_surface (.inr ?_)
      obtain h | h := hstate <;> rw [h] <;> decide
    · obtain ⟨su, gr, rs, c, ps, ns, n, h⟩ := releaseJob_frame k s
      exact ⟨su, gr, ns, n, rs, c, ps, h⟩

end Sys2Proof.Machine
end

