-- ==== Sys2Proof/Proofs/TakeAndRelease.lean ====
section
/-! PROOF. The take at a frame start and the release of what an output presents (R70, R71, R77, R79, R91). -/

namespace Sys2Proof.Machine

/-! ### What a claim keeps -/

theorem ClaimFrame.ou {s t : State} (h : ClaimFrame s t) (o : OutputId) : t.ou o = s.ou o := by
  obtain ⟨_, _, _, _, _, _, _, rfl⟩ := h
  cases o <;> rfl

theorem ClaimFrame.pres {s t : State} (h : ClaimFrame s t) (o : OutputId) : t.pres o = s.pres o := by
  obtain ⟨_, _, _, _, _, _, _, rfl⟩ := h
  cases o <;> rfl

theorem scansGivenUp_frame (uses : List Nat) (s : State) : ClaimFrame s (scansGivenUp uses s) :=
  releaseScans_eq uses s ▸ releaseScans_frame uses s

theorem raise_frame (n : Notice) (s : State) : ClaimFrame s (raise n s) := .of_notices (raise_eq n s)

theorem completeRef_frame (ref : PendingRef) (st : Status) (s : State) : ClaimFrame s (completeRef ref st s) :=
  .of_replies (completeRef_eq ref st s)

/-- `t` is `s` but for one output, its presentation state, and what a claim can change. -/
def PresentFrame (o : OutputId) (s t : State) : Prop := ∃ u p, ClaimFrame ((s.setOu o u).setPres o p) t

theorem PresentFrame.of_claim {o : OutputId} {s t : State} (h : ClaimFrame s t) : PresentFrame o s t := by
  refine ⟨s.ou o, s.pres o, ?_⟩
  cases o <;> exact h

theorem PresentFrame.of_setPres (o : OutputId) (p : Presentation) (s : State) : PresentFrame o s (s.setPres o p) := by
  refine ⟨s.ou o, p, ?_⟩
  cases o <;> exact .refl _

theorem PresentFrame.of_setOu (o : OutputId) (u : OutputUnit) (s : State) : PresentFrame o s (s.setOu o u) := by
  refine ⟨u, s.pres o, ?_⟩
  cases o <;> exact .refl _

theorem PresentFrame.trans {o : OutputId} {s t w : State} (h : PresentFrame o s t) (h' : PresentFrame o t w) :
    PresentFrame o s w := by
  obtain ⟨_, _, _, _, _, _, _, _, _, rfl⟩ := h
  obtain ⟨u, p, _, _, _, _, _, _, _, rfl⟩ := h'
  refine ⟨u, p, ?_⟩
  cases o <;> exact ⟨_, _, _, _, _, _, _, rfl⟩

/-- R183: a raise looks at the Notice Queue only. -/
theorem raise_notices_setOu (n : Notice) (o : OutputId) (u : OutputUnit) (s : State) :
    (raise n (s.setOu o u)).notices = (raise n s).notices := by
  have hcount : countLoss n.kindCode (s.setOu o u) = (countLoss n.kindCode s).setOu o u := by
    unfold countLoss
    rw [State.setOu_notices]
    split
    · cases o <;> rfl
    · dsimp only
      split <;> cases o <;> rfl
  have hordinary : (s.setOu o u).ordinaryCount = s.ordinaryCount := by
    cases o <;> rfl
  unfold raise
  rw [State.setOu_notices, hordinary, hcount]
  split
  · rfl
  · split
    · simp only [appendNotice, State.setOu_notices, State.setOu_nextNotice]
    · rw [State.setOu_notices]

/-! ### The take (R70, R71, R77, R91) -/

/-- R70: the references the frame that is replaced gives up. -/
def Presentation.retired (p : Presentation) : List Nat :=
  if p.queue = [] then [] else (p.current.elim [] (·.layers)).map (·.surface)

/-- R77: the references the cursor binding that is replaced gives up. -/
def Presentation.unbound (p : Presentation) : List Nat :=
  if p.pendingBinding = .noChange then [] else (p.binding.map (·.surface)).toList

/-- R70: the presentation state with the oldest queued record current. -/
def Presentation.advanced (p : Presentation) : Presentation :=
  { p with queue := p.queue.tail, current := if p.queue = [] then p.current else p.queue.head? }

/-- R77: the presentation state with the cursor latched. -/
def Presentation.latched (p : Presentation) : Presentation :=
  { p with
    binding := match p.pendingBinding with
      | .noChange => p.binding
      | .unbind => none
      | .bind b => some b
    pendingBinding := .noChange, position := p.pendingPosition }

/-- R91: the presentation state with its reserved load recomputed. -/
def Presentation.reloaded (factor : Nat) (p : Presentation) : Presentation :=
  { p with loadN := reservedN factor p.loads p.cursorTerm }

theorem bindingSurfaces_eq (b : Option Binding) : bindingSurfaces b = (b.map (·.surface)).toList := by
  cases b <;> rfl

/-- R70 step 1: what the take of a frame comes to. -/
theorem takeFrame_eq (o : OutputId) (s : State) :
    let p := s.pres o
    takeFrame o s = match p.queue with
      | [] => s
      | r :: _ =>
        let w := scansGivenUp p.retired (s.setPres o p.advanced)
        raise (.frameShown o r.token 1)
          (w.setOu o { w.ou o with framesShown := ((s.ou o).framesShown + 1) % 4294967296 }) := by
  intro p
  unfold takeFrame
  dsimp only
  split
  · next hq =>
    simp only [p, hq]
  · next r rest hq =>
    have hretired : p.retired = p.current.elim [] FrameRecord.surfaces := by
      rw [Presentation.retired, if_neg (by simp [p, hq])]
      cases p.current <;> rfl
    have hadvanced : p.advanced = { p with queue := rest, current := some r } := by
      simp [Presentation.advanced, p, hq]
    simp only [p, hq] at hretired hadvanced ⊢
    rw [hretired, hadvanced, releaseScans_eq]
    simp only [(scansGivenUp_frame _ _).ou, State.ou_setPres]

/-- R77: what latching the cursor comes to. -/
theorem latchCursor_eq (o : OutputId) (s : State) :
    latchCursor o s = scansGivenUp (s.pres o).unbound (s.setPres o (s.pres o).latched) := by
  unfold latchCursor Presentation.unbound Presentation.latched
  dsimp only
  rw [← releaseScans_eq]
  cases hb : (s.pres o).pendingBinding with
  | noChange =>
    rw [if_pos rfl]
    rfl
  | unbind => rw [if_neg (by decide), bindingSurfaces_eq]
  | bind b => rw [if_neg (by simp), bindingSurfaces_eq]

theorem takeFrame_pres (o : OutputId) (s : State) : (takeFrame o s).pres o = (s.pres o).advanced := by
  rw [takeFrame_eq]
  dsimp only
  split
  · next hq => rw [Presentation.advanced, if_pos hq, hq, List.tail_nil, ← hq]
  · rw [(raise_frame _ _).pres, State.pres_setOu, (scansGivenUp_frame _ _).pres, State.pres_setPres_self]

theorem takeFrame_ou (o : OutputId) (s : State) :
    (takeFrame o s).ou o = { s.ou o with
      framesShown := if (s.pres o).queue = [] then (s.ou o).framesShown else ((s.ou o).framesShown + 1) % 4294967296 } := by
  rw [takeFrame_eq]
  dsimp only
  split
  · next hq => simp [hq]
  · next r rest hq =>
    rw [(raise_frame _ _).ou, State.ou_setOu_self, (scansGivenUp_frame _ _).ou, State.ou_setPres, hq, if_neg (by simp)]

/-- R70, R77, R91: what an output presents after a take. -/
def Presentation.taken (factor : Nat) (p : Presentation) : Presentation := p.advanced.latched.reloaded factor

theorem recomputeLoad_eq (o : OutputId) (s : State) :
    recomputeLoad o s = s.setPres o ((s.pres o).reloaded (s.ou o).timing.fetchFactor) := rfl

/-- R70: a take is the frame taken, the cursor latched, and the load recomputed. -/
theorem take_eq (o : OutputId) (s : State) :
    take o s = (scansGivenUp (s.pres o).unbound ((takeFrame o s).setPres o (s.pres o).advanced.latched)).setPres o
      ((s.pres o).taken (s.ou o).timing.fetchFactor) := by
  unfold take
  rw [latchCursor_eq, recomputeLoad_eq, takeFrame_pres, (scansGivenUp_frame _ _).pres, (scansGivenUp_frame _ _).ou,
    State.pres_setPres_self, State.ou_setPres, takeFrame_ou]
  rfl

theorem take_pres (o : OutputId) (s : State) :
    (take o s).pres o = (s.pres o).taken (s.ou o).timing.fetchFactor := by
  rw [take_eq, State.pres_setPres_self]

theorem take_ou (o : OutputId) (s : State) :
    (take o s).ou o = { s.ou o with
      framesShown := if (s.pres o).queue = [] then (s.ou o).framesShown else ((s.ou o).framesShown + 1) % 4294967296 } := by
  rw [take_eq, State.ou_setPres, (scansGivenUp_frame _ _).ou, State.ou_setPres, takeFrame_ou]

theorem takeFrame_frame (o : OutputId) (s : State) : PresentFrame o s (takeFrame o s) := by
  rw [takeFrame_eq]
  dsimp only
  split
  · exact .of_claim (.refl s)
  · exact (PresentFrame.of_setPres o _ s).trans ((PresentFrame.of_claim (scansGivenUp_frame _ _)).trans
      ((PresentFrame.of_setOu o _ _).trans (.of_claim (raise_frame _ _))))

theorem take_frame (o : OutputId) (s : State) : PresentFrame o s (take o s) := by
  rw [take_eq]
  exact (takeFrame_frame o s).trans ((PresentFrame.of_setPres o _ _).trans
    ((PresentFrame.of_claim (scansGivenUp_frame _ _)).trans (.of_setPres o _ _)))

/-- R70: a READY record loses the references of the frame and the binding replaced only. -/
theorem take_surface {o : OutputId} {s : State} {id : Nat} (h : (s.surface id).state = .ready) :
    (take o s).surface id = { s.surface id with
      scanRefs := (s.surface id).scanRefs - (s.pres o).retired.count id - (s.pres o).unbound.count id } := by
  have hframe : (takeFrame o s).surface id = (s.surface id).lessScans (s.pres o).retired id := by
    rw [takeFrame_eq]
    dsimp only
    split
    · next hq => simp [Presentation.retired, Surface.lessScans, hq]
    · rw [surface_of_surfaces (raise_surfaces _ _), State.surface_setOu, scansGivenUp_surface, State.surface_setPres]
      refine .inr ?_
      rw [State.surface_setPres, h]
      decide
  rw [take_eq, State.surface_setPres, scansGivenUp_surface, State.surface_setPres, hframe]
  · rfl
  · rw [State.surface_setPres, hframe]
    refine .inr ?_
    change (s.surface id).state ≠ .sealing ∧ (s.surface id).state ≠ .discarding
    rw [h]
    decide

/-! ### The release (R79) -/

/-- R79: what an output that presents nothing keeps. -/
def Presentation.shut (p : Presentation) : Presentation :=
  { p with queue := [], current := none, binding := none, pendingBinding := .noChange, loadN := 0 }

theorem releaseOutput_eq (o : OutputId) (s : State) :
    releaseOutput o s = scansGivenUp (s.pres o).scanUses (s.setPres o (s.pres o).shut) :=
  releaseScans_eq _ _

theorem releaseOutput_pres (o : OutputId) (s : State) : (releaseOutput o s).pres o = (s.pres o).shut := by
  rw [releaseOutput_eq, (scansGivenUp_frame _ _).pres, State.pres_setPres_self]

/-- R8: references added one by one raise each count by the times its surface is named. -/
theorem foldl_addScan_surface (ids : List Nat) {s : State} {id : Nat} (h : id < s.surfaces.length) :
    (ids.foldl (fun w i => addScan i w) s).surface id =
      { s.surface id with scanRefs := (s.surface id).scanRefs + ids.count id } := by
  induction ids generalizing s with
  | nil => rfl
  | cons i ids ih =>
    rw [List.foldl_cons, ih (by simpa [addScan] using h)]
    by_cases hi : id = i
    · subst hi
      rw [addScan, State.surface_setSurface_self s _ h]
      rw [List.count_cons_self, Nat.add_right_comm, Nat.add_assoc]
    · rw [addScan, State.surface_setSurface_other s _ hi]
      simp [Ne.symm hi]

/-- Settles O51, from what a take and a release come to. -/
theorem takeAndRelease : Obligations.TakeAndRelease := by
  unfold Obligations.TakeAndRelease
  constructor
  · intro o s t p q retired unbound
    have hq : q = p.taken (s.ou o).timing.fetchFactor := take_pres o s
    refine ⟨?_, take_ou o s, ?_, fun id hready => take_surface hready, fun hempty hnone => ?_,
      fun r rest hqueue hnone => ?_, ?_⟩
    · rw [hq]
      simp only [Presentation.taken, Presentation.reloaded, Presentation.latched, Presentation.advanced, reservedN,
        Presentation.loads, Presentation.cursorTerm, PendingBinding.names, Bool.or_false, Timing.fetchFactor] <;> rfl
    · change take o s = _
      rw [take_eq]
      have hlatched : { q with loadN := p.loadN } = p.advanced.latched := by
        rw [hq]
        rfl
      have hshown := takeFrame_eq o s
      rw [hlatched, hq, hshown]
      dsimp only
      cases hqueue : p.queue with
      | nil => rfl
      | cons r rest =>
        have hqueue' : (s.pres o).queue = r :: rest := hqueue
        have hadvanced : (s.pres o).advanced = { p with queue := rest, current := some r } := by
          simp [Presentation.advanced, hqueue', p]
        have hadvanced' : p.advanced = { p with queue := rest, current := some r } := hadvanced
        simp only [hadvanced, hadvanced']
        rfl
    · have hunbound : (s.pres o).unbound = [] := if_pos hnone
      have hframe : takeFrame o s = s := by
        rw [takeFrame_eq]
        simp only [show (s.pres o).queue = [] from hempty]
      change (take o s).notices = _
      rw [take_eq, hunbound, hframe, State.setPres_notices]
      exact State.setPres_notices s o _
    · have hunbound : (s.pres o).unbound = [] := hnone
      have hqueue : (s.pres o).queue = r :: rest := hqueue
      have hadvanced : (s.pres o).advanced = { p with queue := rest, current := some r } := by
        simp [Presentation.advanced, hqueue, p]
      change (take o s).notices = _
      rw [take_eq, hunbound, State.setPres_notices]
      refine (State.setPres_notices (takeFrame o s) o _).trans ?_
      rw [takeFrame_eq]
      simp only [hqueue]
      rw [raise_notices_setOu, hadvanced, releaseScans_eq]
      rfl
    · obtain ⟨_, _, _, _, _, _, _, _, _, hframe⟩ := take_frame o s
      simp only [t]
      rw [hframe]
      cases o <;> exact ⟨rfl, rfl, rfl, rfl, rfl, rfl, rfl, rfl, rfl, rfl, rfl⟩
  · intro o s t p uses
    have huses : p.scanUses = uses := by
      simp only [Presentation.scanUses, bindingSurfaces_eq, uses]
      rfl
    have ht : t = scansGivenUp uses (s.setPres o p.shut) := by
      rw [← huses]
      exact releaseOutput_eq o s
    have hpres : t.pres o = p.shut := releaseOutput_pres o s
    refine ⟨ht, hpres, fun id hready => ?_, fun id hnone => ?_, ?_, fun ids id hid => foldl_addScan_surface ids hid⟩
    · rw [ht, scansGivenUp_surface, State.surface_setPres]
      · rfl
      · refine .inr ?_
        rw [State.surface_setPres, hready]
        decide
    · rw [ht, scansGivenUp_surface (.inl (List.count_eq_zero.1 hnone)), State.surface_setPres, Surface.lessScans, hnone]
      rfl
    · obtain ⟨su, gr, rs, c, ps, ns, k, hframe⟩ := scansGivenUp_frame uses (s.setPres o p.shut)
      rw [hpres]
      exact ⟨su, gr, ns, k, rs, c, ps, ht.trans hframe⟩

end Sys2Proof.Machine
end

