-- ==== Sys2Proof/Proofs/LinkBytes.lean ====
section
/-! PROOF. Bits on the line and the CRC (R148, R149, R151). -/

namespace Sys2Proof.Machine

/-! ### The CRC register (R151) -/

/-- R151: the register of the generator 0x1021 takes one bit. -/
def crcBit (r : BitVec 16) (bit : Bool) : BitVec 16 := (r <<< 1) ^^^ (if r.msb != bit then 0x1021 else 0)

/-- R151: bits added to the register beforehand are taken from its top one by one. -/
theorem crcShift_xor (r x : BitVec 16) : crcShift (r ^^^ x) = crcBit r x.msb ^^^ (x <<< 1) := by
  have hshift : (r ^^^ x) <<< 1 = (r <<< 1) ^^^ (x <<< 1) := BitVec.shiftLeft_xor_distrib r x 1
  unfold crcShift crcBit
  rw [BitVec.msb_xor, hshift]
  cases r.msb <;> cases x.msb <;> simp [BitVec.xor_assoc, BitVec.xor_comm (x <<< 1)]

/-- R151: a byte is taken bit by bit, most significant first. -/
theorem crcByte_eq_bits (r : BitVec 16) (b : Byte) :
    crcByte r b = ((List.range 8).map fun i => b.getMsbD i).foldl crcBit r := by
  have htop (k : Nat) : ((b.zeroExtend 16 <<< 8) <<< k).msb = b.getMsbD k := by
    rw [BitVec.msb_eq_getLsbD_last, BitVec.getMsbD]
    by_cases hk : k < 8
    · have hlow : 15 - k - 8 = 8 - 1 - k := by omega
      have hin : ¬ 15 < k ∧ ¬ 15 - k < 8 := by omega
      simp [hk, hlow, hin]
    · simp [hk]
      omega
  have hnext (k : Nat) : ((b.zeroExtend 16 <<< 8) <<< k) <<< 1 = (b.zeroExtend 16 <<< 8) <<< (k + 1) :=
    (BitVec.shiftLeft_add _ k 1).symm
  have hgone : (b.zeroExtend 16 <<< 8) <<< 8 = 0#16 := by
    ext i hi
    simp
  have hbit (r : BitVec 16) (k : Nat) : crcShift (r ^^^ (b.zeroExtend 16 <<< 8) <<< k) =
      crcBit r (b.getMsbD k) ^^^ (b.zeroExtend 16 <<< 8) <<< (k + 1) := by
    rw [crcShift_xor, htop, hnext]
  have hfirst : crcByte r b = crcShift (crcShift (crcShift (crcShift (crcShift (crcShift (crcShift (crcShift
      (r ^^^ (b.zeroExtend 16 <<< 8) <<< 0))))))) ) := by
    rw [BitVec.shiftLeft_zero]
    rfl
  rw [hfirst]
  simp only [hbit, hgone, BitVec.xor_zero]
  rfl

theorem crc16_eq_bits (bytes : List Byte) :
    crc16 bytes = (bytes.flatMap fun b => (List.range 8).map fun i => b.getMsbD i).foldl crcBit 0xFFFF := by
  unfold crc16
  rw [List.foldl_flatMap]
  exact congrFun (congrFun (congrArg _ (funext fun r => funext fun b => crcByte_eq_bits r b)) _) _

theorem crcField_eq (bytes : List Byte) :
    crcField bytes = [(crc16 bytes).extractLsb' 0 8, (crc16 bytes).extractLsb' 8 8] := by
  have hlow (r : BitVec 16) : byteOf r.toNat = r.extractLsb' 0 8 := by
    refine BitVec.eq_of_toNat_eq ?_
    simp [byteOf]
  have hhigh (r : BitVec 16) : byteOf (r.toNat / 256) = r.extractLsb' 8 8 := by
    refine BitVec.eq_of_toNat_eq ?_
    simp [byteOf, Nat.shiftRight_eq_div_pow]
  rw [crcField, le16, hlow, hhigh]

/-- Settles O55. -/
theorem bytesOnTheLine : Obligations.BytesOnTheLine := by
  unfold Obligations.BytesOnTheLine
  exact ⟨fun b => ⟨rfl, rfl⟩, crc16_eq_bits, crcField_eq, by decide +kernel⟩

end Sys2Proof.Machine
end

