-- ==== Sys2Proof/Proofs/Receiver.lean ====
section
/-! PROOF. The receiver byte by byte and frame by frame, from the wires to the slots (R148 to R158). -/

namespace Sys2Proof.Machine

/-! ### What the outbound half of an exchange keeps (R149, R161) -/

/-- `t` is `s` but for the wires and the outbound half: the transmit position, the reply queue and the sent marks. -/
def OutboundFrameOnly (s t : State) : Prop :=
  ∃ w tx rs ns, t = { s with wire := w, tx := tx, replies := rs, notices := ns }

theorem OutboundFrameOnly.refl (s : State) : OutboundFrameOnly s s := ⟨_, _, _, _, rfl⟩

theorem OutboundFrameOnly.trans {s t u : State} (h : OutboundFrameOnly s t) (h' : OutboundFrameOnly t u) :
    OutboundFrameOnly s u := by
  obtain ⟨_, _, _, _, rfl⟩ := h
  obtain ⟨_, _, _, _, rfl⟩ := h'
  exact ⟨_, _, _, _, rfl⟩

theorem OutboundFrameOnly.of_wire (s : State) (w : Wire) : OutboundFrameOnly s { s with wire := w } :=
  ⟨w, s.tx, s.replies, s.notices, rfl⟩

section
variable {s t : State}

theorem OutboundFrameOnly.rx (h : OutboundFrameOnly s t) : t.rx = s.rx := by
  obtain ⟨_, _, _, _, rfl⟩ := h
  rfl

theorem OutboundFrameOnly.slots (h : OutboundFrameOnly s t) : t.slots = s.slots := by
  obtain ⟨_, _, _, _, rfl⟩ := h
  rfl

theorem OutboundFrameOnly.arrival (h : OutboundFrameOnly s t) : t.arrival = s.arrival := by
  obtain ⟨_, _, _, _, rfl⟩ := h
  rfl

theorem OutboundFrameOnly.linkMode (h : OutboundFrameOnly s t) : t.linkMode = s.linkMode := by
  obtain ⟨_, _, _, _, rfl⟩ := h
  rfl

end

theorem takeOutbound_outbound (s : State) : OutboundFrameOnly s (takeOutbound s) := by
  obtain ⟨tx, ns, h⟩ := takeOutbound_eq s
  exact ⟨s.wire, tx, s.replies, ns, h⟩

theorem exchangeSent_outbound (s : State) : OutboundFrameOnly s (exchangeSent s) := by
  obtain ⟨tx, rs, ns, h⟩ := exchangeSent_eq s
  exact ⟨s.wire, tx, rs, ns, h⟩

theorem selectLink_outbound (s : State) : OutboundFrameOnly s (selectLink s) :=
  ((OutboundFrameOnly.of_wire s _).trans (takeOutbound_outbound _)).trans (.of_wire _ _)

theorem wholeBegun_outbound (s : State) : OutboundFrameOnly s (wholeBegun s) := by
  unfold wholeBegun
  split
  · exact .of_wire s _
  · split
    · exact .refl s
    · exact selectLink_outbound s
  · exact .refl s

theorem wholeEnded_outbound (s : State) : OutboundFrameOnly s (wholeEnded s) := by
  unfold wholeEnded
  split
  · exact (exchangeSent_outbound s).trans (.of_wire _ _)
  · exact .refl s
  · exact .refl s

/-! ### A whole byte (R148, R149, R153) -/

theorem receiveByte_linkMode (b : Byte) (s : State) : (receiveByte b s).linkMode = s.linkMode := by
  obtain ⟨_, _, _, _, _, h⟩ := receiveByte_eq b s
  rw [h]

/-- R148, R149: a whole byte is the link made ready for it, the receiver, and the outbound half. -/
theorem receiveWhole_eq {s : State} (hbits : s.wire.bits = []) (hmode : s.linkMode ≠ none) (b : Byte) :
    receiveWhole b s = wholeEnded (receiveByte b (wholeBegun s)) := by
  have hkeep := (wholeBegun_outbound s).linkMode
  unfold receiveWhole
  rw [if_neg (not_not.2 hbits)]
  unfold wholeEnded
  rw [receiveByte_linkMode, hkeep]
  unfold wholeBegun
  cases hm : s.linkMode with
  | none => exact absurd hm hmode
  | some m => cases m <;> rfl

/-- R163: out of hard reset a whole byte is received. -/
theorem exec_receivedByte {s : State} (hreset : s.inReset = false) (e : LineEvent) :
    exec (.receivedByte e) s = .next (lineEvent e s) := by
  change execReceivedByte e s = _
  rw [execReceivedByte, hreset]
  rfl

theorem lineEvent_whole (b : Byte) (s : State) : lineEvent (.whole b) s = receiveWhole b s := by
  unfold lineEvent
  rfl

/-! ### The receiver by its state (R153, R154, R156 to R158) -/

section
variable {s : State}

theorem receiveByte_hunt (h : s.rx.phase = .hunt) (b : Byte) :
    receiveByte b s = if b = 0xA5#8 then { s with rx := ⟨.header, []⟩ } else s := by
  unfold receiveByte
  rw [h]

theorem receiveByte_header (h : s.rx.phase = .header) (b : Byte) :
    let bytes := s.rx.bytes ++ [b]
    let n := arg16 bytes 0
    receiveByte b s =
      if bytes.length = 2 ∧ Config.maxPayload < n then lengthError s
      else if bytes.length < 5 then { s with rx := ⟨.header, bytes⟩ }
      else { s with rx := ⟨if n = 0 then .check else .body, bytes⟩ } := by
  unfold receiveByte
  rw [h]

theorem receiveByte_body (h : s.rx.phase = .body) (b : Byte) :
    let bytes := s.rx.bytes ++ [b]
    receiveByte b s = { s with rx := ⟨if bytes.length < 5 + arg16 bytes 0 then .body else .check, bytes⟩ } := by
  unfold receiveByte
  rw [h]

theorem receiveByte_check (h : s.rx.phase = .check) (b : Byte) :
    let bytes := s.rx.bytes ++ [b]
    let n := arg16 bytes 0
    receiveByte b s = if bytes.length < 7 + n then { s with rx := ⟨.check, bytes⟩ } else judgeFrame bytes n s := by
  unfold receiveByte
  rw [h]

/-- R157: the lowest free slot. -/
theorem lowestFreeSlot_eq_some {i : Nat} (hi : i < 6) (hfree : s.slots.getD i none = none)
    (hlower : ∀ j < i, s.slots.getD j none ≠ none) : s.lowestFreeSlot = some i := by
  unfold State.lowestFreeSlot
  refine (List.find?_range_eq_some).2 ⟨by simpa using hfree, by simpa [Config.slotCount] using hi, fun j hj => ?_⟩
  simpa using hlower j hj

theorem lowestFreeSlot_eq_none (hfull : ∀ i < 6, s.slots.getD i none ≠ none) : s.lowestFreeSlot = none := by
  unfold State.lowestFreeSlot
  refine (List.find?_range_eq_none).2 fun i hi => ?_
  simpa using hfull i hi

theorem offerFrame_free {i : Nat} (f : RequestFrame) (hi : i < 6) (hfree : s.slots.getD i none = none)
    (hlower : ∀ j < i, s.slots.getD j none ≠ none) :
    offerFrame f s = { s with slots := s.slots.set i (some f), arrival := s.arrival ++ [i] } := by
  unfold offerFrame
  rw [lowestFreeSlot_eq_some hi hfree hlower]

theorem offerFrame_full (f : RequestFrame) (hfull : ∀ i < 6, s.slots.getD i none ≠ none) :
    offerFrame f s = raise (.linkDrop 1 f.seq) s := by
  unfold offerFrame
  rw [lowestFreeSlot_eq_none hfull]

/-- R154: a frame whose CRC field is not that of its bytes. -/
theorem judgeFrame_badCrc {bytes : List Byte} {n : Nat} (hcrc : crcField (bytes.take (5 + n)) ≠ bytes.drop (5 + n)) :
    judgeFrame bytes n s = raise (.linkError 0 1 0 0) (hunt s) := if_pos hcrc.symm

/-- R154: a frame of another kind than a request. -/
theorem judgeFrame_badKind {bytes : List Byte} {n : Nat} (hcrc : crcField (bytes.take (5 + n)) = bytes.drop (5 + n))
    (hkind : bytes.getD 2 0 ≠ 0x01) : judgeFrame bytes n s = raise (.linkError 0 0 1 0) (hunt s) :=
  (if_neg (not_not.2 hcrc.symm)).trans (if_pos hkind)

/-- R154, R157: a request frame is offered to the slots. -/
theorem judgeFrame_request {bytes : List Byte} {n : Nat} (hcrc : crcField (bytes.take (5 + n)) = bytes.drop (5 + n))
    (hkind : bytes.getD 2 0 = 0x01) :
    judgeFrame bytes n s = offerFrame ⟨bytes.getD 3 0, (bytes.drop 5).take n⟩ (hunt s) :=
  (if_neg (not_not.2 hcrc.symm)).trans (if_neg (not_not.2 hkind))

end

/-- R155, R156: the inter-byte timer. -/
theorem exec_interByteTimeout (s : State) :
    exec .interByteTimeout s = .next
      (if s.rx.phase = .hunt then s else raise (.linkError 0 0 0 1) { s with rx := ⟨.hunt, []⟩ }) := by
  change execInterByteTimeout s = _
  unfold execInterByteTimeout
  cases s.rx.phase <;> rfl

/-- Settles O56. -/
theorem receiverByByte : Obligations.ReceiverByByte := by
  unfold Obligations.ReceiverByByte
  refine ⟨fun s b hreset hbits hmode => ?_, exec_interByteTimeout⟩
  intro begun bytes n rxIs hunt gives
  have hgives (t : State) (h : receiveByte b begun = t) : gives t := by
    change exec _ s = _
    rw [exec_receivedByte hreset, lineEvent_whole, receiveWhole_eq hbits hmode, ← h]
  have hrx : begun.rx = s.rx := (wholeBegun_outbound s).rx
  have hslots : begun.slots = s.slots := (wholeBegun_outbound s).slots
  have harrival : begun.arrival = s.arrival := (wholeBegun_outbound s).arrival
  have hphase {p : ReceiverPhase} (h : s.rx.phase = p) : begun.rx.phase = p := hrx ▸ h
  have hbytes : begun.rx.bytes ++ [b] = bytes := by rw [hrx]
  have hjudge (h : s.rx.phase = .check) (hfull : bytes.length = 7 + n) :
      receiveByte b begun = judgeFrame bytes n begun := by
    have hlong : ¬ bytes.length < 7 + n := by omega
    simp only [receiveByte_check (hphase h), hbytes]
    exact if_neg hlong
  refine ⟨fun h => hgives _ (receiveByte_hunt (hphase h) b), fun h => hgives _ ?_, fun h => hgives _ ?_,
    fun h hshort => hgives _ ?_, fun h hfull => ⟨fun hcrc => hgives _ ?_, fun hcrc => ⟨fun hkind => hgives _ ?_,
      fun hkind => ⟨fun i hi hfree hlower => hgives _ ?_, fun hfull => hgives _ ?_⟩⟩⟩⟩
  · simp only [receiveByte_header (hphase h), hbytes]
    refine if_congr Iff.rfl rfl (if_congr Iff.rfl rfl ?_)
    change rxIs (if n = 0 then .check else .body) bytes = _
    exact apply_ite (fun phase => rxIs phase bytes) _ _ _
  · simp only [receiveByte_body (hphase h), hbytes]
    rfl
  · simp only [receiveByte_check (hphase h), hbytes]
    exact if_pos hshort
  · rw [hjudge h hfull, judgeFrame_badCrc hcrc]
    rfl
  · rw [hjudge h hfull, judgeFrame_badKind hcrc hkind]
    rfl
  · rw [hjudge h hfull, judgeFrame_request hcrc hkind,
      offerFrame_free (s := Machine.hunt begun) _ hi (hslots ▸ hfree) (hslots ▸ hlower)]
    change { hunt with slots := begun.slots.set i _, arrival := begun.arrival ++ [i] } = _
    rw [hslots, harrival]
  · rw [hjudge h ‹_›, judgeFrame_request hcrc hkind, offerFrame_full (s := Machine.hunt begun) _ (hslots ▸ hfull)]
    rfl

end Sys2Proof.Machine
end

