-- ==== Sys2Proof/Proofs/Transmitter.lean ====
section
/-! PROOF. The transmitter, ATTN_N and the notice payloads (R159 to R162, R186, R196), and the values of a reset (R163 to
R165, R179, R180). -/

namespace Sys2Proof.Machine

/-! ### What the transmitter takes (R160, R161, R186) -/

section
variable {s : State}

theorem takeOutbound_sending {f : OutboundFrame} (h : s.tx = some f) : takeOutbound s = s := by
  unfold takeOutbound
  rw [h]

theorem takeOutbound_reply (h : s.tx = none) {r : Reply} {rest : List Reply} (hr : s.replies = r :: rest) :
    takeOutbound s = { s with tx := some (replyFrame r s) } := by
  unfold takeOutbound
  rw [h, hr]

/-- R160: no notice is taken while a DEVICE_RESET drains or the part is in hard reset. -/
theorem takeOutbound_withheld (h : s.tx = none) (hr : s.replies = []) (hd : (s.draining || s.inReset) = true) :
    takeOutbound s = s := by
  unfold takeOutbound
  rw [h, hr]
  exact if_pos hd

theorem takeOutbound_notice (h : s.tx = none) (hr : s.replies = []) (hd : ¬ (s.draining || s.inReset) = true)
    {e : NoticeEntry} (he : (s.notices.find? fun e => !e.sent) = some e) :
    takeOutbound s = { s with tx := some (noticeFrame e s), notices := markOldestSent s.notices } := by
  unfold takeOutbound
  rw [h, hr]
  refine (if_neg hd).trans ?_
  rw [he]

theorem takeOutbound_idle (h : s.tx = none) (hr : s.replies = [])
    (he : (s.notices.find? fun e => !e.sent) = none) : takeOutbound s = s := by
  by_cases hd : (s.draining || s.inReset) = true
  · exact takeOutbound_withheld h hr hd
  · unfold takeOutbound
    rw [h, hr]
    refine (if_neg hd).trans ?_
    rw [he]

theorem endOutbound_none (h : s.tx = none) : endOutbound s = s := by
  unfold endOutbound
  rw [h]

theorem endOutbound_some {f : OutboundFrame} (h : s.tx = some f) :
    endOutbound s = { s with tx := none, replies := if f.isReply then s.replies.tail else s.replies } := by
  unfold endOutbound
  rw [h]
  simp only [List.drop_one]

theorem exchangeSent_none (h : s.tx = none) : exchangeSent s = takeOutbound s := by
  unfold exchangeSent
  rw [h]

theorem exchangeSent_some {f : OutboundFrame} (h : s.tx = some f) :
    exchangeSent s = if f.sent + 1 < f.bytes.length then { s with tx := some { f with sent := f.sent + 1 } }
      else takeOutbound (endOutbound s) := by
  unfold exchangeSent
  rw [h]

theorem spiOffer_none (h : s.tx = none) : s.spiOffer = 0x00 := by
  unfold State.spiOffer
  rw [h]
  rfl

theorem spiOffer_some {f : OutboundFrame} (h : s.tx = some f) : s.spiOffer = f.bytes.getD f.sent 0 := by
  unfold State.spiOffer
  rw [h]
  rfl

end

/-- R186: the oldest unsent entry stands behind the sent ones and is marked. -/
theorem markOldestSent_append {older newer : List NoticeEntry} {e : NoticeEntry} (holder : ∀ x ∈ older, x.sent = true)
    (he : e.sent = false) :
    markOldestSent (older ++ e :: newer) = older ++ { e with sent := true } :: newer := by
  induction older with
  | nil => simp [markOldestSent, he]
  | cons x older ih =>
    have hx := holder x List.mem_cons_self
    simp [markOldestSent, hx, ih fun y hy => holder y (List.mem_cons_of_mem _ hy)]

theorem find?_unsent_append {older newer : List NoticeEntry} {e : NoticeEntry} (holder : ∀ x ∈ older, x.sent = true)
    (he : e.sent = false) : ((older ++ e :: newer).find? fun e => !e.sent) = some e := by
  rw [List.find?_append, List.find?_eq_none.2 fun x hx => by simp [holder x hx]]
  simp [he]

/-! ### ATTN_N (R162) -/

theorem attnPin_eq_false_iff (s : State) : s.attnPin = false ↔
    s.inReset = false ∧ (s.replies ≠ [] ∨ (∃ e ∈ s.notices, e.sent = false) ∨ s.tx ≠ none) := by
  have hunsent : s.notices.any (fun e => !e.sent) = true ↔ ∃ e ∈ s.notices, e.sent = false := by simp
  have hreply : (!s.replies.isEmpty) = true ↔ s.replies ≠ [] := by simp
  have htx : s.tx.isSome = true ↔ s.tx ≠ none := Option.isSome_iff_ne_none
  rw [State.attnPin, State.attnLow, Bool.not_eq_false', Bool.and_eq_true, Bool.or_eq_true, Bool.or_eq_true, hunsent,
    hreply, htx, or_assoc, Bool.not_eq_true']

/-- R149: the first bit of an exchange on SDO is the top bit of the byte offered. -/
theorem spiExchange_getD (b : Byte) {i : Nat} (hi : i < 8) : (spiExchange b).getD i false = b.getLsbD (7 - i) := by
  match i, hi with
  | 0, _ | 1, _ | 2, _ | 3, _ | 4, _ | 5, _ | 6, _ | 7, _ => rfl

/-- R149: before the first bit of an exchange SDO takes the top bit of the byte offered. -/
theorem driveSdo_first {s : State} (h : s.wire.bits = []) :
    driveSdo s = { s with wire := { s.wire with sckHigh := false, sdo := s.spiOffer.getLsbD 7 } } := by
  unfold driveSdo
  rw [h]
  rfl

/-- R150: the first bit of a frame is the top bit of its sync byte. -/
theorem driveSdo_sync {s : State} {isReply : Bool} {rest : List Byte} (h : s.wire.bits = [])
    (htx : s.tx = some ⟨isReply, 0xA5#8 :: rest, 0⟩) :
    driveSdo s = { s with wire := { s.wire with sckHigh := false, sdo := true } } := by
  have hoffer : s.spiOffer = 0xA5#8 := spiOffer_some htx
  rw [driveSdo_first h, hoffer]
  rfl

/-- Settles O58. -/
theorem transmitterAndAttention : Obligations.TransmitterAndAttention := by
  unfold Obligations.TransmitterAndAttention
  refine ⟨fun s => ?_, fun s => ?_, attnPin_eq_false_iff, ?_⟩
  · intro credits
    refine ⟨fun f h => takeOutbound_sending h, fun h => ⟨fun r rest hr => takeOutbound_reply h hr, fun hr hsilent => ?_,
      fun older e newer hr hdrain hreset hnotices holder he => ?_⟩⟩
    · obtain hd | hd | hsent := hsilent
      · exact takeOutbound_withheld h hr (by rw [hd]; rfl)
      · exact takeOutbound_withheld h hr (by rw [hd, Bool.or_true])
      · exact takeOutbound_idle h hr (List.find?_eq_none.2 fun e he => by simp [hsent e he])
    · rw [takeOutbound_notice h hr (by rw [hdrain, hreset]; decide) (e := e)
        (by rw [hnotices]; exact find?_unsent_append holder he), hnotices, markOldestSent_append holder he]
      rfl
  · intro ended
    have hended (f : OutboundFrame) (h : s.tx = some f) : endOutbound s = ended f := endOutbound_some h
    refine ⟨fun baud hm => ⟨?_, fun h => ?_, fun f h => ?_⟩, fun hm => ⟨?_, ?_⟩, fun hm hreset => ?_,
      fun h => ⟨spiOffer_none h, exchangeSent_none h⟩, fun f h => ⟨spiOffer_some h, ?_⟩⟩
    · change execTransmitTake s = _
      rw [execTransmitTake, hm]
    · change execFrameSent s = _
      rw [execFrameSent, hm]
      exact congrArg _ (endOutbound_none h)
    · change execFrameSent s = _
      rw [execFrameSent, hm]
      exact congrArg _ (hended f h)
    · change execTransmitTake s = _
      rw [execTransmitTake, hm]
    · change execFrameSent s = _
      rw [execFrameSent, hm]
    · intro t
      rw [exec_receivedByte hreset]
      unfold lineEvent
      rw [hm]
      obtain ⟨tx, ns, h⟩ := takeOutbound_eq { s with wire := { s.wire with selected := true, bits := [] } }
      have hbits : t.wire.bits = [] := congrArg (·.wire.bits) h
      exact congrArg _ (driveSdo_first hbits)
    · rw [exchangeSent_some h, hended f h]
  · intro number cause entered
    refine ⟨fun n => ⟨rfl, rfl⟩, fun n => ?_, fun c => ?_, fun o token takes => ?_, fun o st changes released => ?_,
      fun o count first last => ?_, fun _ _ _ => rfl, fun _ _ _ _ => rfl, fun _ _ => rfl, fun _ _ => rfl⟩
    · cases n <;> exact ⟨by simp [Notice.kindCode], rfl⟩
    · cases c <;> rfl
    · cases o <;> rfl
    · cases o <;> cases st <;> rfl
    · cases o <;> rfl

/-! ### The values of a reset (R163 to R165, R179, R180) -/

/-- R165, R190: the state from which a soft reset chooses the next outbound byte. -/
def softCleared (s : State) : State := { raiseReady .request (resetBlocks s) with wire := s.wire }

/-- R165: what a soft reset between two exchanges takes is READY. -/
theorem takeOutbound_softCleared {s : State} (h : s.inReset = false) :
    takeOutbound (softCleared s) =
      { softCleared s with
        notices := [⟨.ready .request, 0, true⟩]
        tx := some ⟨false, linkFrame 0x82 0x00 6 [0x01, 0x02], 0⟩ } := by
  have hfree : ¬ ((softCleared s).draining || (softCleared s).inReset) = true := by
    change ¬ (false || s.inReset) = true
    rw [h]
    decide
  exact takeOutbound_notice rfl rfl hfree rfl

/-- R165: what is chosen after a soft reset. -/
theorem chooseAfterReset_softCleared {s : State} (h : s.inReset = false) :
    chooseAfterReset (softCleared s) =
      if s.linkMode = some .spi ∧ s.wire.selected = true ∧ s.wire.bits = [] then
        { softCleared s with
          notices := [⟨.ready .request, 0, true⟩]
          wire := if s.wire.sckHigh then s.wire else { s.wire with sdo := true }
          tx := some ⟨false, linkFrame 0x82 0x00 6 [0x01, 0x02], 0⟩ }
      else softCleared s := by
  by_cases hspi : s.linkMode = some .spi ∧ s.wire.selected = true ∧ s.wire.bits = []
  · rw [if_pos hspi]
    refine (if_pos hspi).trans ?_
    change (if s.wire.sckHigh = true then _ else _) = _
    rw [takeOutbound_softCleared h]
    by_cases hsck : s.wire.sckHigh = true
    · rw [if_pos hsck, if_pos hsck]
      rfl
    · have hlow : ({ s.wire with sdo := true } : Wire) = { s.wire with sckHigh := false, sdo := true } := by
        rw [← Bool.eq_false_iff.2 hsck]
      rw [if_neg hsck, if_neg hsck, hlow]
      exact driveSdo_sync (isReply := false) hspi.2.2 rfl
  · rw [if_neg hspi]
    exact if_neg hspi

/-- Settles O59. -/
theorem resets : Obligations.Resets := by
  unfold Obligations.Resets
  intro s ignored cleared ready
  have hignored : ignored = Grant.kill := by
    funext g
    cases g <;> rfl
  have hcleared (entries : List NoticeEntry) :
      cleared entries = { resetBlocks s with notices := entries, nextNotice := 1 } := by
    simp only [cleared, hignored]
    rfl
  refine ⟨?_, ?_, ?_, fun lmode1 lmode0 => ?_⟩
  · simp only [hcleared]
    change (if _ then Host.Outcome.next (chooseAfterReset (softCleared s)) else .next s) = _
    by_cases h : s.inReset = false ∧ s.draining = true ∧ s.replies = [] ∧ s.tx = none
    · rw [if_pos h, if_pos (by simpa using h), chooseAfterReset_softCleared h.1]
      rfl
    · rw [if_neg h, if_neg (by simpa using h)]
  · rw [hcleared]
    rfl
  · rw [hcleared]
    rfl
  · rw [hcleared]
    refine Eq.trans ?_ (apply_ite Host.Outcome.next _ _ _).symm
    cases lmode1 <;> cases lmode0 <;> rfl

end Sys2Proof.Machine
end

