-- ==== Sys2Proof/Proofs/RequestFrames.lean ====
section
/-! PROOF. A whole request frame from HUNT to its slot, and RECEIVE_FRAME as its bytes (R150, R153, R154, R157). -/

namespace Sys2Proof.Machine

/-! ### The outbound half does not look at the receiver -/

/-- R152: the state with another receiver. -/
def State.withRx (s : State) (rx : Receiver) : State := { s with rx := rx }

theorem takeOutbound_withRx (s : State) (rx : Receiver) : takeOutbound (s.withRx rx) = (takeOutbound s).withRx rx := by
  cases htx : s.tx with
  | some f => rw [takeOutbound_sending htx, takeOutbound_sending (s := s.withRx rx) htx]
  | none =>
    cases hr : s.replies with
    | cons r rest =>
      rw [takeOutbound_reply htx hr, takeOutbound_reply (s := s.withRx rx) htx hr]
      rfl
    | nil =>
      by_cases hd : (s.draining || s.inReset) = true
      · rw [takeOutbound_withheld htx hr hd, takeOutbound_withheld (s := s.withRx rx) htx hr hd]
      · cases he : s.notices.find? fun e => !e.sent with
        | none => rw [takeOutbound_idle htx hr he, takeOutbound_idle (s := s.withRx rx) htx hr he]
        | some e =>
          rw [takeOutbound_notice htx hr hd he, takeOutbound_notice (s := s.withRx rx) htx hr hd he]
          rfl

theorem exchangeSent_withRx (s : State) (rx : Receiver) :
    exchangeSent (s.withRx rx) = (exchangeSent s).withRx rx := by
  cases htx : s.tx with
  | none => rw [exchangeSent_none htx, exchangeSent_none (s := s.withRx rx) htx, takeOutbound_withRx]
  | some f =>
    have hend : endOutbound (s.withRx rx) = (endOutbound s).withRx rx := by
      rw [endOutbound_some htx, endOutbound_some (s := s.withRx rx) htx]
      rfl
    rw [exchangeSent_some htx, exchangeSent_some (s := s.withRx rx) htx, hend, takeOutbound_withRx]
    by_cases hlast : f.sent + 1 < f.bytes.length
    · rw [if_pos hlast, if_pos hlast]
      rfl
    · rw [if_neg hlast, if_neg hlast]

theorem wholeEnded_spi {s : State} (h : s.linkMode = some .spi) : wholeEnded s = driveSdo (exchangeSent s) := by
  unfold wholeEnded
  rw [h]

theorem wholeEnded_of_ne_spi {s : State} (h : s.linkMode ≠ some .spi) : wholeEnded s = s := by
  unfold wholeEnded
  split
  · exact absurd ‹_› h
  · rfl
  · rfl

theorem wholeEnded_withRx (s : State) (rx : Receiver) : wholeEnded (s.withRx rx) = (wholeEnded s).withRx rx := by
  by_cases h : s.linkMode = some .spi
  · rw [wholeEnded_spi h, wholeEnded_spi (s := s.withRx rx) h, exchangeSent_withRx]
    rfl
  · rw [wholeEnded_of_ne_spi h, wholeEnded_of_ne_spi (s := s.withRx rx) h]

/-! ### Whole bytes one after another -/

/-- R148, R149: the link is ready for a whole byte: RXD has been high, or CS_N is low. -/
def LinkReady (s : State) : Prop :=
  s.wire.bits = [] ∧ match s.linkMode with
    | some (.uart _) => s.wire.awaitsHigh = false
    | some .spi => s.wire.selected = true
    | none => False

theorem LinkReady.begun {s : State} (h : LinkReady s) : wholeBegun s = s := by
  obtain ⟨_, hlink⟩ := h
  unfold wholeBegun
  cases hm : s.linkMode with
  | none => rfl
  | some m =>
    rw [hm] at hlink
    cases m with
    | uart baud =>
      have hhigh : s.wire.awaitsHigh = false := hlink
      dsimp only
      rw [← hhigh, ← hm]
    | spi => exact if_pos hlink

theorem LinkReady.linkMode_ne {s : State} (h : LinkReady s) : s.linkMode ≠ none := by
  intro hm
  rw [LinkReady, hm] at h
  exact h.2

theorem linkReady_wholeBegun {s : State} (hbits : s.wire.bits = []) (hmode : s.linkMode ≠ none) :
    LinkReady (wholeBegun s) := by
  have hkeep := (wholeBegun_outbound s).linkMode
  unfold LinkReady
  rw [hkeep]
  unfold wholeBegun
  cases hm : s.linkMode with
  | none => exact absurd hm hmode
  | some m =>
    cases m with
    | uart baud => exact ⟨hbits, rfl⟩
    | spi =>
      dsimp only
      split
      · next hsel => exact ⟨hbits, hsel⟩
      · unfold selectLink driveSdo
        obtain ⟨tx, ns, h⟩ := takeOutbound_eq { s with wire := { s.wire with selected := true, bits := [] } }
        rw [h]
        exact ⟨rfl, rfl⟩

theorem LinkReady.ended {s : State} (h : LinkReady s) : LinkReady (wholeEnded s) := by
  have hkeep := (wholeEnded_outbound s).linkMode
  unfold LinkReady
  rw [hkeep]
  unfold LinkReady at h
  unfold wholeEnded
  cases hm : s.linkMode with
  | none => rw [hm] at h; exact h
  | some m =>
    rw [hm] at h
    cases m with
    | uart baud => exact h
    | spi =>
      obtain ⟨tx, rs, ns, hsent⟩ := exchangeSent_eq s
      dsimp only
      rw [hsent]
      exact h

/-- R153: the receiver while the bytes `p` of a frame with `n` bytes of payload have come in after its sync. -/
def partialRx (n : Nat) (p : List Byte) : Receiver :=
  ⟨if p.length < 5 then .header else if p.length < 5 + n then .body else .check, p⟩

/-- R150: the payload length stands in the first two bytes. -/
theorem arg16_of_prefix {p full : List Byte} (h : p <+: full) (hp : 2 ≤ p.length) : arg16 p 0 = arg16 full 0 := by
  obtain ⟨q, rfl⟩ := h
  obtain ⟨a, b, p, rfl⟩ : ∃ a b l, p = a :: b :: l := by
    match p, hp with
    | a :: b :: l, _ => exact ⟨a, b, l, rfl⟩
  rfl

/-- R153: a byte that does not end the frame joins the holding buffer. -/
theorem receiveByte_partial {full p : List Byte} {b : Byte} (hlimit : arg16 full 0 ≤ 1024) (h : p ++ [b] <+: full)
    (hshort : p.length + 1 < 7 + arg16 full 0) (s : State) :
    receiveByte b (s.withRx (partialRx (arg16 full 0) p)) = s.withRx (partialRx (arg16 full 0) (p ++ [b])) := by
  have hlength : (p ++ [b]).length = p.length + 1 := by simp
  have hn (h2 : 1 ≤ p.length) : arg16 (p ++ [b]) 0 = arg16 full 0 := arg16_of_prefix h (by omega)
  generalize hfull : arg16 full 0 = n at *
  by_cases hheader : p.length < 5
  · have hphase : (s.withRx (partialRx n p)).rx.phase = .header := if_pos hheader
    have hbuffer : (s.withRx (partialRx n p)).rx.bytes = p := rfl
    simp only [receiveByte_header hphase, hbuffer, hlength]
    rw [if_neg]
    · by_cases hlast : p.length + 1 < 5
      · rw [if_pos hlast]
        simp only [State.withRx, partialRx, hlength, if_pos hlast]
      · rw [if_neg hlast, hn (by omega)]
        have hempty : (p.length + 1 < 5 + n) ↔ ¬ n = 0 := by omega
        simp only [State.withRx, partialRx, hlength, if_neg hlast, hempty, ite_not]
    · intro ⟨htwo, hlong⟩
      rw [hn (by omega)] at hlong
      exact absurd hlimit (Nat.not_le.2 hlong)
  · by_cases hbody : p.length < 5 + n
    · have hphase : (s.withRx (partialRx n p)).rx.phase = .body := (if_neg hheader).trans (if_pos hbody)
      have hbuffer : (s.withRx (partialRx n p)).rx.bytes = p := rfl
      have hlast : ¬ p.length + 1 < 5 := by omega
      simp only [receiveByte_body hphase, hbuffer, hlength, hn (by omega)]
      simp only [State.withRx, partialRx, hlength, if_neg hlast]
    · have hphase : (s.withRx (partialRx n p)).rx.phase = .check := (if_neg hheader).trans (if_neg hbody)
      have hbuffer : (s.withRx (partialRx n p)).rx.bytes = p := rfl
      have hlast : ¬ p.length + 1 < 5 := by omega
      have hend : ¬ p.length + 1 < 5 + n := by omega
      simp only [receiveByte_check hphase, hbuffer, hlength, hn (by omega)]
      rw [if_pos hshort]
      simp only [State.withRx, partialRx, hlength, if_neg hlast, if_neg hend]

theorem LinkReady.withRx {s : State} (h : LinkReady s) (rx : Receiver) : LinkReady (s.withRx rx) := h

/-- R153: the bytes of a frame up to its last fill the holding buffer, the outbound halves following. -/
theorem foldl_receiveWhole_partial {full p q : List Byte} (hlimit : arg16 full 0 ≤ 1024) (h : p ++ q <+: full)
    (hshort : p.length + q.length < 7 + arg16 full 0) {s : State} (hs : LinkReady s) :
    q.foldl (fun acc b => receiveWhole b acc) (s.withRx (partialRx (arg16 full 0) p)) =
      (q.foldl (fun w _ => wholeEnded w) s).withRx (partialRx (arg16 full 0) (p ++ q)) := by
  induction q generalizing p s with
  | nil => simp
  | cons b q ih =>
    have hsplit : p ++ b :: q = (p ++ [b]) ++ q := by simp
    have hb : p ++ [b] <+: full := (List.prefix_append _ q).trans (hsplit ▸ h)
    have hlength : p.length + 1 < 7 + arg16 full 0 := by simp only [List.length_cons] at hshort; omega
    have hone : receiveWhole b (s.withRx (partialRx (arg16 full 0) p)) =
        (wholeEnded s).withRx (partialRx (arg16 full 0) (p ++ [b])) := by
      rw [receiveWhole_eq (hs.withRx _).1 (hs.withRx _).linkMode_ne, (hs.withRx _).begun, receiveByte_partial hlimit hb hlength,
        wholeEnded_withRx]
    rw [List.foldl_cons, hone, ih (hsplit ▸ h) (by simp only [List.length_cons, List.length_append, List.length_nil] at *; omega) hs.ended,
      List.foldl_cons, hsplit]

/-- R149: the outbound halves of several exchanges keep the link ready, and everything but the wires and their own. -/
theorem foldl_wholeEnded_ready {s : State} (h : LinkReady s) (q : List Byte) :
    LinkReady (q.foldl (fun w _ => wholeEnded w) s) := by
  induction q generalizing s with
  | nil => exact h
  | cons b q ih => exact ih h.ended

theorem foldl_wholeEnded_outbound (s : State) (q : List Byte) :
    OutboundFrameOnly s (q.foldl (fun w _ => wholeEnded w) s) := by
  induction q generalizing s with
  | nil => exact .refl s
  | cons b q ih => exact (wholeEnded_outbound s).trans (ih _)

/-- R154: the byte that ends a frame brings the judgement. -/
theorem receiveByte_last {p : List Byte} {b : Byte} {n : Nat} (hn : arg16 (p ++ [b]) 0 = n)
    (hlast : p.length + 1 = 7 + n) (s : State) :
    receiveByte b (s.withRx (partialRx n p)) = judgeFrame (p ++ [b]) n (s.withRx (partialRx n p)) := by
  have hphase : (s.withRx (partialRx n p)).rx.phase = .check :=
    (if_neg (by omega)).trans (if_neg (by omega))
  have hbuffer : (s.withRx (partialRx n p)).rx.bytes = p := rfl
  have hlength : ¬ (p ++ [b]).length < 7 + n := by simp; omega
  simp only [receiveByte_check hphase, hbuffer, hn]
  exact if_neg hlength

/-! ### A whole request frame -/

/-- R151: the bytes the CRC of a request frame covers. -/
def requestCovered (seq aux : Byte) (payload : List Byte) : List Byte :=
  le16 payload.length ++ [0x01, seq, aux] ++ payload

/-- R150: a request frame after its sync. -/
def requestBytes (seq aux : Byte) (payload : List Byte) : List Byte :=
  requestCovered seq aux payload ++ crcField (requestCovered seq aux payload)

theorem linkFrame_request (seq aux : Byte) (payload : List Byte) :
    linkFrame 0x01 seq aux payload = 0xA5#8 :: requestBytes seq aux payload := rfl

theorem requestCovered_length (seq aux : Byte) (payload : List Byte) :
    (requestCovered seq aux payload).length = 5 + payload.length := by
  simp [requestCovered, le16]
  omega

theorem requestBytes_length (seq aux : Byte) (payload : List Byte) :
    (requestBytes seq aux payload).length = 7 + payload.length := by
  simp only [requestBytes, List.length_append, requestCovered_length, crcField, le16, List.length_cons, List.length_nil]
  omega

/-- R150: the length field of a payload the link can carry. -/
theorem arg16_requestBytes (seq aux : Byte) {payload : List Byte} (h : payload.length ≤ 1024) :
    arg16 (requestBytes seq aux payload) 0 = payload.length := by
  change (byteOf payload.length).toNat + 256 * (byteOf (payload.length / 256)).toNat = payload.length
  simp only [byteOf, BitVec.toNat_ofNat]
  omega

/-- R154: the receiver finds the CRC, the kind, the seq and the payload of a whole request frame. -/
theorem judgeFrame_requestBytes (seq aux : Byte) (payload : List Byte) (s : State) :
    judgeFrame (requestBytes seq aux payload) payload.length s = offerFrame ⟨seq, payload⟩ (hunt s) := by
  have htake : (requestBytes seq aux payload).take (5 + payload.length) = requestCovered seq aux payload := by
    rw [← requestCovered_length seq aux payload]
    exact List.take_left
  have hdrop : (requestBytes seq aux payload).drop (5 + payload.length) = crcField (requestCovered seq aux payload) := by
    rw [← requestCovered_length seq aux payload]
    exact List.drop_left
  have hpayload : ((requestBytes seq aux payload).drop 5).take payload.length = payload := List.take_left
  rw [judgeFrame_request (by rw [htake, hdrop]) rfl, hpayload]
  rfl

/-- R153, R154: from HUNT a whole request frame is offered to the slots, the outbound halves following each byte. -/
theorem foldl_receiveWhole_request {s : State} (hrx : s.rx = ⟨.hunt, []⟩) (hbits : s.wire.bits = [])
    (hmode : s.linkMode ≠ none) (seq aux : Byte) {payload : List Byte} (hlong : payload.length ≤ 1024) :
    (linkFrame 0x01 seq aux payload).foldl (fun acc b => receiveWhole b acc) s =
      wholeEnded (offerFrame ⟨seq, payload⟩
        ((requestBytes seq aux payload).foldl (fun w _ => wholeEnded w) (wholeBegun s))) := by
  have hlength := requestBytes_length seq aux payload
  have hn := arg16_requestBytes seq aux hlong
  have hjudge := judgeFrame_requestBytes seq aux payload
  rw [linkFrame_request]
  generalize hfull : requestBytes seq aux payload = full at *
  obtain ⟨q, last, rfl⟩ : ∃ q last, full = q ++ [last] :=
    ⟨full.dropLast, full.getLast (by intro h; rw [h] at hlength; simp at hlength; omega),
      (List.dropLast_append_getLast _).symm⟩
  simp only [List.length_append, List.length_cons, List.length_nil] at hlength
  have hready := linkReady_wholeBegun hbits hmode
  have hsync : receiveWhole 0xA5#8 s =
      (wholeEnded (wholeBegun s)).withRx (partialRx (arg16 (q ++ [last]) 0) []) := by
    have hphase : (wholeBegun s).rx.phase = .hunt := by rw [(wholeBegun_outbound s).rx, hrx]
    rw [receiveWhole_eq hbits hmode, receiveByte_hunt hphase, if_pos rfl]
    exact wholeEnded_withRx (wholeBegun s) ⟨.header, []⟩
  have hmost := foldl_receiveWhole_partial (full := q ++ [last]) (p := []) (q := q) (by omega)
    (List.prefix_append q [last]) (by simp only [List.length_nil]; omega) hready.ended
  have hbefore : (q.foldl (fun w _ => wholeEnded w) (wholeEnded (wholeBegun s))) =
      (q ++ [last]).foldl (fun w _ => wholeEnded w) (wholeBegun s) := by
    rw [List.foldl_const, List.foldl_const, List.length_append, List.length_singleton, Function.iterate_succ_apply]
  rw [List.foldl_cons, List.foldl_append, hsync, hmost, hbefore]
  have hend := foldl_wholeEnded_ready hready (q ++ [last])
  have hkept : ((q ++ [last]).foldl (fun w _ => wholeEnded w) (wholeBegun s)).rx = ⟨.hunt, []⟩ := by
    rw [((wholeBegun_outbound s).trans (foldl_wholeEnded_outbound _ _)).rx, hrx]
  generalize (q ++ [last]).foldl (fun w _ => wholeEnded w) (wholeBegun s) = before at hend hkept ⊢
  have hhunt (rx : Receiver) : hunt (before.withRx rx) = before := by
    change { before with rx := ⟨.hunt, []⟩ } = before
    rw [← hkept]
  rw [List.foldl_cons, List.foldl_nil, List.nil_append, hn,
    receiveWhole_eq (hend.withRx _).1 (hend.withRx _).linkMode_ne, (hend.withRx _).begun, receiveByte_last hn (by omega),
    hjudge, hhunt]

/-- R153, R163: out of hard reset RECEIVE_FRAME is its bytes one after another (log 1). -/
theorem exec_receiveFrame {s : State} (hreset : s.inReset = false) (bytes : List Byte) :
    exec (.receiveFrame bytes) s = .next (bytes.foldl (fun acc b => receiveWhole b acc) s) := by
  change execReceiveFrame bytes s = _
  rw [execReceiveFrame, hreset]
  rfl

/-- Settles O57. -/
theorem requestFramesArriveWhole : Obligations.RequestFramesArriveWhole := by
  unfold Obligations.RequestFramesArriveWhole
  refine ⟨fun s seq aux payload hreset hrx hbits hmode hlong => ?_, fun s => ⟨fun hreset => ⟨fun bytes => ?_, fun e => ?_⟩,
    fun hreset => ⟨?_, fun b bytes t ht => ?_⟩⟩⟩
  · intro frame before
    have hexec : exec (.receiveFrame frame) s = .next (wholeEnded (offerFrame ⟨seq, payload⟩ before)) := by
      rw [exec_receiveFrame hreset]
      exact congrArg _ (foldl_receiveWhole_request hrx hbits hmode seq aux hlong)
    have hkept : OutboundFrameOnly s before := (wholeBegun_outbound s).trans (foldl_wholeEnded_outbound _ _)
    refine ⟨rfl, List.take_left, ?_, fun i hi hfree hlower => ?_, fun hfull => ?_⟩
    · change (requestBytes seq aux payload).length + 1 = _
      rw [requestBytes_length]
      omega
    · rw [hexec, offerFrame_free _ hi (hkept.slots ▸ hfree) (hkept.slots ▸ hlower), hkept.slots, hkept.arrival]
    · rw [hexec, offerFrame_full _ (hkept.slots ▸ hfull)]
  · exact if_pos hreset
  · exact if_pos hreset
  · rw [exec_receiveFrame hreset]
    rfl
  · rw [exec_receivedByte hreset, lineEvent_whole] at ht
    cases ht
    have hkept : (receiveWhole b s).inReset = false := by
      obtain ⟨_, _, _, _, _, _, _, _, h⟩ := receiveWhole_frame b s
      rw [h]
      exact hreset
    rw [exec_receiveFrame hreset, exec_receiveFrame hkept]
    rfl

end Sys2Proof.Machine
end

