-- ==== Sys2Proof/Proofs/Wires.lean ====
section
/-! PROOF. Characters and exchanges from the signals on the wires (R147 to R149, R161, R163). -/

namespace Sys2Proof.Machine

/-! ### What does not look at the wires -/

/-- R148, R149: the state with another byte in progress on the wires. -/
def State.withWire (s : State) (w : Wire) : State := { s with wire := w }

theorem countLoss_withWire (kind : Nat) (s : State) (w : Wire) :
    countLoss kind (s.withWire w) = (countLoss kind s).withWire w := by
  unfold countLoss
  change (match s.notices.find? fun e => e.notice.isMarker with | none => _ | some m => _) = _
  cases s.notices.find? fun e => e.notice.isMarker with
  | none => rfl
  | some m =>
    dsimp only
    by_cases hsent : m.sent = true
    · rw [if_pos hsent, if_pos hsent]
      rfl
    · rw [if_neg hsent, if_neg hsent]
      rfl

/-- R183: a raise does not look at the wires. -/
theorem raise_withWire (n : Notice) (s : State) (w : Wire) : raise n (s.withWire w) = (raise n s).withWire w := by
  unfold raise
  by_cases htakes : s.notices.any (·.takes n.key) = true
  · rw [if_pos htakes]
    exact if_pos htakes
  · rw [if_neg htakes]
    refine (if_neg htakes).trans ?_
    by_cases hroom : s.ordinaryCount < Config.ordinaryNotices
    · rw [if_pos hroom]
      exact if_pos hroom
    · rw [if_neg hroom]
      exact (if_neg hroom).trans (countLoss_withWire _ s w)

theorem offerFrame_withWire (f : RequestFrame) (s : State) (w : Wire) :
    offerFrame f (s.withWire w) = (offerFrame f s).withWire w := by
  unfold offerFrame
  change (match s.lowestFreeSlot with | some i => _ | none => _) = _
  cases s.lowestFreeSlot with
  | some i => rfl
  | none => exact raise_withWire _ s w

theorem judgeFrame_withWire (bytes : List Byte) (n : Nat) (s : State) (w : Wire) :
    judgeFrame bytes n (s.withWire w) = (judgeFrame bytes n s).withWire w := by
  unfold judgeFrame
  dsimp only
  split
  · exact raise_withWire _ (hunt s) w
  · split
    · exact raise_withWire _ (hunt s) w
    · exact offerFrame_withWire _ (hunt s) w

/-- R153: the receiver does not look at the wires. -/
theorem receiveByte_withWire (b : Byte) (s : State) (w : Wire) :
    receiveByte b (s.withWire w) = (receiveByte b s).withWire w := by
  cases hphase : s.rx.phase with
  | hunt =>
    rw [receiveByte_hunt hphase, receiveByte_hunt (s := s.withWire w) hphase]
    split <;> rfl
  | header =>
    simp only [receiveByte_header hphase, receiveByte_header (s := s.withWire w) hphase]
    simp only [apply_ite (State.withWire · w)]
    exact if_congr Iff.rfl (raise_withWire _ (hunt s) w) (if_congr Iff.rfl rfl rfl)
  | body =>
    simp only [receiveByte_body hphase, receiveByte_body (s := s.withWire w) hphase]
    rfl
  | check =>
    simp only [receiveByte_check hphase, receiveByte_check (s := s.withWire w) hphase]
    simp only [apply_ite (State.withWire · w)]
    exact if_congr Iff.rfl rfl (judgeFrame_withWire _ _ s w)

theorem takeOutbound_withWire (s : State) (w : Wire) : takeOutbound (s.withWire w) = (takeOutbound s).withWire w := by
  cases htx : s.tx with
  | some f => rw [takeOutbound_sending htx, takeOutbound_sending (s := s.withWire w) htx]
  | none =>
    cases hr : s.replies with
    | cons r rest =>
      rw [takeOutbound_reply htx hr, takeOutbound_reply (s := s.withWire w) htx hr]
      rfl
    | nil =>
      by_cases hd : (s.draining || s.inReset) = true
      · rw [takeOutbound_withheld htx hr hd, takeOutbound_withheld (s := s.withWire w) htx hr hd]
      · cases he : s.notices.find? fun e => !e.sent with
        | none => rw [takeOutbound_idle htx hr he, takeOutbound_idle (s := s.withWire w) htx hr he]
        | some e =>
          rw [takeOutbound_notice htx hr hd he, takeOutbound_notice (s := s.withWire w) htx hr hd he]
          rfl

theorem exchangeSent_withWire (s : State) (w : Wire) :
    exchangeSent (s.withWire w) = (exchangeSent s).withWire w := by
  cases htx : s.tx with
  | none => rw [exchangeSent_none htx, exchangeSent_none (s := s.withWire w) htx, takeOutbound_withWire]
  | some f =>
    have hend : endOutbound (s.withWire w) = (endOutbound s).withWire w := by
      rw [endOutbound_some htx, endOutbound_some (s := s.withWire w) htx]
      rfl
    rw [exchangeSent_some htx, exchangeSent_some (s := s.withWire w) htx, hend, takeOutbound_withWire]
    by_cases hlast : f.sent + 1 < f.bytes.length
    · rw [if_pos hlast, if_pos hlast]
      rfl
    · rw [if_neg hlast, if_neg hlast]

theorem exchangeByte_withWire (b : Byte) (s : State) (w : Wire) :
    exchangeByte b (s.withWire w) = (exchangeByte b s).withWire w := by
  rw [exchangeByte, receiveByte_withWire, exchangeSent_withWire]
  rfl

theorem exchangeByte_wire (b : Byte) (s : State) : (exchangeByte b s).wire = s.wire := by
  obtain ⟨_, _, _, _, _, hreceived⟩ := receiveByte_eq b s
  obtain ⟨_, _, _, hsent⟩ := exchangeSent_eq (receiveByte b s)
  rw [exchangeByte, hsent, hreceived]

theorem takeOutbound_wire (s : State) : (takeOutbound s).wire = s.wire := by
  obtain ⟨_, _, h⟩ := takeOutbound_eq s
  rw [h]

/-! ### Bytes and their bits (R148) -/

theorem byteOfBits_bitsLow (b : Byte) : byteOfBits (bitsLow b) = b := by
  revert b
  decide +kernel

theorem byteOfBits_spiExchange (b : Byte) : byteOfBits (spiExchange b).reverse = b := by
  rw [spiExchange, List.reverse_reverse, byteOfBits_bitsLow]

/-! ### UART characters (R148) -/

section
variable {s : State}

theorem sampleRxd_awaits (h : s.wire.awaitsHigh = true) (level : Bool) :
    sampleRxd level s = s.withWire { s.wire with awaitsHigh := !level } := if_pos h

theorem sampleRxd_idle (h : s.wire.awaitsHigh = false) (hbits : s.wire.bits = []) : sampleRxd true s = s := by
  unfold sampleRxd
  dsimp only
  rw [if_neg (by simp [h]), if_pos ⟨hbits, rfl⟩]

/-- R148: a level within a character. -/
theorem sampleRxd_within (h : s.wire.awaitsHigh = false) {level : Bool} (hstart : ¬ (s.wire.bits = [] ∧ level = true))
    (hlength : s.wire.bits.length + 1 < 10) :
    sampleRxd level s = s.withWire { s.wire with bits := s.wire.bits ++ [level] } := by
  unfold sampleRxd
  dsimp only
  rw [if_neg (by simp [h]), if_neg hstart, if_pos (by simpa using hlength)]
  rfl

/-- R148: the stop bit. -/
theorem sampleRxd_stop (h : s.wire.awaitsHigh = false) (hlength : s.wire.bits.length = 9) (level : Bool) :
    let ended := s.withWire { s.wire with bits := [], awaitsHigh := !level }
    sampleRxd level s =
      if level then receiveByte (byteOfBits (((s.wire.bits ++ [level]).drop 1).take 8)) ended else ended := by
  have hstart : ¬ (s.wire.bits = [] ∧ level = true) := fun hc => by simp [hc.1] at hlength
  unfold sampleRxd
  dsimp only
  rw [if_neg (by simp [h]), if_neg hstart, if_neg (by simp [hlength])]
  rfl

end

/-- R148: the levels of a character after its start bit are kept. -/
theorem foldl_sampleRxd_within {s : State} (h : s.wire.awaitsHigh = false) (hstart : s.wire.bits ≠ [])
    {levels : List Bool} (hlength : s.wire.bits.length + levels.length < 10) :
    levels.foldl (fun v level => sampleRxd level v) s = s.withWire { s.wire with bits := s.wire.bits ++ levels } := by
  induction levels generalizing s with
  | nil => rw [List.append_nil]; rfl
  | cons level levels ih =>
    simp only [List.length_cons] at hlength
    rw [List.foldl_cons, sampleRxd_within h (fun hc => hstart hc.1) (by omega), ih]
    · simp only [State.withWire, List.append_assoc, List.singleton_append]
    · exact h
    · simp [State.withWire]
    · simp only [State.withWire, List.length_append, List.length_singleton]
      omega

/-- R148: the ten levels of a character. -/
theorem foldl_sampleRxd_character {s : State} (h : s.wire.awaitsHigh = false) (hbits : s.wire.bits = [])
    {data : List Bool} (hdata : data.length = 8) (level : Bool) :
    let ended := s.withWire { s.wire with bits := [], awaitsHigh := !level }
    (false :: data ++ [level]).foldl (fun v level => sampleRxd level v) s =
      if level then receiveByte (byteOfBits data) ended else ended := by
  intro ended
  have hstart : sampleRxd false s = s.withWire { s.wire with bits := [false] } := by
    rw [sampleRxd_within h (by simp) (by simp [hbits]), hbits]
    rfl
  have hbyte : ((false :: data ++ [level]).drop 1).take 8 = data := by
    rw [← hdata]
    exact List.take_left
  have hwithin : (data.foldl (fun v level => sampleRxd level v) (s.withWire { s.wire with bits := [false] })) =
      s.withWire { s.wire with bits := false :: data } :=
    foldl_sampleRxd_within (s := s.withWire { s.wire with bits := [false] }) h (by simp [State.withWire])
      (by simp [State.withWire, hdata])
  rw [List.cons_append, List.foldl_cons, List.foldl_append, hstart, hwithin, List.foldl_cons, List.foldl_nil]
  refine (sampleRxd_stop (s := s.withWire { s.wire with bits := false :: data }) h (by simp [State.withWire, hdata])
    level).trans ?_
  exact if_congr Iff.rfl (congrArg (fun bits => receiveByte (byteOfBits bits) ended) hbyte) rfl

/-- R148: after a low stop bit levels that stay low begin nothing. -/
theorem foldl_sampleRxd_low {s : State} (h : s.wire.awaitsHigh = true) (k : Nat) :
    (List.replicate k false).foldl (fun v level => sampleRxd level v) s = s := by
  induction k with
  | zero => rfl
  | succ k ih =>
    have hsame : s.withWire { s.wire with awaitsHigh := !false } = s := by
      rw [Bool.not_false, ← h]
      rfl
    rw [List.replicate_succ, List.foldl_cons, sampleRxd_awaits h, hsame, ih]

theorem lineEvent_rxd {s : State} {baud : Nat} (h : s.linkMode = some (.uart baud)) (level : Bool) :
    lineEvent (.rxd level) s = sampleRxd level s := by
  unfold lineEvent
  rw [h]

theorem foldl_lineEvent_rxd {s : State} {baud : Nat} (h : s.linkMode = some (.uart baud)) (levels : List Bool) :
    levels.foldl (fun v level => lineEvent (.rxd level) v) s = levels.foldl (fun v level => sampleRxd level v) s := by
  induction levels generalizing s with
  | nil => rfl
  | cons level levels ih =>
    have hmode : (sampleRxd level s).linkMode = some (.uart baud) := by
      obtain ⟨_, _, _, _, _, _, _, _, hframe⟩ := sampleRxd_frame level s
      rw [hframe]
      exact h
    rw [List.foldl_cons, List.foldl_cons, lineEvent_rxd h, ih hmode]

theorem receiveWhole_uart {s : State} {baud : Nat} (h : s.linkMode = some (.uart baud)) (hbits : s.wire.bits = [])
    (b : Byte) : receiveWhole b s = receiveByte b (s.withWire { s.wire with awaitsHigh := false }) := by
  unfold receiveWhole
  rw [if_neg (not_not.2 hbits)]
  split
  · rfl
  · next hm => exact absurd (hm.symm.trans h) (by simp)
  · next hm => exact absurd (hm.symm.trans h) (by simp)

/-- R148: the levels of a byte's character hand over the byte. -/
theorem foldl_sampleRxd_uartCharacter {s : State} {baud : Nat} (hmode : s.linkMode = some (.uart baud))
    (h : s.wire.awaitsHigh = false) (hbits : s.wire.bits = []) (b : Byte) :
    (uartCharacter b).foldl (fun v level => sampleRxd level v) s = receiveWhole b s := by
  have hended : s.withWire { s.wire with bits := [], awaitsHigh := !true } =
      s.withWire { s.wire with awaitsHigh := false } := by
    rw [← hbits]
    rfl
  refine (foldl_sampleRxd_character h hbits (data := bitsLow b) rfl true).trans ?_
  rw [if_pos rfl, byteOfBits_bitsLow, receiveWhole_uart hmode hbits]
  exact congrArg _ hended

/-! ### SPI exchanges (R149) -/

section
variable {s : State}

theorem sampleSdi_ignored (h : s.wire.selected = false ∨ s.wire.sckHigh = true) (sdi : Bool) : sampleSdi sdi s = s := by
  unfold sampleSdi
  dsimp only
  rw [if_pos]
  obtain h | h := h <;> simp [h]

theorem sampleSdi_within (hsel : s.wire.selected = true) (hsck : s.wire.sckHigh = false)
    (hlength : s.wire.bits.length + 1 < 8) (sdi : Bool) :
    sampleSdi sdi s = s.withWire { s.wire with bits := s.wire.bits ++ [sdi], sckHigh := true } := by
  unfold sampleSdi
  dsimp only
  rw [if_neg (by simp [hsel, hsck]), if_pos (by simpa using hlength)]
  rfl

/-- R149: the eighth rising edge. -/
theorem sampleSdi_last (hsel : s.wire.selected = true) (hsck : s.wire.sckHigh = false)
    (hlength : 8 ≤ s.wire.bits.length + 1) (sdi : Bool) :
    sampleSdi sdi s = exchangeByte (byteOfBits (s.wire.bits ++ [sdi]).reverse)
      (s.withWire { s.wire with bits := [], sckHigh := true }) := by
  unfold sampleSdi
  dsimp only
  rw [if_neg (by simp [hsel, hsck]), if_neg (by simp; omega)]
  rfl

theorem shiftSdo_falls (hsel : s.wire.selected = true) (hsck : s.wire.sckHigh = true) : shiftSdo s = driveSdo s :=
  if_pos (by simp [hsel, hsck])

theorem shiftSdo_ignored (h : s.wire.selected = false ∨ s.wire.sckHigh = false) : shiftSdo s = s := by
  refine if_neg ?_
  obtain h | h := h <;> simp [h]

/-- R149: with SCK low SDO has the bit that the next rising edge samples. -/
theorem driveSdo_eq (h : s.wire.bits.length < 8) :
    driveSdo s = s.withWire { s.wire with sckHigh := false, sdo := s.spiOffer.getLsbD (7 - s.wire.bits.length) } := by
  unfold driveSdo
  rw [spiExchange_getD _ h]
  rfl

/-- R149: what an exchange leaves on SDO and SCK does not depend on what stood there. -/
theorem driveSdo_withWire {w : Wire} (hsel : w.selected = s.wire.selected) (hbits : w.bits = s.wire.bits)
    (hawaits : w.awaitsHigh = s.wire.awaitsHigh) : driveSdo (s.withWire w) = driveSdo s := by
  change s.withWire { w with sckHigh := false, sdo := (spiExchange s.spiOffer).getD w.bits.length false } = _
  obtain ⟨selected, bits, awaitsHigh, sckHigh, sdo⟩ := w
  cases hsel
  cases hbits
  cases hawaits
  rfl

/-- R149: one period of SCK within an exchange. -/
theorem clock_within (hsel : s.wire.selected = true) (hsck : s.wire.sckHigh = false)
    (hlength : s.wire.bits.length + 1 < 8) (sdi : Bool) :
    shiftSdo (sampleSdi sdi s) = s.withWire { s.wire with
      bits := s.wire.bits ++ [sdi], sdo := s.spiOffer.getLsbD (7 - (s.wire.bits.length + 1)) } := by
  rw [sampleSdi_within hsel hsck hlength, shiftSdo_falls (by exact hsel) rfl,
    driveSdo_eq (by simpa [State.withWire] using hlength)]
  simp only [State.withWire, List.length_append, List.length_singleton]
  rw [← hsck]
  rfl

/-- R149: the period of SCK that ends an exchange. -/
theorem clock_last (hsel : s.wire.selected = true) (hsck : s.wire.sckHigh = false)
    (hlength : s.wire.bits.length = 7) (sdi : Bool) :
    shiftSdo (sampleSdi sdi s) = driveSdo (exchangeByte (byteOfBits (s.wire.bits ++ [sdi]).reverse)
      (s.withWire { s.wire with bits := [] })) := by
  rw [sampleSdi_last hsel hsck (by omega)]
  generalize byteOfBits (s.wire.bits ++ [sdi]).reverse = b
  rw [exchangeByte_withWire, exchangeByte_withWire, shiftSdo_falls (by exact hsel) rfl]
  exact (driveSdo_withWire (s := (exchangeByte b s).withWire { s.wire with bits := [] }) rfl rfl rfl)

end

/-- R149: periods of SCK within an exchange. -/
theorem foldl_clock_within {s : State} (hsel : s.wire.selected = true) (hsck : s.wire.sckHigh = false)
    {levels : List Bool} (hlength : s.wire.bits.length + levels.length < 8) :
    levels.foldl (fun v sdi => shiftSdo (sampleSdi sdi v)) s = s.withWire { s.wire with
      bits := s.wire.bits ++ levels
      sdo := if levels = [] then s.wire.sdo else s.spiOffer.getLsbD (7 - (s.wire.bits.length + levels.length)) } := by
  induction levels generalizing s with
  | nil =>
    rw [List.append_nil, if_pos rfl]
    rfl
  | cons sdi levels ih =>
    simp only [List.length_cons] at hlength
    rw [List.foldl_cons, clock_within hsel hsck (by omega), ih (by exact hsel) (by exact hsck)]
    · have hlast : (if levels = [] then s.spiOffer.getLsbD (7 - (s.wire.bits.length + 1))
          else s.spiOffer.getLsbD (7 - (s.wire.bits.length + 1 + levels.length))) =
          s.spiOffer.getLsbD (7 - (s.wire.bits.length + (levels.length + 1))) := by
        cases levels <;> simp [Nat.add_comm, Nat.add_left_comm]
      simp only [State.withWire, List.append_assoc, List.singleton_append, List.length_append,
        reduceCtorEq, if_false, List.length_cons, ← hlast]
      rfl
    · simp only [State.withWire, List.length_append, List.length_singleton]
      omega

theorem receiveWhole_spi {s : State} (h : s.linkMode = some .spi) (hbits : s.wire.bits = []) (b : Byte) :
    receiveWhole b s = driveSdo (exchangeByte b (if s.wire.selected then s else selectLink s)) := by
  unfold receiveWhole
  rw [if_neg (not_not.2 hbits)]
  split
  · next hm => exact absurd (hm.symm.trans h) (by simp)
  · rfl
  · next hm => exact absurd (hm.symm.trans h) (by simp)

/-- R149: the eight periods of SCK that carry a byte hand it over. -/
theorem foldl_clock_byte {s : State} (h : s.linkMode = some .spi) (hbits : s.wire.bits = [])
    (hsel : s.wire.selected = true) (hsck : s.wire.sckHigh = false) (b : Byte) :
    (spiExchange b).foldl (fun v sdi => shiftSdo (sampleSdi sdi v)) s = receiveWhole b s := by
  obtain ⟨levels, last, hlevels, hlength⟩ : ∃ levels last, spiExchange b = levels ++ [last] ∧ levels.length = 7 :=
    ⟨[_, _, _, _, _, _, _], _, rfl, rfl⟩
  have hbyte := byteOfBits_spiExchange b
  rw [hlevels] at hbyte ⊢
  rw [List.foldl_append, foldl_clock_within hsel hsck (by simp [hbits, hlength]), hbits, List.nil_append,
    List.foldl_cons, List.foldl_nil, clock_last (by exact hsel) (by exact hsck) (by exact hlength),
    receiveWhole_spi h hbits, if_pos hsel]
  change driveSdo (exchangeByte (byteOfBits (levels ++ [last]).reverse) (s.withWire _)) = _
  rw [hbyte, exchangeByte_withWire]
  refine driveSdo_withWire ?_ ?_ ?_
  · rw [exchangeByte_wire]
    rfl
  · rw [exchangeByte_wire, hbits]
  · rw [exchangeByte_wire]
    rfl

/-- R149: a fall of CS_N begins anew, whatever stood on the wires of the exchange before. -/
theorem selectLink_withWire {s : State} {w : Wire} (h : w.awaitsHigh = s.wire.awaitsHigh) :
    selectLink (s.withWire w) = selectLink s := by
  unfold selectLink
  change driveSdo (takeOutbound (s.withWire { w with selected := true, bits := [] })) =
    driveSdo (takeOutbound (s.withWire { s.wire with selected := true, bits := [] }))
  rw [takeOutbound_withWire, takeOutbound_withWire]
  exact driveSdo_withWire (s := (takeOutbound s).withWire { s.wire with selected := true, bits := [] }) rfl rfl h

theorem selectLink_eq (s : State) :
    selectLink s = driveSdo ((takeOutbound s).withWire { s.wire with selected := true, bits := [] }) :=
  congrArg driveSdo (takeOutbound_withWire s _)

section
variable {s : State}

theorem lineEvent_csnFalls (h : s.linkMode = some .spi) : lineEvent .csnFalls s = selectLink s := by
  unfold lineEvent
  rw [h]

theorem lineEvent_csnRises (h : s.linkMode = some .spi) : lineEvent .csnRises s = deselectLink s := by
  unfold lineEvent
  rw [h]

theorem lineEvent_sckRises (h : s.linkMode = some .spi) (sdi : Bool) : lineEvent (.sckRises sdi) s = sampleSdi sdi s := by
  unfold lineEvent
  rw [h]

theorem lineEvent_sckFalls (h : s.linkMode = some .spi) : lineEvent .sckFalls s = shiftSdo s := by
  unfold lineEvent
  rw [h]

end

/-- R149: a rising edge of SCK keeps SDO. -/
theorem sampleSdi_wire (sdi : Bool) (s : State) :
    (sampleSdi sdi s).wire.sdo = s.wire.sdo ∧ (s.wire.selected = true → (sampleSdi sdi s).wire.sckHigh = true) := by
  by_cases h : s.wire.selected = false ∨ s.wire.sckHigh = true
  · rw [sampleSdi_ignored h]
    exact ⟨rfl, fun hsel => h.resolve_left (by simp [hsel])⟩
  · obtain ⟨hsel, hsck⟩ := not_or.1 h
    have hsel : s.wire.selected = true := by simpa using hsel
    have hsck : s.wire.sckHigh = false := by simpa using hsck
    by_cases hlength : s.wire.bits.length + 1 < 8
    · rw [sampleSdi_within hsel hsck hlength]
      exact ⟨rfl, fun _ => rfl⟩
    · rw [sampleSdi_last hsel hsck (by omega), exchangeByte_wire]
      exact ⟨rfl, fun _ => rfl⟩

/-- R149: while CS_N is high SCK is ignored. -/
theorem foldl_clock_deselected {s : State} (h : s.wire.selected = false) (levels : List Bool) :
    levels.foldl (fun v sdi => shiftSdo (sampleSdi sdi v)) s = s := by
  induction levels with
  | nil => rfl
  | cons sdi levels ih => rw [List.foldl_cons, sampleSdi_ignored (.inl h), shiftSdo_ignored (.inl h), ih]

theorem foldl_lineEvent_clock {s : State} (h : s.linkMode = some .spi) (levels : List Bool) :
    levels.foldl (fun v sdi => lineEvent .sckFalls (lineEvent (.sckRises sdi) v)) s =
      levels.foldl (fun v sdi => shiftSdo (sampleSdi sdi v)) s := by
  induction levels generalizing s with
  | nil => rfl
  | cons sdi levels ih =>
    have hrise : (sampleSdi sdi s).linkMode = some .spi := by
      obtain ⟨_, _, _, _, _, _, _, _, hframe⟩ := sampleSdi_frame sdi s
      rw [hframe]
      exact h
    have hfall : (shiftSdo (sampleSdi sdi s)).linkMode = some .spi := by
      obtain ⟨_, _, _, _, _, _, _, _, hframe⟩ := shiftSdo_frame (sampleSdi sdi s)
      rw [hframe]
      exact hrise
    rw [List.foldl_cons, List.foldl_cons, lineEvent_sckRises h, lineEvent_sckFalls hrise, ih hfall]

/-! ### SDO/TXD (R148, R149, R163) -/

/-- R148: the levels of a frame on TXD, bit time by bit time. -/
theorem txdLevels_getD (bytes : List Byte) (n : Nat) :
    (bytes.flatMap uartCharacter).getD n true =
      if n < 10 * bytes.length then (uartCharacter (bytes.getD (n / 10) 0)).getD (n % 10) true else true := by
  have hten (b : Byte) : (uartCharacter b).length = 10 := rfl
  induction bytes generalizing n with
  | nil => simp
  | cons b bytes ih =>
    rw [List.flatMap_cons]
    by_cases hn : n < 10
    · have hdiv : n / 10 = 0 := by omega
      have hmod : n % 10 = n := by omega
      rw [if_pos (by simp only [List.length_cons]; omega), hdiv, hmod, List.getD_append _ _ _ _ (by rw [hten]; exact hn)]
      rfl
    · have hdiv : n / 10 = (n - 10) / 10 + 1 := by omega
      have hmod : n % 10 = (n - 10) % 10 := by omega
      rw [List.getD_append_right _ _ _ _ (by rw [hten]; omega), hten, ih, hdiv, hmod, List.getD_cons_succ]
      refine if_congr ?_ rfl rfl
      simp only [List.length_cons]
      omega

/-- Settles O60. -/
theorem charactersAndExchanges : Obligations.CharactersAndExchanges := by
  unfold Obligations.CharactersAndExchanges
  refine ⟨fun s e hreset => exec_receivedByte hreset e, fun s baud hm => ?_, fun s hm => ?_, fun s b hbits => ?_,
    fun s n => ⟨fun hm => ?_, fun baud hm => ⟨fun hidle => ?_, fun f hreset htx => ?_⟩, fun hm => ⟨fun hidle => ?_,
      fun hreset hsel => ?_⟩⟩⟩
  · intro sampled waits
    have hsampled (levels : List Bool) (w : State) (hw : w.linkMode = some (.uart baud)) :
        sampled levels w = levels.foldl (fun v level => sampleRxd level v) w := foldl_lineEvent_rxd hw levels
    refine ⟨fun hbits hawaits => ⟨fun b => ?_, ?_, fun data hdata k => ?_⟩, fun hbits => ⟨?_, fun b => ?_⟩, fun e he => ?_⟩
    · rw [hsampled _ _ hm, lineEvent_whole, foldl_sampleRxd_uartCharacter hm hawaits hbits]
    · rw [hsampled _ _ hm]
      exact sampleRxd_idle hawaits hbits
    · have hlevels : false :: data ++ List.replicate (k + 1) false =
          (false :: data ++ [false]) ++ List.replicate k false := by
        simp [List.replicate_succ]
      rw [hsampled _ _ hm, hlevels, List.foldl_append, foldl_sampleRxd_character hawaits hbits hdata]
      exact foldl_sampleRxd_low (s := waits) rfl k
    · have hopen : sampled [true] waits = s.withWire { s.wire with bits := [], awaitsHigh := false } :=
        (hsampled [true] waits hm).trans (sampleRxd_awaits (s := waits) rfl true)
      rw [hopen, ← hbits]
      rfl
    · have hopen : sampleRxd true waits = s.withWire { s.wire with bits := [], awaitsHigh := false } :=
        sampleRxd_awaits (s := waits) rfl true
      rw [hsampled _ waits hm, List.foldl_cons, hopen,
        foldl_sampleRxd_uartCharacter (s := s.withWire { s.wire with bits := [], awaitsHigh := false }) hm rfl rfl,
        lineEvent_whole, receiveWhole_uart hm hbits,
        receiveWhole_uart (s := s.withWire { s.wire with bits := [], awaitsHigh := false }) hm rfl, ← hbits]
      rfl
    · unfold lineEvent
      rw [hm]
      obtain rfl | rfl | rfl | ⟨sdi, rfl⟩ := he <;> rfl
  · intro clocked risen
    have hclocked (levels : List Bool) (w : State) (hw : w.linkMode = some .spi) :
        clocked levels w = levels.foldl (fun v sdi => shiftSdo (sampleSdi sdi v)) w := foldl_lineEvent_clock hw levels
    have hfall : lineEvent .csnFalls s = selectLink s := lineEvent_csnFalls hm
    have hsckFall : lineEvent .sckFalls s = shiftSdo s := lineEvent_sckFalls hm
    have hselected : (selectLink s).linkMode = some .spi := (selectLink_outbound s).linkMode.trans hm
    have hlow : (selectLink s).wire.bits = [] ∧ (selectLink s).wire.selected = true ∧
        (selectLink s).wire.sckHigh = false ∧ (selectLink s).wire.sdo = (selectLink s).spiOffer.getLsbD 7 := by
      rw [selectLink_eq, driveSdo_first (s := State.withWire _ _) rfl]
      exact ⟨rfl, rfl, rfl, rfl⟩
    obtain ⟨hlowBits, hlowSel, hlowSck, hlowSdo⟩ := hlow
    refine ⟨fun hbits hsel hsck b => ?_, fun hbits hsel hsck b => ?_, fun hbits hsel b => ?_,
      fun hbits hsel hsck levels hlength => ?_, ?_, fun sdi => ?_, fun hsel hsck hlength => ?_, fun hsck => ?_,
      fun hsel => ⟨fun levels => ?_, ?_⟩, fun level => ?_⟩
    · rw [hclocked _ _ hm, lineEvent_whole, foldl_clock_byte hm hbits hsel hsck]
    · rw [hsckFall, shiftSdo_falls hsel hsck, lineEvent_whole, lineEvent_whole, receiveWhole_spi hm hbits, if_pos hsel,
        driveSdo_eq (by rw [hbits]; decide), receiveWhole_spi (by exact hm) (by exact hbits)]
      refine (congrArg (fun w => driveSdo (exchangeByte b w)) (if_pos hsel)).trans ?_
      rw [exchangeByte_withWire]
      refine driveSdo_withWire ?_ ?_ ?_ <;> rw [exchangeByte_wire]
    · rw [hfall, hclocked _ _ hselected, foldl_clock_byte hselected hlowBits hlowSel hlowSck, lineEvent_whole,
        receiveWhole_spi hselected hlowBits, receiveWhole_spi hm hbits, if_pos hlowSel, if_neg (by simp [hsel])]
    · have hwithin : clocked levels s = s.withWire { s.wire with
          bits := levels, sdo := if levels = [] then s.wire.sdo else s.spiOffer.getLsbD (7 - levels.length) } := by
        rw [hclocked _ _ hm, foldl_clock_within hsel hsck (by rw [hbits]; simpa using hlength), hbits, List.nil_append,
          List.length_nil, Nat.zero_add]
      rw [hwithin]
      refine ⟨rfl, lineEvent_csnRises (s := s.withWire _) hm, rfl, ?_⟩
      rw [hfall, lineEvent_csnFalls (by exact hm)]
      exact selectLink_withWire rfl
    · rw [hfall]
      exact ⟨hlowSdo, hlowSck⟩
    · rw [lineEvent_sckRises hm]
      obtain ⟨hsdo, hhigh⟩ := sampleSdi_wire sdi s
      exact ⟨hsdo, hhigh, fun hsck => sampleSdi_ignored (.inr hsck) sdi⟩
    · rw [hsckFall, shiftSdo_falls hsel hsck, driveSdo_eq hlength]
      rfl
    · rw [hsckFall, shiftSdo_ignored (.inr hsck)]
    · rw [hclocked _ _ hm, foldl_clock_deselected hsel]
    · rw [hsckFall, shiftSdo_ignored (.inl hsel)]
    · unfold lineEvent
      rw [hm]
  · rw [lineEvent_whole]
    exact if_pos hbits
  · rw [State.sdoPin, hm]
  · rw [State.sdoPin, hm]
    obtain h | h := hidle
    · simp [h]
    · simp [h]
  · rw [State.sdoPin, hm, hreset, htx, Bool.false_or]
    exact congrArg some (txdLevels_getD f.bytes n)
  · rw [State.sdoPin, hm]
    refine if_neg ?_
    obtain h | h := hidle <;> simp [h]
  · rw [State.sdoPin, hm]
    exact if_pos ⟨hsel, by simp [hreset]⟩

end Sys2Proof.Machine
end

