-- ==== Sys2Proof/Proofs/PresentLayers.lean ====
section
/-! PROOF. The layer entries of a PRESENT, its checks and its acceptance, and SET_CURSOR (R60 to R69, R74, R75, R87 to
R90, R192 to R194). -/

namespace Sys2Proof.Machine

/-! ### The length walk (R62, R194) -/

/-- R62: the bytes of one layer entry, by its mode and flags. -/
def entryShaped (e : List Byte) : Prop := 16 ≤ e.length ∧ e.length = layerLength e

theorem arg8_append_left {a b : List Byte} {i : Nat} (h : i < a.length) : arg8 (a ++ b) i = arg8 a i := by
  unfold arg8
  rw [List.getD_append _ _ _ _ h]

/-- R62: the length of an entry is read off its first sixteen bytes. -/
theorem layerLength_append {e rest : List Byte} (h : 16 ≤ e.length) : layerLength (e ++ rest) = layerLength e := by
  unfold layerLength
  rw [arg8_append_left (by omega), arg8_append_left (by omega), arg8_append_left (by omega)]

theorem layerLength_ge (bytes : List Byte) : 16 ≤ layerLength bytes := by
  unfold layerLength
  omega

/-- R62: the parts an entry carries lie within its length. -/
theorem layerLength_parts (bytes : List Byte) :
    (arg8 bytes 13 = 1 → 19 ≤ layerLength bytes) ∧ (arg8 bytes 13 = 2 → 17 ≤ layerLength bytes) ∧
      (arg8 bytes 14 = 1 → 16 + modePartLength (arg8 bytes 13) + 1 ≤ layerLength bytes) ∧
      (arg8 bytes 15 = 1 → 16 + modePartLength (arg8 bytes 13) + (if arg8 bytes 14 = 1 then 1 else 0) + 6 ≤
        layerLength bytes) := by
  unfold layerLength
  refine ⟨fun h => ?_, fun h => ?_, fun h => ?_, fun h => ?_⟩
  · rw [h, modePartLength, if_pos rfl]
    omega
  · rw [h, modePartLength, if_neg (by decide), if_pos rfl]
    omega
  · rw [if_pos h]
    omega
  · rw [if_pos h]

/-- R194: the fields of an entry are read off its own bytes. -/
theorem layerArgs_append {e rest : List Byte} (h : entryShaped e) : layerArgs (e ++ rest) = layerArgs e := by
  obtain ⟨hlong, hlength⟩ := h
  have hget (i : Nat) (hi : i < e.length) : (e ++ rest).getD i 0 = e.getD i 0 := List.getD_append _ _ _ _ hi
  have harg8 (i : Nat) (hi : i < e.length) : arg8 (e ++ rest) i = arg8 e i := arg8_append_left hi
  have harg16 (i : Nat) (hi : i + 1 < e.length) : arg16 (e ++ rest) i = arg16 e i := by
    unfold arg16
    rw [harg8 i (by omega), harg8 (i + 1) hi]
  have hcolour (i : Nat) (hi : i + 2 < e.length) : argColour (e ++ rest) i = argColour e i := by
    unfold argColour
    rw [hget i (by omega), hget (i + 1) (by omega), hget (i + 2) hi]
  have hsigned (i : Nat) (hi : i + 1 < e.length) : argSigned (e ++ rest) i = argSigned e i := by
    unfold argSigned
    rw [harg16 i hi]
  have hrect : argRect (e ++ rest) 1 = argRect e 1 := by
    unfold argRect
    rw [harg16 1 (by omega), harg16 (1 + 2) (by omega), harg16 (1 + 4) (by omega), harg16 (1 + 6) (by omega)]
  obtain ⟨hkey, halpha, hbank, hpair⟩ := layerLength_parts e
  rw [← hlength] at hkey halpha hbank hpair
  unfold layerArgs
  dsimp only
  rw [harg8 0 (by omega), harg8 13 (by omega), harg8 14 (by omega), harg8 15 (by omega), hrect, hsigned 9 (by omega),
    hsigned 11 (by omega)]
  congr 1
  · split
    · next hm => exact hcolour 16 (by have := hkey hm; omega)
    · rfl
  · split
    · next hm => exact harg8 16 (by have := halpha hm; omega)
    · rfl
  · split
    · next hf => exact harg8 _ (by have := hbank hf; omega)
    · rfl
  · split
    · next hf => exact hcolour _ (by have := hpair hf; omega)
    · rfl
  · split
    · next hf => exact hcolour _ (by have := hpair hf; omega)
    · rfl

/-- R62: the walk accepts the announced number of entries laid end to end. -/
theorem walkLayers_iff (n : Nat) (bytes : List Byte) (layers : List LayerArgs) :
    walkLayers n bytes = some layers ↔
      ∃ entries : List (List Byte), entries.flatten = bytes ∧ entries.length = n ∧ layers = entries.map layerArgs ∧
        ∀ e ∈ entries, entryShaped e := by
  induction n generalizing bytes layers with
  | zero =>
    cases bytes with
    | nil =>
      simp only [walkLayers, Option.some.injEq, List.length_eq_zero_iff]
      constructor
      · rintro rfl
        exact ⟨[], rfl, rfl, rfl, by simp⟩
      · rintro ⟨_, _, rfl, rfl, _⟩
        rfl
    | cons b bytes =>
      simp only [walkLayers, reduceCtorEq, List.length_eq_zero_iff, false_iff]
      rintro ⟨_, h, rfl, _⟩
      cases h
  | succ n ih =>
    rw [walkLayers]
    constructor
    · intro h
      split at h
      · cases h
      · next hlong =>
        split at h
        · cases h
        · next hfit =>
          obtain ⟨later, hlater, rfl⟩ := Option.map_eq_some_iff.1 h
          obtain ⟨entries, hflat, hlength, rfl, hshaped⟩ := (ih _ _).1 hlater
          have hfirst : (bytes.take (layerLength bytes)).length = layerLength bytes := by
            rw [List.length_take]
            omega
          have hsplit : bytes.take (layerLength bytes) ++ bytes.drop (layerLength bytes) = bytes := List.take_append_drop _ _
          have hge := layerLength_ge bytes
          have hentry : entryShaped (bytes.take (layerLength bytes)) := by
            have hlong : 16 ≤ (bytes.take (layerLength bytes)).length := by omega
            have hown := layerLength_append (rest := bytes.drop (layerLength bytes)) hlong
            rw [hsplit] at hown
            exact ⟨hlong, hfirst.trans hown⟩
          refine ⟨bytes.take (layerLength bytes) :: entries, ?_, by simp [hlength], ?_, ?_⟩
          · rw [List.flatten_cons, hflat, hsplit]
          · rw [List.map_cons, ← layerArgs_append (rest := bytes.drop (layerLength bytes)) hentry, hsplit]
          · exact List.forall_mem_cons.2 ⟨hentry, hshaped⟩
    · rintro ⟨entries, rfl, hlength, rfl, hshaped⟩
      cases entries with
      | nil => simp at hlength
      | cons e entries =>
        obtain ⟨hentry, hshaped⟩ := List.forall_mem_cons.1 hshaped
        have hwhole : layerLength (e ++ entries.flatten) = e.length := by
          rw [layerLength_append hentry.1, ← hentry.2]
        rw [List.flatten_cons, hwhole, List.length_append, if_neg (by have := hentry.1; omega), if_neg (by omega),
          List.drop_left, (ih _ _).2 ⟨entries, rfl, by simpa using hlength, rfl, hshaped⟩, layerArgs_append hentry]
        rfl

/-! ### Fields (R192) -/

/-- R192: a signed field is its two bytes in two's complement, low byte first. -/
theorem argSigned_eq_toInt (args : List Byte) (i : Nat) :
    argSigned args i = (args.getD (i + 1) 0 ++ args.getD i 0 : BitVec 16).toInt := by
  have htoNat : (args.getD (i + 1) 0 ++ args.getD i 0 : BitVec 16).toNat = arg16 args i := by
    rw [BitVec.toNat_append, ← Nat.shiftLeft_add_eq_or_of_lt (args.getD i 0).isLt, Nat.shiftLeft_eq]
    unfold arg16 arg8
    omega
  rw [BitVec.toInt_eq_toNat_cond, htoNat]
  unfold argSigned
  dsimp only
  split <;> split <;> omega

/-- R84: the cursor term, by the bindings. -/
theorem cursorTerm_eq (p : Presentation) :
    p.cursorTerm = if p.binding.isSome ∨ p.pendingBinding.names = true then 16 else 0 := by
  unfold Presentation.cursorTerm
  simp only [Bool.or_eq_true]

/-! ### The checks of a PRESENT (R63 to R65) -/

theorem not_outputOf (n : Nat) : outputOf n = none ↔ 1 < n := by
  rw [outputOf_eq]
  split <;> simp_all

/-- R63: the argument checks of an entry. -/
theorem LayerArgs.outOfRange_eq (l : LayerArgs) : l.outOfRange = decide (64 ≤ l.surface ∨ l.dx < -2048 ∨ 2047 < l.dx ∨
    l.dy < -2048 ∨ 2047 < l.dy ∨ 2 < l.mode ∨ 16 < l.alpha ∨ 15 < l.bank ∨ 1 < l.bankFlag ∨ 1 < l.colourFlag) := by
  have hcount : decide (Config.surfaceCount ≤ l.surface) = decide (64 ≤ l.surface) := rfl
  unfold LayerArgs.outOfRange
  rw [hcount]
  simp only [← Bool.decide_or, or_assoc]

/-- R65: the geometry and format checks of an entry. -/
theorem LayerArgs.misfits_eq (l : LayerArgs) (r : Surface) : l.misfits r =
    (!l.source.within r.storedWidth r.storedHeight || decide ((r.format = .ix4) ≠ (l.bankFlag = 1)) ||
      decide ((r.format = .ov2) ≠ (l.colourFlag = 1)) || decide (r.format = .ov2 ∧ l.mode ≠ 0)) := by
  have hne (p q : Prop) [Decidable p] [Decidable q] : (decide p != decide q) = decide (p ≠ q) := by
    by_cases hp : p <;> by_cases hq : q <;> simp [hp, hq]
  unfold LayerArgs.misfits
  rw [hne, hne, Bool.decide_and]

/-- R63: a check of the entries in order is a row that fails when some entry does, with the index of the first. -/
theorem dealtWith_firstBad {s : State} {seq code : Byte} {st : Status} {entries : List LayerArgs} {bad : LayerArgs → Bool}
    {answer : State × Answer} {checks : List (Bool × Status × Byte)} {done : State} (hs : s.headFrame.isSome = true)
    (hbad : ∀ i, entries.findIdx? bad = some i → answer = refuseLayer st i s)
    (hrest : entries.findIdx? bad = none → dealtWith seq code answer = answerByIndex seq code checks s done) :
    dealtWith seq code answer =
      answerByIndex seq code ((entries.any bad, st, byteOf ((entries.findIdx? bad).getD 0xFF)) :: checks) s done := by
  have hany : entries.any bad = (entries.findIdx? bad).isSome := by rw [List.findIdx?_isSome]
  rw [hany]
  cases hi : entries.findIdx? bad with
  | none =>
    rw [Option.isSome_none, answerByIndex_cons_false]
    exact hrest hi
  | some i =>
    rw [Option.isSome_some, answerByIndex_cons_true, hbad i hi]
    exact dealtWith_answerIndex seq code st i hs

/-! ### Acceptance (R66 to R69, R87 to R89) -/

theorem foldl_addScan_frame (ids : List Nat) (s : State) : ClaimFrame s (ids.foldl (fun acc id => addScan id acc) s) :=
  .of_surfaces (foldl_addScan_eq ids s)

/-- R67: what an acceptance comes to. -/
theorem acceptFrame_eq (o : OutputId) (background : Colour) (layers : List Layer) (load n : Nat) (s : State) :
    let token := nextToken (s.pres o).token
    let record : FrameRecord := { output := o, background := background, layers := layers, token := token, load := load }
    acceptFrame o background layers load n s =
      ((layers.foldl (fun w l => addScan l.surface w) s).setPres o
        { s.pres o with token := token, queue := (s.pres o).queue ++ [record], loadN := n }, record) := by
  intro token record
  have hfold : record.surfaces.foldl (fun acc id => addScan id acc) s =
      layers.foldl (fun w l => addScan l.surface w) s := List.foldl_map
  have hpres := (foldl_addScan_frame record.surfaces s).pres o
  unfold acceptFrame
  dsimp only
  rw [hpres, hfold]

/-- R85, R88: the loads with which a frame is weighed. -/
theorem not_admits (s : State) (o : OutputId) (n : Nat) :
    (!s.admits o n) = decide (s.share * (s.ou o).loadD * (s.ou (otherOutput o)).loadD <
      12 * (n * (s.ou (otherOutput o)).loadD + (s.pres (otherOutput o)).loadN * (s.ou o).loadD)) := by
  unfold State.admits budgetHolds
  rw [← decide_not, decide_eq_decide]
  exact Nat.not_le

theorem not_lineStoreFits (factor loads cursorTerm : Nat) :
    (!lineStoreFits factor loads cursorTerm) = decide (6144 < factor * (loads + cursorTerm)) := by
  unfold lineStoreFits
  rw [← decide_not, decide_eq_decide]
  exact Nat.not_le

theorem dropQueue_pres (o : OutputId) (s : State) : (dropQueue o s).pres o = { s.pres o with queue := [] } := by
  unfold dropQueue
  dsimp only
  rw [(releaseScans_frame _ _).pres, State.pres_setPres_self]

theorem dropQueue_ingress (o : OutputId) (s : State) : (dropQueue o s).ingress = s.ingress := by
  simp [dropQueue]

/-- R67: an accepted frame answers its token, the depth of the queue and the records dropped. -/
theorem dealtWith_accepted {s w : State} (seq code : Byte) (o : OutputId) (background : Colour) (layers : List Layer)
    (load n dropped : Nat) (hs : s.headFrame.isSome = true) (hw : w.ingress = s.ingress) :
    let token := nextToken (w.pres o).token
    let record : FrameRecord := { output := o, background := background, layers := layers, token := token, load := load }
    dealtWith seq code (presentOk o dropped (acceptFrame o background layers load n w)) =
      answered seq ([code, 0x00] ++ le16 token ++ [byteOf ((w.pres o).queue.length + 1), byteOf dropped])
        ((layers.foldl (fun w l => addScan l.surface w) w).setPres o
          { w.pres o with token := token, queue := (w.pres o).queue ++ [record], loadN := n }) := by
  intro token record
  have hfold : (layers.foldl (fun w l => addScan l.surface w) w).ingress = w.ingress := by
    have h := (foldl_addScan_frame (layers.map (·.surface)) w).ingress
    rwa [List.foldl_map] at h
  rw [acceptFrame_eq]
  unfold presentOk
  dsimp only
  rw [State.pres_setPres_self, List.length_append, List.length_singleton]
  refine dealtWith_reply (t := State.setPres _ _ _) seq code .ok _ ?_
  rw [State.headFrame_setPres, headFrame_of_ingress (hfold.trans hw)]
  exact hs

/-- R66 to R68, R89: the checks on room and load, and what an accepted PRESENT does. -/
theorem dealtWith_presentAdmit {s : State} (seq code : Byte) (o : OutputId) (replace : Bool) (background : Colour)
    (layers : List Layer) (hs : s.headFrame.isSome = true) :
    let u := s.ou o
    let p := s.pres o
    let other := otherOutput o
    let f := u.timing.fetchFactor
    let load := frameLineBytes s u.timing layers
    let kept := if replace then [] else p.queue
    let loads := (p.current.toList ++ kept).map (·.load) ++ [load]
    let loadN := f * (loads.foldl max 0 + p.cursorTerm)
    let token := nextToken p.token
    let record : FrameRecord := { output := o, background := background, layers := layers, token := token, load := load }
    let emptied := if replace then
        releaseScans (p.queue.map fun r => r.layers.map (·.surface)).flatten (s.setPres o { p with queue := [] })
      else s
    dealtWith seq code (presentAdmit o replace background layers s) = answerByIndex seq code
      [(!replace && decide (3 ≤ p.queue.length), .queueFull, 0xFF),
       (decide (6144 < f * (load + p.cursorTerm)), .overBudget, 0xFF),
       (decide (s.share * u.loadD * (s.ou other).loadD <
          12 * (loadN * (s.ou other).loadD + (s.pres other).loadN * u.loadD)), .overBudget, 0xFF)] s
      (answered seq ([code, 0x00] ++ le16 token ++
          [byteOf (kept.length + 1), if replace then byteOf p.queue.length else 0])
        ((layers.foldl (fun w l => addScan l.surface w) emptied).setPres o
          { p with queue := kept ++ [record], token := token, loadN := loadN })) := by
  intro u p other f load kept loads loadN token record emptied
  have hloads : (if replace then p.current.toList.map (·.load) else p.loads) ++ [load] = loads := by
    cases replace <;> simp [loads, kept, Presentation.loads]
  have hrow {c : Bool} {st : Status} {rest : State × Answer} {checks : List (Bool × Status × Byte)} {done : State}
      (hrest : dealtWith seq code rest = answerByIndex seq code checks s done) :
      dealtWith seq code (if c then refuseLayer st 0xFF s else rest) =
        answerByIndex seq code ((c, st, 0xFF) :: checks) s done := by
    have h := dealtWith_checkIndex (c := c = true) (st := st) (index := 0xFF) hs fun _ => hrest
    rwa [Bool.decide_eq_true] at h
  unfold presentAdmit
  dsimp only
  rw [hloads, ← not_lineStoreFits, ← not_admits]
  refine hrow (hrow (hrow ?_))
  cases replace with
  | true =>
    have h := dealtWith_accepted (w := dropQueue o s) seq code o background layers load loadN p.queue.length hs
      (dropQueue_ingress o s)
    rw [dropQueue_pres] at h
    exact h
  | false => exact dealtWith_accepted (w := s) seq code o background layers load loadN 0 hs rfl

/-- R64, R65: the checks on the output and on the surfaces. -/
theorem dealtWith_presentSurfaces {s : State} {seq code : Byte} {o : OutputId} {a : PresentArgs}
    {checks : List (Bool × Status × Byte)} {done : State} (hs : s.headFrame.isSome = true)
    (hadmit : dealtWith seq code
        (presentAdmit o (decide (a.mode = 1)) a.background (a.layers.map LayerArgs.toLayer) s) =
      answerByIndex seq code checks s done) :
    let empty (l : LayerArgs) : Bool := decide ((s.surface l.surface).state = .empty)
    let notReady (l : LayerArgs) : Bool := decide ((s.surface l.surface).state ≠ .ready)
    let misfits (l : LayerArgs) : Bool := l.misfits (s.surface l.surface)
    let index (bad : LayerArgs → Bool) : Byte := byteOf ((a.layers.findIdx? bad).getD 0xFF)
    dealtWith seq code (presentSurfaces o a s) = answerByIndex seq code
      ([(decide ((s.ou o).state ≠ .powerUp ∧ (s.ou o).state ≠ .running), .wrongState, 0xFF),
        (a.layers.any empty, .noSuchSurface, index empty), (a.layers.any notReady, .wrongState, index notReady),
        (a.layers.any misfits, .badArgument, index misfits)] ++ checks) s done := by
  intro empty notReady misfits index
  refine dealtWith_checkIndex hs fun _ => ?_
  refine dealtWith_firstBad hs (fun i hi => ?_) fun hempty => ?_
  · simp only [empty] at hi
    rw [hi]
  refine dealtWith_firstBad hs (fun i hi => ?_) fun hready => ?_
  · simp only [empty, notReady] at hempty hi
    rw [hempty, hi]
  refine dealtWith_firstBad hs (fun i hi => ?_) fun hfits => ?_
  · simp only [empty, notReady, misfits] at hempty hready hi
    rw [hempty]
    dsimp only
    rw [hready]
    dsimp only
    rw [hi]
  · simp only [empty, notReady, misfits] at hempty hready hfits
    rw [hempty]
    dsimp only
    rw [hready]
    dsimp only
    rw [hfits]
    exact hadmit

/-- R62 to R68, R89: the checks of a PRESENT, and what it does. -/
theorem dealtWith_present {s : State} {seq code : Byte} {args : List Byte} {checks : List (Bool × Status × Byte)}
    {done : State} (hs : s.headFrame.isSome = true) :
    let walked := if args.length < 6 then none else walkLayers (arg8 args 5) (args.drop 6)
    let entries := walked.getD []
    let n := arg8 args 0
    let o : OutputId := if n = 0 then .out0 else .out1
    let a : PresentArgs := ⟨n, arg8 args 1, argColour args 2, arg8 args 5, entries⟩
    let index (bad : LayerArgs → Bool) : Byte := byteOf ((entries.findIdx? bad).getD 0xFF)
    (dealtWith seq code (presentSurfaces o a s) = answerByIndex seq code checks s done) →
    dealtWith seq code (presentBody seq code args s) = answerByIndex seq code
      ([(walked.isNone, .badLength, 0xFF), (decide (1 < n ∨ 1 < arg8 args 1 ∨ 4 < arg8 args 5), .badArgument, 0xFF),
        (entries.any LayerArgs.outOfRange, .badArgument, index LayerArgs.outOfRange)] ++ checks) s done := by
  intro walked entries n o a index hsurfaces
  have hargs : presentArgs args = walked.map fun layers => ⟨n, arg8 args 1, argColour args 2, arg8 args 5, layers⟩ := by
    simp only [presentArgs, walked]
    split <;> rfl
  unfold presentBody
  cases hwalked : walked with
  | none =>
    rw [hargs, hwalked, Option.isNone_none]
    exact dealtWith_answerIndex seq code .badLength 0xFF hs
  | some layers =>
    have hentries : entries = layers := by simp only [entries, hwalked, Option.getD_some]
    have hbody : presentArgs args = some a := by
      rw [hargs, hwalked, ← hentries]
      rfl
    rw [hbody, Option.isNone_some]
    dsimp only
    change _ = answerByIndex seq code ((decide (1 < n ∨ 1 < arg8 args 1 ∨ 4 < arg8 args 5), .badArgument, 0xFF) :: _) s done
    by_cases hn : 1 < n
    · rw [(not_outputOf n).2 hn, decide_eq_true (.inl hn)]
      exact dealtWith_answerIndex seq code .badArgument 0xFF hs
    · have ho : outputOf n = some o := (outputOf_eq n).trans (if_neg hn)
      have hrow : (1 < n ∨ 1 < arg8 args 1 ∨ 4 < arg8 args 5) ↔ (1 < a.mode ∨ 4 < a.count) := or_iff_right hn
      rw [ho, decide_eq_decide.2 hrow]
      refine dealtWith_checkIndex hs fun _ => ?_
      refine dealtWith_firstBad hs (fun i hi => ?_) fun hrange => ?_
      · rw [hi]
      · rw [hrange]
        exact hsurfaces

/-- Settles O47. -/
theorem present : Obligations.Present := by
  unfold Obligations.Present
  refine ⟨walkLayers_iff, fun e => rfl, fun args i => ⟨rfl, rfl, argSigned_eq_toInt args i, rfl⟩, fun p => ?_,
    fun u => rfl, fun s seq args h => ?_⟩
  · unfold Presentation.cursorTerm
    cases p.binding <;> cases p.pendingBinding <;> rfl
  · intro walked entries n o replace u p other f outOfRange empty notReady misfits index layers load kept loads loadN
      token record emptied
    have hout : outOfRange = LayerArgs.outOfRange := funext fun l => l.outOfRange_eq.symm
    have hmisfits : misfits = fun l => l.misfits (s.surface l.surface) := funext fun l => (l.misfits_eq _).symm
    rw [hout, hmisfits]
    exact exec_of_dealtWith (body := presentBody) (after := id) rfl h rfl
      (dealtWith_present h.headFrame_isSome (dealtWith_presentSurfaces h.headFrame_isSome
        (dealtWith_presentAdmit seq 0x40 o replace (argColour args 2) layers h.headFrame_isSome)))

end Sys2Proof.Machine
end

