-- ==== Sys2Proof/Proofs/CursorRequest.lean ====
section
/-! PROOF. SET_CURSOR (R74, R75, R90). -/

namespace Sys2Proof.Machine

/-- R75: the presentation state with another pending binding and its load. -/
def Presentation.rebound (factor : Nat) (b : PendingBinding) (p : Presentation) : Presentation :=
  { p with pendingBinding := b
           loadN := factor * (p.loads.foldl max 0 + if p.binding.isSome ∨ b.names = true then 16 else 0) }

/-- R75: the pending binding replaced, its reference moved and the load recomputed. -/
theorem recomputeLoad_replacePending (o : OutputId) (b : PendingBinding) (s : State) :
    recomputeLoad o (replacePending o b s) =
      (b.surfaces.foldl (fun acc id => addScan id acc)
        (releaseScans (s.pres o).pendingBinding.surfaces
          (s.setPres o { s.pres o with pendingBinding := b }))).setPres o
        ((s.pres o).rebound (s.ou o).timing.fetchFactor b) := by
  have hrelease := releaseScans_frame (s.pres o).pendingBinding.surfaces
    (s.setPres o { s.pres o with pendingBinding := b })
  have hframe := hrelease.trans (foldl_addScan_frame b.surfaces _)
  have hpres : (replacePending o b s).pres o = { s.pres o with pendingBinding := b } := by
    rw [← State.pres_setPres_self s o { s.pres o with pendingBinding := b }]
    exact hframe.pres o
  have hou : (replacePending o b s).ou o = s.ou o := (hframe.ou o).trans (State.ou_setPres s o o _)
  rw [recomputeLoad_eq, hpres, hou]
  unfold Presentation.reloaded Presentation.rebound reservedN
  rw [cursorTerm_eq]
  rfl

theorem replacePending_ingress (o : OutputId) (b : PendingBinding) (s : State) :
    (recomputeLoad o (replacePending o b s)).ingress = s.ingress := by
  rw [recomputeLoad_replacePending, setPres_ingress, (foldl_addScan_frame _ _).ingress, releaseScans_ingress,
    setPres_ingress]

/-- R90: the load with which a cursor is weighed. -/
theorem not_admitsCursor (s : State) (o : OutputId) :
    let p := s.pres o
    let f := (s.ou o).timing.fetchFactor
    let bound := f * (p.loads.foldl max 0 + 16)
    (!s.admitsCursor o) = decide ((∃ load ∈ p.loads, 6144 < f * (load + 16)) ∨
      s.share * (s.ou o).loadD * (s.ou (otherOutput o)).loadD <
        12 * (bound * (s.ou (otherOutput o)).loadD + (s.pres (otherOutput o)).loadN * (s.ou o).loadD)) := by
  intro p f bound
  have hall : (!p.loads.all fun load => lineStoreFits f load 16) = decide (∃ load ∈ p.loads, 6144 < f * (load + 16)) := by
    rw [List.not_all_eq_any_not]
    simp only [not_lineStoreFits]
    rw [Bool.eq_iff_iff, List.any_eq_true, decide_eq_true_eq]
    simp only [decide_eq_true_eq]
  unfold State.admitsCursor
  rw [Bool.decide_or, Bool.not_and, not_admits, ← hall]
  rfl

/-- R74, R75, R90: the checks of a SET_CURSOR, and what it does. -/
theorem dealtWith_setCursor {s : State} (seq code : Byte) (args : List Byte) (hs : s.headFrame.isSome = true) :
    let n := arg8 args 0
    let o : OutputId := if n = 0 then .out0 else .out1
    let id := arg8 args 1
    let u := s.ou o
    let r := s.surface id
    let pending : PendingBinding := if id = 0xFF then .unbind else .bind ⟨id, argColour args 2, argColour args 5⟩
    dealtWith seq code (setCursorBody seq code args s) = answerBy seq code
      [(decide (args.length ≠ 8), .badLength), (decide (1 < n ∨ (64 ≤ id ∧ ¬ id = 0xFF)), .badArgument),
       (decide (u.state ≠ .powerUp ∧ u.state ≠ .running), .wrongState),
       (decide (¬ id = 0xFF ∧ r.state = .empty), .noSuchSurface),
       (decide (¬ id = 0xFF ∧ r.state ≠ .ready), .wrongState),
       (decide (¬ id = 0xFF ∧ ¬ (r.format = .ov2 ∧ r.width = 64 ∧ r.height = 64)), .badArgument),
       (decide (¬ id = 0xFF) && !s.admitsCursor o, .overBudget)] s
      (answered seq [code, 0x00] (recomputeLoad o (replacePending o pending s))) := by
  intro n o id u r pending
  have hdone (b : PendingBinding) : dealtWith seq code (recomputeLoad o (replacePending o b s), .reply .ok []) =
      answered seq [code, 0x00] (recomputeLoad o (replacePending o b s)) :=
    dealtWith_reply (t := recomputeLoad o (replacePending o b s)) seq code .ok []
      ((headFrame_of_ingress (replacePending_ingress o b s)).symm ▸ hs)
  refine dealtWith_check hs fun _ => ?_
  by_cases hn : 1 < n
  · rw [(not_outputOf n).2 hn, decide_eq_true (.inl hn)]
    exact dealtWith_reply seq code .badArgument [] hs
  · have ho : outputOf n = some o := (outputOf_eq n).trans (if_neg hn)
    have hrow : (1 < n ∨ (64 ≤ id ∧ ¬ id = 0xFF)) ↔ (Config.surfaceCount ≤ id ∧ id ≠ 0xFF) := or_iff_right hn
    rw [ho, decide_eq_decide.2 hrow, ← OutputUnit.not_accepts]
    refine dealtWith_check hs fun _ => dealtWith_flag hs ?_
    by_cases hid : id = 0xFF
    · have hpending : pending = .unbind := if_pos hid
      have hpass (q : Prop) [Decidable q] : decide (¬ id = 0xFF ∧ q) = false := decide_eq_false fun h => h.1 hid
      have hload : (decide (¬ id = 0xFF) && !s.admitsCursor o) = false := by rw [decide_eq_false (not_not.2 hid)]; rfl
      rw [if_pos hid, hpass, hpass, hpass, hload, hpending]
      exact hdone .unbind
    · have hpending : pending = .bind ⟨id, argColour args 2, argColour args 5⟩ := if_neg hid
      have hcheck (q : Prop) [Decidable q] : decide (¬ id = 0xFF ∧ q) = decide q := decide_eq_decide.2 (and_iff_right hid)
      have hload : (decide (¬ id = 0xFF) && !s.admitsCursor o) = !s.admitsCursor o := by rw [decide_eq_true hid]; rfl
      have hshape : ¬ (r.format = .ov2 ∧ r.width = 64 ∧ r.height = 64) ↔
          (r.format ≠ .ov2 ∨ r.width ≠ 64 ∨ r.height ≠ 64) := by
        rw [not_and_or, not_and_or]
      rw [if_neg hid, hcheck, hcheck, hcheck, hload, hpending, decide_eq_decide.2 hshape]
      exact dealtWith_check hs fun _ => dealtWith_check hs fun _ => dealtWith_check hs fun _ => dealtWith_flag hs (hdone _)

/-- Settles O48. -/
theorem setCursor : Obligations.SetCursor := by
  unfold Obligations.SetCursor
  intro s seq args h n o id u p r other f unbind loads bound pending dropped
  have hload : decide (¬ unbind ∧ ((∃ load ∈ loads, 6144 < f * (load + 16)) ∨
      s.share * u.loadD * (s.ou other).loadD <
        12 * (bound * (s.ou other).loadD + (s.pres other).loadN * u.loadD))) =
      (decide (¬ id = 0xFF) && !s.admitsCursor o) := by
    rw [not_admitsCursor, ← Bool.decide_and]
    rfl
  have hdone : recomputeLoad o (replacePending o pending s) =
      (if unbind then dropped else addScan id dropped).setPres o { p with
        pendingBinding := pending
        loadN := f * (loads.foldl max 0 + if p.binding.isSome ∨ ¬ unbind then 16 else 0) } := by
    have hnames : pending.names = true ↔ ¬ unbind := by
      by_cases hid : unbind
      · rw [show pending = .unbind from if_pos hid]
        exact ⟨fun h => Bool.noConfusion h, fun h => absurd hid h⟩
      · rw [show pending = .bind _ from if_neg hid]
        exact ⟨fun _ => hid, fun _ => rfl⟩
    have hadded : pending.surfaces.foldl (fun acc i => addScan i acc) dropped =
        if unbind then dropped else addScan id dropped := by
      by_cases hid : unbind
      · rw [if_pos hid, show pending = .unbind from if_pos hid]
        rfl
      · rw [if_neg hid, show pending = .bind _ from if_neg hid]
        rfl
    have hterm : (if p.binding.isSome ∨ pending.names = true then 16 else 0) =
        if p.binding.isSome ∨ ¬ unbind then 16 else 0 := if_congr (or_congr Iff.rfl hnames) rfl rfl
    rw [recomputeLoad_replacePending, ← hadded, ← hterm]
    rfl
  rw [hload, ← hdone]
  exact exec_of_dealtWith (body := setCursorBody) (after := fun t => t) rfl h rfl
    (dealtWith_setCursor seq 0x41 args h.headFrame_isSome)

end Sys2Proof.Machine
end

