-- ==== Sys2Proof/Proofs/EngineMoves.lean ====
section
/-! PROOF. The moves of the Pixel Engine and the completion of its bursts (R26, R29, R30, R36, R39, R41, R43, R52, R146). -/

namespace Sys2Proof.Machine

/-! ### Transferred pixels (R26, R52) -/

theorem arg16_lt (bytes : List Byte) (i : Nat) : arg16 bytes i < 65536 := by
  have hlow := (bytes.getD i 0).isLt
  have hhigh := (bytes.getD (i + 1) 0).isLt
  unfold arg16 arg8
  omega

theorem unpackPixel_lt (f : Format) (bytes : List Byte) (bit : Nat) : unpackPixel f bytes bit < 2 ^ f.bpp := by
  cases f
  case rgb16 => exact arg16_lt _ _
  all_goals exact Nat.mod_lt _ (by decide)

/-- R26: the bits of a two-byte field. -/
theorem arg16_testBit (bytes : List Byte) (k : Nat) {i : Nat} (hi : i < 16) :
    (arg16 bytes k).testBit i = (bytes.getD (k + i / 8) 0).getLsbD (i % 8) := by
  have hlow := (bytes.getD k 0).isLt
  have hsum : arg16 bytes k = 2 ^ 8 * (bytes.getD (k + 1) 0).toNat + (bytes.getD k 0).toNat := by
    unfold arg16 arg8
    omega
  rw [hsum, Nat.testBit_two_pow_mul_add _ hlow]
  by_cases h : i < 8
  · have hdiv : i / 8 = 0 := by omega
    have hmod : i % 8 = i := by omega
    rw [if_pos h, hdiv, hmod]
    rfl
  · have hdiv : i / 8 = 1 := by omega
    have hmod : i % 8 = i - 8 := by omega
    rw [if_neg h, hdiv, hmod]
    rfl

/-- R26, R52: a pixel's raw value has the bits from its first on. -/
theorem unpackPixel_testBit {f : Format} (bytes : List Byte) {bit i : Nat} (haligned : bit % 8 % f.bpp = 0)
    (hi : i < f.bpp) : (unpackPixel f bytes bit).testBit i = (bytes.getD ((bit + i) / 8) 0).getLsbD ((bit + i) % 8) := by
  have hsmall (b : Nat) (hb : bit % 8 + b ≤ 8) (hib : i < b) :
      (arg8 bytes (bit / 8) / 2 ^ (bit % 8) % 2 ^ b).testBit i =
        (bytes.getD ((bit + i) / 8) 0).getLsbD ((bit + i) % 8) := by
    have hdiv : (bit + i) / 8 = bit / 8 := by omega
    have hmod : (bit + i) % 8 = bit % 8 + i := by omega
    rw [Nat.testBit_mod_two_pow, decide_eq_true hib, Bool.true_and, Nat.testBit_div_two_pow, hdiv, hmod,
      Nat.add_comm i]
    rfl
  cases f
  case rgb16 =>
    have hbyte : bit % 8 = 0 := by
      change bit % 8 % 16 = 0 at haligned
      omega
    have hdiv : (bit + i) / 8 = bit / 8 + i / 8 := by omega
    have hmod : (bit + i) % 8 = i % 8 := by omega
    rw [hdiv, hmod]
    exact arg16_testBit bytes (bit / 8) hi
  case ov2 =>
    change bit % 8 % 2 = 0 at haligned
    exact hsmall 2 (by omega) hi
  case ix4 =>
    change bit % 8 % 4 = 0 at haligned
    exact hsmall 4 (by omega) hi
  case ix8 =>
    change bit % 8 % 8 = 0 at haligned
    exact hsmall 8 (by omega) hi

/-! ### The next move (R36, R39, R41, R43, R52) -/

section
variable {s : State} {j : Job} {rest : List Job}

/-- R36: no further pixel of the job lies in the burst held: none can be set, or the next one lies elsewhere. -/
def State.leavesBurst (s : State) (j : Job) (h : HeldBurst) : Prop :=
  s.readyPixels j.kind ≤ j.progress + s.pe.heldPixels ∨
    (j.kind.destinationPixel (j.progress + s.pe.heldPixels)).elim True fun p => s.pixelBlock p ≠ h.addr

/-- R36, log 8: a pixel whose source burst is to be read first, or whose turn it is. -/
def State.sourcedMove (s : State) (j : Job) (rest : List Job) (n : Nat) : EngineMove :=
  match j.kind.sourcePixel n with
  | some p => if s.pe.source = some (s.pixelBlock p) then s.pixelMove j rest n else .ask (.readSource (s.pixelBlock p))
  | none => s.pixelMove j rest n

theorem engineMove_leaves {h : HeldBurst} (hh : s.pe.heldBurst = some h) (hleaves : s.leavesBurst j h) :
    s.engineMove j rest = s.writeBackMove j rest h := by
  unfold State.engineMove
  rw [hh]
  refine if_pos ?_
  unfold State.leavesBurst at hleaves
  cases hp : j.kind.destinationPixel (j.progress + s.pe.heldPixels) with
  | none => simp
  | some p => simpa [hp] using hleaves

theorem engineMove_stays {h : HeldBurst} (hh : s.pe.heldBurst = some h) (hstays : ¬ s.leavesBurst j h) :
    s.engineMove j rest = s.sourcedMove j rest (j.progress + s.pe.heldPixels) := by
  unfold State.engineMove
  rw [hh]
  refine (if_neg ?_).trans rfl
  unfold State.leavesBurst at hstays
  cases hp : j.kind.destinationPixel (j.progress + s.pe.heldPixels) with
  | none => simp [hp] at hstays
  | some p => simpa [hp] using hstays

theorem engineMove_exhausted (hh : s.pe.heldBurst = none) (hready : s.readyPixels j.kind ≤ j.progress + s.pe.heldPixels) :
    s.engineMove j rest = s.exhaustedMove j.kind := by
  unfold State.engineMove
  rw [hh]
  exact if_pos (decide_eq_true hready)

theorem engineMove_more (hh : s.pe.heldBurst = none) (hready : j.progress + s.pe.heldPixels < s.readyPixels j.kind) :
    s.engineMove j rest = s.sourcedMove j rest (j.progress + s.pe.heldPixels) := by
  unfold State.engineMove
  rw [hh]
  exact (if_neg (by simpa using hready)).trans rfl

theorem sourcedMove_ready {n : Nat} (h : ∀ p, j.kind.sourcePixel n = some p → s.pe.source = some (s.pixelBlock p)) :
    s.sourcedMove j rest n = s.pixelMove j rest n := by
  unfold State.sourcedMove
  cases hp : j.kind.sourcePixel n with
  | none => rfl
  | some p => exact if_pos (h p hp)

theorem sourcedMove_read {n : Nat} {p : Nat × Nat × Nat} (hp : j.kind.sourcePixel n = some p)
    (h : s.pe.source ≠ some (s.pixelBlock p)) : s.sourcedMove j rest n = .ask (.readSource (s.pixelBlock p)) := by
  unfold State.sourcedMove
  rw [hp]
  exact if_neg h

theorem keyedOut_iff (k : JobKind) (n : Nat) :
    s.keyedOut k n = true ↔ ∃ dst src r dx dy key, k = .copy dst src r dx dy (some key) ∧ s.jobValue k n = key := by
  unfold State.keyedOut
  split
  · next dst src r dx dy key =>
    rw [decide_eq_true_eq]
    constructor
    · intro h
      exact ⟨dst, src, r, dx, dy, key, rfl, h⟩
    · rintro ⟨_, _, _, _, _, _, h, hv⟩
      cases h
      exact hv
  all_goals
    simp

/-- R36, R41: a pixel written: into the burst held, or after its destination's burst is read, or left out. -/
theorem pixelMove_written {n : Nat} {q : Nat × Nat × Nat} (hq : j.kind.destinationPixel n = some q) :
    s.pixelMove j rest n = match s.pe.heldBurst with
      | some h => .go { s.pe with heldBurst := some { h with
          changes := if s.keyedOut j.kind n then h.changes
            else (s.logicalChanges q (s.jobValue j.kind n)).foldl (fun acc c => addChange c acc) h.changes
          pixels := h.pixels + 1 } }
      | none => if s.keyedOut j.kind n then .go { s.pe with jobs := { j with progress := j.progress + 1 } :: rest }
          else .ask (.readDestination (s.pixelBlock q)) := by
  unfold State.pixelMove
  rw [hq]
  cases hk : j.kind with
  | read target r link => rw [hk] at hq; cases hq
  | fence link => rw [hk] at hq; cases hq
  | fill dst r value => cases s.pe.heldBurst <;> rfl
  | copy dst src r dx dy key => cases s.pe.heldBurst <;> rfl
  | stream dst r => cases s.pe.heldBurst <;> rfl

end

/-- R52: pixel `n` of the stream is read from the staged bytes, which are those after the ones already written. -/
theorem streamPixel_testBit {s : State} {x : Session} {n : Nat} {stream : List Byte}
    (hstream : stream.drop x.written = s.pe.staging) (hn : 8 * x.written ≤ n * (s.surface x.dst).format.bpp) {i : Nat}
    (hi : i < (s.surface x.dst).format.bpp) :
    (s.streamPixel x n).testBit i = (stream.getD ((n * (s.surface x.dst).format.bpp + i) / 8) 0).getLsbD
      ((n * (s.surface x.dst).format.bpp + i) % 8) := by
  unfold State.streamPixel
  dsimp only
  generalize (s.surface x.dst).format = f at *
  have haligned : (n * f.bpp - 8 * x.written) % 8 % f.bpp = 0 := by
    cases f <;> simp only [Format.bpp] at * <;> omega
  have hshift : (n * f.bpp + i) / 8 = x.written + (n * f.bpp - 8 * x.written + i) / 8 := by omega
  have hbit : (n * f.bpp + i) % 8 = (n * f.bpp - 8 * x.written + i) % 8 := by omega
  rw [unpackPixel_testBit _ haligned hi, hshift, hbit, ← hstream, List.getD_eq_getElem?_getD, List.getElem?_drop,
    ← List.getD_eq_getElem?_getD]

/-- Settles O30: the places and values read off the job's kind, the next move by whether a burst is held, whether the
next pixel lies in it, and whether it is keyed out. -/
theorem engineMovesInJobOrder : Obligations.EngineMovesInJobOrder := by
  unfold Obligations.EngineMovesInJobOrder
  refine ⟨fun s n => ?_, fun s j rest => ?_⟩
  · intro place
    refine ⟨fun _ _ _ => ⟨rfl, rfl, rfl, rfl⟩, fun _ _ _ _ _ _ => ⟨rfl, rfl, rfl, rfl⟩, fun _ _ _ => ⟨rfl, rfl, rfl⟩,
      fun _ => rfl, fun dst r => ⟨rfl, rfl, rfl, fun hx => ?_, fun x hx => ⟨?_, fun stream hstream hn => ?_⟩⟩,
      fun _ _ _ _ => ⟨rfl, rfl, rfl⟩⟩
    · simp only [State.readyPixels, hx]
    · simp only [State.readyPixels, hx]
      rfl
    · have hvalue : s.jobValue (.stream dst r) n = s.streamPixel x n := by
        simp only [State.jobValue, hx, Option.elim_some]
      rw [hvalue]
      exact ⟨unpackPixel_lt _ _ _, fun i hi => streamPixel_testBit hstream hn hi⟩
  · intro n more sourceReady
    have hunkeyed (h : ∀ dst src r dx dy key, j.kind = .copy dst src r dx dy (some key) → s.jobValue j.kind n ≠ key) :
        s.keyedOut j.kind n = false :=
      Bool.eq_false_iff.2 fun hk => by
        obtain ⟨dst, src, r, dx, dy, key, hkind, hv⟩ := keyedOut_iff j.kind n |>.1 hk
        exact h dst src r dx dy key hkind hv
    have hstays {h : HeldBurst} {q : Nat × Nat × Nat} (hmore : more) (hq : j.kind.destinationPixel n = some q)
        (hin : s.pixelBlock q = h.addr) : ¬ s.leavesBurst j h := by
      rintro (hready | hother)
      · exact absurd hmore (Nat.not_lt.2 hready)
      · rw [hq] at hother
        exact hother hin
    have hleaves {h : HeldBurst} (hl : ¬ more ∨ ∃ q, j.kind.destinationPixel n = some q ∧ s.pixelBlock q ≠ h.addr) :
        s.leavesBurst j h := by
      rcases hl with hready | ⟨q, hq, hother⟩
      · exact .inl (Nat.not_lt.1 hready)
      · refine .inr ?_
        rw [hq]
        exact hother
    refine ⟨fun p hmore hp hread hin hdest => ?_, fun q hmore hsrc hh hq hk => ?_, fun h q hmore hsrc hh hq hin hk => ?_,
      fun h hh hchanges hl => ?_, fun h hh hchanges hl => ?_, fun target r link hmore hsrc hh hkind => ?_,
      fun dst src r dx dy key hmore hsrc hkind hv => ?_, fun hready hh => ?_⟩
    · rw [← sourcedMove_read (rest := rest) hp hread]
      cases hh : s.pe.heldBurst with
      | none => exact engineMove_more hh hmore
      | some h =>
        obtain ⟨q, hq⟩ := Option.isSome_iff_exists.1 (hdest (by rw [hh]; rfl))
        exact engineMove_stays hh (hstays hmore hq (hin h hh q hq))
    · rw [engineMove_more hh hmore, sourcedMove_ready hsrc, pixelMove_written hq, hh]
      exact if_neg (by rw [hunkeyed hk]; decide)
    · rw [engineMove_stays hh (hstays hmore hq hin), sourcedMove_ready hsrc, pixelMove_written hq, hh]
      dsimp only
      rw [if_neg (by rw [hunkeyed hk]; decide)]
    · rw [engineMove_leaves hh (hleaves hl)]
      exact if_neg hchanges
    · rw [engineMove_leaves hh (hleaves hl)]
      exact if_pos hchanges
    · rw [engineMove_more hh hmore, sourcedMove_ready hsrc]
      unfold State.pixelMove
      rw [hkind]
      rfl
    · have hkeyed : s.keyedOut j.kind n = true := (keyedOut_iff j.kind n).2 ⟨dst, src, r, dx, dy, key, hkind, hv⟩
      refine ⟨fun hh => ?_, fun h q hh hq hin => ?_⟩
      · have hq : j.kind.destinationPixel n = some (dst, dx + n % r.w, dy + n / r.w) := by rw [hkind]; rfl
        rw [engineMove_more hh hmore, sourcedMove_ready hsrc, pixelMove_written hq, hh]
        exact if_pos hkeyed
      · rw [engineMove_stays hh (hstays hmore hq hin), sourcedMove_ready hsrc, pixelMove_written hq, hh]
        dsimp only
        rw [if_pos hkeyed]
    · rw [engineMove_exhausted hh (Nat.not_lt.1 hready)]
      unfold State.exhaustedMove Job.isStream
      cases j.kind with
      | stream dst r => cases s.pe.session <;> rfl
      | fill _ _ _ => rfl
      | copy _ _ _ _ _ _ => rfl
      | read _ _ _ => rfl
      | fence _ => rfl

/-! ### A burst completes (R36, R146) -/

/-- R36: the held burst of a job with a destination lands. -/
theorem landWrite_eq {s : State} {j : Job} {rest : List Job} {h : HeldBurst} {dst : Nat} (hjobs : s.pe.jobs = j :: rest)
    (hheld : s.pe.heldBurst = some h) (hdst : j.kind.destination = some dst) :
    landWrite s = releaseStaged j.kind (j.progress + h.pixels) { s with
      mem := applyChanges s.mem (s.surface dst).era h.changes
      pe := { s.pe with heldBurst := none, jobs := { j with progress := j.progress + h.pixels } :: rest } } := by
  unfold landWrite
  rw [hjobs, hheld]
  dsimp only
  rw [hdst]
  rfl

theorem releaseStaged_of_not_stream {j : Job} (h : j.isStream = false) (n : Nat) (s : State) :
    releaseStaged j.kind n s = s := by
  unfold releaseStaged
  cases hk : j.kind with
  | stream dst r => simp [Job.isStream, hk] at h
  | _ => rfl

theorem releaseStaged_of_stream {j : Job} (h : j.isStream = true) (n : Nat) {s : State} {x : Session}
    (hx : s.pe.session = some x) :
    releaseStaged j.kind n s = s.setPe { s.pe with
      staging := s.pe.staging.drop (s.writtenAfter j.kind x n - x.written)
      session := some { x with written := s.writtenAfter j.kind x n } } := by
  unfold releaseStaged
  cases hk : j.kind with
  | stream dst r => rw [hx]
  | _ => simp [Job.isStream, hk] at h

/-- Settles O29, by the kind of the burst and, for a write, by whether its job is the STREAM. -/
theorem engineBurstCompletes : Obligations.EngineBurstCompletes := by
  unfold Obligations.EngineBurstCompletes
  refine fun s => ⟨fun hnone => ?_, fun b live hport haddr => ?_⟩
  · simp only [exec, execPeBurstComplete]
    cases hg : s.port.inFlight with
    | none => rfl
    | some g =>
      cases g with
      | fetch o burst live => rfl
      | engine burst live => exact absurd hg (hnone burst live)
  · intro idle
    have hexec : exec .peBurstComplete s = .next (settle (if live then finishEngineBurst b idle else idle)) := by
      simp only [exec, execPeBurstComplete, hport]
      exact if_neg (Nat.not_le.2 haddr)
    rw [hexec]
    refine ⟨fun hlive => ?_, fun hlive => ⟨fun a hb => ?_, fun a hb => ?_, fun a j rest h dst hb hjobs hheld hdst => ?_⟩⟩
    · rw [hlive]
      rfl
    · rw [hlive, hb]
      rfl
    · rw [hlive, hb]
      rfl
    · intro done landed
      have hland : finishEngineBurst b idle = releaseStaged j.kind done landed := by
        rw [hb]
        exact landWrite_eq (s := idle) hjobs hheld hdst
      rw [hlive, if_pos rfl, hland]
      refine ⟨fun hstream => ?_, fun x hstream hx => ?_⟩
      · rw [releaseStaged_of_not_stream hstream]
      · rw [releaseStaged_of_stream (s := landed) hstream done hx]
        rfl

end Sys2Proof.Machine
end

