-- ==== Sys2Proof/Proofs/Settling.lean ====
section
/-! PROOF. The Pixel Engine going on by its moves, and the Memory Port's arbiter (R16, R36, R43 to R45, R145, R176). -/

namespace Sys2Proof.Machine

/-! ### Moves without a burst -/

/-- R36: the engine is stopped, has requested a burst or awaits one. -/
def State.engineBusy (s : State) : Bool := s.pe.stopped || s.pe.request.isSome || s.engineBurstLive

theorem engineBusy_eq_false {s : State} :
    s.engineBusy = false ↔ s.pe.stopped = false ∧ s.pe.request = none ∧ s.engineBurstLive = false := by
  simp [State.engineBusy, and_assoc]

theorem addChange_ne_nil (c : ByteChange) (held : List ByteChange) : addChange c held ≠ [] := by
  unfold addChange
  split
  · exact List.cons_ne_nil _ _
  · split <;> exact List.cons_ne_nil _ _

/-- R25: a pixel that is set leaves changes held. -/
theorem foldl_addChange_logicalChanges_ne_nil (s : State) (p : Nat × Nat × Nat) (value : Nat) (held : List ByteChange) :
    (s.logicalChanges p value).foldl (fun acc c => addChange c acc) held ≠ [] := by
  unfold State.logicalChanges pixelChanges
  dsimp only
  split
  all_goals exact addChange_ne_nil _ _

/-- What a pixel handled without a burst leaves of the engine: a count, or a change held and counted. -/
def Engine.countsPixel (e : Engine) (j : Job) (rest : List Job) (e' : Engine) : Prop :=
  (∃ out, j.isStream = false ∧ e' = { e with readOut := out, jobs := { j with progress := j.progress + 1 } :: rest }) ∨
    ∃ b changes, e.heldBurst = some b ∧ (j.isStream = true → changes ≠ []) ∧
      e' = { e with heldBurst := some { b with changes := changes, pixels := b.pixels + 1 } }

theorem pixelMove_go {s : State} {j : Job} {rest : List Job} {n : Nat} {e : Engine}
    (h : s.pixelMove j rest n = .go e) : s.pe.countsPixel j rest e := by
  cases hq : j.kind.destinationPixel n with
  | some q =>
    rw [pixelMove_written hq] at h
    cases hh : s.pe.heldBurst with
    | none =>
      rw [hh] at h
      dsimp only at h
      split at h
      · next hkeyed =>
        obtain ⟨dst, src, r, dx, dy, key, hk, -⟩ := (keyedOut_iff j.kind n).1 hkeyed
        cases h
        exact .inl ⟨s.pe.readOut, by rw [Job.isStream, hk], rfl⟩
      · cases h
    | some b =>
      rw [hh] at h
      cases h
      refine .inr ⟨b, _, hh, fun hstream => ?_, rfl⟩
      have hkeyed : s.keyedOut j.kind n ≠ true := fun hk => by
        obtain ⟨dst, src, r, dx, dy, key, hk, -⟩ := (keyedOut_iff j.kind n).1 hk
        rw [Job.isStream, hk] at hstream
        cases hstream
      rw [if_neg hkeyed]
      exact foldl_addChange_logicalChanges_ne_nil s q _ _
  | none =>
    unfold State.pixelMove at h
    cases hk : j.kind with
    | read target r link =>
      rw [hk] at h
      cases h
      exact .inl ⟨s.pe.readOut ++ [s.jobValue j.kind n], by rw [Job.isStream, hk], by rw [← hk]⟩
    | fence link => rw [hk] at h; cases h
    | fill dst r value => rw [hk] at hq; cases hq
    | copy dst src r dx dy key => rw [hk] at hq; cases hq
    | stream dst r => rw [hk] at hq; cases hq

theorem sourcedMove_cases (s : State) (j : Job) (rest : List Job) (n : Nat) :
    (∃ p, j.kind.sourcePixel n = some p ∧ s.sourcedMove j rest n = .ask (.readSource (s.pixelBlock p))) ∨
      s.sourcedMove j rest n = s.pixelMove j rest n := by
  unfold State.sourcedMove
  cases hp : j.kind.sourcePixel n with
  | none => exact .inr rfl
  | some p =>
    by_cases hs : s.pe.source = some (s.pixelBlock p)
    · exact .inr (if_pos hs)
    · exact .inl ⟨p, rfl, if_neg hs⟩

theorem exhaustedMove_ne_go (s : State) (k : JobKind) (e : Engine) : s.exhaustedMove k ≠ .go e := by
  intro h
  unfold State.exhaustedMove at h
  cases k with
  | stream dst r =>
    cases hx : s.pe.session with
    | none => rw [hx] at h; cases h
    | some x =>
      rw [hx] at h
      dsimp only at h
      split at h <;> cases h
  | _ => cases h

/-- R36, R41: the next move, by its four grounds: a held burst to be written back or let go, a next pixel to be handled,
or no further pixel. -/
theorem engineMove_cases (s : State) (j : Job) (rest : List Job) :
    (∃ b, s.pe.heldBurst = some b ∧ s.leavesBurst j b ∧ s.engineMove j rest = s.writeBackMove j rest b) ∨
      (j.progress + s.pe.heldPixels < s.readyPixels j.kind ∧
        s.engineMove j rest = s.sourcedMove j rest (j.progress + s.pe.heldPixels)) ∨
      (s.pe.heldBurst = none ∧ s.readyPixels j.kind ≤ j.progress + s.pe.heldPixels ∧
        s.engineMove j rest = s.exhaustedMove j.kind) := by
  cases hh : s.pe.heldBurst with
  | some b =>
    by_cases hl : s.leavesBurst j b
    · exact .inl ⟨b, rfl, hl, engineMove_leaves hh hl⟩
    · exact .inr (.inl ⟨Nat.not_le.1 fun hready => hl (.inl hready), engineMove_stays hh hl⟩)
  | none =>
    rcases Nat.lt_or_ge (j.progress + s.pe.heldPixels) (s.readyPixels j.kind) with hmore | hready
    · exact .inr (.inl ⟨hmore, engineMove_more hh hmore⟩)
    · exact .inr (.inr ⟨rfl, hready, engineMove_exhausted hh hready⟩)

/-- R36, R41: a move without a burst lets a held burst without changes go, or counts a pixel that can be set. -/
theorem engineMove_go {s : State} {j : Job} {rest : List Job} {e : Engine} (h : s.engineMove j rest = .go e) :
    (∃ b, s.pe.heldBurst = some b ∧ b.changes = [] ∧
        e = { s.pe with heldBurst := none, jobs := { j with progress := j.progress + b.pixels } :: rest }) ∨
      (j.progress + s.pe.heldPixels < s.readyPixels j.kind ∧ s.pe.countsPixel j rest e) := by
  rcases engineMove_cases s j rest with ⟨b, hh, -, hm⟩ | ⟨hmore, hm⟩ | ⟨-, -, hm⟩
  · rw [h] at hm
    unfold State.writeBackMove at hm
    split at hm
    · next hc =>
      cases hm
      exact .inl ⟨b, hh, hc, rfl⟩
    · cases hm
  · rcases sourcedMove_cases s j rest (j.progress + s.pe.heldPixels) with ⟨p, -, hs⟩ | hs
    · rw [h, hs] at hm
      cases hm
    · exact .inr ⟨hmore, pixelMove_go (hs.symm.trans (hm.symm.trans h))⟩
  · exact absurd (hm.symm.trans h) (exhaustedMove_ne_go s j.kind e)

/-- A move without a burst changes the held burst, the values read and the progress of the active job only. -/
theorem engineMove_go_eq {s : State} {j : Job} {rest : List Job} {e : Engine} (h : s.engineMove j rest = .go e) :
    ∃ b out n, e = { s.pe with heldBurst := b, readOut := out, jobs := { j with progress := n } :: rest } ∨
      e = { s.pe with heldBurst := b, readOut := out } := by
  rcases engineMove_go h with ⟨_, _, _, rfl⟩ | ⟨-, ⟨_, _, rfl⟩ | ⟨_, _, _, _, rfl⟩⟩
  · exact ⟨none, s.pe.readOut, _, .inl rfl⟩
  · exact ⟨s.pe.heldBurst, _, _, .inl rfl⟩
  · exact ⟨_, s.pe.readOut, 0, .inr rfl⟩

theorem engineMove_go_stopped {s : State} {j : Job} {rest : List Job} {e : Engine} (h : s.engineMove j rest = .go e) :
    e.stopped = s.pe.stopped := by
  obtain ⟨b, out, n, rfl | rfl⟩ := engineMove_go_eq h <;> rfl

theorem ClaimFrame.pe {s t : State} (h : ClaimFrame s t) : t.pe = s.pe := by
  obtain ⟨_, _, _, _, _, _, _, rfl⟩ := h
  rfl

theorem ClaimFrame.port {s t : State} (h : ClaimFrame s t) : t.port = s.port := by
  obtain ⟨_, _, _, _, _, _, _, rfl⟩ := h
  rfl

theorem completeSeq_frame (seq : Byte) (st : Status) (fields : List Byte) (s : State) :
    ClaimFrame s (completeSeq seq st fields s) := .of_replies (completeSeq_eq seq st fields s)

/-- R45, R54: the engine after its active job completed: the entry has left, and with a STREAM its session. -/
def Engine.finished (e : Engine) (j : Job) (rest : List Job) : Engine :=
  { jobs := rest, stopped := e.stopped, source := none, heldBurst := none, readOut := [], request := none
    session := if j.isStream then none else e.session
    staging := if j.isStream && e.session.isSome then [] else e.staging }

/-- R45: a completion is the entry leaving, and a claim. -/
theorem completeActive_claim {s : State} {j : Job} {rest : List Job} (h : s.pe.jobs = j :: rest) :
    ClaimFrame (s.setPe (s.pe.finished j rest)) (completeActive s) := by
  rw [completeActive_cons h]
  obtain ⟨kind, progress⟩ := j
  cases kind with
  | fill dst r value => exact releaseJob_frame _ _
  | copy dst src r dx dy key => exact releaseJob_frame _ _
  | read target r link => exact (releaseJob_frame _ _).trans (completeSeq_frame _ _ _ _)
  | fence link => exact (releaseJob_frame _ _).trans (completeSeq_frame _ _ _ _)
  | stream dst r =>
    unfold Engine.finished
    cases hx : s.pe.session with
    | none =>
      have hleft : s.setPe (s.pe.finished ⟨.stream dst r, progress⟩ rest) = s.activeLeft rest := by
        simp [Engine.finished, State.activeLeft, State.setPe, hx]
      rw [Engine.finished, hx] at hleft
      rw [hleft]
      exact releaseJob_frame _ _
    | some x =>
      cases hl : x.link with
      | none =>
        dsimp only
        rw [hl]
        exact releaseJob_frame _ _
      | some link =>
        dsimp only
        rw [hl]
        exact (releaseJob_frame _ _).trans (completeSeq_frame _ _ _ _)

theorem completeActive_pe {s : State} {j : Job} {rest : List Job} (h : s.pe.jobs = j :: rest) :
    (completeActive s).pe = s.pe.finished j rest := (completeActive_claim h).pe

/-! ### Going on (R36) -/

/-- What every move keeps, the engine going on keeps. -/
theorem runEngine_keeps {P : State → Prop}
    (hask : ∀ s j rest b, P s → s.engineBusy = false → s.pe.jobs = j :: rest → s.engineMove j rest = .ask b →
      P (s.setPe { s.pe with request := some b }))
    (hgo : ∀ s j rest e, P s → s.engineBusy = false → s.pe.jobs = j :: rest → s.engineMove j rest = .go e →
      P (s.setPe e))
    (hfinish : ∀ s j rest, P s → s.engineBusy = false → s.pe.jobs = j :: rest → s.engineMove j rest = .finish →
      P (completeActive s))
    (fuel : Nat) {s : State} (hs : P s) : P (runEngine fuel s) := by
  induction fuel generalizing s with
  | zero => exact hs
  | succ fuel ih =>
    rw [runEngine]
    split
    · exact hs
    · next hbusy =>
      have hbusy : s.engineBusy = false := Bool.eq_false_iff.2 hbusy
      split
      · exact hs
      · next j rest hj =>
        split
        · next b hm => exact hask s j rest b hs hbusy hj hm
        · next e hm => exact ih (hgo s j rest e hs hbusy hj hm)
        · next hm => exact ih (hfinish s j rest hs hbusy hj hm)
        · exact hs

theorem runEngine_stopped (fuel : Nat) (s : State) : (runEngine fuel s).pe.stopped = s.pe.stopped :=
  runEngine_keeps (P := fun t => t.pe.stopped = s.pe.stopped) (fun _ _ _ _ h _ _ _ => h)
    (fun _ _ _ _ h _ _ hm => (engineMove_go_stopped hm).trans h)
    (fun t j rest h _ hj _ => by rw [completeActive_pe hj]; exact h) fuel rfl

/-- R36, R176: an engine at rest stays as it is. -/
theorem runEngine_rest {s : State} (h : EngineRestLaw s) (fuel : Nat) : runEngine fuel s = s := by
  cases fuel with
  | zero => rfl
  | succ fuel =>
    rw [runEngine]
    split
    · rfl
    · next hbusy =>
      obtain ⟨hstopped, hrequest, hlive⟩ := engineBusy_eq_false.1 (Bool.eq_false_iff.2 hbusy)
      rcases h with h | h | h | h
      · rw [hstopped] at h; cases h
      · rw [hrequest] at h; cases h
      · rw [hlive] at h; cases h
      · split
        · rfl
        · next j rest hj =>
          rw [hj] at h
          rw [h]

theorem settle_rest {s : State} (h : EngineRestLaw s) : settle s = arbitrate s := by
  rw [settle, runEngine_rest h]

section
variable {s : State} {j : Job} {rest : List Job}

theorem runEngine_move (fuel : Nat) (hbusy : s.engineBusy = false) (hj : s.pe.jobs = j :: rest) :
    runEngine (fuel + 1) s = match s.engineMove j rest with
      | .ask b => s.setPe { s.pe with request := some b }
      | .go e => runEngine fuel (s.setPe e)
      | .finish => runEngine fuel (completeActive s)
      | .wait => s := by
  rw [runEngine]
  refine (if_neg (Bool.eq_false_iff.1 hbusy)).trans ?_
  simp only [hj] <;> rfl

theorem settle_ask {b : EngineBurst} (hbusy : s.engineBusy = false) (hj : s.pe.jobs = j :: rest)
    (hm : s.engineMove j rest = .ask b) : settle s = arbitrate (s.setPe { s.pe with request := some b }) := by
  rw [settle, runEngine_move _ hbusy hj, hm]

theorem settle_go {e : Engine} (hbusy : s.engineBusy = false) (hj : s.pe.jobs = j :: rest)
    (hm : s.engineMove j rest = .go e) : settle s = settle (s.setPe e) := by
  have hless := moveBound_go hj hm
  rw [settle, runEngine_move _ hbusy hj, hm]
  exact congrArg arbitrate (runEngine_stable _ _ hless (Nat.lt_succ_self _))

theorem settle_finish (hbusy : s.engineBusy = false) (hj : s.pe.jobs = j :: rest)
    (hm : s.engineMove j rest = .finish) : settle s = settle (completeActive s) := by
  have hless := moveBound_completeActive hj
  rw [settle, runEngine_move _ hbusy hj, hm]
  exact congrArg arbitrate (runEngine_stable _ _ hless (Nat.lt_succ_self _))

theorem settle_wait (hbusy : s.engineBusy = false) (hj : s.pe.jobs = j :: rest)
    (hm : s.engineMove j rest = .wait) : settle s = arbitrate s := by
  rw [settle, runEngine_move _ hbusy hj, hm]

end

/-! ### The arbiter (R145) -/

theorem LineHalf.grantNext_eq (h : LineHalf) :
    h.grantNext = if h.condition = .fetching then { h with todo := h.todo.drop 1 } else h := by
  unfold LineHalf.grantNext
  cases hc : h.condition <;> rfl

theorem LineHalf.grantNext_todo (h : LineHalf) : ∃ todo, h.grantNext = { h with todo := todo } := by
  rw [LineHalf.grantNext_eq]
  split
  · exact ⟨_, rfl⟩
  · exact ⟨h.todo, rfl⟩

theorem grantFetch_todo (o o' : OutputId) (b : FetchBurst) (s : State) :
    ∃ a c, (grantFetch o b s).ou o' = { s.ou o' with
      halfA := { (s.ou o').halfA with todo := a }, halfB := { (s.ou o').halfB with todo := c } } := by
  have hgranted : (grantFetch o b s).ou o' = (s.setOu o { s.ou o with
      halfA := (s.ou o).halfA.grantNext, halfB := (s.ou o).halfB.grantNext }).ou o' := by
    cases o <;> cases o' <;> rfl
  rw [hgranted]
  by_cases h : o' = o
  · rw [h, State.ou_setOu_self]
    obtain ⟨a, ha⟩ := (s.ou o).halfA.grantNext_todo
    obtain ⟨c, hc⟩ := (s.ou o).halfB.grantNext_todo
    exact ⟨a, c, by rw [ha, hc]⟩
  · rw [State.ou_setOu_other s _ h]
    exact ⟨(s.ou o').halfA.todo, (s.ou o').halfB.todo, rfl⟩

/-- R145: with the port idle the arbiter looks at the three requests that stand. -/
theorem arbitrate_idle {s : State} (h : s.port.inFlight = none) :
    arbitrate s = match s.ou0.fetchRequest, s.ou1.fetchRequest, s.pe.request with
      | some b0, some b1, _ => if s.port.lastScan = .out1 then grantFetch .out0 b0 s else grantFetch .out1 b1 s
      | some b0, none, _ => grantFetch .out0 b0 s
      | none, some b1, _ => grantFetch .out1 b1 s
      | none, none, some b => grantEngine b s
      | none, none, none => s := by
  unfold arbitrate
  rw [h]
  cases s.ou0.fetchRequest <;> cases s.ou1.fetchRequest <;> cases s.pe.request <;> cases s.port.lastScan <;> rfl

/-- R145: what the arbiter grants. -/
theorem arbitrate_cases (s : State) :
    arbitrate s = s ∨ (s.port.inFlight = none ∧ ∃ o b, (s.ou o).fetchRequest = some b ∧ arbitrate s = grantFetch o b s) ∨
      (s.port.inFlight = none ∧ ∃ b, s.ou0.fetchRequest = none ∧ s.ou1.fetchRequest = none ∧ s.pe.request = some b ∧
        arbitrate s = grantEngine b s) := by
  cases hg : s.port.inFlight with
  | some g => exact .inl (arbitrate_busy hg)
  | none =>
    rw [arbitrate_idle hg]
    cases h0 : s.ou0.fetchRequest with
    | some b0 =>
      cases h1 : s.ou1.fetchRequest with
      | some b1 =>
        dsimp only
        split
        · exact .inr (.inl ⟨rfl, .out0, b0, h0, rfl⟩)
        · exact .inr (.inl ⟨rfl, .out1, b1, h1, rfl⟩)
      | none => exact .inr (.inl ⟨rfl, .out0, b0, h0, rfl⟩)
    | none =>
      cases h1 : s.ou1.fetchRequest with
      | some b1 => exact .inr (.inl ⟨rfl, .out1, b1, h1, rfl⟩)
      | none =>
        cases hb : s.pe.request with
        | some b => exact .inr (.inr ⟨rfl, b, rfl, rfl, rfl, rfl⟩)
        | none => exact .inl rfl

/-- R145: the arbiter changes of an output only the bursts its halves have still to request. -/
theorem arbitrate_todo (o : OutputId) (s : State) :
    ∃ a c, (arbitrate s).ou o = { s.ou o with
      halfA := { (s.ou o).halfA with todo := a }, halfB := { (s.ou o).halfB with todo := c } } := by
  rcases arbitrate_cases s with h | ⟨-, o', b, -, h⟩ | ⟨-, b, -, -, -, h⟩
  · exact ⟨(s.ou o).halfA.todo, (s.ou o).halfB.todo, by rw [h]⟩
  · rw [h]
    exact grantFetch_todo o' o b s
  · rw [h]
    exact ⟨(s.ou o).halfA.todo, (s.ou o).halfB.todo, by cases o <;> rfl⟩

/-- R145: with no request standing behind an idle port, nothing is granted. -/
theorem arbitrate_of_portLaw {s : State} (h : PortLaw s) : arbitrate s = s := by
  cases hg : s.port.inFlight with
  | some g => exact arbitrate_busy hg
  | none =>
    obtain ⟨h0, h1, hpe⟩ := h hg
    unfold arbitrate
    rw [hg, h0, h1, hpe]

theorem runEngine_ou (fuel : Nat) (s : State) (o : OutputId) : (runEngine fuel s).ou o = s.ou o := by
  obtain ⟨e, he⟩ := runEngine_frame fuel s
  rw [he.ou, State.ou_setPe]

/-- Settles O32: settling changes what the engine's frame and a grant's frame allow, moves as `engineMove` says, and the
arbiter's grant is read off its definition. -/
theorem settlingAndTheArbiter : Obligations.SettlingAndTheArbiter := by
  unfold Obligations.SettlingAndTheArbiter
  refine ⟨⟨fun s => ?_, fun s j rest hstopped hrequest hlive hj => ?_, fun s seq payload hrest => ?_⟩, fun s => ?_⟩
  · intro t
    have hou (o : OutputId) : ∃ a b, t.ou o = { s.ou o with
        halfA := { (s.ou o).halfA with todo := a }, halfB := { (s.ou o).halfB with todo := b } } := by
      obtain ⟨a, b, h⟩ := arbitrate_todo o (runEngine (s.pe.moveBound + 1) s)
      rw [runEngine_ou] at h
      exact ⟨a, b, h⟩
    have hstop : t.pe.stopped = s.pe.stopped := by
      obtain ⟨_, _, _, _, _, _, h⟩ := arbitrate_frame (runEngine (s.pe.moveBound + 1) s)
      have ht : t.pe.stopped = (runEngine (s.pe.moveBound + 1) s).pe.stopped := by
        change (arbitrate _).pe.stopped = _
        rw [h]
      exact ht.trans (runEngine_stopped _ s)
    obtain ⟨_, _, _, _, _, _, hgrant⟩ := arbitrate_frame (runEngine (s.pe.moveBound + 1) s)
    obtain ⟨_, _, _, _, _, _, _, _, hrun⟩ := runEngine_frame (s.pe.moveBound + 1) s
    have ht : t = _ := hgrant
    rw [hrun] at ht
    refine ⟨?_, ?_, ?_, ?_, ?_, ?_, ?_, ?_, ?_, ?_, ?_, ?_, ?_, ?_, hstop, hou⟩
    all_goals
      rw [ht]
      rfl
  · have hbusy := engineBusy_eq_false.2 ⟨hstopped, hrequest, hlive⟩
    exact ⟨fun b hm => settle_ask hbusy hj hm, fun e hm => settle_go hbusy hj hm, fun hm => settle_finish hbusy hj hm,
      fun hm => settle_wait hbusy hj hm⟩
  · refine ⟨settle_rest hrest, fun hport => ⟨?_, ?_⟩⟩
    · rw [settle_rest hrest, arbitrate_of_portLaw hport]
    · have hrest' : EngineRestLaw (answered seq payload s) := hrest
      have hport' : PortLaw (answered seq payload s) := hport
      rw [settle_rest hrest', arbitrate_of_portLaw hport']
  · intro grant
    have hgrant (o : OutputId) (b : FetchBurst) : grantFetch o b s = grant o b := by
      unfold grantFetch
      simp only [LineHalf.grantNext_eq]
      rfl
    refine ⟨fun hbusy => ?_, fun hidle => ?_⟩
    · obtain ⟨g, hg⟩ := Option.ne_none_iff_exists'.1 hbusy
      exact arbitrate_busy hg
    · rw [arbitrate_idle hidle]
      refine ⟨fun b0 b1 h0 h1 => ?_, fun b0 h0 h1 => ?_, fun b1 h0 h1 => ?_, fun b h0 h1 hb => ?_, fun h0 h1 hb => ?_⟩
      · simp only [h0, h1, hgrant]
      · simp only [h0, h1, hgrant]
      · simp only [h0, h1, hgrant]
      · simp only [h0, h1, hb]
        rfl
      · simp only [h0, h1, hb]

end Sys2Proof.Machine
end

