-- ==== Sys2Proof/Proofs/Cancelling.lean ====
section
/-! PROOF. Entries cancelled with their surface: DISCARD_SURFACE of a FILLING or SEALING surface (R10, R16, R46, R56). -/

namespace Sys2Proof.Machine

/-! ### Deferred requests still to be answered (R174) -/

/-- R174: a deferred request has been answered CANCELLED. -/
def PendingReply.answeredIn (p : PendingReply) (s : State) : Prop :=
  ⟨p.seq, [p.code, 0x11]⟩ ∈ s.replies ∧ s.isPending p.seq = false

/-- R173, R174: a deferred request has been answered CANCELLED, or, where it may wait, still waits in the table. -/
def PendingReply.dueIn (p : PendingReply) (mayWait : Prop) (s : State) : Prop :=
  (s.pendingReplies.map (·.seq)).Nodup ∧ ((mayWait ∧ p ∈ s.pendingReplies) ∨ p.answeredIn s)

/-- R174: an answer given only adds a reply and frees an entry. -/
theorem PendingReply.answeredIn.mono {p : PendingReply} {s t : State} (h : p.answeredIn s)
    (hr : ∀ r ∈ s.replies, r ∈ t.replies) (hp : ∀ q ∈ t.pendingReplies, q ∈ s.pendingReplies) : p.answeredIn t := by
  obtain ⟨hreply, hfree⟩ := h
  refine ⟨hr _ hreply, List.any_eq_false.2 fun q hq => ?_⟩
  exact List.any_eq_false.1 hfree q (hp q hq)

section
variable {p : PendingReply} {mayWait : Prop} {s : State}

/-- R174: answering one deferred request CANCELLED leaves every other one due, and this one answered. -/
theorem PendingReply.dueIn.completeSeq (h : p.dueIn mayWait s) (seq : Byte) :
    p.dueIn mayWait (completeSeq seq .cancelled [] s) ∧ (p.seq = seq → p.dueIn False (completeSeq seq .cancelled [] s)) := by
  obtain ⟨hnodup, hp⟩ := h
  cases hpending : s.isPending seq with
  | false =>
    rw [completeSeq_absent _ _ hpending]
    refine ⟨⟨hnodup, hp⟩, fun hseq => ⟨hnodup, .inr (hp.resolve_left fun hmem => ?_)⟩⟩
    exact absurd (decide_eq_true hseq) (List.any_eq_false.1 hpending p hmem.2)
  | true =>
    obtain ⟨q, hq, hqseq⟩ := List.any_eq_true.1 hpending
    obtain rfl := of_decide_eq_true hqseq
    rw [completeSeq_of_mem hnodup hq]
    have hkept : ((s.pendingReplies.filter fun x => decide (x.seq ≠ q.seq)).map (·.seq)).Nodup :=
      hnodup.sublist (List.filter_sublist.map _)
    have hmono {t : State} (hr : t.replies = s.replies ++ [⟨q.seq, [q.code, 0x11]⟩])
        (ht : t.pendingReplies = s.pendingReplies.filter fun x => decide (x.seq ≠ q.seq)) (hdone : p.answeredIn s) :
        p.answeredIn t :=
      hdone.mono (fun _ hmem => hr ▸ List.mem_append_left _ hmem) fun x hx => List.mem_of_mem_filter (ht ▸ hx)
    have hnew {t : State} (hr : t.replies = s.replies ++ [⟨q.seq, [q.code, 0x11]⟩])
        (ht : t.pendingReplies = s.pendingReplies.filter fun x => decide (x.seq ≠ q.seq)) (hmem : p ∈ s.pendingReplies)
        (hseq : p.seq = q.seq) : p.answeredIn t := by
      obtain rfl := List.inj_on_of_nodup_map hnodup hmem hq hseq
      refine ⟨hr ▸ List.mem_append_right _ List.mem_cons_self, ?_⟩
      rw [State.isPending, ht, List.any_eq_false]
      exact fun x hx => by simpa using (List.mem_filter.1 hx).2
    refine ⟨⟨hkept, ?_⟩, fun hseq => ⟨hkept, .inr ?_⟩⟩
    · rcases hp with ⟨hwait, hmem⟩ | hdone
      · by_cases hseq : p.seq = q.seq
        · exact .inr (hnew rfl rfl hmem hseq)
        · exact .inl ⟨hwait, List.mem_filter.2 ⟨hmem, decide_eq_true hseq⟩⟩
      · exact .inr (hmono rfl rfl hdone)
    · rcases hp with ⟨-, hmem⟩ | hdone
      · exact hnew rfl rfl hmem hseq
      · exact hmono rfl rfl hdone

/-- R174: answering the requests of another reference leaves a request due. -/
theorem PendingReply.dueIn.completeRef (h : p.dueIn mayWait s) {ref : PendingRef} (st : Status) (hne : p.ref ≠ ref) :
    p.dueIn mayWait (completeRef ref st s) := by
  obtain ⟨hnodup, hp⟩ := h
  rw [completeRef_eq_done hnodup]
  refine ⟨hnodup.sublist (List.filter_sublist.map _), ?_⟩
  rcases hp with ⟨hwait, hmem⟩ | hdone
  · exact .inl ⟨hwait, List.mem_filter.2 ⟨hmem, decide_eq_true hne⟩⟩
  · refine .inr ?_
    exact hdone.mono (fun _ hr => List.mem_append_left _ hr) fun x hx => List.mem_of_mem_filter hx

/-- R10: a seal answered on the way leaves the request of a job due. -/
theorem PendingReply.dueIn.settleSurface (h : p.dueIn mayWait s) (hjob : p.ref = .job) (id : Nat) :
    p.dueIn mayWait (settleSurface id s) := by
  rw [settleSurface_eq]
  split
  · have hseal : p.ref ≠ .seal id := by rw [hjob]; exact PendingRef.noConfusion
    exact PendingReply.dueIn.completeRef (s := s.setSurface id _) h .ok hseal
  · split
    · obtain ⟨ns, k, hraise⟩ := raise_eq (.surfaceFreed id (s.surface id).base (s.surface id).granules) (freeSurface id s)
      rw [hraise]
      exact h
    · exact h

theorem PendingReply.dueIn.releaseCancelled (h : p.dueIn mayWait s) (hjob : p.ref = .job) (self : Nat) (k : JobKind) :
    p.dueIn mayWait (releaseCancelled self k s) := by
  have hfold (ids : List Nat) {t : State} (ht : p.dueIn mayWait t) :
      p.dueIn mayWait (ids.foldl (fun w id => Machine.settleSurface id w) t) := by
    induction ids generalizing t with
    | nil => exact ht
    | cons id ids ih => exact ih (ht.settleSurface hjob id)
  rw [releaseCancelled_eq]
  exact hfold _ (t := s.mapSurfaces fun i r => r.lessJob k i) h

end

/-! ### Entries cancelled (R46) -/

/-- R46: the session a cancelled entry leaves: a STREAM closes it. -/
def Engine.cancelled (e : Engine) (stream : Bool) : Engine := if stream && e.session.isSome then e.closeSession else e

/-- R46: answering a cancelled entry is the session's close, for a STREAM, and a reply. -/
theorem answerCancelled_claim (j : Job) (s : State) :
    ClaimFrame (s.setPe (s.pe.cancelled j.isStream)) (answerCancelled j.kind s) := by
  obtain ⟨kind, progress⟩ := j
  cases kind with
  | fill dst r value => exact .refl s
  | copy dst src r dx dy key => exact .refl s
  | fence link => exact .refl s
  | read target r link => exact completeSeq_frame link .cancelled [] s
  | stream dst r =>
    unfold answerCancelled Engine.cancelled Job.isStream
    cases hx : s.pe.session with
    | none => exact .refl s
    | some x =>
      cases hl : x.link with
      | none =>
        dsimp only
        rw [hl]
        exact .refl _
      | some link =>
        dsimp only
        rw [hl]
        exact completeSeq_frame _ _ _ _

/-- R46: one entry cancelled with surface `id`: its uses given up and its deferred request answered. -/
def cancelEntry (id : Nat) (s : State) (j : Job) : State := answerCancelled j.kind (releaseCancelled id j.kind s)

theorem ClaimFrame.setPe {s t : State} (h : ClaimFrame s t) (e : Engine) : ClaimFrame (s.setPe e) (t.setPe e) := by
  obtain ⟨_, _, _, _, _, _, _, rfl⟩ := h
  exact ⟨_, _, _, _, _, _, _, rfl⟩

theorem cancelEntry_claim (id : Nat) (s : State) (j : Job) :
    ClaimFrame (s.setPe (s.pe.cancelled j.isStream)) (cancelEntry id s j) := by
  have hreleased := releaseCancelled_frame id j.kind s
  have hanswer := answerCancelled_claim j (releaseCancelled id j.kind s)
  rw [hreleased.pe] at hanswer
  exact (hreleased.setPe _).trans hanswer

/-- R46: entries cancelled one after another are a claim, and close the session when a STREAM is among them. -/
theorem foldl_cancelEntry_claim (id : Nat) (js : List Job) (s : State) :
    ClaimFrame (s.setPe (s.pe.cancelled (js.any Job.isStream))) (js.foldl (cancelEntry id) s) := by
  induction js generalizing s with
  | nil => exact .refl s
  | cons j js ih =>
    have hfirst := cancelEntry_claim id s j
    have hrest := ih (cancelEntry id s j)
    rw [hfirst.pe] at hrest
    have hboth := (hfirst.setPe ((s.pe.cancelled j.isStream).cancelled (js.any Job.isStream))).trans hrest
    have hpe : (s.pe.cancelled j.isStream).cancelled (js.any Job.isStream) =
        s.pe.cancelled ((j :: js).any Job.isStream) := by
      unfold Engine.cancelled
      rw [List.any_cons]
      cases j.isStream <;> cases js.any Job.isStream <;> cases hx : s.pe.session <;> simp [Engine.closeSession, hx]
    rw [hpe] at hboth
    exact hboth

/-- R46: an entry cancelled leaves a job's request due, and answers a READ's own. -/
theorem PendingReply.dueIn.cancelEntry {p : PendingReply} {mayWait : Prop} {s : State} (h : p.dueIn mayWait s)
    (hjob : p.ref = .job) (id : Nat) (j : Job) :
    p.dueIn mayWait (cancelEntry id s j) ∧
      ((∃ target rect, j.kind = .read target rect p.seq) → p.dueIn False (cancelEntry id s j)) := by
  have hreleased := h.releaseCancelled hjob id j.kind
  unfold Machine.cancelEntry
  generalize Machine.releaseCancelled id j.kind s = w at hreleased ⊢
  unfold answerCancelled
  cases j.kind with
  | read target r link =>
    obtain ⟨hdue, hanswered⟩ := hreleased.completeSeq link
    refine ⟨hdue, ?_⟩
    rintro ⟨_, _, hj⟩
    cases hj
    exact hanswered rfl
  | stream dst r =>
    refine ⟨?_, by rintro ⟨_, _, hj⟩; cases hj⟩
    dsimp only
    cases w.pe.session with
    | none => exact hreleased
    | some x =>
      dsimp only
      cases x.link with
      | none => exact hreleased
      | some link => exact (PendingReply.dueIn.completeSeq (s := w.setPe w.pe.closeSession) hreleased link).1
  | _ => exact ⟨hreleased, by rintro ⟨_, _, hj⟩; cases hj⟩

/-- R46: the READs among the entries cancelled are answered. -/
theorem PendingReply.dueIn.foldl_cancelEntry {p : PendingReply} {mayWait : Prop} {s : State} (h : p.dueIn mayWait s)
    (hjob : p.ref = .job) (id : Nat) {js : List Job} :
    p.dueIn mayWait (js.foldl (Machine.cancelEntry id) s) ∧
      ((∃ j ∈ js, ∃ target rect, j.kind = .read target rect p.seq) →
        p.dueIn False (js.foldl (Machine.cancelEntry id) s)) := by
  induction js generalizing s mayWait with
  | nil => exact ⟨h, fun ⟨_, hj, _⟩ => absurd hj List.not_mem_nil⟩
  | cons j js ih =>
    obtain ⟨hdue, hanswered⟩ := h.cancelEntry hjob id j
    obtain ⟨hrest, hlater⟩ := ih hdue
    refine ⟨hrest, ?_⟩
    rintro ⟨k, hk, hread⟩
    rcases List.mem_cons.1 hk with rfl | hk
    · exact (ih (hanswered hread)).1
    · exact hlater ⟨k, hk, hread⟩

/-! ### The Job Queue without the entries cancelled (R46) -/

/-- R146: the data of a granted burst of the engine is no longer wanted. -/
def deadEngineBurst : Option Grant → Option Grant
  | some (.engine b _) => some (.engine b false)
  | some (.fetch o b live) => some (.fetch o b live)
  | none => none

theorem killEngineBurst_eq (s : State) : killEngineBurst s = s.setInFlight (deadEngineBurst s.port.inFlight) := by
  unfold killEngineBurst State.setInFlight
  cases hg : s.port.inFlight with
  | none => exact congrArg (fun g => { s with port := { s.port with inFlight := g } }) hg
  | some g =>
    cases g with
    | engine b live => rfl
    | fetch o b live => exact congrArg (fun g => { s with port := { s.port with inFlight := g } }) hg

theorem deadEngineBurst_not_live (s : State) (g : Option Grant) :
    (s.setInFlight (deadEngineBurst g)).engineBurstLive = false := by
  unfold State.engineBurstLive
  cases g with
  | none => rfl
  | some g => cases g <;> rfl

/-- R46: the queue without the doomed entries; an active one among them lets go what it holds. -/
def jobsTaken (doomed : Job → Bool) (s : State) : State :=
  if s.pe.jobs.head?.elim false doomed then { s with
    pe := { s.pe with jobs := s.pe.jobs.filter fun j => !doomed j, source := none, heldBurst := none, readOut := []
                      request := none }
    port := { s.port with inFlight := deadEngineBurst s.port.inFlight } }
  else { s with pe := { s.pe with jobs := s.pe.jobs.filter fun j => !doomed j } }

theorem removeJobs_eq (doomed : Job → Bool) (s : State) : removeJobs doomed s = jobsTaken doomed s := by
  unfold removeJobs jobsTaken
  dsimp only
  split
  · rw [killEngineBurst_eq]
    rfl
  · rfl

section
variable (doomed : Job → Bool) (s : State)

theorem jobsTaken_of_head (h : s.pe.jobs.head?.elim false doomed = true) :
    jobsTaken doomed s = { s with
      pe := { s.pe with jobs := s.pe.jobs.filter fun j => !doomed j, source := none, heldBurst := none, readOut := []
                        request := none }
      port := { s.port with inFlight := deadEngineBurst s.port.inFlight } } := if_pos h

theorem jobsTaken_of_not_head (h : s.pe.jobs.head?.elim false doomed = false) :
    jobsTaken doomed s = { s with pe := { s.pe with jobs := s.pe.jobs.filter fun j => !doomed j } } :=
  if_neg (Bool.eq_false_iff.1 h)

/-- Taking entries out leaves everything but the engine and the burst in progress, and of the engine its session. -/
theorem jobsTaken_eq : ∃ source heldBurst readOut request inFlight, jobsTaken doomed s = { s with
    pe := { jobs := s.pe.jobs.filter fun j => !doomed j, stopped := s.pe.stopped, session := s.pe.session
            staging := s.pe.staging, source := source, heldBurst := heldBurst, readOut := readOut, request := request }
    port := { inFlight := inFlight, lastScan := s.port.lastScan } } := by
  cases h : s.pe.jobs.head?.elim false doomed with
  | true => exact ⟨_, _, _, _, _, jobsTaken_of_head doomed s h⟩
  | false => exact ⟨s.pe.source, s.pe.heldBurst, s.pe.readOut, s.pe.request, s.port.inFlight, jobsTaken_of_not_head doomed s h⟩

end

/-! ### DISCARD_SURFACE of a surface that is not READY (R16) -/

/-- R46, R56: an entry names a surface in a role. -/
def Job.naming (id : Nat) (j : Job) : Bool := j.kind.surfaces.contains id

theorem cancelNaming_eq (id : Nat) (s : State) :
    cancelNaming id s = (s.pe.jobs.filter (Job.naming id)).foldl (cancelEntry id) (jobsTaken (Job.naming id) s) := by
  rw [← removeJobs_eq]
  rfl

/-- R46: cancelling the entries that name a surface is taking them out, closing the session of a STREAM among them, and a
claim. -/
theorem cancelNaming_claim (id : Nat) (s : State) :
    ClaimFrame ((jobsTaken (Job.naming id) s).setPe ((jobsTaken (Job.naming id) s).pe.cancelled
      (s.pe.jobs.any fun j => j.naming id && j.isStream))) (cancelNaming id s) := by
  rw [cancelNaming_eq]
  have hany : (s.pe.jobs.any fun j => j.naming id && j.isStream) = (s.pe.jobs.filter (Job.naming id)).any Job.isStream := by
    rw [List.any_filter]
  rw [hany]
  exact foldl_cancelEntry_claim id _ _

/-- What closing the session leaves of the engine. -/
theorem Engine.cancelled_eq (e : Engine) (stream : Bool) :
    e.cancelled stream = { e with
      session := if stream then none else e.session
      staging := if stream && e.session.isSome then [] else e.staging } := by
  obtain ⟨jobs, stopped, session, staging, source, heldBurst, readOut, request⟩ := e
  cases stream <;> cases session <;> rfl

theorem cancelNaming_ingress (id : Nat) (s : State) : (cancelNaming id s).ingress = s.ingress := by
  obtain ⟨_, _, _, _, _, htaken⟩ := jobsTaken_eq (Job.naming id) s
  rw [(cancelNaming_claim id s).ingress, htaken]
  rfl

/-- R11, R16: a surface that is FILLING or SEALING is discarded with the entries that name it. -/
theorem dealtWith_discardUnfinished {s : State} (seq code : Byte) (args : List Byte) (hs : s.headFrame.isSome = true)
    (hlength : args.length = 1) :
    let id := arg8 args 0
    let r := s.surface id
    let c := cancelNaming id s
    let u := if r.sealPending then completeRef (.seal id) .cancelled c else c
    id < 64 → r.state = .filling ∨ r.state = .sealing →
    dealtWith seq code (discardBody seq code args s) = answered seq
      [code, 0x00, 1, byteOf (s.pe.jobs.filter fun j => j.kind.surfaces.contains id).length] (freeSurface id u) := by
  intro id r c u hid hstate
  have hbody : discardBody seq code args s = discardUnfinished id r s := by
    have hempty : r.state ≠ .empty := by rcases hstate with h | h <;> rw [h] <;> decide
    unfold discardBody withSurface
    rw [if_neg (not_not.2 hlength)]
    refine (if_neg (Nat.not_le.2 hid)).trans ((if_neg hempty).trans ?_)
    change (match r.state with
      | .discarding => _ | .ready => _ | .filling | .sealing => _ | .empty => _) = _
    rcases hstate with h | h <;> rw [h]
  have hu : u.ingress = s.ingress := by
    have hc : c.ingress = s.ingress := cancelNaming_ingress id s
    by_cases hseal : r.sealPending = true
    · rw [show u = completeRef (.seal id) .cancelled c from if_pos hseal, completeRef_ingress, hc]
    · rw [show u = c from if_neg hseal, hc]
  have hhead : (freeSurface id u).headFrame.isSome = true := by
    rw [headFrame_of_ingress (s := s) (t := freeSurface id u) hu]
    exact hs
  rw [hbody]
  exact dealtWith_reply (t := freeSurface id u) seq code .ok _ hhead

/-- Settles O20: the row by its body, the rest by the fold over the entries cancelled. -/
theorem discardOfAnUnfinishedSurface : Obligations.DiscardOfAnUnfinishedSurface := by
  unfold Obligations.DiscardOfAnUnfinishedSurface
  refine ⟨fun s seq args h hlength => ?_, fun id s => ?_⟩
  · intro id r hid hstate c u
    exact exec_of_dealtWith (body := discardBody) (after := settle) rfl h rfl
      (dealtWith_discardUnfinished seq 0x11 args h.headFrame_isSome hlength hid hstate)
  · intro c named kept taken cancelled
    have htaken : jobsTaken (Job.naming id) s = taken := by
      unfold jobsTaken
      rfl
    have hentry : cancelEntry id = cancelled := by
      funext w j
      change answerCancelled j.kind (releaseCancelled id j.kind w) = _
      rw [releaseCancelled_eq]
      dsimp only [cancelled]
      generalize jobGivenUp (j.kind.surfaces.filter fun i => decide (i ≠ id)) j.kind w = released
      unfold answerCancelled
      cases j.kind with
      | stream dst r => dsimp only; cases released.pe.session <;> rfl
      | _ => rfl
    have hfold : c = (s.pe.jobs.filter named).foldl cancelled taken := by
      rw [← hentry, ← htaken]
      exact cancelNaming_eq id s
    have hclaim := cancelNaming_claim id s
    have hpe : c.pe = _ := hclaim.pe
    have hport : c.port = (jobsTaken (Job.naming id) s).port := hclaim.port
    rw [State.setPe_pe, Engine.cancelled_eq] at hpe
    refine ⟨hfold, ?_, fun hhead => ?_, fun hhead => ?_, ?_, fun hnodup target rect link progress hj htarget p hp hseq hjob => ?_, ?_⟩
    · obtain ⟨_, _, _, _, _, h⟩ := jobsTaken_eq (Job.naming id) s
      rw [hpe, h]
      rfl
    · rw [jobsTaken_of_head (Job.naming id) s hhead] at hpe hport
      refine ⟨by rw [hpe], by rw [hpe], ?_⟩
      unfold State.engineBurstLive
      rw [hport]
      exact deadEngineBurst_not_live s _
    · rw [jobsTaken_of_not_head (Job.naming id) s hhead] at hpe hport
      exact ⟨by rw [hpe], by rw [hpe], hport⟩
    · obtain ⟨_, _, _, _, _, h⟩ := jobsTaken_eq (Job.naming id) s
      rw [hpe, h]
      dsimp only
      by_cases hstream : (s.pe.jobs.any fun j => j.naming id && j.isStream) = true
      · refine (if_pos hstream).mpr ?_
        rw [hstream]
        exact ⟨rfl, fun hsome => by simp [hsome]⟩
      · refine (if_neg hstream).mpr ?_
        rw [Bool.eq_false_iff.2 hstream]
        exact ⟨rfl, rfl⟩
    · have hdue : p.dueIn True (jobsTaken (Job.naming id) s) := by
        obtain ⟨_, _, _, _, _, h⟩ := jobsTaken_eq (Job.naming id) s
        rw [h]
        exact ⟨hnodup, .inl ⟨trivial, hp⟩⟩
      have hnamed : Job.naming id ⟨.read target rect link, progress⟩ = true := by
        simp [Job.naming, JobKind.surfaces, htarget]
      have hdone := (hdue.foldl_cancelEntry hjob id).2
        ⟨_, List.mem_filter.2 ⟨hj, hnamed⟩, target, rect, by rw [hseq]⟩
      rw [← cancelNaming_eq, PendingReply.dueIn, PendingReply.answeredIn, hseq] at hdone
      simpa using hdone.2
    · obtain ⟨source, heldBurst, readOut, request, inFlight, h⟩ := jobsTaken_eq (Job.naming id) s
      obtain ⟨su, gr, rs, ca, ps, ns, k, hc⟩ := hclaim
      rw [h, Engine.cancelled_eq] at hc
      exact ⟨_, _, _, _, _, _, _, _, _, _, _, _, _, _, _, hc⟩

end Sys2Proof.Machine
end

