-- ==== Sys2Proof/Proofs/EndAndAbort.lean ====
section
/-! PROOF. END_UPLOAD (R53) and ABORT_UPLOAD (R46, R55). -/

namespace Sys2Proof.Machine

/-! ### END_UPLOAD (R53) -/

/-- R53: without a session an END_UPLOAD is refused. -/
theorem dealtWith_endUpload_none {s : State} (seq code : Byte) (args : List Byte) (hs : s.headFrame.isSome = true)
    (hx : s.pe.session = none) :
    dealtWith seq code (endUploadBody seq code args s) = answerBy seq code
      [(decide (args.length ≠ 0), .badLength), (true, .noSession)] s s := by
  refine dealtWith_check hs fun _ => ?_
  rw [hx]
  exact dealtWith_reply seq code .noSession [] hs

/-- R53: the checks of an END_UPLOAD, and what it does. -/
theorem dealtWith_endUpload {s : State} (seq code : Byte) (args : List Byte) (hs : s.headFrame.isSome = true)
    {x : Session} (hx : s.pe.session = some x) :
    dealtWith seq code (endUploadBody seq code args s) = answerBy seq code
      [(decide (args.length ≠ 0), .badLength), (x.endRequested, .wrongState), (tableFull s, .busy)] s
      (boundTo seq code .pixelEngine .session
        { s with pe := { s.pe with session := some { x with endRequested := true, link := some seq } } }) := by
  refine dealtWith_check hs fun _ => ?_
  rw [hx, ← not_pendingFree]
  exact dealtWith_flag hs (dealtWith_flag hs (dealtWith_bindPending
    (t := s.setPe { s.pe with session := some { x with endRequested := true, link := some seq } })
    seq code .pixelEngine .session hs))

/-! ### A write burst already granted (R55, log 10) -/

/-- R55: the active job is the STREAM and its write burst has been granted. -/
def State.streamWriteGranted (s : State) : Bool :=
  (s.pe.jobs.head?.elim false Job.isStream) && match s.port.inFlight with
    | some (.engine (.writeDestination _) live) => live
    | some (.engine (.readSource _) _) | some (.engine (.readDestination _) _) | some (.fetch _ _ _) | none => false

theorem finishGrantedStreamWrite_not_granted {s : State} (h : s.streamWriteGranted = false) :
    finishGrantedStreamWrite s = s := by
  unfold finishGrantedStreamWrite
  unfold State.streamWriteGranted at h
  cases hg : s.port.inFlight with
  | none => rfl
  | some g =>
    rw [hg] at h
    cases g with
    | fetch o b live => rfl
    | engine b live =>
      cases b with
      | readSource a => rfl
      | readDestination a => rfl
      | writeDestination a =>
        cases live with
        | false => rfl
        | true =>
          cases hj : s.pe.jobs with
          | nil => rfl
          | cons j rest =>
            rw [hj] at h
            exact if_neg (by simpa using h)

theorem finishGrantedStreamWrite_granted {s : State} (h : s.streamWriteGranted = true) :
    ∃ a j rest, s.port.inFlight = some (.engine (.writeDestination a) true) ∧ s.pe.jobs = j :: rest ∧
      j.isStream = true ∧
      finishGrantedStreamWrite s = (landWrite s).setInFlight (some (.engine (.writeDestination a) false)) := by
  obtain ⟨hhead, hport⟩ := Bool.and_eq_true_iff.1 h
  cases hj : s.pe.jobs with
  | nil => rw [hj] at hhead; cases hhead
  | cons j rest =>
    rw [hj] at hhead
    have hstream : j.isStream = true := hhead
    cases hg : s.port.inFlight with
    | none => rw [hg] at hport; cases hport
    | some g =>
      rw [hg] at hport
      cases g with
      | fetch o b live => cases hport
      | engine b live =>
        cases b with
        | readSource a => cases hport
        | readDestination a => cases hport
        | writeDestination a =>
          cases live with
          | false => cases hport
          | true =>
            refine ⟨a, j, rest, rfl, rfl, hstream, ?_⟩
            unfold finishGrantedStreamWrite
            rw [hg, hj]
            exact if_pos hstream

/-- The Job Queue with another progress of its active entry. -/
def sameEntries (js js' : List Job) : Prop := js' = js ∨ ∃ j rest n, js = j :: rest ∧ js' = { j with progress := n } :: rest

theorem sameEntries.head {js js' : List Job} (h : sameEntries js js') :
    js'.head?.elim false Job.isStream = js.head?.elim false Job.isStream := by
  rcases h with rfl | ⟨j, rest, n, rfl, rfl⟩ <;> rfl

theorem sameEntries.streams {js js' : List Job} (h : sameEntries js js') :
    (js'.filter Job.isStream).map (·.kind) = (js.filter Job.isStream).map (·.kind) := by
  rcases h with rfl | ⟨j, rest, n, rfl, rfl⟩
  · rfl
  · have hkind : ({ j with progress := n } : Job).isStream = j.isStream := rfl
    rw [List.filter_cons, List.filter_cons, hkind]
    cases j.isStream <;> rfl

theorem sameEntries.others {js js' : List Job} (h : sameEntries js js')
    (hhead : js' = js ∨ js.head?.elim false Job.isStream = true) :
    (js'.filter fun j => !j.isStream) = js.filter fun j => !j.isStream := by
  rcases h with rfl | ⟨j, rest, n, rfl, rfl⟩
  · rfl
  · rcases hhead with heq | hstream
    · rw [heq]
    · have hkind : ({ j with progress := n } : Job).isStream = true := hstream
      have hstream : j.isStream = true := hstream
      rw [List.filter_cons, List.filter_cons, hkind, hstream]
      rfl

/-- R36, R55: landing the held burst of the active STREAM. -/
theorem landWrite_stream {s : State} {j : Job} {rest : List Job} {x : Session} (hj : s.pe.jobs = j :: rest)
    (hstream : j.isStream = true) (hx : s.pe.session = some x) :
    ∃ mem held jobs staging written, landWrite s = { s with
        mem := mem
        pe := { s.pe with jobs := jobs, heldBurst := held, staging := staging, session := some { x with written := written } } } ∧
      sameEntries s.pe.jobs jobs ∧
      ∀ h, s.pe.heldBurst = some h → written = s.writtenAfter j.kind x (j.progress + h.pixels) ∧
        ∀ dst, j.kind.destination = some dst → mem = applyChanges s.mem (s.surface dst).era h.changes := by
  cases hh : s.pe.heldBurst with
  | none =>
    refine ⟨s.mem, none, s.pe.jobs, s.pe.staging, x.written, ?_, .inl rfl, fun h hsome => by cases hsome⟩
    unfold landWrite
    rw [hj, hh]
    simp only [← hx, ← hh, ← hj]
  | some h =>
    obtain ⟨dst, hdst⟩ : ∃ dst, j.kind.destination = some dst := by
      unfold Job.isStream at hstream
      cases hk : j.kind with
      | stream dst r => exact ⟨dst, rfl⟩
      | _ => rw [hk] at hstream; cases hstream
    refine ⟨_, _, _, _, _, (landWrite_eq hj hh hdst).trans (releaseStaged_of_stream hstream _ (x := x) hx),
      .inr ⟨j, rest, j.progress + h.pixels, hj, rfl⟩, ?_⟩
    rintro _ ⟨⟩
    refine ⟨rfl, fun dst' hdst' => ?_⟩
    obtain rfl := Option.some.inj (hdst.symm.trans hdst')
    rfl

/-- R55, log 10: what a write burst already granted leaves before the session closes. -/
theorem finishGrantedStreamWrite_eq {s : State} {x : Session} (hx : s.pe.session = some x) :
    ∃ mem held jobs staging written g, finishGrantedStreamWrite s = { s with
        mem := mem
        pe := { s.pe with jobs := jobs, heldBurst := held, staging := staging, session := some { x with written := written } }
        port := { s.port with inFlight := g } } ∧
      sameEntries s.pe.jobs jobs ∧ (jobs = s.pe.jobs ∨ s.pe.jobs.head?.elim false Job.isStream = true) ∧
      (s.pe.jobs.head?.elim false Job.isStream = false → held = s.pe.heldBurst ∧ g = s.port.inFlight) ∧
      deadEngineBurst g = deadEngineBurst s.port.inFlight ∧
      (s.streamWriteGranted = false → written = x.written ∧ mem = s.mem) ∧
      (s.streamWriteGranted = true → ∀ h j dst, s.pe.heldBurst = some h → s.pe.jobs.head? = some j →
        j.kind.destination = some dst →
        written = s.writtenAfter j.kind x (j.progress + h.pixels) ∧
          mem = applyChanges s.mem (s.surface dst).era h.changes) := by
  cases hgranted : s.streamWriteGranted with
  | false =>
    refine ⟨s.mem, s.pe.heldBurst, s.pe.jobs, s.pe.staging, x.written, s.port.inFlight, ?_, .inl rfl, .inl rfl,
      fun _ => ⟨rfl, rfl⟩, rfl, fun _ => ⟨rfl, rfl⟩, fun h => by cases h⟩
    rw [finishGrantedStreamWrite_not_granted hgranted]
    simp only [← hx]
  | true =>
    obtain ⟨a, j, rest, hport, hj, hstream, hfinish⟩ := finishGrantedStreamWrite_granted hgranted
    obtain ⟨mem, held, jobs, staging, written, hland, hsame, hwritten⟩ := landWrite_stream hj hstream hx
    have hhead : s.pe.jobs.head?.elim false Job.isStream = true := by rw [hj]; exact hstream
    refine ⟨mem, held, jobs, staging, written, some (.engine (.writeDestination a) false), ?_, hsame, .inr hhead, ?_, ?_,
      fun h => Bool.noConfusion h, fun _ h k dst hheld hk hdst => ?_⟩
    · rw [hfinish, hland]
      rfl
    · rw [hhead]
      exact fun h => by cases h
    · rw [hport]
      rfl
    · rw [hj] at hk
      cases hk
      obtain ⟨hw, hm⟩ := hwritten h hheld
      exact ⟨hw, hm dst hdst⟩

/-! ### ABORT_UPLOAD (R46, R55) -/

/-- R10: giving up the uses of an entry whose surfaces are neither SEALING nor DISCARDING only lowers their counts. -/
theorem releaseJob_quiet {k : JobKind} {s : State}
    (h : ∀ id ∈ k.surfaces, (s.surface id).state ≠ .sealing ∧ (s.surface id).state ≠ .discarding) :
    releaseJob k s = s.mapSurfaces fun i r => r.lessJob k i := by
  have hsettle (ids : List Nat) (t : State)
      (ht : ∀ id ∈ ids, (t.surface id).state ≠ .sealing ∧ (t.surface id).state ≠ .discarding) :
      ids.foldl (fun w id => settleSurface id w) t = t := by
    induction ids with
    | nil => rfl
    | cons id ids ih =>
      obtain ⟨hseal, hdiscard⟩ := ht id List.mem_cons_self
      have hfirst : settleSurface id t = t := by
        rw [settleSurface_eq]
        simp [hseal, hdiscard]
      rw [List.foldl_cons, hfirst]
      exact ih fun i hi => ht i (List.mem_cons_of_mem _ hi)
  rw [releaseJob_eq]
  refine hsettle k.surfaces (s.mapSurfaces fun i r => r.lessJob k i) fun id hid => ?_
  rw [surface_mapSurfaces s (Surface.lessJob_empty k id)]
  exact h id hid

/-- R174: a completion looks at nothing but the Request Handler's collections. -/
theorem completeSeq_elsewhere (seq : Byte) (st : Status) (fields : List Byte) (s : State) (mem : List Host.Cell)
    (e : Engine) (port : Port) (surfaces : List Surface) :
    completeSeq seq st fields { s with mem := mem, pe := e, port := port, surfaces := surfaces } =
      { completeSeq seq st fields s with mem := mem, pe := e, port := port, surfaces := surfaces } := by
  unfold completeSeq
  dsimp only
  cases s.pendingReplies.find? fun p => decide (p.seq = seq) <;> rfl

/-- R55: a request that ends with the session it closed is told so. -/
def toldCancelled (link : Option Byte) (s : State) : State := link.elim s fun link => completeSeq link .cancelled [] s

theorem toldCancelled_elsewhere (link : Option Byte) (s : State) (mem : List Host.Cell) (e : Engine) (port : Port)
    (surfaces : List Surface) :
    toldCancelled link { s with mem := mem, pe := e, port := port, surfaces := surfaces } =
      { s with mem := mem, pe := e, port := port, surfaces := surfaces, replies := (toldCancelled link s).replies
               cache := (toldCancelled link s).cache, pendingReplies := (toldCancelled link s).pendingReplies } := by
  cases link with
  | none => rfl
  | some link =>
    obtain ⟨rs, c, ps, h⟩ := completeSeq_eq link .cancelled [] s
    change completeSeq link .cancelled [] { s with mem := mem, pe := e, port := port, surfaces := surfaces } =
      { s with mem := mem, pe := e, port := port, surfaces := surfaces
               replies := (completeSeq link .cancelled [] s).replies, cache := (completeSeq link .cancelled [] s).cache
               pendingReplies := (completeSeq link .cancelled [] s).pendingReplies }
    rw [completeSeq_elsewhere, h]

/-- R47, R55: the port once the session's entry is gone: a burst of an active one keeps it without being wanted. -/
def State.portAfterAbort (s : State) : Port :=
  if s.pe.jobs.head?.elim false Job.isStream then { s.port with inFlight := deadEngineBurst s.port.inFlight } else s.port

/-- R55: what an abort does: the entry leaves with its uses, the session closes, and a request that waits for its end is
told so. -/
theorem abortSession_eq {s : State} {x : Session} (hx : s.pe.session = some x) (hlaw : SessionLaw s) :
    ∃ written mem source held readOut request, abortSession s = ({ s with
        mem := mem
        pe := { jobs := s.pe.jobs.filter fun j => !j.isStream, stopped := s.pe.stopped, session := none, staging := []
                source := source, heldBurst := held, readOut := readOut, request := request }
        port := s.portAfterAbort
        surfaces := s.surfaces.mapIdx fun i r => r.lessJob (.stream x.dst x.rect) i
        replies := (toldCancelled x.link s).replies, cache := (toldCancelled x.link s).cache
        pendingReplies := (toldCancelled x.link s).pendingReplies },
        .reply .ok (le32 written ++ le32 x.received)) ∧
      (s.pe.jobs.head?.elim false Job.isStream = true →
        source = none ∧ held = none ∧ readOut = [] ∧ request = none) ∧
      (s.pe.jobs.head?.elim false Job.isStream = false →
        source = s.pe.source ∧ held = s.pe.heldBurst ∧ readOut = s.pe.readOut ∧ request = s.pe.request) ∧
      (s.streamWriteGranted = false → written = x.written ∧ mem = s.mem) ∧
      (s.streamWriteGranted = true → ∀ h j dst, s.pe.heldBurst = some h → s.pe.jobs.head? = some j →
        j.kind.destination = some dst →
        written = s.writtenAfter j.kind x (j.progress + h.pixels) ∧
          mem = applyChanges s.mem (s.surface dst).era h.changes) := by
  unfold SessionLaw at hlaw
  rw [hx] at hlaw
  obtain ⟨hstreams, -, -, -, -, -, -, -, hfilling, -, -⟩ := hlaw
  obtain ⟨mem, held, jobs, staging, written, g, hfinish, hsame, hothers, hkept, hdead, hungranted, hgranted⟩ :=
    finishGrantedStreamWrite_eq hx
  have hhead := hsame.head
  have hothers := hsame.others hothers
  rw [← hsame.streams] at hstreams
  obtain ⟨j, hj⟩ := List.length_eq_one_iff.1 ((List.length_map (f := fun k : Job => k.kind)).symm.trans
    (congrArg List.length hstreams))
  have hkind : j.kind = .stream x.dst x.rect := by simpa [hj] using hstreams
  have habort (e : Engine) (port : Port)
      (htaken : removeJobs Job.isStream (finishGrantedStreamWrite s) = { s with mem := mem, pe := e, port := port }) :
      abortSession s = (toldCancelled x.link { s with
        mem := mem, pe := e.closeSession, port := port
        surfaces := s.surfaces.mapIdx fun i r => r.lessJob (.stream x.dst x.rect) i },
        .reply .ok (le32 written ++ le32 x.received)) := by
    have hrelease : releaseJob j.kind { s with mem := mem, pe := e, port := port } =
        { s with mem := mem, pe := e, port := port
                 surfaces := s.surfaces.mapIdx fun i r => r.lessJob (.stream x.dst x.rect) i } := by
      rw [hkind]
      refine releaseJob_quiet fun id hid => ?_
      obtain rfl := List.mem_singleton.1 hid
      change (s.surface x.dst).state ≠ .sealing ∧ (s.surface x.dst).state ≠ .discarding
      rw [hfilling]
      decide
    unfold abortSession
    dsimp only
    rw [htaken, hfinish]
    dsimp only
    rw [hj, List.foldl_cons, List.foldl_nil, hrelease]
    rfl
  cases hstream : s.pe.jobs.head?.elim false Job.isStream with
  | true =>
    rw [hstream] at hhead
    have htaken := habort _ _ ((removeJobs_eq Job.isStream _).trans
      ((congrArg (jobsTaken Job.isStream) hfinish).trans (jobsTaken_of_head Job.isStream _ hhead)))
    refine ⟨written, mem, none, none, [], none, ?_, fun _ => ⟨rfl, rfl, rfl, rfl⟩, fun h => Bool.noConfusion h, hungranted,
      hgranted⟩
    rw [htaken, toldCancelled_elsewhere, ← hothers, State.portAfterAbort, if_pos hstream, ← hdead]
    rfl
  | false =>
    rw [hstream] at hhead
    obtain ⟨hheld, hg⟩ := hkept hstream
    have htaken := habort _ _ ((removeJobs_eq Job.isStream _).trans
      ((congrArg (jobsTaken Job.isStream) hfinish).trans (jobsTaken_of_not_head Job.isStream _ hhead)))
    refine ⟨written, mem, s.pe.source, s.pe.heldBurst, s.pe.readOut, s.pe.request, ?_, fun h => Bool.noConfusion h,
      fun _ => ⟨rfl, rfl, rfl, rfl⟩, hungranted, hgranted⟩
    rw [htaken, toldCancelled_elsewhere, ← hothers, State.portAfterAbort, if_neg (Bool.eq_false_iff.1 hstream),
      ← hheld, hg]
    rfl

/-- R55: an ABORT_UPLOAD with an open session. -/
theorem dealtWith_abortUpload {s : State} (seq code : Byte) {args : List Byte} (hs : s.headFrame.isSome = true)
    {x : Session} (hx : s.pe.session = some x) (hargs : args.length = 0) {v : State} {fields : List Byte}
    (habort : abortSession s = (v, .reply .ok fields)) (hv : v.ingress = s.ingress) :
    dealtWith seq code (abortUploadBody seq code args s) = answered seq ([code, 0x00] ++ fields) v := by
  have hbody : abortUploadBody seq code args s = abortSession s := by
    unfold abortUploadBody
    rw [if_neg (not_not.2 hargs), hx]
    rfl
  rw [hbody, habort]
  refine dealtWith_reply (t := v) seq code .ok fields ?_
  rw [headFrame_of_ingress hv]
  exact hs

/-- R53, R55: without a session an ABORT_UPLOAD is refused. -/
theorem dealtWith_abortUpload_none {s : State} (seq code : Byte) (args : List Byte) (hs : s.headFrame.isSome = true)
    (hx : s.pe.session = none) :
    dealtWith seq code (abortUploadBody seq code args s) = answerBy seq code
      [(decide (args.length ≠ 0), .badLength), (true, .noSession)] s s := by
  refine dealtWith_check hs fun _ => ?_
  rw [hx]
  exact dealtWith_reply seq code .noSession [] hs

theorem engineBurstLive_portAfterAbort (s : State) :
    ({ s with port := s.portAfterAbort } : State).engineBurstLive =
      (s.engineBurstLive && !s.pe.jobs.head?.elim false Job.isStream) := by
  unfold State.portAfterAbort
  cases s.pe.jobs.head?.elim false Job.isStream with
  | true =>
    rw [Bool.not_true, Bool.and_false]
    exact deadEngineBurst_not_live s _
  | false =>
    rw [Bool.not_false, Bool.and_true]
    rfl

/-- Settles O28: the rows by their bodies, and the abort read off the state it leaves. -/
theorem endAndAbortUpload : Obligations.EndAndAbortUpload := by
  unfold Obligations.EndAndAbortUpload
  refine ⟨fun s seq args h => ⟨fun hx => ?_, fun x hx => ?_⟩, fun s seq args h => ⟨fun hx => ?_, fun x hx hargs => ?_,
    fun x hx hargs hlaw hnodup => ?_⟩⟩
  · exact exec_of_dealtWith (body := endUploadBody) (after := settle) rfl h rfl
      (dealtWith_endUpload_none seq 0x22 args h.headFrame_isSome hx)
  · exact exec_of_dealtWith (body := endUploadBody) (after := settle) rfl h rfl
      (dealtWith_endUpload seq 0x22 args h.headFrame_isSome hx)
  · exact exec_of_dealtWith (body := abortUploadBody) (after := settle) rfl h rfl
      (dealtWith_abortUpload_none seq 0x23 args h.headFrame_isSome hx)
  · exact exec_of_dealtWith (body := abortUploadBody) (after := settle) rfl h rfl
      ((congrArg _ (if_pos hargs)).trans (dealtWith_reply (t := s) seq 0x23 .badLength [] h.headFrame_isSome))
  · intro granted port
    obtain ⟨written, mem, source, held, readOut, request, habort, hhead, hnothead, hungranted, hgranted⟩ :=
      abortSession_eq hx hlaw
    unfold SessionLaw at hlaw
    rw [hx] at hlaw
    obtain ⟨hstreams, -⟩ := hlaw
    refine ⟨_, written, exec_of_dealtWith (body := abortUploadBody) (after := settle) rfl h rfl
      (dealtWith_abortUpload seq 0x23 h.headFrame_isSome hx hargs habort rfl), rfl, rfl, rfl, ?_, hungranted,
      fun hg b j hb hj => ?_, fun link hlink p hp hseq => ?_, ?_, hhead, fun hstream => ?_, fun id hid => ?_,
      ⟨s.pe.jobs.filter fun j => !j.isStream, source, held, readOut, request, mem,
        s.surfaces.mapIdx fun i r => r.lessJob (.stream x.dst x.rect) i, ?_⟩⟩
    · refine (surface_mapSurfaces s (Surface.lessJob_empty (.stream x.dst x.rect) x.dst)).trans ?_
      simp [Surface.lessJob, JobKind.surfaces, JobKind.destination]
    · have hstream : j.isStream = true := by
        have hboth := (Bool.and_eq_true_iff.1 hg).1
        rw [hj] at hboth
        exact hboth
      have hkind : j.kind = .stream x.dst x.rect := by
        have hmem : j.kind ∈ (s.pe.jobs.filter Job.isStream).map (·.kind) :=
          List.mem_map_of_mem (List.mem_filter.2 ⟨List.mem_of_mem_head? hj, hstream⟩)
        rw [hstreams] at hmem
        exact List.mem_singleton.1 hmem
      obtain ⟨hw, hm⟩ := hgranted hg b j x.dst hb hj (by rw [hkind]; rfl)
      rw [hkind] at hw
      exact ⟨hw, hm⟩
    · have hdue : p.dueIn True s := ⟨hnodup, .inl ⟨trivial, hp⟩⟩
      obtain ⟨-, hanswered⟩ := (hdue.completeSeq link).2 hseq
      have htold : toldCancelled x.link s = completeSeq link .cancelled [] s := by rw [hlink]; rfl
      have hanswered := hanswered.resolve_left fun hwait => hwait.1
      rw [PendingReply.answeredIn, hseq, ← htold] at hanswered
      exact hanswered
    · exact engineBurstLive_portAfterAbort s
    · obtain ⟨h1, h2, h3, h4⟩ := hnothead hstream
      exact ⟨h1, h2, h3, h4, if_neg (Bool.eq_false_iff.1 hstream)⟩
    · refine (surface_mapSurfaces s (Surface.lessJob_empty (.stream x.dst x.rect) id)).trans ?_
      simp [Surface.lessJob, JobKind.surfaces, JobKind.destination, hid, Ne.symm hid]
    · rfl

end Sys2Proof.Machine
end

