-- ==== Sys2Proof/Proofs/StoredPixels.lean ====
section
/-! PROOF. Pixels in frame memory and as transferred data (R1, R24 to R26, R36, R52), bit by bit. -/

namespace Sys2Proof.Machine

/-! ### Bytes changed in part (R25) -/

/-- R1: what was put in is read back, and every other byte as before, whatever the order of the list. -/
theorem Memory.read_insert_any (m : List Host.Cell) (a x : Nat) (b : Byte) :
    Memory.read (Memory.insert m a b) x = if x = a then some b else Memory.read m x := by
  induction m with
  | nil => simp [Memory.insert, Memory.read, eq_comm]
  | cons d m ih =>
    obtain ⟨y, v⟩ := d
    rw [Memory.insert]
    split
    · simp [Memory.read, eq_comm]
    · split
      · next heq =>
        subst heq
        by_cases hx : x = a
        · simp [Memory.read, hx]
        · simp [Memory.read, hx, Ne.symm hx]
      · next hne =>
        simp only [Memory.read, ih]
        by_cases hx : x = a
        · subst hx
          simp [Ne.symm hne]
        · simp [hx]

/-- R25: the byte that a change makes of a byte. -/
def ByteChange.on (c : ByteChange) (old : Byte) : Byte := (old &&& ~~~c.mask) ||| (c.bits &&& c.mask)

theorem ByteChange.on_getLsbD (c : ByteChange) (old : Byte) {i : Nat} (hi : i < 8) :
    (c.on old).getLsbD i = if c.mask.getLsbD i then c.bits.getLsbD i else old.getLsbD i := by
  unfold ByteChange.on
  simp only [BitVec.getLsbD_or, BitVec.getLsbD_and, BitVec.getLsbD_not, hi, decide_true, Bool.true_and]
  cases c.mask.getLsbD i <;> simp

/-- R25: a change of the whole byte reads nothing, and comes to the same. -/
theorem Memory.change_eq (m : List Host.Cell) (era : Nat) (c : ByteChange) :
    Memory.change m era c = Memory.write m c.addr (c.on (Memory.value m era c.addr)) := by
  unfold Memory.change
  split
  · next hwhole =>
    have hbits : c.bits = c.on (Memory.value m era c.addr) := by
      refine BitVec.eq_of_getLsbD_eq fun i hi => ?_
      have hmask : c.mask.getLsbD i = true := by
        rw [hwhole, show (0xFF#8 : Byte) = BitVec.allOnes 8 from rfl, BitVec.getLsbD_allOnes]
        exact decide_eq_true hi
      rw [ByteChange.on_getLsbD c _ hi, if_pos hmask]
    rw [← hbits]
  · rfl

/-- R25: reading a byte after a change. -/
theorem Memory.value_change (m : List Host.Cell) (era : Nat) (c : ByteChange) (a : Nat) :
    Memory.value (Memory.change m era c) era a =
      if a = c.addr ∧ a < 2097152 then c.on (Memory.value m era a) else Memory.value m era a := by
  rw [Memory.change_eq]
  unfold Memory.write
  by_cases haddr : c.addr < Config.memoryBytes
  · have hlt : c.addr < 2097152 := haddr
    rw [if_pos haddr, Memory.value, Memory.read_insert_any]
    by_cases ha : a = c.addr
    · subst ha
      rw [if_pos rfl, if_pos ⟨rfl, hlt⟩]
      rfl
    · rw [if_neg ha, if_neg fun h => ha h.1]
      rfl
  · have hge : ¬ c.addr < 2097152 := haddr
    rw [if_neg haddr, if_neg fun ⟨ha, hlt⟩ => hge (ha ▸ hlt)]

/-- R25: a change touches no other byte, whatever the order of the list. -/
theorem Memory.read_change_elsewhere (m : List Host.Cell) (era : Nat) {c : ByteChange} {a : Nat} (h : a ≠ c.addr) :
    Memory.read (Memory.change m era c) a = Memory.read m a := by
  rw [Memory.change_eq]
  unfold Memory.write
  split
  · rw [Memory.read_insert_any, if_neg h]
  · rfl

/-- R25, R36: changes of one byte joined write what making them one after another writes. -/
theorem value_applyChanges_addChange (m : List Host.Cell) (era : Nat) (c : ByteChange) (held : List ByteChange) (a : Nat) :
    Memory.value (applyChanges m era (addChange c held)) era a =
      Memory.value (Memory.change (applyChanges m era held) era c) era a := by
  cases held with
  | nil => rfl
  | cons d ds =>
    rw [addChange]
    by_cases hsame : d.addr = c.addr
    · rw [if_pos hsame]
      change Memory.value (Memory.change (applyChanges m era ds) era _) era a =
        Memory.value (Memory.change (Memory.change (applyChanges m era ds) era d) era c) era a
      rw [Memory.value_change, Memory.value_change, Memory.value_change, hsame]
      by_cases ha : a = c.addr ∧ a < 2097152
      · rw [if_pos ha, if_pos ha, if_pos ha]
        refine BitVec.eq_of_getLsbD_eq fun i hi => ?_
        rw [ByteChange.on_getLsbD _ _ hi, ByteChange.on_getLsbD _ _ hi, ByteChange.on_getLsbD _ _ hi]
        simp only [BitVec.getLsbD_or, BitVec.getLsbD_and, BitVec.getLsbD_not, hi, decide_true, Bool.true_and]
        cases d.mask.getLsbD i <;> cases c.mask.getLsbD i <;> simp
      · rw [if_neg ha, if_neg ha, if_neg ha]
    · rw [if_neg hsame]
      rfl

/-! ### The bits of frame memory (R24) -/

/-- R1, R24: bit `k` of frame memory, counting the bits of each byte from its least significant one. -/
def memoryBit (m : List Host.Cell) (era k : Nat) : Bool := (Memory.value m era (k / 8)).getLsbD (k % 8)

theorem memoryBit_change (m : List Host.Cell) (era : Nat) (c : ByteChange) (k : Nat) :
    memoryBit (Memory.change m era c) era k =
      if (k / 8 = c.addr ∧ k / 8 < 2097152) ∧ c.mask.getLsbD (k % 8) = true then c.bits.getLsbD (k % 8)
      else memoryBit m era k := by
  unfold memoryBit
  rw [Memory.value_change]
  by_cases ha : k / 8 = c.addr ∧ k / 8 < 2097152
  · rw [if_pos ha, ByteChange.on_getLsbD _ _ (Nat.mod_lt _ (by decide))]
    exact if_congr ⟨fun h => ⟨ha, h⟩, And.right⟩ rfl rfl
  · rw [if_neg ha, if_neg fun h => ha h.1]

/-- R24: the number of the first bit of stored pixel (u, v). -/
def Surface.pixelBit (r : Surface) (u v : Nat) : Nat := 8 * r.rowAddress v + u * r.format.bpp

theorem Surface.pixelBit_eq (r : Surface) (u v : Nat) : r.pixelBit u v = 8 * r.pixelAddress u v + r.pixelShift u := by
  unfold Surface.pixelBit Surface.pixelAddress Surface.pixelShift
  omega

/-- R24: a pixel lies within its one or two bytes. -/
theorem Surface.pixelShift_le (r : Surface) (u : Nat) :
    r.pixelShift u + r.format.bpp ≤ if r.format = .rgb16 then 16 else 8 := by
  unfold Surface.pixelShift
  cases r.format <;> simp only [Format.bpp] <;> simp <;> omega

/-- R24: the raw value of a pixel is read off its bits. -/
theorem rawPixel_testBit (m : List Host.Cell) (r : Surface) (u v : Nat) {i : Nat} (hi : i < r.format.bpp) :
    (rawPixel m r u v).testBit i = memoryBit m r.era (r.pixelBit u v + i) := by
  have hshift := r.pixelShift_le u
  rw [Surface.pixelBit_eq]
  unfold memoryBit rawPixel
  generalize hf : r.format = f at hi hshift ⊢
  have hsmall (hle : r.pixelShift u + f.bpp ≤ 8) :
      ((Memory.value m r.era (r.pixelAddress u v)).toNat / 2 ^ r.pixelShift u % 2 ^ f.bpp).testBit i =
        (Memory.value m r.era ((8 * r.pixelAddress u v + r.pixelShift u + i) / 8)).getLsbD
          ((8 * r.pixelAddress u v + r.pixelShift u + i) % 8) := by
    have hdiv : (8 * r.pixelAddress u v + r.pixelShift u + i) / 8 = r.pixelAddress u v := by omega
    have hmod : (8 * r.pixelAddress u v + r.pixelShift u + i) % 8 = r.pixelShift u + i := by omega
    rw [hdiv, hmod, Nat.testBit_mod_two_pow, decide_eq_true hi, Bool.true_and, Nat.testBit_div_two_pow, Nat.add_comm i]
    rfl
  cases f with
  | ov2 => exact hsmall hshift
  | ix4 => exact hsmall hshift
  | ix8 => exact hsmall hshift
  | rgb16 =>
    have hi : i < 16 := hi
    have hzero : r.pixelShift u = 0 := by
      unfold Surface.pixelShift
      rw [hf]
      change u * 16 % 8 = 0
      omega
    have hlow := (Memory.value m r.era (r.pixelAddress u v)).isLt
    dsimp only
    rw [hzero, Nat.add_comm (BitVec.toNat _), show 256 = 2 ^ 8 from rfl, Nat.testBit_two_pow_mul_add _ hlow]
    by_cases h : i < 8
    · have hdiv : (8 * r.pixelAddress u v + 0 + i) / 8 = r.pixelAddress u v := by omega
      have hmod : (8 * r.pixelAddress u v + 0 + i) % 8 = i := by omega
      rw [if_pos h, hdiv, hmod]
      rfl
    · have hdiv : (8 * r.pixelAddress u v + 0 + i) / 8 = r.pixelAddress u v + 1 := by omega
      have hmod : (8 * r.pixelAddress u v + 0 + i) % 8 = i - 8 := by omega
      rw [if_neg h, hdiv, hmod]
      rfl

theorem rawPixel_lt (m : List Host.Cell) (r : Surface) (u v : Nat) : rawPixel m r u v < 2 ^ r.format.bpp := by
  unfold rawPixel
  cases r.format with
  | rgb16 =>
    have hlow := (Memory.value m r.era (r.pixelAddress u v)).isLt
    have hhigh := (Memory.value m r.era (r.pixelAddress u v + 1)).isLt
    dsimp only [Format.bpp]
    omega
  | _ => exact Nat.mod_lt _ (by decide)

/-- R24: raw values with the same bits are the same. -/
theorem eq_of_bits {b x y : Nat} (hx : x < 2 ^ b) (hy : y < 2 ^ b) (h : ∀ i < b, x.testBit i = y.testBit i) : x = y := by
  refine Nat.eq_of_testBit_eq fun i => ?_
  by_cases hi : i < b
  · exact h i hi
  · have hpow : 2 ^ b ≤ 2 ^ i := Nat.pow_le_pow_right (by decide) (Nat.not_lt.1 hi)
    rw [Nat.testBit_lt_two_pow (lt_of_lt_of_le hx hpow), Nat.testBit_lt_two_pow (lt_of_lt_of_le hy hpow)]

/-- R192: a bit of a number's byte. -/
theorem byteOf_getLsbD (n : Nat) {i : Nat} (hi : i < 8) : (byteOf n).getLsbD i = n.testBit i := by
  unfold byteOf
  rw [BitVec.getLsbD_ofNat, decide_eq_true hi, Bool.true_and]

/-- R25: the mask of a pixel within its byte. -/
theorem fieldMask_getLsbD {b s i : Nat} (hi : i < 8) :
    (byteOf ((2 ^ b - 1) * 2 ^ s)).getLsbD i = decide (s ≤ i ∧ i < s + b) := by
  rw [byteOf_getLsbD _ hi, Nat.testBit_mul_two_pow, Nat.testBit_two_pow_sub_one, Bool.decide_and]
  by_cases h : s ≤ i
  · simp only [h, decide_true, Bool.true_and, decide_eq_decide]
    omega
  · simp [h]

/-- R24, R25: setting a stored pixel changes its bits and no other. -/
theorem memoryBit_setPixel (m : List Host.Cell) (r : Surface) (u v value k : Nat)
    (hin : r.pixelAddress u v + (if r.format = .rgb16 then 2 else 1) ≤ 2097152) :
    memoryBit (applyChanges m r.era (pixelChanges r u v value)) r.era k =
      if r.pixelBit u v ≤ k ∧ k < r.pixelBit u v + r.format.bpp then value.testBit (k - r.pixelBit u v)
      else memoryBit m r.era k := by
  have hshift := r.pixelShift_le u
  have hk := Nat.mod_lt k (show 0 < 8 by decide)
  rw [Surface.pixelBit_eq]
  unfold pixelChanges
  generalize hf : r.format = f at hin hshift ⊢
  generalize r.pixelAddress u v = a at hin ⊢
  have hsmall (hle : r.pixelShift u + f.bpp ≤ 8) (ha : a + 1 ≤ 2097152) :
      memoryBit (Memory.change m r.era ⟨a, byteOf ((2 ^ f.bpp - 1) * 2 ^ r.pixelShift u),
          byteOf (value * 2 ^ r.pixelShift u)⟩) r.era k =
        if 8 * a + r.pixelShift u ≤ k ∧ k < 8 * a + r.pixelShift u + f.bpp then
          value.testBit (k - (8 * a + r.pixelShift u)) else memoryBit m r.era k := by
    rw [memoryBit_change]
    dsimp only
    rw [fieldMask_getLsbD hk, byteOf_getLsbD _ hk, Nat.testBit_mul_two_pow]
    by_cases hbit : 8 * a + r.pixelShift u ≤ k ∧ k < 8 * a + r.pixelShift u + f.bpp
    · have hindex : k % 8 - r.pixelShift u = k - (8 * a + r.pixelShift u) := by omega
      have hmask : r.pixelShift u ≤ k % 8 ∧ k % 8 < r.pixelShift u + f.bpp := by omega
      rw [if_pos hbit, if_pos ⟨⟨by omega, by omega⟩, decide_eq_true hmask⟩, decide_eq_true hmask.1, Bool.true_and, hindex]
    · rw [if_neg hbit, if_neg]
      rintro ⟨⟨hbyte, -⟩, hmask⟩
      have hmask := of_decide_eq_true hmask
      omega
  cases f with
  | ov2 => exact hsmall hshift hin
  | ix4 => exact hsmall hshift hin
  | ix8 => exact hsmall hshift hin
  | rgb16 =>
    have hin : a + 2 ≤ 2097152 := hin
    have hzero : r.pixelShift u = 0 := by
      unfold Surface.pixelShift
      rw [hf]
      change u * 16 % 8 = 0
      omega
    have hwhole : (0xFF#8 : Byte).getLsbD (k % 8) = true := by
      rw [show (0xFF#8 : Byte) = BitVec.allOnes 8 from rfl, BitVec.getLsbD_allOnes]
      exact decide_eq_true hk
    change memoryBit (Memory.change (Memory.change m r.era ⟨a + 1, 0xFF#8, byteOf (value / 256)⟩) r.era
      ⟨a, 0xFF#8, byteOf value⟩) r.era k = _
    have hbpp : Format.rgb16.bpp = 16 := rfl
    rw [memoryBit_change, memoryBit_change]
    simp only [hwhole, and_true, byteOf_getLsbD _ hk]
    rw [show 256 = 2 ^ 8 from rfl, Nat.testBit_div_two_pow]
    by_cases hlow : k / 8 = a
    · have hindex : k % 8 = k - (8 * a + r.pixelShift u) := by omega
      have hbit : 8 * a + r.pixelShift u ≤ k ∧ k < 8 * a + r.pixelShift u + Format.rgb16.bpp := by omega
      rw [if_pos ⟨hlow, by omega⟩, if_pos hbit, hindex]
    · have hfirst : ¬ (k / 8 = a ∧ k / 8 < 2097152) := fun h => hlow h.1
      rw [if_neg hfirst]
      by_cases hhigh : k / 8 = a + 1
      · have hindex : k % 8 + 8 = k - (8 * a + r.pixelShift u) := by omega
        have hbit : 8 * a + r.pixelShift u ≤ k ∧ k < 8 * a + r.pixelShift u + Format.rgb16.bpp := by omega
        rw [if_pos ⟨hhigh, by omega⟩, if_pos hbit, hindex]
      · have hbit : ¬ (8 * a + r.pixelShift u ≤ k ∧ k < 8 * a + r.pixelShift u + Format.rgb16.bpp) := by omega
        rw [if_neg fun h => hhigh h.1, if_neg hbit]

/-- R3: a stored row holds its pixels. -/
theorem stride_holds {f : Format} {u storedWidth : Nat} (h : u < storedWidth) :
    u * f.bpp + f.bpp ≤ 8 * strideOf f storedWidth := by
  have hrow : (u + 1) * f.bpp ≤ storedWidth * f.bpp := Nat.mul_le_mul_right _ h
  unfold strideOf ceilDiv
  rw [Nat.add_mul] at hrow
  omega

/-- R24: the bits of two pixels of a surface do not meet. -/
theorem Surface.pixelBit_apart {r : Surface} {u v u' v' : Nat} (hstride : r.stride = strideOf r.format r.storedWidth)
    (hu : u < r.storedWidth) (hu' : u' < r.storedWidth) (hne : (u', v') ≠ (u, v)) :
    r.pixelBit u v + r.format.bpp ≤ r.pixelBit u' v' ∨ r.pixelBit u' v' + r.format.bpp ≤ r.pixelBit u v := by
  have hrow := stride_holds (f := r.format) hu
  have hrow' := stride_holds (f := r.format) hu'
  rw [← hstride] at hrow hrow'
  unfold Surface.pixelBit Surface.rowAddress
  have hrows {w w' : Nat} (h : w < w') : w * r.stride + r.stride ≤ w' * r.stride := by
    rw [← Nat.succ_mul]
    exact Nat.mul_le_mul_right _ h
  have hcolumns {w w' : Nat} (h : w < w') : w * r.format.bpp + r.format.bpp ≤ w' * r.format.bpp := by
    rw [← Nat.succ_mul]
    exact Nat.mul_le_mul_right _ h
  rcases Nat.lt_trichotomy v v' with hv | rfl | hv
  · have := hrows hv
    omega
  · rcases Nat.lt_trichotomy u u' with hlt | rfl | hlt
    · have := hcolumns hlt
      omega
    · exact absurd rfl hne
    · have := hcolumns hlt
      omega
  · have := hrows hv
    omega

/-- R24, R25: the changes of a pixel lie in its own bytes. -/
theorem pixelChanges_addr {r : Surface} {u v value : Nat} {c : ByteChange} (h : c ∈ pixelChanges r u v value) :
    r.pixelAddress u v ≤ c.addr ∧ c.addr < r.pixelAddress u v + (if r.format = .rgb16 then 2 else 1) := by
  unfold pixelChanges at h
  cases hf : r.format with
  | rgb16 =>
    rw [hf] at h
    rcases List.mem_cons.1 h with rfl | h
    · simp
    · obtain rfl := List.mem_singleton.1 h
      simp
  | _ =>
    rw [hf] at h
    obtain rfl := List.mem_singleton.1 h
    simp

theorem read_applyChanges_elsewhere (m : List Host.Cell) (era : Nat) {changes : List ByteChange} {a : Nat}
    (h : ∀ c ∈ changes, a ≠ c.addr) : Memory.read (applyChanges m era changes) a = Memory.read m a := by
  induction changes with
  | nil => rfl
  | cons c cs ih =>
    refine (Memory.read_change_elsewhere _ era (h c List.mem_cons_self)).trans (ih fun d hd => ?_)
    exact h d (List.mem_cons_of_mem _ hd)

/-! ### Packed pixels (R26) -/

/-- R26: bit `k` of transferred data. -/
def packedBit (bytes : List Byte) (k : Nat) : Bool := (bytes.getD (k / 8) 0).getLsbD (k % 8)

theorem packedBit_cons (b : Byte) (bytes : List Byte) (k : Nat) :
    packedBit (b :: bytes) k = if k < 8 then b.getLsbD k else packedBit bytes (k - 8) := by
  unfold packedBit
  by_cases h : k < 8
  · have hdiv : k / 8 = 0 := by omega
    have hmod : k % 8 = k := by omega
    rw [if_pos h, hdiv, hmod]
    rfl
  · have hdiv : k / 8 = (k - 8) / 8 + 1 := by omega
    have hmod : (k - 8) % 8 = k % 8 := by omega
    rw [if_neg h, hdiv, hmod]
    rfl

theorem packedBit_nil (k : Nat) : packedBit [] k = false := by
  unfold packedBit
  simp

/-- R26: bit `k` of pixels put one after another, `b` bits each. -/
def pixelsBit (b : Nat) (pixels : List Nat) (k : Nat) : Bool := (pixels.getD (k / b) 0).testBit (k % b)

theorem pixelsBit_cons {b : Nat} (hb : 0 < b) (p : Nat) (pixels : List Nat) (k : Nat) :
    pixelsBit b (p :: pixels) k = if k < b then p.testBit k else pixelsBit b pixels (k - b) := by
  unfold pixelsBit
  by_cases h : k < b
  · rw [if_pos h, Nat.div_eq_of_lt h, Nat.mod_eq_of_lt h]
    rfl
  · rw [if_neg h, Nat.div_eq_sub_div hb (Nat.not_lt.1 h), Nat.mod_eq_sub_mod (Nat.not_lt.1 h)]
    rfl

theorem pixelsBit_nil (b k : Nat) : pixelsBit b [] k = false := by
  unfold pixelsBit
  simp

/-- R26: the bits of a byte that holds whole pixels. -/
theorem packedByte_testBit {b p q : Nat} (hp : p < 2 ^ b) (i : Nat) :
    (p + 2 ^ b * q).testBit i = if i < b then p.testBit i else q.testBit (i - b) := by
  rw [Nat.add_comm, Nat.testBit_two_pow_mul_add q hp]

section
variable {f : Format} {pixels : List Nat}

theorem packedBit_ov2 {p q r t : Nat} {pixels : List Nat} (h : p < 4 ∧ q < 4 ∧ r < 4 ∧ t < 4) (bytes : List Byte)
    (hrest : ∀ k, packedBit bytes k = pixelsBit 2 pixels k) (k : Nat) :
    packedBit (byteOf (p + 4 * q + 16 * r + 64 * t) :: bytes) k = pixelsBit 2 (p :: q :: r :: t :: pixels) k := by
  obtain ⟨hp, hq, hr, ht⟩ := h
  have hnest : p + 4 * q + 16 * r + 64 * t = p + 2 ^ 2 * (q + 2 ^ 2 * (r + 2 ^ 2 * t)) := by omega
  rw [packedBit_cons, hnest]
  simp only [pixelsBit_cons (show 0 < 2 by decide)]
  by_cases hk : k < 8
  · rw [if_pos hk, byteOf_getLsbD _ hk, packedByte_testBit hp, packedByte_testBit hq, packedByte_testBit hr]
    by_cases h0 : k < 2
    · rw [if_pos h0, if_pos h0]
    · by_cases h1 : k - 2 < 2
      · rw [if_neg h0, if_neg h0, if_pos h1, if_pos h1]
      · by_cases h2 : k - 2 - 2 < 2
        · rw [if_neg h0, if_neg h0, if_neg h1, if_neg h1, if_pos h2, if_pos h2]
        · rw [if_neg h0, if_neg h0, if_neg h1, if_neg h1, if_neg h2, if_neg h2, if_pos (by omega)]
  · rw [if_neg hk, if_neg (by omega), if_neg (by omega), if_neg (by omega), if_neg (by omega), hrest]
    exact congrArg _ (by omega)

theorem packedBit_ix4 {p q : Nat} {pixels : List Nat} (h : p < 16 ∧ q < 16) (bytes : List Byte)
    (hrest : ∀ k, packedBit bytes k = pixelsBit 4 pixels k) (k : Nat) :
    packedBit (byteOf (p + 16 * q) :: bytes) k = pixelsBit 4 (p :: q :: pixels) k := by
  obtain ⟨hp, hq⟩ := h
  rw [packedBit_cons, show 16 = 2 ^ 4 from rfl]
  simp only [pixelsBit_cons (show 0 < 4 by decide)]
  by_cases hk : k < 8
  · rw [if_pos hk, byteOf_getLsbD _ hk, packedByte_testBit hp]
    by_cases h0 : k < 4
    · rw [if_pos h0, if_pos h0]
    · rw [if_neg h0, if_neg h0, if_pos (by omega)]
  · rw [if_neg hk, if_neg (by omega), if_neg (by omega), hrest]
    exact congrArg _ (by omega)

/-- A pixel of value 0 past the last one adds no bit. -/
theorem pixelsBit_append_zero {b : Nat} (hb : 0 < b) (pixels : List Nat) (k : Nat) :
    pixelsBit b (pixels ++ [0]) k = pixelsBit b pixels k := by
  induction pixels generalizing k with
  | nil => simp [pixelsBit_cons hb, pixelsBit_nil]
  | cons p pixels ih => rw [List.cons_append, pixelsBit_cons hb, pixelsBit_cons hb, ih]

/-- R26: transferred data has the bits of its pixels, one after another, and then zeros. -/
theorem packedBit_packPixels : (f : Format) → (pixels : List Nat) → (∀ p ∈ pixels, p < 2 ^ f.bpp) → ∀ k,
    packedBit (packPixels f pixels) k = pixelsBit f.bpp pixels k
  | _, [], _, k => by rw [pixelsBit_nil]; exact packedBit_nil k
  | .rgb16, p :: pixels, h, k => by
    have hrest := packedBit_packPixels .rgb16 pixels fun q hq => h q (List.mem_cons_of_mem _ hq)
    change packedBit (byteOf p :: byteOf (p / 256) :: packPixels .rgb16 pixels) k = pixelsBit 16 (p :: pixels) k
    rw [packedBit_cons, packedBit_cons, pixelsBit_cons (by decide), hrest]
    by_cases hlow : k < 8
    · rw [if_pos hlow, if_pos (by omega), byteOf_getLsbD _ hlow]
    · rw [if_neg hlow]
      by_cases hhigh : k - 8 < 8
      · have hindex : k - 8 + 8 = k := by omega
        rw [if_pos hhigh, if_pos (by omega), byteOf_getLsbD _ hhigh, show 256 = 2 ^ 8 from rfl, Nat.testBit_div_two_pow,
          hindex]
      · rw [if_neg hhigh, if_neg (by omega)]
        rfl
  | .ix8, p :: pixels, h, k => by
    have hrest := packedBit_packPixels .ix8 pixels fun q hq => h q (List.mem_cons_of_mem _ hq)
    change packedBit (byteOf p :: packPixels .ix8 pixels) k = pixelsBit 8 (p :: pixels) k
    rw [packedBit_cons, pixelsBit_cons (by decide), hrest]
    by_cases hlow : k < 8
    · rw [if_pos hlow, if_pos hlow, byteOf_getLsbD _ hlow]
    · rw [if_neg hlow, if_neg hlow]
      rfl
  | .ix4, [p], h, k => by
    refine (packedBit_ix4 (p := p) (q := 0) (pixels := []) ⟨h p List.mem_cons_self, by decide⟩ []
      (fun k => (packedBit_nil k).trans (pixelsBit_nil 4 k).symm) k).trans ?_
    exact pixelsBit_append_zero (by decide) [p] k
  | .ix4, p :: q :: pixels, h, k =>
    packedBit_ix4 ⟨h p (by simp), h q (by simp)⟩ _
      (packedBit_packPixels .ix4 pixels fun x hx => h x (by simp [hx])) k
  | .ov2, [p], h, k => by
    refine (packedBit_ov2 (p := p) (q := 0) (r := 0) (t := 0) (pixels := []) ⟨h p (by simp), by decide⟩ []
      (fun k => (packedBit_nil k).trans (pixelsBit_nil 2 k).symm) k).trans ?_
    refine (pixelsBit_append_zero (by decide) [p, 0, 0] k).trans ?_
    refine (pixelsBit_append_zero (by decide) [p, 0] k).trans ?_
    exact pixelsBit_append_zero (by decide) [p] k
  | .ov2, [p, q], h, k => by
    refine (packedBit_ov2 (p := p) (q := q) (r := 0) (t := 0) (pixels := [])
      ⟨h p (by simp), h q (by simp), by decide⟩ []
      (fun k => (packedBit_nil k).trans (pixelsBit_nil 2 k).symm) k).trans ?_
    refine (pixelsBit_append_zero (by decide) [p, q, 0] k).trans ?_
    exact pixelsBit_append_zero (by decide) [p, q] k
  | .ov2, [p, q, r], h, k => by
    refine (packedBit_ov2 (p := p) (q := q) (r := r) (t := 0) (pixels := [])
      ⟨h p (by simp), h q (by simp), h r (by simp), by decide⟩ []
      (fun k => (packedBit_nil k).trans (pixelsBit_nil 2 k).symm) k).trans ?_
    exact pixelsBit_append_zero (by decide) [p, q, r] k
  | .ov2, p :: q :: r :: t :: pixels, h, k =>
    packedBit_ov2 ⟨h p (by simp), h q (by simp), h r (by simp), h t (by simp)⟩ _
      (packedBit_packPixels .ov2 pixels fun x hx => h x (by simp [hx])) k

/-- R26: the bytes in which pixels are transferred. -/
theorem packPixels_length : (f : Format) → (pixels : List Nat) → (packPixels f pixels).length = transferBytes f pixels.length
  | f, [] => by cases f <;> rfl
  | .rgb16, p :: pixels => by
    have hrest := packPixels_length .rgb16 pixels
    simp only [packPixels, List.length_cons, hrest, transferBytes, ceilDiv, Format.bpp]
    omega
  | .ix8, p :: pixels => by
    have hrest := packPixels_length .ix8 pixels
    simp only [packPixels, List.length_cons, hrest, transferBytes, ceilDiv, Format.bpp]
    omega
  | .ix4, [_] => by simp [packPixels, transferBytes, ceilDiv, Format.bpp]
  | .ix4, _ :: _ :: pixels => by
    have hrest := packPixels_length .ix4 pixels
    simp only [packPixels, List.length_cons, hrest, transferBytes, ceilDiv, Format.bpp]
    omega
  | .ov2, [_] => by simp [packPixels, transferBytes, ceilDiv, Format.bpp]
  | .ov2, [_, _] => by simp [packPixels, transferBytes, ceilDiv, Format.bpp]
  | .ov2, [_, _, _] => by simp [packPixels, transferBytes, ceilDiv, Format.bpp]
  | .ov2, _ :: _ :: _ :: _ :: pixels => by
    have hrest := packPixels_length .ov2 pixels
    simp only [packPixels, List.length_cons, hrest, transferBytes, ceilDiv, Format.bpp]
    omega

/-- R26: pixel `k` of transferred data. -/
theorem unpackPixel_packPixels (h : ∀ p ∈ pixels, p < 2 ^ f.bpp) {k p : Nat} (hp : pixels[k]? = some p) :
    unpackPixel f (packPixels f pixels) (k * f.bpp) = p := by
  have haligned : k * f.bpp % 8 % f.bpp = 0 := by
    cases f <;> simp only [Format.bpp] <;> omega
  refine eq_of_bits (unpackPixel_lt f _ _) (h p (List.mem_of_getElem? hp)) fun i hi => ?_
  have hdiv : (k * f.bpp + i) / f.bpp = k := by
    rw [Nat.add_comm, Nat.add_mul_div_right _ _ (by omega), Nat.div_eq_of_lt hi, Nat.zero_add]
  have hmod : (k * f.bpp + i) % f.bpp = i := by
    rw [Nat.add_comm, Nat.add_mul_mod_self_right, Nat.mod_eq_of_lt hi]
  rw [unpackPixel_testBit _ haligned hi]
  refine (packedBit_packPixels f pixels h (k * f.bpp + i)).trans ?_
  rw [pixelsBit, hdiv, hmod, List.getD_eq_getElem?_getD, hp]
  rfl

/-- R26: the unused high bits are 0. -/
theorem packPixels_high_bits (h : ∀ p ∈ pixels, p < 2 ^ f.bpp) {bit : Nat} (hbit : pixels.length * f.bpp ≤ bit) :
    arg8 (packPixels f pixels) (bit / 8) / 2 ^ (bit % 8) % 2 = 0 := by
  have hzero : packedBit (packPixels f pixels) bit = false := by
    have hpast : pixels.length ≤ bit / f.bpp := (Nat.le_div_iff_mul_le f.bpp_pos).2 hbit
    rw [packedBit_packPixels f pixels h, pixelsBit, List.getD_eq_getElem?_getD, List.getElem?_eq_none hpast]
    simp
  have htest : (arg8 (packPixels f pixels) (bit / 8)).testBit (bit % 8) = false := hzero
  rw [Nat.testBit_eq_decide_div_mod_eq] at htest
  have hne := of_decide_eq_false htest
  omega

end

/-! ### The statement -/

/-- R24: the bytes and bits of a stored pixel, format by format. -/
theorem rawPixel_by_format (m : List Host.Cell) (r : Surface) (u v : Nat) :
    let row := r.base * 4096 + v * r.stride
    let rowByte (i : Nat) : Nat := (Memory.value m r.era (row + i)).toNat
    rawPixel m r u v = match r.format with
      | .ov2 => rowByte (u / 4) / 2 ^ (2 * (u % 4)) % 4
      | .ix4 => rowByte (u / 2) / (if u % 2 = 0 then 1 else 16) % 16
      | .ix8 => rowByte u
      | .rgb16 => rowByte (2 * u) + 256 * rowByte (2 * u + 1) := by
  intro row rowByte
  have haddress : r.pixelAddress u v = row + u * r.format.bpp / 8 := rfl
  unfold rawPixel Surface.pixelShift
  dsimp only
  rw [haddress]
  cases r.format with
  | ov2 =>
    have hbyte : u * 2 / 8 = u / 4 := by omega
    have hshift : u * 2 % 8 = 2 * (u % 4) := by omega
    simp only [Format.bpp, hbyte, hshift]
    rfl
  | ix4 =>
    have hbyte : u * 4 / 8 = u / 2 := by omega
    simp only [Format.bpp, hbyte]
    by_cases heven : u % 2 = 0
    · have hshift : u * 4 % 8 = 0 := by omega
      rw [if_pos heven, hshift]
      rfl
    · have hshift : u * 4 % 8 = 4 := by omega
      rw [if_neg heven, hshift]
      rfl
  | ix8 =>
    have hbyte : u * 8 / 8 = u := by omega
    have hshift : u * 8 % 8 = 0 := by omega
    simp only [Format.bpp, hbyte, hshift, Nat.pow_zero, Nat.div_one]
    exact Nat.mod_eq_of_lt (Memory.value m r.era (row + u)).isLt
  | rgb16 =>
    have hbyte : u * 16 / 8 = 2 * u := by omega
    simp only [Format.bpp, hbyte, rowByte, Nat.add_assoc]

/-- Settles O24: a pixel set is a run of memory bits set; packed data is the pixels' bits in a row. -/
theorem pixelsInMemoryAndOnTheLink : Obligations.PixelsInMemoryAndOnTheLink := by
  unfold Obligations.PixelsInMemoryAndOnTheLink
  refine ⟨fun m r u v => ?_, fun m r u v value hstride hu hin hvalue => ?_, value_applyChanges_addChange,
    fun f pixels h => ⟨packPixels_length f pixels, fun k p hp => unpackPixel_packPixels h hp, fun bit hbit _ =>
      packPixels_high_bits h hbit⟩⟩
  · intro row rowByte
    exact ⟨rfl, rawPixel_by_format m r u v⟩
  · intro after
    refine ⟨?_, fun u' v' hu' hne => ?_, fun a ha => read_applyChanges_elsewhere m r.era fun c hc => ?_⟩
    · refine eq_of_bits (rawPixel_lt after r u v) hvalue fun i hi => ?_
      rw [rawPixel_testBit _ _ _ _ hi, memoryBit_setPixel m r u v value _ hin, if_pos (by omega), Nat.add_sub_cancel_left]
    · refine eq_of_bits (rawPixel_lt after r u' v') (rawPixel_lt m r u' v') fun i hi => ?_
      have hapart := Surface.pixelBit_apart hstride hu hu' hne
      rw [rawPixel_testBit _ _ _ _ hi, rawPixel_testBit _ _ _ _ hi, memoryBit_setPixel m r u v value _ hin,
        if_neg (by omega)]
    · have haddr := pixelChanges_addr hc
      omega

end Sys2Proof.Machine
end

