-- ==== Sys2Proof/Proofs/ResetState.lean ====
section
/-! PROOF. The values after the first hard reset, and the laws of the device there (R22, R58, R81, R106, R113, R131, R144,
R145, R164, R166, R190). -/

namespace Sys2Proof.Machine

theorem reset_surface (id : Nat) : State.reset.surface id = .empty := by
  unfold State.surface State.reset
  dsimp only
  rw [List.getD_eq_getElem?_getD, List.getElem?_replicate]
  split <;> rfl

theorem reset_ou (o : OutputId) : State.reset.ou o = .reset := by cases o <;> rfl

theorem reset_pres (o : OutputId) : State.reset.pres o = .reset := by cases o <;> rfl

/-- R106: entry `i` of the palette after reset. -/
theorem resetPalette_getD {i : Nat} (hi : i < 256) : resetPalette.getD i .black = ⟨byteOf i, byteOf i, byteOf i⟩ := by
  unfold resetPalette
  rw [List.getD_eq_getElem?_getD, List.getElem?_map, List.getElem?_range hi]
  rfl

theorem resetPalette_length : resetPalette.length = 256 := by
  unfold resetPalette
  rw [List.length_map, List.length_range]

theorem reset_granules (g : Nat) : State.reset.granules.getD g none = none := by
  unfold State.reset
  dsimp only
  rw [List.getD_eq_getElem?_getD, List.getElem?_replicate]
  split <;> rfl

theorem reset_slots (i : Nat) : State.reset.slots.getD i none = none := by
  unfold State.reset
  dsimp only
  rw [List.getD_eq_getElem?_getD, List.getElem?_replicate]
  split <;> rfl

/-- R173, R175: no request is pending, and no reply cached, after reset. -/
theorem reset_handlerLaw : HandlerLaw State.reset :=
  ⟨by decide, by decide, by decide, List.nodup_nil, List.nodup_nil, fun _ h => absurd h List.not_mem_nil,
    fun h => (by cases h), fun h => (by cases h)⟩

theorem reset_slotsLaw : SlotsLaw State.reset := by
  refine ⟨rfl, List.nodup_nil, fun _ h => absurd h List.not_mem_nil, fun i _ => ?_⟩
  rw [reset_slots]
  exact ⟨fun h => (by cases h), fun h => absurd h List.not_mem_nil⟩

theorem reset_wireLaw : WireLaw State.reset :=
  ⟨rfl, by decide, fun _ => rfl, fun h => by cases h⟩

theorem reset_noticeLaw : NoticeLaw State.reset := by
  unfold NoticeLaw
  decide

theorem reset_outputLawful (o : OutputId) : outputLawful o .reset :=
  ⟨⟨rfl, rfl⟩, fun h => (by cases h), fun _ => ⟨rfl, rfl⟩, fun _ => ⟨rfl, rfl⟩, fun _ => rfl, fun h => by cases h⟩

theorem reset_presentationLawful (o : OutputId) (u : OutputUnit) : presentationLawful o u .reset :=
  ⟨by decide, fun _ => ⟨rfl, rfl, rfl, rfl⟩, by decide, fun _ h => absurd h List.not_mem_nil⟩

theorem reset_budgetLaw : BudgetLaw State.reset := by
  unfold BudgetLaw reservedLawful
  decide

theorem reset_paletteLawful : paletteLawful .reset :=
  ⟨resetPalette_length, resetPalette_length, fun _ => rfl, fun _ => rfl⟩

theorem reset_lineStoreLawful : lineStoreLawful .reset := ⟨rfl, rfl⟩

theorem reset_surfaceTableLaw : SurfaceTableLaw State.reset := by
  refine ⟨List.length_replicate, List.length_replicate, fun id _ h => ?_, fun id _ _ => ?_, fun g _ id _ => ?_, fun g _ => ?_⟩
  · rw [reset_surface] at h
    exact absurd rfl h
  · rw [reset_surface]
    exact ⟨rfl, rfl, rfl, rfl⟩
  · rw [reset_granules, reset_surface]
    exact ⟨fun h => (by cases h), fun h => absurd rfl h.1⟩
  · rw [reset_granules]
    trivial

theorem reset_useCountLaw : UseCountLaw State.reset := by
  refine ⟨fun _ h => absurd h List.not_mem_nil, fun _ h => absurd h List.not_mem_nil, fun id _ => ?_⟩
  rw [reset_surface]
  exact ⟨rfl, rfl, rfl, rfl, rfl⟩

theorem reset_framesShaped : framesShaped State.reset .reset :=
  ⟨fun _ h => absurd h List.not_mem_nil, fun _ h => absurd h List.not_mem_nil⟩

theorem reset_jobQueueLaw : JobQueueLaw State.reset :=
  ⟨by decide, fun _ h => absurd h List.not_mem_nil, fun _ h => absurd h List.not_mem_nil, rfl, rfl, rfl⟩

theorem reset_burstLaw : BurstLaw State.reset :=
  ⟨trivial, trivial, trivial, fun _ h => absurd h List.not_mem_nil⟩

/-- Every law of the device holds after reset. -/
theorem reset_deviceLaw : DeviceLaw State.reset :=
  ⟨reset_handlerLaw, reset_slotsLaw, reset_wireLaw, rfl, trivial, reset_noticeLaw,
    ⟨reset_outputLawful _, reset_outputLawful _⟩, ⟨reset_presentationLawful _ _, reset_presentationLawful _ _⟩,
    reset_budgetLaw, ⟨reset_paletteLawful, reset_paletteLawful⟩, ⟨reset_lineStoreLawful, reset_lineStoreLawful⟩,
    reset_surfaceTableLaw, reset_useCountLaw, ⟨reset_framesShaped, reset_framesShaped⟩, reset_jobQueueLaw, ⟨rfl, rfl⟩,
    .inr (.inr (.inr trivial)), rfl, fun _ => ⟨rfl, rfl, rfl⟩, reset_burstLaw⟩

/-- Settles O3: the values are those of the definition, and the laws hold one by one. -/
theorem resetValues : Obligations.ResetValues := by
  unfold Obligations.ResetValues
  refine ⟨?_, reset_deviceLaw⟩
  refine ⟨rfl, rfl, rfl, rfl, rfl, rfl, rfl, rfl, rfl, rfl, rfl, rfl, List.length_replicate, fun id => ?_, rfl, fun _ => rfl, rfl, rfl, rfl,
    rfl, rfl, rfl, rfl, rfl, fun o => ?_⟩
  · rw [reset_surface]
    exact ⟨rfl, rfl, rfl, rfl, rfl⟩
  · rw [reset_ou, reset_pres]
    exact ⟨rfl, rfl, rfl, rfl, rfl, rfl, rfl, rfl, rfl, rfl, rfl, rfl, rfl, fun i hi => resetPalette_getD hi,
      resetPalette_length, rfl, rfl, rfl, rfl, rfl, rfl, rfl, rfl, rfl, rfl⟩

end Sys2Proof.Machine
end

