-- ==== Sys2Proof/Proofs/NoticeQueueKept.lean ====
section
/-! SUPPORT. What keeps the Notice Queue lawful (R181 to R189): raises, acknowledgements, resends and takes. -/

namespace Sys2Proof.Machine

/-! ### The law of a queue and its next seq (R181, R185) -/

/-- R181, R185: `NoticeLaw` of the entries and the next notice seq. -/
def noticesLawful (es : List NoticeEntry) (next : Nat) : Prop :=
  (es.filter fun e => !e.notice.isMarker).length ≤ 15 ∧ (es.filter fun e => e.notice.isMarker).length ≤ 1 ∧
    ((es.filter fun e => !e.sent).map (·.notice.key)).Nodup ∧ (es.map (·.seq)).Nodup ∧
    (∀ e ∈ es, e.seq < 256) ∧ next < 256 ∧ next ∉ es.map (·.seq) ∧
    es.Pairwise fun older newer => newer.sent = true → older.sent = true

theorem noticeLaw_iff (s : State) : NoticeLaw s ↔ noticesLawful s.notices s.nextNotice := Iff.rfl

/-- R181: the marker is the notice of its kind. -/
theorem Notice.isMarker_iff_key (n : Notice) : n.isMarker = decide (n.key = (8, 0)) := by
  cases n <;> simp [Notice.isMarker, Notice.key]

/-- R187: fewer entries, in their order, are as lawful. -/
theorem noticesLawful.sublist {es es' : List NoticeEntry} {next : Nat} (h : noticesLawful es next)
    (hsub : es'.Sublist es) : noticesLawful es' next := by
  obtain ⟨hordinary, hmarker, hkeys, hseqs, hsmall, hnext, hfree, hsent⟩ := h
  exact ⟨(hsub.filter _).length_le.trans hordinary, (hsub.filter _).length_le.trans hmarker,
    hkeys.sublist ((hsub.filter _).map _), hseqs.sublist (hsub.map _), fun e he => hsmall e (hsub.subset he), hnext,
    fun hmem => hfree ((hsub.map _).subset hmem), hsent.sublist hsub⟩

/-- R183: entries changed without their keys, seqs and sent marks are as lawful. -/
theorem noticesLawful.map {es : List NoticeEntry} {next : Nat} (h : noticesLawful es next) (f : NoticeEntry → NoticeEntry)
    (hf : ∀ e ∈ es, (f e).notice.key = e.notice.key ∧ (f e).seq = e.seq ∧ (f e).sent = e.sent) :
    noticesLawful (es.map f) next := by
  obtain ⟨hordinary, hmarker, hkeys, hseqs, hsmall, hnext, hfree, hsent⟩ := h
  have hmark : ∀ e ∈ es, (f e).notice.isMarker = e.notice.isMarker := fun e he => by
    rw [Notice.isMarker_iff_key, Notice.isMarker_iff_key, (hf e he).1]
  have hfilter (p : NoticeEntry → Bool) (hp : ∀ e ∈ es, p (f e) = p e) :
      (es.map f).filter p = (es.filter p).map f := by
    rw [List.filter_map]
    exact congrArg _ (List.filter_congr hp)
  have hseq : (es.map f).map (·.seq) = es.map (·.seq) := by
    rw [List.map_map]
    exact List.map_congr_left fun e he => (hf e he).2.1
  refine ⟨?_, ?_, ?_, hseq ▸ hseqs, ?_, hnext, hseq ▸ hfree, ?_⟩
  · rw [hfilter _ fun e he => by rw [hmark e he], List.length_map]
    exact hordinary
  · rw [hfilter _ hmark, List.length_map]
    exact hmarker
  · have hkey : ((es.filter fun e => !e.sent).map f).map (·.notice.key) =
        (es.filter fun e => !e.sent).map (·.notice.key) := by
      rw [List.map_map]
      exact List.map_congr_left fun e he => (hf e (List.mem_of_mem_filter he)).1
    rw [hfilter _ fun e he => by rw [(hf e he).2.2], hkey]
    exact hkeys
  · exact fun e he => by
      obtain ⟨d, hd, rfl⟩ := List.mem_map.1 he
      rw [(hf d hd).2.1]
      exact hsmall d hd
  · rw [List.pairwise_map]
    exact hsent.imp_of_mem fun {a b} ha hb hab hb' => by
      rw [(hf a ha).2.2]
      exact hab ((hf b hb).2.2 ▸ hb')

/-- R185: a new entry takes the next seq, for a notice that no unsent entry's key is. -/
theorem noticesLawful.append {es : List NoticeEntry} {next : Nat} (h : noticesLawful es next) {n : Notice}
    (hkey : ∀ e ∈ es, e.sent = false → e.notice.key ≠ n.key)
    (hordinary : n.isMarker = false → (es.filter fun e => !e.notice.isMarker).length < 15)
    (hmarker : n.isMarker = true → ∀ e ∈ es, e.notice.isMarker = false) :
    noticesLawful (es ++ [⟨n, next, false⟩]) (nextSeqAfter ((es ++ [(⟨n, next, false⟩ : NoticeEntry)]).map (·.seq)) next) := by
  obtain ⟨hord, hmark, hkeys, hseqs, hsmall, hnext, hfree, hsent⟩ := h
  have hlength : ((es ++ [(⟨n, next, false⟩ : NoticeEntry)]).map fun e => e.seq).length < 256 := by
    have hsplit := List.length_eq_length_filter_add (l := es) fun e => e.notice.isMarker
    rw [List.length_map, List.length_append, List.length_singleton]
    omega
  obtain ⟨hnew, d, hvalue, -⟩ := nextSeqAfter_first_free hlength next
  refine ⟨?_, ?_, ?_, ?_, ?_, ?_, hnew, ?_⟩
  · rw [List.filter_append, List.length_append]
    cases hn : n.isMarker with
    | true => simpa [hn] using hord
    | false =>
      have := hordinary hn
      simp [hn]
      omega
  · rw [List.filter_append, List.length_append]
    cases hn : n.isMarker with
    | false => simpa [hn] using hmark
    | true =>
      have hnone : es.filter (fun e => e.notice.isMarker) = [] :=
        List.filter_eq_nil_iff.2 fun e he => Bool.eq_false_iff.1 (hmarker hn e he)
      simp [hn, hnone]
  · rw [List.filter_append, List.map_append]
    refine List.concat_eq_append ▸ hkeys.concat ?_
    intro hmem
    obtain ⟨e, he, heq⟩ := List.mem_map.1 hmem
    obtain ⟨he, hunsent⟩ := List.mem_filter.1 he
    exact hkey e he (by simpa using hunsent) heq
  · rw [List.map_append]
    exact List.concat_eq_append ▸ hseqs.concat hfree
  · intro e he
    rcases List.mem_append.1 he with he | he
    · exact hsmall e he
    · rw [List.mem_singleton.1 he]
      exact hnext
  · rw [hvalue]
    exact Nat.mod_lt _ (by decide)
  · refine List.pairwise_append.2 ⟨hsent, List.pairwise_singleton _ _, fun a _ b hb hb' => ?_⟩
    rw [List.mem_singleton.1 hb] at hb'
    cases hb'

/-! ### Raises (R183, R184) -/

theorem not_takes_iff {key : Nat × Nat} {es : List NoticeEntry} (h : es.any (·.takes key) = false) :
    ∀ e ∈ es, e.sent = false → e.notice.key ≠ key := fun e he hsent hkey => by
  have htakes := List.any_eq_false.1 h e he
  simp [NoticeEntry.takes, hsent, hkey] at htakes

theorem countLoss_noticeLaw (kind : Nat) {s : State} (h : NoticeLaw s) : NoticeLaw (countLoss kind s) := by
  have hplain {es : List NoticeEntry} (hes : ∀ e ∈ es, e.notice.isMarker = false) :
      ∀ e ∈ es, e.sent = false → e.notice.key ≠ (8, 0) := fun e he _ hkey => by
    have hmark := hes e he
    rw [Notice.isMarker_iff_key, hkey] at hmark
    cases hmark
  unfold countLoss
  split
  · next hnone =>
    have hes : ∀ e ∈ s.notices, e.notice.isMarker = false := fun e he =>
      Bool.eq_false_iff.2 (List.find?_eq_none.1 hnone e he)
    exact noticesLawful.append (n := .overflow 1 kind) h (hplain hes) (fun hn => by cases hn) fun _ => hes
  · next m _ =>
    dsimp only
    split
    · have hes : ∀ e ∈ s.notices.filter fun e => !e.notice.isMarker, e.notice.isMarker = false := fun e he => by
        simpa using (List.mem_filter.1 he).2
      exact noticesLawful.append (n := .overflow _ kind) (noticesLawful.sublist h List.filter_sublist) (hplain hes)
        (fun hn => by cases hn) fun _ => hes
    · refine noticesLawful.map h _ fun e he => ?_
      split
      · next hmark =>
        rw [Notice.isMarker_iff_key, decide_eq_true_eq] at hmark
        exact ⟨hmark.symm, rfl, rfl⟩
      · exact ⟨rfl, rfl, rfl⟩

/-- R181 to R185: a raise keeps the Notice Queue lawful. -/
theorem raise_noticeLaw {n : Notice} (hn : n.isMarker = false) {s : State} (h : NoticeLaw s) : NoticeLaw (raise n s) := by
  cases htakes : s.notices.any (·.takes n.key) with
  | true =>
    rw [raise_of_takes htakes]
    refine noticesLawful.map h _ fun e _ => ?_
    split
    · exact ⟨Notice.combine_key _ _, rfl, rfl⟩
    · exact ⟨rfl, rfl, rfl⟩
  | false =>
    rcases Nat.lt_or_ge s.ordinaryCount 15 with hroom | hfull
    · rw [raise_of_room htakes hroom]
      exact noticesLawful.append h (not_takes_iff htakes) (fun _ => hroom) fun hmark => by rw [hn] at hmark; cases hmark
    · rw [raise_of_full htakes hfull]
      exact countLoss_noticeLaw _ h

/-! ### Acknowledging, resending, taking (R186 to R189) -/

theorem removeAcknowledged_sublist (n : Nat) (es : List NoticeEntry) : (removeAcknowledged n es).Sublist es := by
  induction es with
  | nil => exact .refl _
  | cons e es ih =>
    rw [removeAcknowledged]
    split
    · split
      · exact List.sublist_cons_self _ _
      · exact .refl _
    · split
      · exact ih.trans (List.sublist_cons_self _ _)
      · exact ih.cons_cons e

theorem filter_label_length {es es' : List NoticeEntry} (p : Nat × Nat → Bool)
    (h : (es'.map (·.label)).Sublist (es.map (·.label))) :
    (es'.filter fun e => p e.notice.key).length ≤ (es.filter fun e => p e.notice.key).length := by
  have hlength (l : List NoticeEntry) :
      (l.filter fun e => p e.notice.key).length = ((l.map (·.label)).filter fun x => p x.1).length := by
    rw [List.filter_map, List.length_map]
    rfl
  rw [hlength, hlength]
  exact (h.filter _).length_le

/-- R188, R189: a resend keeps the Notice Queue lawful. -/
theorem foldNotices_lawful {es : List NoticeEntry} {next : Nat} (h : noticesLawful es next) :
    noticesLawful (foldNotices es) next := by
  obtain ⟨hordinary, hmarker, -, hseqs, hsmall, hnext, hfree, -⟩ := h
  have hlabels := foldNotices_labels es
  have hseq : ((foldNotices es).map (·.seq)).Sublist (es.map (·.seq)) := by
    rw [map_seq_eq_labels, map_seq_eq_labels]
    exact hlabels.map _
  have hunsent := foldl_foldEntry_unsent es (kept := []) (by simp)
  refine ⟨?_, ?_, ?_, hseqs.sublist hseq, fun e he => ?_, hnext, fun hmem => hfree (hseq.subset hmem), ?_⟩
  · simp only [Notice.isMarker_iff_key] at hordinary ⊢
    exact (filter_label_length (fun key => !decide (key = (8, 0))) hlabels).trans hordinary
  · simp only [Notice.isMarker_iff_key] at hmarker ⊢
    exact (filter_label_length (fun key => decide (key = (8, 0))) hlabels).trans hmarker
  · exact (foldl_foldEntry_keys_nodup es (kept := []) .nil).sublist (List.filter_sublist.map _)
  · obtain ⟨d, hd, hdseq⟩ := List.mem_map.1 (hseq.subset (List.mem_map_of_mem he))
    rw [← hdseq]
    exact hsmall d hd
  · refine List.pairwise_of_forall_mem_list fun a _ b hb hb' => ?_
    rw [hunsent b hb] at hb'
    cases hb'

theorem markOldestSent_labels (es : List NoticeEntry) : (markOldestSent es).map (·.label) = es.map (·.label) := by
  induction es with
  | nil => rfl
  | cons e es ih =>
    rw [markOldestSent]
    split
    · rw [List.map_cons, ih, List.map_cons]
    · rfl

theorem markOldestSent_unsent (es : List NoticeEntry) :
    (((markOldestSent es).filter fun e => !e.sent).map (·.notice.key)).Sublist
      ((es.filter fun e => !e.sent).map (·.notice.key)) := by
  induction es with
  | nil => exact .refl _
  | cons e es ih =>
    rw [markOldestSent]
    split
    · next hsent => simpa [hsent] using ih
    · next hsent => simp [hsent]

theorem markOldestSent_pairwise {es : List NoticeEntry}
    (h : es.Pairwise fun older newer => newer.sent = true → older.sent = true) :
    (markOldestSent es).Pairwise fun older newer => newer.sent = true → older.sent = true := by
  induction es with
  | nil => exact h
  | cons e es ih =>
    obtain ⟨hfirst, hrest⟩ := List.pairwise_cons.1 h
    rw [markOldestSent]
    split
    · next hsent => exact List.pairwise_cons.2 ⟨fun _ _ _ => hsent, ih hrest⟩
    · exact List.pairwise_cons.2 ⟨fun _ _ _ => rfl, hrest⟩

/-- R186: taking the oldest unsent notice keeps the Notice Queue lawful. -/
theorem markOldestSent_lawful {es : List NoticeEntry} {next : Nat} (h : noticesLawful es next) :
    noticesLawful (markOldestSent es) next := by
  obtain ⟨hordinary, hmarker, hkeys, hseqs, hsmall, hnext, hfree, hsent⟩ := h
  have hlabels := markOldestSent_labels es
  have hsub : ((markOldestSent es).map (·.label)).Sublist (es.map (·.label)) := by rw [hlabels]
  have hseq : (markOldestSent es).map (·.seq) = es.map (·.seq) := by
    rw [map_seq_eq_labels, map_seq_eq_labels, hlabels]
  refine ⟨?_, ?_, hkeys.sublist (markOldestSent_unsent es), hseq ▸ hseqs, fun e he => ?_, hnext, hseq ▸ hfree,
    markOldestSent_pairwise hsent⟩
  · simp only [Notice.isMarker_iff_key] at hordinary ⊢
    exact (filter_label_length (fun key => !decide (key = (8, 0))) hsub).trans hordinary
  · simp only [Notice.isMarker_iff_key] at hmarker ⊢
    exact (filter_label_length (fun key => decide (key = (8, 0))) hsub).trans hmarker
  · have hmem : e.seq ∈ es.map (·.seq) := hseq ▸ List.mem_map_of_mem he
    obtain ⟨d, hd, hdseq⟩ := List.mem_map.1 hmem
    rw [← hdseq]
    exact hsmall d hd

end Sys2Proof.Machine
end

