-- ==== Sys2Proof/Proofs/QuietOperations.lean ====
section
/-! SUPPORT. The operations that leave the link alone, answer no request but deferred ones, and raise notices: said once
for each of them (R10, R172 to R175, R181). -/

namespace Sys2Proof.Machine

/-! ### The Request Handler's collections (R172 to R175) -/

/-- R167, R172, R173: the capacities of the collections, with `n` for the reply queue's, the seqs distinct, and no
request both cached and pending. -/
def collectionsLawful (n : Nat) (s : State) : Prop :=
  s.replies.length + s.pendingReplies.length ≤ n ∧ s.pendingReplies.length ≤ 4 ∧ s.cache.length ≤ 8 ∧
    (s.cache.map (·.seq)).Nodup ∧ (s.pendingReplies.map (·.seq)).Nodup ∧
    ∀ p ∈ s.pendingReplies, s.cached p.seq = none

/-- R170, R171: a seq that is neither cached nor pending. -/
def State.fresh (s : State) (seq : Byte) : Prop := s.cached seq = none ∧ s.isPending seq = false

theorem cached_eq_none_iff (s : State) (seq : Byte) : s.cached seq = none ↔ ∀ r ∈ s.cache, r.seq ≠ seq := by
  unfold State.cached
  simp

theorem isPending_eq_false_iff (s : State) (seq : Byte) : s.isPending seq = false ↔ ∀ p ∈ s.pendingReplies, p.seq ≠ seq := by
  unfold State.isPending
  simp

/-- R172: what the cache holds after an insertion. -/
theorem mem_cacheInsert {r c : Reply} {cache : List Reply} (h : c ∈ cacheInsert r cache) :
    c = r ∨ (c ∈ cache ∧ c.seq ≠ r.seq) := by
  unfold cacheInsert at h
  rcases List.mem_append.1 h with h | h
  · refine .inr ?_
    have hkept : c ∈ cache.filter fun c => decide (c.seq ≠ r.seq) := by
      split at h
      · exact List.mem_of_mem_drop h
      · exact h
    simpa using hkept
  · exact .inl (List.mem_singleton.1 h)

theorem cacheInsert_length {r : Reply} {cache : List Reply} (h : cache.length ≤ 8) : (cacheInsert r cache).length ≤ 8 := by
  rw [cacheInsert_eq_drop r h]
  dsimp only
  rw [List.length_drop]
  omega

theorem cacheInsert_nodup {r : Reply} {cache : List Reply} (h : (cache.map (·.seq)).Nodup) :
    ((cacheInsert r cache).map (·.seq)).Nodup := by
  have hkept : ((cache.filter fun c => decide (c.seq ≠ r.seq)).map (·.seq)).Nodup := h.sublist (List.filter_sublist.map _)
  have hnew (l : List Reply) (hl : ∀ c ∈ l, c.seq ≠ r.seq) (hnodup : (l.map (·.seq)).Nodup) :
      ((l ++ [r]).map (·.seq)).Nodup := by
    rw [List.map_append]
    refine List.concat_eq_append ▸ hnodup.concat fun hmem => ?_
    obtain ⟨c, hc, hseq⟩ := List.mem_map.1 hmem
    exact hl c hc hseq
  have hother : ∀ c ∈ cache.filter fun c => decide (c.seq ≠ r.seq), c.seq ≠ r.seq := fun c hc => by
    simpa using (List.mem_filter.1 hc).2
  unfold cacheInsert
  dsimp only
  split
  · exact hnew _ (fun c hc => hother c (List.mem_of_mem_drop hc)) (hkept.sublist ((List.drop_sublist _ _).map _))
  · exact hnew _ hother hkept

/-- R172: a reply pushed makes no other seq cached. -/
theorem cached_cacheInsert {s t : State} {r : Reply} {seq : Byte} (ht : t.cache = cacheInsert r s.cache)
    (hne : r.seq ≠ seq) (h : s.cached seq = none) : t.cached seq = none := by
  rw [cached_eq_none_iff] at h ⊢
  rw [ht]
  intro c hc
  rcases mem_cacheInsert hc with rfl | ⟨hc, -⟩
  · exact hne
  · exact h c hc

/-! ### Quiet operations -/

/-- What quiet operations leave: the link, the slots, the request held, the resets' marks and the commands that wait. -/
def State.linkSide (s : State) :=
  (s.inReset, s.freshSupply, s.linkMode, s.wire, s.rx, s.slots, s.arrival, s.tx, s.held, s.pending)

/-- `t` comes of `s` by work behind the link: replies join the reply queue, deferred requests are answered, notices are
raised. -/
structure Quiet (s t : State) : Prop where
  linkSide : t.linkSide = s.linkSide
  replies : s.replies <+: t.replies
  notices : NoticeLaw s → NoticeLaw t
  collections : ∀ n, collectionsLawful n s → collectionsLawful n t
  fresh : ∀ seq, s.fresh seq → t.fresh seq
  pending : t.pendingReplies.Sublist s.pendingReplies

theorem Quiet.refl (s : State) : Quiet s s := ⟨rfl, List.prefix_refl _, fun h => h, fun _ h => h, fun _ h => h, .refl _⟩

theorem Quiet.trans {s t u : State} (h : Quiet s t) (h' : Quiet t u) : Quiet s u :=
  ⟨h'.linkSide.trans h.linkSide, h.replies.trans h'.replies, fun hs => h'.notices (h.notices hs),
    fun n hs => h'.collections n (h.collections n hs), fun seq hs => h'.fresh seq (h.fresh seq hs),
    h'.pending.trans h.pending⟩

/-- What the Request Handler and the Notice Queue hold. -/
def State.told (s : State) := (s.replies, s.cache, s.pendingReplies, s.notices, s.nextNotice)

/-- An operation elsewhere is quiet. -/
theorem Quiet.of_told {s t : State} (hlink : t.linkSide = s.linkSide) (h : t.told = s.told) : Quiet s t := by
  obtain ⟨hreplies, hcache, hpending, hnotices, hnext⟩ : t.replies = s.replies ∧ t.cache = s.cache ∧
      t.pendingReplies = s.pendingReplies ∧ t.notices = s.notices ∧ t.nextNotice = s.nextNotice := by
    simpa [State.told] using h
  refine ⟨hlink, hreplies ▸ List.prefix_refl _, fun hs => ?_, fun n hs => ?_, fun seq hs => ?_, hpending ▸ .refl _⟩
  · rw [noticeLaw_iff, hnotices, hnext]
    exact hs
  · unfold collectionsLawful State.cached at *
    rwa [hreplies, hcache, hpending]
  · unfold State.fresh State.cached State.isPending at *
    rwa [hcache, hpending]

/-- R183: a raise is quiet. -/
theorem raise_quiet {n : Notice} (hn : n.isMarker = false) (s : State) : Quiet s (raise n s) := by
  obtain ⟨ns, k, h⟩ := raise_eq n s
  refine ⟨by rw [h]; rfl, by rw [h], raise_noticeLaw hn, fun m hs => ?_, fun seq hs => ?_, by rw [h]⟩
  · rw [h]
    exact hs
  · rw [h]
    exact hs

/-- R174: a completion is quiet. -/
theorem completeSeq_quiet (seq : Byte) (st : Status) (fields : List Byte) (s : State) :
    Quiet s (completeSeq seq st fields s) := by
  unfold completeSeq
  split
  · exact .refl s
  · next p hp =>
    have hmem := List.mem_of_find?_eq_some hp
    have hseq : p.seq = seq := of_decide_eq_true (List.find?_some (p := fun q : PendingReply => decide (q.seq = seq)) hp)
    have hleft : (s.pendingReplies.filter fun q => decide (q.seq ≠ seq)).length < s.pendingReplies.length :=
      List.length_filter_lt_length_iff_exists.2 ⟨p, hmem, by simp [hseq]⟩
    refine ⟨rfl, List.prefix_append _ _, fun hs => hs, fun n hs => ?_, fun seq' hs => ?_, List.filter_sublist⟩
    · obtain ⟨hroom, htable, hcache, hcacheSeqs, hpendingSeqs, hfree⟩ := hs
      refine ⟨?_, hleft.le.trans htable, cacheInsert_length hcache, cacheInsert_nodup hcacheSeqs,
        hpendingSeqs.sublist (List.filter_sublist.map _), fun q hq => ?_⟩
      · change (s.replies ++ _).length + _ ≤ n
        rw [List.length_append, List.length_singleton]
        change _ + (s.pendingReplies.filter fun q => decide (q.seq ≠ seq)).length ≤ n
        omega
      · obtain ⟨hq, hne⟩ := List.mem_filter.1 hq
        exact cached_cacheInsert (s := s) (r := ⟨seq, replyPayload p.code st fields⟩) rfl
          (Ne.symm (of_decide_eq_true hne)) (hfree q hq)
    · obtain ⟨hcached, hpending⟩ := hs
      rw [isPending_eq_false_iff] at hpending
      refine ⟨cached_cacheInsert (s := s) (r := ⟨seq, replyPayload p.code st fields⟩) rfl ?_ hcached, ?_⟩
      · exact hseq ▸ hpending p hmem
      · rw [isPending_eq_false_iff]
        exact fun q hq => hpending q (List.mem_of_mem_filter hq)

/-- Quiet operations one after another are quiet. -/
theorem foldl_quiet {α : Type} (f : State → α → State) (hf : ∀ s a, Quiet s (f s a)) (l : List α) (s : State) :
    Quiet s (l.foldl f s) := by
  induction l generalizing s with
  | nil => exact .refl s
  | cons a l ih => exact (hf s a).trans (ih (f s a))

theorem completeRef_quiet (ref : PendingRef) (st : Status) (s : State) : Quiet s (completeRef ref st s) :=
  foldl_quiet _ (fun s (p : PendingReply) => completeSeq_quiet p.seq st [] s) _ s

theorem cancelPending_quiet (s : State) : Quiet s (cancelPending s) :=
  foldl_quiet _ (fun s (p : PendingReply) => completeSeq_quiet p.seq .cancelled [] s) _ s

theorem Quiet.elim {α : Type} {f : α → State} {s : State} (hf : ∀ a, Quiet s (f a)) (x : Option α) :
    Quiet s (x.elim s f) := by
  cases x with
  | none => exact .refl s
  | some a => exact hf a

/-! ### Records, the engine, outputs and frames replaced -/

theorem setSurface_quiet (id : Nat) (r : Surface) (s : State) : Quiet s (s.setSurface id r) := .of_told rfl rfl
theorem mapSurfaces_quiet (f : Nat → Surface → Surface) (s : State) : Quiet s (s.mapSurfaces f) := .of_told rfl rfl
theorem freeSurface_quiet (id : Nat) (s : State) : Quiet s (freeSurface id s) := .of_told rfl rfl
theorem setPe_quiet (e : Engine) (s : State) : Quiet s (s.setPe e) := .of_told rfl rfl
theorem setInFlight_quiet (g : Option Grant) (s : State) : Quiet s (s.setInFlight g) := .of_told rfl rfl
theorem setOu_quiet (o : OutputId) (u : OutputUnit) (s : State) : Quiet s (s.setOu o u) := by
  cases o <;> exact .of_told rfl rfl
theorem setPres_quiet (o : OutputId) (p : Presentation) (s : State) : Quiet s (s.setPres o p) := by
  cases o <;> exact .of_told rfl rfl

/-! ### Claims (R8 to R10) -/

theorem settleSurface_quiet (id : Nat) (s : State) : Quiet s (settleSurface id s) := by
  rw [settleSurface_eq]
  split
  · exact (setSurface_quiet _ _ s).trans (completeRef_quiet _ _ _)
  · split
    · exact (freeSurface_quiet id s).trans (raise_quiet rfl _)
    · exact .refl s

theorem releaseScans_quiet (ids : List Nat) (s : State) : Quiet s (releaseScans ids s) := by
  rw [releaseScans_eq]
  exact (mapSurfaces_quiet _ s).trans (foldl_quiet _ (fun s id => settleSurface_quiet id s) ids _)

theorem jobGivenUp_quiet (ids : List Nat) (k : JobKind) (s : State) : Quiet s (jobGivenUp ids k s) :=
  (mapSurfaces_quiet (fun i r => r.lessJob k i) s).trans (foldl_quiet _ (fun s id => settleSurface_quiet id s) ids _)

theorem releaseJob_isQuiet (k : JobKind) (s : State) : Quiet s (releaseJob k s) := by
  rw [releaseJob_eq]
  exact jobGivenUp_quiet _ k s

theorem releaseCancelled_quiet (self : Nat) (k : JobKind) (s : State) : Quiet s (releaseCancelled self k s) := by
  rw [releaseCancelled_eq]
  exact jobGivenUp_quiet _ k s

theorem addScans_quiet (ids : List Nat) (s : State) : Quiet s (ids.foldl (fun acc id => addScan id acc) s) :=
  foldl_quiet _ (fun s id => setSurface_quiet id _ s) ids s

/-! ### The Pixel Engine (R36, R45, R46, R145) -/

theorem appendJob_quiet (k : JobKind) (s : State) : Quiet s (appendJob k s) := by
  obtain ⟨l, h⟩ := addJobUses_eq k (s.setPe { s.pe with jobs := s.pe.jobs ++ [⟨k, 0⟩] })
  rw [appendJob, h]
  exact .of_told rfl rfl

theorem completeActive_quiet (s : State) : Quiet s (completeActive s) := by
  unfold completeActive
  split
  · exact .refl s
  · next j rest _ =>
    have hleft := setPe_quiet { s.pe.dropActive with jobs := rest } s
    have hjob (t : State) := releaseJob_isQuiet j.kind t
    dsimp only
    split
    · exact hleft.trans (hjob _)
    · exact hleft.trans (hjob _)
    · exact hleft.trans ((hjob _).trans (completeSeq_quiet _ _ _ _))
    · exact hleft.trans ((hjob _).trans (completeSeq_quiet _ _ _ _))
    · split
      · exact hleft.trans (hjob _)
      · exact hleft.trans ((setPe_quiet _ _).trans ((hjob _).trans (.elim (fun _ => completeSeq_quiet _ _ _ _) _)))

theorem runEngine_quiet (fuel : Nat) (s : State) : Quiet s (runEngine fuel s) :=
  runEngine_keeps (P := Quiet s) (fun _ _ _ _ h _ _ _ => h.trans (setPe_quiet _ _))
    (fun _ _ _ _ h _ _ _ => h.trans (setPe_quiet _ _)) (fun _ _ _ h _ _ _ => h.trans (completeActive_quiet _)) fuel
    (.refl s)

theorem arbitrate_quiet (s : State) : Quiet s (arbitrate s) := by
  obtain ⟨_, _, _, _, _, _, h⟩ := arbitrate_frame s
  rw [h]
  exact .of_told rfl rfl

theorem settle_quiet (s : State) : Quiet s (settle s) := (runEngine_quiet _ s).trans (arbitrate_quiet _)

theorem answerCancelled_quiet (k : JobKind) (s : State) : Quiet s (answerCancelled k s) := by
  unfold answerCancelled
  split
  · exact completeSeq_quiet _ _ _ s
  · split
    · exact .refl s
    · exact (setPe_quiet _ s).trans (.elim (fun _ => completeSeq_quiet _ _ _ _) _)
  all_goals exact .refl s

theorem removeJobs_quiet (doomed : Job → Bool) (s : State) : Quiet s (removeJobs doomed s) := by
  rw [removeJobs_eq]
  obtain ⟨_, _, _, _, _, h⟩ := jobsTaken_eq doomed s
  rw [h]
  exact .of_told rfl rfl

theorem cancelNaming_quiet (id : Nat) (s : State) : Quiet s (cancelNaming id s) :=
  (removeJobs_quiet _ s).trans
    (foldl_quiet _ (fun s (j : Job) => (releaseCancelled_quiet id j.kind s).trans (answerCancelled_quiet j.kind _)) _ _)

theorem landWrite_quiet (s : State) : Quiet s (landWrite s) := by
  unfold landWrite
  split
  · dsimp only
    unfold releaseStaged
    split
    · split
      · exact .of_told rfl rfl
      · exact .of_told rfl rfl
    all_goals exact .of_told rfl rfl
  · exact .refl s

theorem finishGrantedStreamWrite_quiet (s : State) : Quiet s (finishGrantedStreamWrite s) := by
  unfold finishGrantedStreamWrite
  split
  · split
    · exact (landWrite_quiet s).trans (setInFlight_quiet _ _)
    · exact .refl s
  · exact .refl s

theorem abortSession_quiet (s : State) : Quiet s (abortSession s).1 := by
  unfold abortSession
  have hwritten := finishGrantedStreamWrite_quiet s
  dsimp only
  split
  · exact hwritten
  · next x _ =>
    generalize finishGrantedStreamWrite s = w at hwritten ⊢
    have hreleased := (removeJobs_quiet Job.isStream w).trans
      (foldl_quiet _ (fun s (j : Job) => releaseJob_isQuiet j.kind s) (w.pe.jobs.filter Job.isStream) _)
    exact hwritten.trans (hreleased.trans ((setPe_quiet _ _).trans
      (.elim (fun _ => completeSeq_quiet _ _ _ _) x.link)))

theorem finishEngineBurst_quiet (b : EngineBurst) (s : State) : Quiet s (finishEngineBurst b s) := by
  cases b with
  | readSource a => exact setPe_quiet _ s
  | readDestination a => exact setPe_quiet _ s
  | writeDestination a => exact landWrite_quiet s

/-! ### Fetches and lines (R136 to R143) -/

theorem killFetchBurst_quiet (o : OutputId) (s : State) : Quiet s (killFetchBurst o s) := by
  obtain ⟨g, h⟩ := killFetchBurst_eq o s
  rw [h]
  exact setInFlight_quiet g s

theorem beginFetch_quiet (o : OutputId) (y : Nat) (wasB : Bool) (s : State) : Quiet s (beginFetch o y wasB s) :=
  (setOu_quiet o _ s).trans (arbitrate_quiet _)

theorem driveLine_quiet (o : OutputId) (y : Nat) (areas : List Area) (s : State) : Quiet s (driveLine o y areas s) := by
  unfold driveLine
  dsimp only
  split <;> exact setOu_quiet o _ s

theorem countMiss_quiet (o : OutputId) (y : Nat) (s : State) : Quiet s (countMiss o y s) :=
  (setOu_quiet o _ s).trans (raise_quiet rfl _)

theorem showLine_quiet (o : OutputId) (y : Nat) (s : State) : Quiet s (showLine o y s) := by
  unfold showLine
  have hshown := (setOu_quiet o { s.ou o with halfA := (s.ou o).halfA.show, halfB := (s.ou o).halfB.show } s).trans
    (killFetchBurst_quiet o _)
  dsimp only
  split
  · exact hshown.trans ((driveLine_quiet o y _ _).trans (countMiss_quiet o y _))
  · exact hshown.trans (driveLine_quiet o y _ _)

theorem enterLine_quiet (o : OutputId) (p : Nat) (s : State) : Quiet s (enterLine o p s) := by
  unfold enterLine
  have hentered := setOu_quiet o { s.ou o with
    scanLine := p, halfA := (s.ou o).halfA.release, halfB := (s.ou o).halfB.release, driven := none } s
  dsimp only
  generalize s.setOu o { s.ou o with
    scanLine := p, halfA := (s.ou o).halfA.release, halfB := (s.ou o).halfB.release, driven := none } = w at hentered ⊢
  have hshown : Quiet s (match (s.ou o).timing.lineKind p with
      | .active y => showLine o y w
      | .blank => w) := by
    split
    · exact hentered.trans (showLine_quiet o _ w)
    · exact hentered
  split
  · exact hshown.trans (beginFetch_quiet o _ _ _)
  · exact hshown

/-! ### The output state machine (R119 to R131) -/

theorem copyPalette_quiet (o : OutputId) (s : State) : Quiet s (copyPalette o s) := setOu_quiet o _ s

theorem enterStep_quiet (o : OutputId) (st : OutputState) (step : SequenceStep) (timer : Option Nat) (s : State) :
    Quiet s (enterStep o st step timer s) := setOu_quiet o _ s

theorem raiseState_quiet (o : OutputId) (st : OutputState) (released : Nat) (s : State) :
    Quiet s (raiseState o st released s) := raise_quiet rfl s

theorem freeHalves_quiet (o : OutputId) (s : State) : Quiet s (freeHalves o s) :=
  (setOu_quiet o _ s).trans (killFetchBurst_quiet o _)

theorem stopTiming_quiet (o : OutputId) (s : State) : Quiet s (stopTiming o s) :=
  (freeHalves_quiet o s).trans (setOu_quiet o _ _)

theorem enterOff_quiet (o : OutputId) (released : Nat) (s : State) : Quiet s (enterOff o released s) :=
  (enterStep_quiet o _ _ _ s).trans ((copyPalette_quiet o _).trans ((completeRef_quiet _ _ _).trans (raiseState_quiet o _ _ _)))

theorem enterSupplyWait_quiet (o : OutputId) (s : State) : Quiet s (enterSupplyWait o s) := by
  unfold enterSupplyWait
  have hstopped := (enterStep_quiet o .powerDown .supplyWait (some (s.ou o).timing.tPwr) s).trans (stopTiming_quiet o _)
  dsimp only
  split
  · exact hstopped.trans (enterOff_quiet o 0 _)
  · exact hstopped

theorem enterRunning_quiet (o : OutputId) (s : State) : Quiet s (enterRunning o s) :=
  (enterStep_quiet o _ _ _ s).trans ((completeRef_quiet _ _ _).trans (raiseState_quiet o _ _ _))

theorem openFrame_quiet (o : OutputId) (s : State) : Quiet s (openFrame o s) :=
  (freeHalves_quiet o s).trans (setOu_quiet o _ _)

theorem enterClockWait_quiet (o : OutputId) (s : State) : Quiet s (enterClockWait o s) := by
  unfold enterClockWait
  have hstarted := (enterStep_quiet o .powerUp .clockWait (some (s.ou o).timing.tClk) s).trans
    ((openFrame_quiet o _).trans ((copyPalette_quiet o _).trans (beginFetch_quiet o 0 false _)))
  dsimp only
  split
  · exact hstarted.trans (enterRunning_quiet o _)
  · exact hstarted

theorem startSequence_quiet (o : OutputId) (s : State) : Quiet s (startSequence o s) := by
  unfold startSequence
  dsimp only
  have hpowered := (setOu_quiet o { s.ou o with framesShown := 0, lineMiss := 0 } s).trans
    ((enterStep_quiet o .powerUp .powerWait (some (s.ou o).timing.tPwr) _).trans (raiseState_quiet o .powerUp 0 _))
  split
  · exact hpowered.trans (enterClockWait_quiet o _)
  · exact hpowered

/-! ### Takes and releases (R70, R77, R79) -/

theorem takeFrame_quiet (o : OutputId) (s : State) : Quiet s (takeFrame o s) := by
  unfold takeFrame
  dsimp only
  split
  · exact .refl s
  · exact (setPres_quiet o _ s).trans ((releaseScans_quiet _ _).trans ((setOu_quiet o _ _).trans (raise_quiet rfl _)))

theorem latchCursor_quiet (o : OutputId) (s : State) : Quiet s (latchCursor o s) := by
  unfold latchCursor
  dsimp only
  split
  · exact setPres_quiet o _ s
  · exact (setPres_quiet o _ s).trans (releaseScans_quiet _ _)
  · exact (setPres_quiet o _ s).trans (releaseScans_quiet _ _)

theorem recomputeLoad_quiet (o : OutputId) (s : State) : Quiet s (recomputeLoad o s) := setPres_quiet o _ s

theorem take_quiet (o : OutputId) (s : State) : Quiet s (take o s) :=
  (takeFrame_quiet o s).trans ((latchCursor_quiet o _).trans (recomputeLoad_quiet o _))

theorem releaseOutput_quiet (o : OutputId) (s : State) : Quiet s (releaseOutput o s) :=
  (setPres_quiet o _ s).trans (releaseScans_quiet _ _)

theorem endShowing_quiet (o : OutputId) (s : State) : Quiet s (endShowing o s) :=
  (releaseOutput_quiet o s).trans ((enterStep_quiet o _ _ _ _).trans (raiseState_quiet o _ _ _))

theorem startFrame_quiet (o : OutputId) (s : State) : Quiet s (startFrame o s) := by
  unfold startFrame
  refine (openFrame_quiet o s).trans ?_
  dsimp only
  split
  · exact (take_quiet o _).trans ((copyPalette_quiet o _).trans (beginFetch_quiet o _ _ _))
  · have hended := (endShowing_quiet o (openFrame o s)).trans ((copyPalette_quiet o _).trans
      (beginFetch_quiet o 0 (s.ou o).showsB _))
    split
    · exact hended.trans (enterSupplyWait_quiet o _)
    · exact hended
  · exact (copyPalette_quiet o _).trans (beginFetch_quiet o _ _ _)

theorem reversePowerUp_quiet (o : OutputId) (s : State) : Quiet s (reversePowerUp o s) := by
  unfold reversePowerUp
  refine (releaseOutput_quiet o s).trans ((completeRef_quiet (.start o) .cancelled _).trans ?_)
  dsimp only
  split
  · exact (raiseState_quiet o _ _ _).trans (enterSupplyWait_quiet o _)
  · exact enterOff_quiet o _ _

theorem acceptFrame_quiet (o : OutputId) (background : Colour) (layers : List Layer) (load n : Nat) (s : State) :
    Quiet s (acceptFrame o background layers load n s).1 :=
  (addScans_quiet _ s).trans (setPres_quiet o _ _)

theorem dropQueue_quiet (o : OutputId) (s : State) : Quiet s (dropQueue o s) :=
  (setPres_quiet o _ s).trans (releaseScans_quiet _ _)

theorem replacePending_quiet (o : OutputId) (b : PendingBinding) (s : State) : Quiet s (replacePending o b s) :=
  (setPres_quiet o _ s).trans ((releaseScans_quiet _ _).trans (addScans_quiet _ _))

end Sys2Proof.Machine
end

