-- ==== Sys2Proof/Proofs/QuietRequests.lean ====
section
/-! SUPPORT. What the body of each request row does to the link, the Request Handler and the Notice Queue. -/

namespace Sys2Proof.Machine

/-- What a body leaves for its answer: quiet work before a reply, or a drain begun with no request pending (R178); quiet
work behind a pending-reply entry (R173); or an UPLOAD_DATA held in its slot (R51). -/
def BodyQuiet (seq : Byte) (s : State) : State × Answer → Prop
  | (t, .reply _ _) => Quiet s t ∨ ∃ q, Quiet { s with held := some (.reset q) } t ∧
      ((s.pendingReplies.map (·.seq)).Nodup → t.pendingReplies = [])
  | (t, .deferred) => s.pendingFree = true ∧ ∃ code owner ref, Quiet (bindPending seq code owner ref s) t
  | (t, .heldInSlot) => t = { s with held := some .upload }

section
variable {seq : Byte} {s : State}

theorem bodyQuiet_reply {t : State} (h : Quiet s t) (st : Status) (fields : List Byte) :
    BodyQuiet seq s (t, .reply st fields) := .inl h

theorem bodyQuiet_same (st : Status) (fields : List Byte) : BodyQuiet seq s (s, .reply st fields) := .inl (.refl s)

theorem bodyQuiet_deferred {t : State} {code : Byte} {owner : Block} {ref : PendingRef} (hfree : s.pendingFree = true)
    (h : Quiet (bindPending seq code owner ref s) t) : BodyQuiet seq s (t, .deferred) := ⟨hfree, code, owner, ref, h⟩

/-- R176: a check refuses, or leaves it to what follows. -/
theorem bodyQuiet_check {c : Prop} [Decidable c] {st : Status} {rest : State × Answer}
    (h : ¬ c → BodyQuiet seq s rest) : BodyQuiet seq s (if c then refuse st s else rest) := by
  by_cases hc : c
  · rw [if_pos hc]
    exact bodyQuiet_same st []
  · rw [if_neg hc]
    exact h hc

theorem pendingFree_of_not {s : State} (h : ¬ (!s.pendingFree) = true) : s.pendingFree = true := by
  simpa using h

/-- R11: so do the surface checks. -/
theorem bodyQuiet_withSurface {args : List Byte} {rest : Nat → Surface → State × Answer}
    (h : BodyQuiet seq s (rest (arg8 args 0) (s.surface (arg8 args 0)))) : BodyQuiet seq s (withSurface args s rest) :=
  bodyQuiet_check fun _ => bodyQuiet_check fun _ => bodyQuiet_check fun _ => h

theorem bodyQuiet_withOutput {args : List Byte} {rest : OutputId → State × Answer} (h : ∀ o, BodyQuiet seq s (rest o)) :
    BodyQuiet seq s (withOutput args s rest) := by
  refine bodyQuiet_check fun _ => ?_
  split
  · exact bodyQuiet_same _ _
  · exact h _

end

section
variable (seq code : Byte) (args : List Byte) (s : State)

theorem bodyQuiet_ping : BodyQuiet seq s (pingBody seq code args s) := bodyQuiet_check fun _ => bodyQuiet_same _ _

theorem bodyQuiet_info : BodyQuiet seq s (infoBody seq code args s) := bodyQuiet_check fun _ => bodyQuiet_same _ _

theorem bodyQuiet_unknown : BodyQuiet seq s (unknownBody seq code args s) := bodyQuiet_same _ _

theorem bodyQuiet_deviceReset : BodyQuiet seq s (deviceResetBody seq code args s) := by
  refine bodyQuiet_check fun _ => .inr ⟨seq, ?_, fun hnodup => ?_⟩
  · obtain ⟨rs, c, ps, h⟩ := cancelPending_eq s
    have hquiet := cancelPending_quiet s
    rw [h] at hquiet ⊢
    obtain ⟨-, hreplies, hnotices, hcollections, hfresh, hpending⟩ := hquiet
    exact ⟨rfl, hreplies, hnotices, hcollections, hfresh, hpending⟩
  · rw [cancelPending_eq_done hnodup]

theorem createAt_quiet (id : Nat) (r : Surface) : Quiet s (createAt id r s) := .of_told rfl rfl

theorem bodyQuiet_create : BodyQuiet seq s (createBody seq code args s) := by
  refine bodyQuiet_check fun _ => ?_
  dsimp only
  split
  · refine bodyQuiet_check fun _ => bodyQuiet_check fun _ => ?_
    unfold createPlaced
    split
    · exact bodyQuiet_same _ _
    · dsimp only
      split
      · exact bodyQuiet_same _ _
      · exact bodyQuiet_reply (createAt_quiet s _ _) _ _
  · exact bodyQuiet_same _ _

theorem discardUnfinished_quiet (id : Nat) (r : Surface) : Quiet s (discardUnfinished id r s).1 := by
  unfold discardUnfinished
  dsimp only
  have hcancelled := cancelNaming_quiet id s
  split
  · exact hcancelled.trans ((completeRef_quiet _ _ _).trans (freeSurface_quiet id _))
  · exact hcancelled.trans (freeSurface_quiet id _)

theorem bodyQuiet_discard : BodyQuiet seq s (discardBody seq code args s) := by
  refine bodyQuiet_withSurface ?_
  split
  · exact bodyQuiet_same _ _
  · split
    · exact bodyQuiet_reply (freeSurface_quiet _ s) _ _
    · exact bodyQuiet_reply (setSurface_quiet _ _ s) _ _
  · exact .inl (discardUnfinished_quiet s _ _)
  · exact .inl (discardUnfinished_quiet s _ _)
  · exact bodyQuiet_same _ _

theorem bodyQuiet_seal : BodyQuiet seq s (sealBody seq code args s) := by
  refine bodyQuiet_withSurface (bodyQuiet_check fun _ => bodyQuiet_check fun _ => ?_)
  split
  · exact bodyQuiet_reply (setSurface_quiet _ _ s) _ _
  · exact bodyQuiet_check fun hfree => bodyQuiet_deferred (pendingFree_of_not hfree) (.of_told rfl rfl)

theorem bodyQuiet_reopen : BodyQuiet seq s (reopenBody seq code args s) := by
  refine bodyQuiet_withSurface (bodyQuiet_check fun _ => ?_)
  split
  · exact bodyQuiet_reply (setSurface_quiet _ _ s) _ _
  · exact bodyQuiet_same _ _

theorem bodyQuiet_getSurface : BodyQuiet seq s (getSurfaceBody seq code args s) :=
  bodyQuiet_withSurface (bodyQuiet_same _ _)

theorem bodyQuiet_getMemoryMap : BodyQuiet seq s (getMemoryMapBody seq code args s) :=
  bodyQuiet_check fun _ => bodyQuiet_same _ _

theorem bodyQuiet_beginUpload : BodyQuiet seq s (beginUploadBody seq code args s) :=
  bodyQuiet_check fun _ => bodyQuiet_check fun _ => bodyQuiet_check fun _ => bodyQuiet_check fun _ =>
    bodyQuiet_check fun _ => bodyQuiet_check fun _ => bodyQuiet_check fun _ =>
      bodyQuiet_reply ((appendJob_quiet _ s).trans (setPe_quiet _ _)) _ _

theorem bodyQuiet_uploadData : BodyQuiet seq s (uploadDataBody seq code args s) := by
  refine bodyQuiet_check fun _ => ?_
  split
  · exact bodyQuiet_same _ _
  · refine bodyQuiet_check fun _ => ?_
    split
    · exact (rfl : _ = _)
    · exact bodyQuiet_reply (setPe_quiet _ s) _ _

theorem bodyQuiet_endUpload : BodyQuiet seq s (endUploadBody seq code args s) := by
  refine bodyQuiet_check fun _ => ?_
  split
  · exact bodyQuiet_same _ _
  · exact bodyQuiet_check fun _ => bodyQuiet_check fun hfree =>
      bodyQuiet_deferred (pendingFree_of_not hfree) (setPe_quiet _ _)

theorem bodyQuiet_abortUpload : BodyQuiet seq s (abortUploadBody seq code args s) := by
  refine bodyQuiet_check fun _ => bodyQuiet_check fun _ => ?_
  have hquiet := abortSession_quiet s
  have hanswer : ∃ st fields, (abortSession s).2 = .reply st fields := by
    unfold abortSession
    dsimp only
    split <;> exact ⟨_, _, rfl⟩
  obtain ⟨st, fields, hanswer⟩ := hanswer
  rw [show abortSession s = ((abortSession s).1, .reply st fields) from Prod.ext rfl hanswer]
  exact bodyQuiet_reply hquiet st fields

theorem bodyQuiet_fill : BodyQuiet seq s (fillBody seq code args s) :=
  bodyQuiet_check fun _ => bodyQuiet_check fun _ => bodyQuiet_check fun _ => bodyQuiet_check fun _ =>
    bodyQuiet_check fun _ => bodyQuiet_check fun _ => bodyQuiet_reply (appendJob_quiet _ s) _ _

theorem acceptJob_quiet (k : JobKind) : Quiet s (acceptJob k s).1 := appendJob_quiet k s

theorem bodyQuiet_copy : BodyQuiet seq s (copyBody seq code args s) := by
  refine bodyQuiet_check fun _ => ?_
  dsimp only
  split
  · exact bodyQuiet_same _ _
  · exact bodyQuiet_check fun _ => bodyQuiet_check fun _ => bodyQuiet_check fun _ => bodyQuiet_check fun _ =>
      bodyQuiet_check fun _ => bodyQuiet_reply (acceptJob_quiet s _) _ _

theorem bodyQuiet_read : BodyQuiet seq s (readBody seq code args s) :=
  bodyQuiet_check fun _ => bodyQuiet_check fun _ => bodyQuiet_check fun _ => bodyQuiet_check fun _ =>
    bodyQuiet_check fun _ => bodyQuiet_check fun _ => bodyQuiet_check fun hfree =>
      bodyQuiet_deferred (pendingFree_of_not hfree) (appendJob_quiet _ _)

theorem bodyQuiet_fence : BodyQuiet seq s (fenceBody seq code args s) :=
  bodyQuiet_check fun _ => bodyQuiet_check fun _ => bodyQuiet_check fun hfree =>
    bodyQuiet_deferred (pendingFree_of_not hfree) (appendJob_quiet _ _)

theorem bodyQuiet_setOutput : BodyQuiet seq s (setOutputBody seq code args s) := by
  unfold setOutputBody
  split
  · exact bodyQuiet_same _ _
  · split
    · exact bodyQuiet_same _ _
    · dsimp only
      split
      · exact bodyQuiet_same _ _
      · split
        · exact bodyQuiet_same _ _
        · split
          · exact bodyQuiet_same _ _
          · split
            · exact bodyQuiet_same _ _
            · exact bodyQuiet_reply (setOu_quiet _ _ s) _ _

theorem bodyQuiet_start : BodyQuiet seq s (startBody seq code args s) := by
  refine bodyQuiet_withOutput fun o => ?_
  dsimp only
  split
  · exact bodyQuiet_check fun _ => bodyQuiet_check fun hfree =>
      bodyQuiet_deferred (pendingFree_of_not hfree) (startSequence_quiet o _)
  · exact bodyQuiet_check fun hfree => bodyQuiet_deferred (pendingFree_of_not hfree) (.refl _)
  · exact bodyQuiet_same _ _
  · exact bodyQuiet_same _ _
  · exact bodyQuiet_same _ _

theorem bodyQuiet_stop : BodyQuiet seq s (stopBody seq code args s) := by
  refine bodyQuiet_withOutput fun o => ?_
  dsimp only
  split
  · exact bodyQuiet_same _ _
  · refine bodyQuiet_check fun hfree => ?_
    have hfree := pendingFree_of_not hfree
    split
    · exact bodyQuiet_deferred hfree ((setOu_quiet o _ _).trans (raiseState_quiet o _ _ _))
    · exact bodyQuiet_deferred hfree (reversePowerUp_quiet o _)
    all_goals exact bodyQuiet_deferred hfree (.refl _)

theorem bodyQuiet_getOutput : BodyQuiet seq s (getOutputBody seq code args s) :=
  bodyQuiet_withOutput fun _ => bodyQuiet_same _ _

theorem bodyQuiet_setPalette : BodyQuiet seq s (setPaletteBody seq code args s) := by
  refine bodyQuiet_check fun _ => bodyQuiet_check fun _ => ?_
  split
  · exact bodyQuiet_same _ _
  · refine bodyQuiet_check fun _ => ?_
    dsimp only
    split <;> exact bodyQuiet_reply (setOu_quiet _ _ s) _ _

theorem presentOk_quiet {o : OutputId} {r : State × FrameRecord} (h : Quiet s r.1) (dropped : Nat) :
    BodyQuiet seq s (presentOk o dropped r) := bodyQuiet_reply h _ _

theorem bodyQuiet_presentAdmit (o : OutputId) (replace : Bool) (background : Colour) (layers : List Layer) :
    BodyQuiet seq s (presentAdmit o replace background layers s) := by
  have hall (taken : Bool) (n load : Nat) (full : Bool) :
      BodyQuiet seq s (if full then refuseLayer .queueFull 0xFF s
        else if !lineStoreFits (s.ou o).timing.fetchFactor load (s.pres o).cursorTerm then refuseLayer .overBudget 0xFF s
        else if !s.admits o n then refuseLayer .overBudget 0xFF s
        else if taken then
          presentOk o (s.pres o).queue.length (acceptFrame o background layers load n (dropQueue o s))
        else presentOk o 0 (acceptFrame o background layers load n s)) := by
    iterate 3
      split
      · exact bodyQuiet_same _ _
    split
    · exact presentOk_quiet seq s ((dropQueue_quiet o s).trans (acceptFrame_quiet o background layers _ _ _)) _
    · exact presentOk_quiet seq s (acceptFrame_quiet o background layers _ _ s) _
  exact hall replace _ _ _

theorem bodyQuiet_present : BodyQuiet seq s (presentBody seq code args s) := by
  unfold presentBody
  split
  · exact bodyQuiet_same _ _
  · split
    · exact bodyQuiet_same _ _
    · split
      · exact bodyQuiet_same _ _
      · split
        · exact bodyQuiet_same _ _
        · unfold presentSurfaces
          dsimp only
          split
          · exact bodyQuiet_same _ _
          · split
            · exact bodyQuiet_same _ _
            · split
              · exact bodyQuiet_same _ _
              · split
                · exact bodyQuiet_same _ _
                · exact bodyQuiet_presentAdmit seq s _ _ _ _

theorem bodyQuiet_setCursor : BodyQuiet seq s (setCursorBody seq code args s) := by
  refine bodyQuiet_check fun _ => ?_
  dsimp only
  split
  · exact bodyQuiet_same _ _
  · next o _ =>
    have hset (b : PendingBinding) := (replacePending_quiet o b s).trans (recomputeLoad_quiet o _)
    refine bodyQuiet_check fun _ => bodyQuiet_check fun _ => ?_
    split
    · exact bodyQuiet_reply (hset _) _ _
    · exact bodyQuiet_check fun _ => bodyQuiet_check fun _ => bodyQuiet_check fun _ => bodyQuiet_check fun _ =>
        bodyQuiet_reply (hset _) _ _

theorem bodyQuiet_moveCursor : BodyQuiet seq s (moveCursorBody seq code args s) := by
  refine bodyQuiet_check fun _ => ?_
  dsimp only
  split
  · exact bodyQuiet_check fun _ => bodyQuiet_check fun _ => bodyQuiet_reply (setPres_quiet _ _ s) _ _
  · exact bodyQuiet_same _ _

theorem bodyQuiet_setBudget : BodyQuiet seq s (setBudgetBody seq code args s) := by
  refine bodyQuiet_check fun _ => bodyQuiet_check fun _ => ?_
  split
  · have hset : Quiet s { s with share := arg8 args 0 } := .of_told rfl rfl
    exact bodyQuiet_reply hset _ _
  · exact bodyQuiet_same _ _

/-- Lawful notices put in place of the queue's are quiet. -/
theorem setNotices_quiet {entries : List NoticeEntry}
    (h : ∀ next, noticesLawful s.notices next → noticesLawful entries next) : Quiet s { s with notices := entries } :=
  ⟨rfl, List.prefix_refl _, h s.nextNotice, fun _ hs => hs, fun _ hs => hs, .refl _⟩

theorem bodyQuiet_ack : BodyQuiet seq s (ackBody seq code args s) := by
  refine bodyQuiet_check fun _ => ?_
  dsimp only
  split
  · exact bodyQuiet_reply (setNotices_quiet s fun _ h => h.sublist (removeAcknowledged_sublist _ _)) _ _
  · exact bodyQuiet_same _ _

theorem bodyQuiet_resend : BodyQuiet seq s (resendBody seq code args s) := by
  refine bodyQuiet_check fun _ => ?_
  split
  · exact bodyQuiet_same _ _
  · exact bodyQuiet_reply (setNotices_quiet s fun _ h => foldNotices_lawful h) _ _

end

/-- Every request row's body is quiet in this sense. -/
theorem requestRow_quiet {i : Instr} {row : RequestRow} (h : requestRow i = some row) (seq code : Byte)
    (args : List Byte) (s : State) :
    BodyQuiet seq s (row.body seq code args s) ∧ ∀ t, Quiet t (row.after t) := by
  cases i <;> cases h
  case ping => exact ⟨bodyQuiet_ping seq code args s, .refl⟩
  case getInfo => exact ⟨bodyQuiet_info seq code args s, .refl⟩
  case deviceReset => exact ⟨bodyQuiet_deviceReset seq code args s, .refl⟩
  case createSurface => exact ⟨bodyQuiet_create seq code args s, .refl⟩
  case discardSurface => exact ⟨bodyQuiet_discard seq code args s, settle_quiet⟩
  case sealSurface => exact ⟨bodyQuiet_seal seq code args s, .refl⟩
  case reopenSurface => exact ⟨bodyQuiet_reopen seq code args s, .refl⟩
  case getSurface => exact ⟨bodyQuiet_getSurface seq code args s, .refl⟩
  case getMemoryMap => exact ⟨bodyQuiet_getMemoryMap seq code args s, .refl⟩
  case beginUpload => exact ⟨bodyQuiet_beginUpload seq code args s, settle_quiet⟩
  case uploadData => exact ⟨bodyQuiet_uploadData seq code args s, settle_quiet⟩
  case endUpload => exact ⟨bodyQuiet_endUpload seq code args s, settle_quiet⟩
  case abortUpload => exact ⟨bodyQuiet_abortUpload seq code args s, settle_quiet⟩
  case fillRect => exact ⟨bodyQuiet_fill seq code args s, settle_quiet⟩
  case copyRect => exact ⟨bodyQuiet_copy seq code args s, settle_quiet⟩
  case readPixels => exact ⟨bodyQuiet_read seq code args s, settle_quiet⟩
  case fence => exact ⟨bodyQuiet_fence seq code args s, settle_quiet⟩
  case setOutput => exact ⟨bodyQuiet_setOutput seq code args s, .refl⟩
  case startOutput => exact ⟨bodyQuiet_start seq code args s, .refl⟩
  case stopOutput => exact ⟨bodyQuiet_stop seq code args s, .refl⟩
  case getOutput => exact ⟨bodyQuiet_getOutput seq code args s, .refl⟩
  case setPalette => exact ⟨bodyQuiet_setPalette seq code args s, .refl⟩
  case present => exact ⟨bodyQuiet_present seq code args s, .refl⟩
  case setCursor => exact ⟨bodyQuiet_setCursor seq code args s, .refl⟩
  case moveCursor => exact ⟨bodyQuiet_moveCursor seq code args s, .refl⟩
  case setBudget => exact ⟨bodyQuiet_setBudget seq code args s, .refl⟩
  case ackNotices => exact ⟨bodyQuiet_ack seq code args s, .refl⟩
  case resendNotices => exact ⟨bodyQuiet_resend seq code args s, .refl⟩
  case unknownRequest => exact ⟨bodyQuiet_unknown seq code args s, .refl⟩

end Sys2Proof.Machine
end

