-- ==== Sys2Proof/Proofs/LinkOperations.lean ====
section
/-! SUPPORT. What the events on the wires are made of (R148 to R161), and the laws of the slots, the receiver, the
transmit position and the Notice Queue under each of these operations. -/

namespace Sys2Proof.Machine

/-- What an event on the wires is made of: the wires change, the receiver handles a byte or times out, the transmit
position is filled, ended, or as an SPI target advanced. -/
inductive LinkWork : State → State → Prop where
  | none (s : State) : LinkWork s s
  | both {s t u : State} (h : LinkWork s t) (h' : LinkWork t u) : LinkWork s u
  | wire (s : State) (w : Wire) : LinkWork s { s with wire := w }
  | byte (s : State) (b : Byte) : LinkWork s (receiveByte b s)
  | timeout (s : State) : LinkWork s (timeoutError s)
  | take (s : State) : LinkWork s (takeOutbound s)
  | ended (s : State) : LinkWork s (endOutbound s)
  | advance {s : State} {f : OutboundFrame} (hmode : s.linkMode = some .spi) (hf : s.tx = some f)
      (hlast : f.sent + 1 < f.bytes.length) : LinkWork s { s with tx := some { f with sent := f.sent + 1 } }

theorem exchangeSent_work {s : State} (hmode : s.linkMode = some .spi) : LinkWork s (exchangeSent s) := by
  cases htx : s.tx with
  | none =>
    rw [exchangeSent_none htx]
    exact .take s
  | some f =>
    rw [exchangeSent_some htx]
    split
    · next hlast => exact .advance hmode htx hlast
    · exact .both (.ended s) (.take _)

theorem exchangeByte_work {s : State} (hmode : s.linkMode = some .spi) (b : Byte) : LinkWork s (exchangeByte b s) :=
  .both (.byte s b) (exchangeSent_work ((receiveByte_linkMode b s).trans hmode))

theorem selectLink_work (s : State) : LinkWork s (selectLink s) := .both (.both (.wire s _) (.take _)) (.wire _ _)

theorem receiveWhole_work (b : Byte) (s : State) : LinkWork s (receiveWhole b s) := by
  unfold receiveWhole
  split
  · exact .none s
  · split
    · exact .both (.wire s _) (.byte _ b)
    · next hmode =>
      split
      · exact .both (exchangeByte_work hmode b) (.wire _ _)
      · exact .both (.both (selectLink_work s)
          (exchangeByte_work ((selectLink_outbound s).linkMode.trans hmode) b)) (.wire _ _)
    · exact .none s

theorem sampleRxd_work (level : Bool) (s : State) : LinkWork s (sampleRxd level s) := by
  unfold sampleRxd
  dsimp only
  split
  · exact .wire s _
  · split
    · exact .none s
    · split
      · exact .wire s _
      · split
        · exact .both (.wire s _) (.byte _ _)
        · exact .wire s _

theorem sampleSdi_work {s : State} (hmode : s.linkMode = some .spi) (level : Bool) : LinkWork s (sampleSdi level s) := by
  unfold sampleSdi
  dsimp only
  split
  · exact .none s
  · split
    · exact .wire s _
    · exact .both (.wire s _) (exchangeByte_work (by exact hmode) _)

theorem lineEvent_work (e : LineEvent) (s : State) : LinkWork s (lineEvent e s) := by
  unfold lineEvent
  split
  · exact receiveWhole_work _ s
  · exact sampleRxd_work _ s
  · exact selectLink_work s
  · exact .wire s _
  · next hmode => exact sampleSdi_work hmode _
  · unfold shiftSdo
    split
    · exact .wire s _
    · exact .none s
  all_goals exact .none s

theorem foldl_receiveWhole_work (bytes : List Byte) (s : State) :
    LinkWork s (bytes.foldl (fun acc b => receiveWhole b acc) s) := by
  induction bytes generalizing s with
  | nil => exact .none s
  | cons b bytes ih => exact .both (receiveWhole_work b s) (ih _)

theorem chooseAfterReset_work (s : State) : LinkWork s (chooseAfterReset s) := by
  unfold chooseAfterReset
  split
  · split
    · exact .take s
    · exact .both (.take s) (.wire _ _)
  · exact .none s

/-- Link work leaves what is behind the link, the request held, the resets' marks and the latched mode. -/
theorem LinkWork.frame {s t : State} (h : LinkWork s t) : LinkFrame s t := by
  induction h with
  | none s => exact .refl s
  | both _ _ ih ih' => exact ih.trans ih'
  | wire s w => exact .of_wire s w
  | byte s b => exact receiveByte_frame b s
  | timeout s =>
    obtain ⟨ns, k, h⟩ := raise_eq (.linkError 0 0 0 1) (hunt s)
    exact ⟨s.wire, _, s.slots, s.arrival, s.tx, s.replies, ns, k, h⟩
  | take s => exact takeOutbound_frame s
  | ended s =>
    obtain ⟨tx, rs, h⟩ := endOutbound_eq s
    exact ⟨s.wire, s.rx, s.slots, s.arrival, tx, rs, s.notices, s.nextNotice, h⟩
  | @advance s f =>
    exact ⟨s.wire, s.rx, s.slots, s.arrival, some { f with sent := f.sent + 1 }, s.replies, s.notices, s.nextNotice, rfl⟩

/-! ### The handler and the slots (R157) -/

/-- What link work keeps of the Request Handler and the slots: no reply joins the queue, and a frame at the head of the
arrival list stays there. -/
structure HandlerKept (s t : State) : Prop where
  handler : (t.held, t.cache, t.pendingReplies) = (s.held, s.cache, s.pendingReplies)
  replies : t.replies.length ≤ s.replies.length
  slots : SlotsLaw s → SlotsLaw t
  head : SlotsLaw s → s.headFrame.isSome = true → t.headFrame = s.headFrame

theorem HandlerKept.of_same {s t : State} (h : (t.held, t.cache, t.pendingReplies) = (s.held, s.cache, s.pendingReplies))
    (hr : t.replies.length ≤ s.replies.length) (hs : t.slots = s.slots) (ha : t.arrival = s.arrival) : HandlerKept s t := by
  have hhead : t.headFrame = s.headFrame := by
    unfold State.headFrame
    rw [hs, ha]
  refine ⟨h, hr, fun hlaw => ?_, fun _ _ => hhead⟩
  unfold SlotsLaw
  rw [hs, ha]
  exact hlaw

theorem HandlerKept.trans {s t u : State} (h : HandlerKept s t) (h' : HandlerKept t u) : HandlerKept s u := by
  refine ⟨h'.handler.trans h.handler, h'.replies.trans h.replies, fun hs => h'.slots (h.slots hs), fun hs hf => ?_⟩
  have hfirst := h.head hs hf
  exact (h'.head (h.slots hs) (hfirst ▸ hf)).trans hfirst

theorem HandlerKept.refl (s : State) : HandlerKept s s := .of_same rfl le_rfl rfl rfl

theorem raise_kept (n : Notice) (s : State) : HandlerKept s (raise n s) := by
  obtain ⟨ns, k, h⟩ := raise_eq n s
  rw [h]
  exact .of_same rfl le_rfl rfl rfl

/-- R157: a good frame joins the arrival list at its tail. -/
theorem offerFrame_kept (f : RequestFrame) (s : State) : HandlerKept s (offerFrame f s) := by
  unfold offerFrame
  split
  · next i hi =>
    obtain ⟨hfree, hin⟩ : s.slots.getD i none = none ∧ i < 6 := by
      unfold State.lowestFreeSlot at hi
      exact ⟨by simpa using List.find?_some hi, by simpa [Config.slotCount] using List.mem_of_find?_eq_some hi⟩
    have hnew (hlaw : SlotsLaw s) : i ∉ s.arrival := fun hmem => by
      have hoccupied := (hlaw.2.2.2 i hin).2 hmem
      rw [hfree] at hoccupied
      exact Bool.noConfusion hoccupied
    have hget (hlaw : SlotsLaw s) (j : Nat) :
        (s.slots.set i (some f)).getD j none = if j = i then some f else s.slots.getD j none := by
      have hlength : i < s.slots.length := hlaw.1 ▸ hin
      by_cases hj : j = i
      · subst hj
        simp [hlength]
      · rw [if_neg hj, List.getD_eq_getElem?_getD, List.getElem?_set_ne (Ne.symm hj), ← List.getD_eq_getElem?_getD]
    refine ⟨rfl, le_rfl, fun hlaw => ?_, fun hlaw hf => ?_⟩
    · have ⟨hlength, hnodup, hsmall, hoccupied⟩ := hlaw
      refine ⟨(List.length_set ..).trans hlength, ?_, fun j hj => ?_, fun j hj => ?_⟩
      · exact List.concat_eq_append ▸ hnodup.concat (hnew hlaw)
      · rcases List.mem_append.1 hj with hj | hj
        · exact hsmall j hj
        · exact List.mem_singleton.1 hj ▸ hin
      · change ((s.slots.set i (some f)).getD j none).isSome = true ↔ j ∈ s.arrival ++ [i]
        rw [hget hlaw, List.mem_append, List.mem_singleton, ← hoccupied j hj]
        by_cases hji : j = i <;> simp [hji]
    · unfold State.headFrame at hf ⊢
      dsimp only
      cases ha : s.arrival with
      | nil =>
        rw [ha] at hf
        exact Bool.noConfusion hf
      | cons j rest =>
        have hji : j ≠ i := fun hji => hnew hlaw (by rw [ha, hji]; exact List.mem_cons_self)
        exact (hget hlaw j).trans (if_neg hji)
  · exact raise_kept _ s

theorem receiveByte_kept (b : Byte) (s : State) : HandlerKept s (receiveByte b s) := by
  have hrx (rx : Receiver) : HandlerKept s { s with rx := rx } := .of_same rfl le_rfl rfl rfl
  have herror (n : Notice) : HandlerKept s (raise n (hunt s)) := (hrx _).trans (raise_kept n _)
  unfold receiveByte
  dsimp only
  split
  · split
    · exact hrx _
    · exact .refl s
  · split
    · exact herror _
    · split <;> exact hrx _
  · exact hrx _
  · split
    · exact hrx _
    · unfold judgeFrame
      dsimp only
      split
      · exact herror _
      · split
        · exact herror _
        · exact (hrx _).trans (offerFrame_kept _ _)

theorem timeoutError_kept (s : State) : HandlerKept s (timeoutError s) := by
  have hhunt : HandlerKept s (hunt s) := .of_same rfl le_rfl rfl rfl
  exact hhunt.trans (raise_kept _ _)

theorem takeOutbound_kept (s : State) : HandlerKept s (takeOutbound s) := by
  obtain ⟨tx, ns, h⟩ := takeOutbound_eq s
  rw [h]
  exact .of_same rfl le_rfl rfl rfl

theorem endOutbound_kept (s : State) : HandlerKept s (endOutbound s) := by
  cases htx : s.tx with
  | none =>
    rw [endOutbound_none htx]
    exact .refl s
  | some f =>
    rw [endOutbound_some htx]
    refine .of_same rfl ?_ rfl rfl
    dsimp only
    split
    · rw [List.length_tail]
      omega
    · exact le_rfl

theorem LinkWork.kept {s t : State} (h : LinkWork s t) : HandlerKept s t := by
  induction h with
  | none s => exact .refl s
  | both _ _ ih ih' => exact ih.trans ih'
  | wire s w => exact .of_same rfl le_rfl rfl rfl
  | byte s b => exact receiveByte_kept b s
  | timeout s => exact timeoutError_kept s
  | take s => exact takeOutbound_kept s
  | ended s => exact endOutbound_kept s
  | advance => exact .of_same rfl le_rfl rfl rfl

/-! ### The receiver (R152, R153) -/

theorem offerFrame_rx (f : RequestFrame) (s : State) : (offerFrame f s).rx = s.rx := by
  unfold offerFrame
  split
  · rfl
  · obtain ⟨ns, k, h⟩ := raise_eq (.linkDrop 1 f.seq) s
    rw [h]

theorem raise_hunt_rx (n : Notice) (s : State) : (raise n (hunt s)).rx = ⟨.hunt, []⟩ := by
  obtain ⟨ns, k, h⟩ := raise_eq n (hunt s)
  rw [h]
  rfl

theorem judgeFrame_rx (bytes : List Byte) (n : Nat) (s : State) : (judgeFrame bytes n s).rx = ⟨.hunt, []⟩ := by
  unfold judgeFrame
  dsimp only
  split
  · exact raise_hunt_rx _ s
  · split
    · exact raise_hunt_rx _ s
    · exact offerFrame_rx _ _

/-- R153: an argument field does not change when bytes come behind it. -/
theorem arg16_append {bytes : List Byte} (h : 2 ≤ bytes.length) (more : List Byte) :
    arg16 (bytes ++ more) 0 = arg16 bytes 0 := by
  match bytes, h with
  | _ :: _ :: _, _ => rfl

theorem receiverLaw_hunt {s : State} (h : s.rx = ⟨.hunt, []⟩) : ReceiverLaw s := by
  unfold ReceiverLaw
  rw [h]

/-- R153: the receiver's state fits its holding buffer after every byte. -/
theorem receiveByte_receiverLaw (b : Byte) {s : State} (h : ReceiverLaw s) : ReceiverLaw (receiveByte b s) := by
  have hlength : (s.rx.bytes ++ [b]).length = s.rx.bytes.length + 1 := by simp
  unfold ReceiverLaw at h
  cases hphase : s.rx.phase with
  | hunt =>
    rw [hphase] at h
    rw [receiveByte_hunt hphase]
    split
    · exact ⟨Nat.zero_lt_succ 4, fun hc => absurd hc (Nat.not_succ_le_zero 1)⟩
    · unfold ReceiverLaw
      rw [hphase]
      exact h
  | header =>
    rw [hphase] at h
    obtain ⟨hshort, hfield⟩ := h
    rw [receiveByte_header hphase]
    split
    · exact receiverLaw_hunt (raise_hunt_rx _ s)
    · next hnot =>
      have hsmall (h2 : 2 ≤ s.rx.bytes.length + 1) : arg16 (s.rx.bytes ++ [b]) 0 ≤ 1024 := by
        by_cases hlong : 2 ≤ s.rx.bytes.length
        · rw [arg16_append hlong]
          exact hfield hlong
        · exact Nat.le_of_not_lt fun hlt => hnot ⟨by omega, hlt⟩
      split
      · next h5 => exact ⟨h5, fun h2 => hsmall (hlength ▸ h2)⟩
      · next h5 =>
        by_cases hn : arg16 (s.rx.bytes ++ [b]) 0 = 0
        · rw [if_pos hn]
          refine ⟨hsmall (by omega), ?_, ?_⟩ <;> dsimp only <;> rw [hn] <;> omega
        · rw [if_neg hn]
          refine ⟨hsmall (by omega), ?_, ?_⟩ <;> dsimp only <;> omega
  | body =>
    rw [hphase] at h
    obtain ⟨hsmall, hlow, hhigh⟩ := h
    have hsame : arg16 (s.rx.bytes ++ [b]) 0 = arg16 s.rx.bytes 0 := arg16_append (by omega) [b]
    rw [receiveByte_body hphase]
    by_cases hmore : (s.rx.bytes ++ [b]).length < 5 + arg16 (s.rx.bytes ++ [b]) 0
    · rw [if_pos hmore]
      exact ⟨hsame ▸ hsmall, by dsimp only; omega, hmore⟩
    · rw [if_neg hmore]
      refine ⟨hsame ▸ hsmall, ?_, ?_⟩ <;> dsimp only <;> omega
  | check =>
    rw [hphase] at h
    obtain ⟨hsmall, hlow, hhigh⟩ := h
    have hsame : arg16 (s.rx.bytes ++ [b]) 0 = arg16 s.rx.bytes 0 := arg16_append (by omega) [b]
    rw [receiveByte_check hphase]
    split
    · next hmore => exact ⟨hsame ▸ hsmall, by dsimp only; omega, hmore⟩
    · exact receiverLaw_hunt (judgeFrame_rx _ _ s)

theorem receiverLaw_of_rx {s t : State} (h : t.rx = s.rx) (hs : ReceiverLaw s) : ReceiverLaw t := by
  unfold ReceiverLaw
  rw [h]
  exact hs

theorem LinkWork.receiverLaw {s t : State} (h : LinkWork s t) : ReceiverLaw s → ReceiverLaw t := by
  induction h with
  | none s => exact id
  | both _ _ ih ih' => exact fun hs => ih' (ih hs)
  | wire s w => exact receiverLaw_of_rx rfl
  | byte s b => exact receiveByte_receiverLaw b
  | timeout s => exact fun _ => receiverLaw_hunt (raise_hunt_rx _ s)
  | take s => exact receiverLaw_of_rx (takeOutbound_outbound s).rx
  | ended s =>
    obtain ⟨_, _, h⟩ := endOutbound_eq s
    exact receiverLaw_of_rx (by rw [h])
  | advance => exact receiverLaw_of_rx rfl

/-! ### The Notice Queue (R183 to R186) -/

theorem noticeLaw_of_notices {s t : State} (h : t.notices = s.notices) (hn : t.nextNotice = s.nextNotice)
    (hs : NoticeLaw s) : NoticeLaw t := by
  rw [noticeLaw_iff, h, hn]
  exact hs

theorem offerFrame_noticeLaw (f : RequestFrame) {s : State} (h : NoticeLaw s) : NoticeLaw (offerFrame f s) := by
  unfold offerFrame
  split
  · exact h
  · exact raise_noticeLaw rfl h

theorem receiveByte_noticeLaw (b : Byte) {s : State} (h : NoticeLaw s) : NoticeLaw (receiveByte b s) := by
  have hhunt : NoticeLaw (hunt s) := h
  unfold receiveByte
  dsimp only
  split
  · split <;> exact h
  · split
    · exact raise_noticeLaw rfl hhunt
    · split <;> exact h
  · exact h
  · split
    · exact h
    · unfold judgeFrame
      dsimp only
      split
      · exact raise_noticeLaw rfl hhunt
      · split
        · exact raise_noticeLaw rfl hhunt
        · exact offerFrame_noticeLaw _ hhunt

theorem takeOutbound_noticeLaw {s : State} (h : NoticeLaw s) : NoticeLaw (takeOutbound s) := by
  unfold takeOutbound
  split
  · exact h
  · split
    · exact h
    · split
      · exact h
      · split
        · exact markOldestSent_lawful h
        · exact h

theorem LinkWork.noticeLaw {s t : State} (h : LinkWork s t) : NoticeLaw s → NoticeLaw t := by
  induction h with
  | none s => exact id
  | both _ _ ih ih' => exact fun hs => ih' (ih hs)
  | wire s w => exact fun hs => hs
  | byte s b => exact receiveByte_noticeLaw b
  | timeout s => exact fun hs => raise_noticeLaw (s := hunt s) rfl hs
  | take s => exact takeOutbound_noticeLaw
  | ended s =>
    obtain ⟨_, _, h⟩ := endOutbound_eq s
    exact noticeLaw_of_notices (by rw [h]) (by rw [h])
  | advance => exact fun hs => hs

/-! ### The transmit position (R160, R161) -/

theorem transmitLaw_none {s : State} (h : s.tx = none) : TransmitLaw s := by
  unfold TransmitLaw
  rw [h]
  trivial

theorem linkFrame_ne_nil (kind seq aux : Byte) (payload : List Byte) : 0 < (linkFrame kind seq aux payload).length := by
  simp [linkFrame]

/-- R160: a frame put in the transmit position is that of the reply at the head of the queue, or of a notice. -/
theorem takeOutbound_transmitLaw {s : State} (h : TransmitLaw s) : TransmitLaw (takeOutbound s) := by
  unfold takeOutbound
  split
  · exact h
  · next htx =>
    split
    · next r rest hr =>
      exact ⟨linkFrame_ne_nil _ _ _ _, fun _ => rfl, fun _ => ⟨r, _, by rw [hr]; rfl, rfl⟩⟩
    · split
      · exact h
      · split
        · exact ⟨linkFrame_ne_nil _ _ _ _, fun _ => rfl, fun hc => Bool.noConfusion hc⟩
        · exact h

theorem transmitLaw_of_same {s t : State} (htx : t.tx = s.tx) (hmode : t.linkMode = s.linkMode)
    (hr : s.replies <+: t.replies) (hs : TransmitLaw s) : TransmitLaw t := by
  unfold TransmitLaw at *
  rw [htx, hmode]
  cases htx : s.tx with
  | none => trivial
  | some f =>
    rw [htx] at hs
    obtain ⟨hmore, hsent, hreply⟩ := hs
    refine ⟨hmore, hsent, fun h => ?_⟩
    obtain ⟨r, aux, hhead, hbytes⟩ := hreply h
    obtain ⟨more, hmore⟩ := hr
    exact ⟨r, aux, by rw [← hmore, List.head?_append, hhead]; rfl, hbytes⟩

theorem LinkWork.transmitLaw {s t : State} (h : LinkWork s t) : TransmitLaw s → TransmitLaw t := by
  induction h with
  | none s => exact id
  | both _ _ ih ih' => exact fun hs => ih' (ih hs)
  | wire s w => exact fun hs => hs
  | byte s b =>
    obtain ⟨_, _, _, _, _, h⟩ := receiveByte_eq b s
    rw [h]
    exact fun hs => hs
  | timeout s =>
    obtain ⟨_, _, h⟩ := raise_eq (.linkError 0 0 0 1) (hunt s)
    change TransmitLaw s → TransmitLaw (raise _ (hunt s))
    rw [h]
    exact fun hs => hs
  | take s => exact takeOutbound_transmitLaw
  | ended s =>
    cases htx : s.tx with
    | none =>
      rw [endOutbound_none htx]
      exact id
    | some f =>
      rw [endOutbound_some htx]
      exact fun _ => transmitLaw_none rfl
  | @advance s f hmode hf hlast =>
    intro hs
    unfold TransmitLaw at hs
    rw [hf] at hs
    exact ⟨hlast, fun hc => absurd hmode hc, hs.2.2⟩

end Sys2Proof.Machine
end

