-- ==== Sys2Proof/Proofs/WireLawKept.lean ====
section
/-! SUPPORT. The law of the wires under the events on them (R147 to R149). -/

namespace Sys2Proof.Machine

/-- The law of the wires reads the mode, the wires, and as an SPI target the byte offered. -/
theorem wireLaw_of_same {s t : State} (hmode : t.linkMode = s.linkMode) (hwire : t.wire = s.wire) (htx : t.tx = s.tx)
    (h : WireLaw s) : WireLaw t := by
  unfold WireLaw State.spiOffer at *
  rwa [hmode, hwire, htx]

/-! ### As a UART -/

section
variable {s : State} {baud : Nat} (hmode : s.linkMode = some (.uart baud))
include hmode

theorem wireLaw_uart : WireLaw s ↔ s.wire.selected = false ∧ s.wire.bits.length < 10 ∧ s.wire.bits.headD false = false ∧
    (s.wire.awaitsHigh = true → s.wire.bits = []) ∧ s.wire.sckHigh = false ∧ s.wire.sdo = false := by
  unfold WireLaw
  rw [hmode]

/-- R148: as a UART the law speaks of the wires alone. -/
theorem wireLaw_uart_of_wire {t : State} (ht : t.linkMode = s.linkMode) (hwire : t.wire = s.wire) (h : WireLaw s) :
    WireLaw t := by
  rw [wireLaw_uart hmode] at h
  rw [wireLaw_uart (ht.trans hmode), hwire]
  exact h

theorem receiveByte_wireLaw_uart (b : Byte) (h : WireLaw s) : WireLaw (receiveByte b s) := by
  obtain ⟨_, _, _, _, _, hb⟩ := receiveByte_eq b s
  exact wireLaw_uart_of_wire hmode (by rw [hb]) (by rw [hb]) h

/-- R148: a level on RXD. -/
theorem sampleRxd_wireLaw (level : Bool) (h : WireLaw s) : WireLaw (sampleRxd level s) := by
  have ⟨hsel, hlength, hstart, hwait, hsck, hsdo⟩ := (wireLaw_uart hmode).1 h
  have hempty (w : Bool) : WireLaw (s.withWire { s.wire with bits := [], awaitsHigh := w }) :=
    (wireLaw_uart (by exact hmode)).2 ⟨hsel, Nat.zero_lt_succ 9, rfl, fun _ => rfl, hsck, hsdo⟩
  cases ha : s.wire.awaitsHigh with
  | true =>
    rw [sampleRxd_awaits ha]
    have hbits := hwait ha
    exact (wireLaw_uart (by exact hmode)).2 ⟨hsel, hlength, hstart, fun _ => hbits, hsck, hsdo⟩
  | false =>
    by_cases hidle : s.wire.bits = [] ∧ level = true
    · obtain ⟨hbits, rfl⟩ := hidle
      rw [sampleRxd_idle ha hbits]
      exact h
    · by_cases hmore : s.wire.bits.length + 1 < 10
      · rw [sampleRxd_within ha hidle hmore]
        refine (wireLaw_uart (by exact hmode)).2 ⟨hsel, ?_, ?_, fun hc => ?_, hsck, hsdo⟩
        · simpa [State.withWire] using hmore
        · change (s.wire.bits ++ [level]).headD false = false
          cases hbits : s.wire.bits with
          | nil => exact Bool.eq_false_iff.2 fun hl => hidle ⟨hbits, hl⟩
          | cons b bits =>
            rw [hbits] at hstart
            exact hstart
        · rw [State.withWire] at hc
          exact absurd (ha.symm.trans hc) Bool.false_ne_true
      · rw [sampleRxd_stop ha (by omega)]
        split
        · exact receiveByte_wireLaw_uart (by exact hmode) _ (hempty _)
        · exact hempty _

theorem receiveWhole_wireLaw_uart (b : Byte) (h : WireLaw s) : WireLaw (receiveWhole b s) := by
  by_cases hbits : s.wire.bits = []
  · rw [receiveWhole_uart hmode hbits]
    have ⟨hsel, hlength, hstart, hwait, hsck, hsdo⟩ := (wireLaw_uart hmode).1 h
    exact receiveByte_wireLaw_uart (by exact hmode) _
      ((wireLaw_uart (by exact hmode)).2 ⟨hsel, hlength, hstart, fun _ => hbits, hsck, hsdo⟩)
  · rw [receiveWhole, if_pos hbits]
    exact h

end

/-! ### As an SPI target -/

section
variable {s : State} (hmode : s.linkMode = some .spi)
include hmode

theorem wireLaw_spi : WireLaw s ↔ s.wire.awaitsHigh = false ∧ s.wire.bits.length < 8 ∧
    (s.wire.selected = false → s.wire = .reset) ∧ (s.wire.selected = true → s.wire.sckHigh = false →
      s.wire.sdo = (spiExchange s.spiOffer).getD s.wire.bits.length false) := by
  unfold WireLaw
  rw [hmode]

/-- R149: with SCK high or not selected, the byte offered is of no account. -/
theorem wireLaw_sckHigh (ha : s.wire.awaitsHigh = false) (hlength : s.wire.bits.length < 8)
    (hsel : s.wire.selected = true) (hsck : s.wire.sckHigh = true) : WireLaw s :=
  (wireLaw_spi hmode).2 ⟨ha, hlength, fun hc => Bool.noConfusion (hsel.symm.trans hc),
    fun _ hc => Bool.noConfusion (hsck.symm.trans hc)⟩

/-- R149: SDO driven is as the law says. -/
theorem driveSdo_wireLaw (ha : s.wire.awaitsHigh = false) (hlength : s.wire.bits.length < 8)
    (hsel : s.wire.selected = true) : WireLaw (driveSdo s) :=
  (wireLaw_spi (by exact hmode)).2 ⟨ha, hlength, fun hc => Bool.noConfusion (hsel.symm.trans hc), fun _ _ => rfl⟩

theorem selectLink_wireLaw (h : WireLaw s) : WireLaw (selectLink s) := by
  obtain ⟨ha, -, -, -⟩ := (wireLaw_spi hmode).1 h
  have hwire := takeOutbound_wire { s with wire := { s.wire with selected := true, bits := [] } }
  unfold selectLink
  refine driveSdo_wireLaw ((takeOutbound_outbound _).linkMode.trans hmode) ?_ ?_ ?_ <;> rw [hwire]
  · exact ha
  · exact Nat.zero_lt_succ 7

theorem deselectLink_wireLaw (h : WireLaw s) : WireLaw (deselectLink s) := by
  obtain ⟨ha, -, -, -⟩ := (wireLaw_spi hmode).1 h
  have hwire : (deselectLink s).wire = .reset := by
    change ({ Wire.reset with awaitsHigh := s.wire.awaitsHigh } : Wire) = .reset
    rw [ha]
    rfl
  exact (wireLaw_spi (by exact hmode)).2 ⟨ha, Nat.zero_lt_succ 7, fun _ => hwire, fun hc => by cases hc⟩

theorem exchangeByte_linkMode (b : Byte) : (exchangeByte b s).linkMode = some .spi :=
  ((exchangeSent_outbound _).linkMode.trans (receiveByte_linkMode b s)).trans hmode

/-- R149: a rising edge of SCK. -/
theorem sampleSdi_wireLaw (sdi : Bool) (h : WireLaw s) : WireLaw (sampleSdi sdi s) := by
  obtain ⟨ha, hlength, -, -⟩ := (wireLaw_spi hmode).1 h
  by_cases hignored : s.wire.selected = false ∨ s.wire.sckHigh = true
  · rw [sampleSdi_ignored hignored]
    exact h
  · obtain ⟨hsel, hsck⟩ : s.wire.selected = true ∧ s.wire.sckHigh = false := by simpa using hignored
    by_cases hmore : s.wire.bits.length + 1 < 8
    · rw [sampleSdi_within hsel hsck hmore]
      exact wireLaw_sckHigh (by exact hmode) ha (by simpa [State.withWire] using hmore) hsel rfl
    · rw [sampleSdi_last hsel hsck (by omega)]
      have hwire := exchangeByte_wire (byteOfBits (s.wire.bits ++ [sdi]).reverse)
        (s.withWire { s.wire with bits := [], sckHigh := true })
      refine wireLaw_sckHigh (exchangeByte_linkMode (by exact hmode) _) ?_ ?_ ?_ ?_ <;> rw [hwire]
      · exact ha
      · exact Nat.zero_lt_succ 7
      · exact hsel
      · rfl

/-- R149: a falling edge of SCK. -/
theorem shiftSdo_wireLaw (h : WireLaw s) : WireLaw (shiftSdo s) := by
  obtain ⟨ha, hlength, -, -⟩ := (wireLaw_spi hmode).1 h
  by_cases hfalls : s.wire.selected = true ∧ s.wire.sckHigh = true
  · rw [shiftSdo_falls hfalls.1 hfalls.2]
    exact driveSdo_wireLaw hmode ha hlength hfalls.1
  · rw [shiftSdo_ignored ((not_and_or.1 hfalls).imp Bool.eq_false_iff.2 Bool.eq_false_iff.2)]
    exact h

theorem receiveWhole_wireLaw_spi (b : Byte) (h : WireLaw s) : WireLaw (receiveWhole b s) := by
  by_cases hbits : s.wire.bits = []
  · rw [receiveWhole_spi hmode hbits]
    have hended {w : State} (hm : w.linkMode = some .spi) (ha : w.wire.awaitsHigh = false) (hb : w.wire.bits = [])
        (hsel : w.wire.selected = true) : WireLaw (driveSdo (exchangeByte b w)) := by
      refine driveSdo_wireLaw (exchangeByte_linkMode hm b) ?_ ?_ ?_ <;> rw [exchangeByte_wire]
      · exact ha
      · rw [hb]
        exact Nat.zero_lt_succ 7
      · exact hsel
    obtain ⟨ha, -, -, -⟩ := (wireLaw_spi hmode).1 h
    split
    · next hsel => exact hended hmode ha hbits hsel
    · have hwire : (selectLink s).wire.awaitsHigh = s.wire.awaitsHigh ∧ (selectLink s).wire.bits = [] ∧
          (selectLink s).wire.selected = true := by
        have hw := takeOutbound_wire { s with wire := { s.wire with selected := true, bits := [] } }
        unfold selectLink driveSdo
        dsimp only
        rw [hw]
        exact ⟨rfl, rfl, rfl⟩
      obtain ⟨hawaits, hempty, hsel⟩ := hwire
      exact hended ((selectLink_outbound s).linkMode.trans hmode) (hawaits.trans ha) hempty hsel
  · rw [receiveWhole, if_pos hbits]
    exact h

end

/-! ### Every event -/

theorem receiveWhole_wireLaw (b : Byte) {s : State} (h : WireLaw s) : WireLaw (receiveWhole b s) := by
  match hmode : s.linkMode with
  | some (.uart baud) => exact receiveWhole_wireLaw_uart hmode b h
  | some .spi => exact receiveWhole_wireLaw_spi hmode b h
  | none =>
    unfold receiveWhole
    rw [hmode]
    split <;> exact h

theorem lineEvent_wireLaw (e : LineEvent) {s : State} (h : WireLaw s) : WireLaw (lineEvent e s) := by
  unfold lineEvent
  split
  · exact receiveWhole_wireLaw _ h
  · next hmode => exact sampleRxd_wireLaw hmode _ h
  · next hmode => exact selectLink_wireLaw hmode h
  · next hmode => exact deselectLink_wireLaw hmode h
  · next hmode => exact sampleSdi_wireLaw hmode _ h
  · next hmode => exact shiftSdo_wireLaw hmode h
  all_goals exact h

theorem foldl_receiveWhole_wireLaw (bytes : List Byte) {s : State} (h : WireLaw s) :
    WireLaw (bytes.foldl (fun acc b => receiveWhole b acc) s) := by
  induction bytes generalizing s with
  | nil => exact h
  | cons b bytes ih => exact ih (receiveWhole_wireLaw b h)

theorem timeoutError_wireLaw {s : State} (h : WireLaw s) : WireLaw (timeoutError s) := by
  obtain ⟨_, _, hraise⟩ := raise_eq (.linkError 0 0 0 1) (hunt s)
  refine wireLaw_of_same ?_ ?_ ?_ h <;> rw [timeoutError, hraise] <;> rfl

/-- R165: the choice after a soft reset. -/
theorem chooseAfterReset_wireLaw {s : State} (h : WireLaw s) : WireLaw (chooseAfterReset s) := by
  unfold chooseAfterReset
  split
  · next hspi =>
    obtain ⟨hmode, hsel, hbits⟩ := hspi
    obtain ⟨ha, hlength, -, -⟩ := (wireLaw_spi hmode).1 h
    have htaken := (takeOutbound_outbound s).linkMode.trans hmode
    have hwire := takeOutbound_wire s
    split
    · next hsck => exact wireLaw_sckHigh htaken (hwire ▸ ha) (hwire ▸ hlength) (hwire ▸ hsel) (hwire ▸ hsck)
    · exact driveSdo_wireLaw htaken (hwire ▸ ha) (hwire ▸ hlength) (hwire ▸ hsel)
  · exact h

end Sys2Proof.Machine
end

