-- ==== Sys2Proof/Proofs/Effects.lean ====
section
/-! PROOF. What a command can come to, case by case (`exec_effect`), and what follows for the outcomes of steps. -/

namespace Sys2Proof.Machine

/-- Everything behind the link, the Request Handler and the Notice Queue, and the commands that wait. -/
def State.device (s : State) :=
  (s.surfaces, s.granules, s.mem, s.era, s.pe, s.pres0, s.pres1, s.share, s.ou0, s.ou1, s.port, s.pending)

theorem LinkWork.device {s t : State} (h : LinkWork s t) : t.device = s.device := by
  obtain ⟨_, _, _, _, _, _, _, _, rfl⟩ := h.frame
  rfl

theorem releaseHead_device (s : State) : (releaseHead s).device = s.device := by
  unfold releaseHead
  split <;> rfl

/-- What leaves the blocks alone: link work, under which the law of the wires holds on; a retry answered again (R170,
R171); an empty payload answered. -/
inductive Aside : State → State → Prop where
  | work {s t : State} (h : LinkWork s t) (hwire : WireLaw s → WireLaw t) : Aside s t
  | retried {s : State} {f : RequestFrame} (payload : List Byte) (hfree : HandlerFree s) (hf : s.headFrame = some f) :
      Aside s (releaseHead (queueReply f.seq payload s))
  | empty {s : State} {f : RequestFrame} (hfree : HandlerFree s) (hf : s.headFrame = some f)
      (hcached : s.cached f.seq = none) (hpending : s.isPending f.seq = false) :
      Aside s (finishRequest f.seq (replyPayload 0 .badLength []) s)

theorem Aside.device {s t : State} (h : Aside s t) : t.device = s.device := by
  cases h with
  | work h _ => exact h.device
  | retried => exact releaseHead_device _
  | empty => exact releaseHead_device _

/-- The resets (R163 to R165). -/
inductive ResetStep (s : State) : State → Prop where
  | soft (hreset : s.inReset = false) (htx : s.tx = none) : ResetStep s (chooseAfterReset (softCleared s))
  | hold (fresh : Bool) {mode : Option LinkMode} (hmode : mode = s.linkMode ∨ mode = none) :
      ResetStep s { resetBlocks s with inReset := true, freshSupply := fresh, linkMode := mode }
  | release (cause : ReadyCause) (mode : LinkMode) :
      ResetStep s (raiseReady cause
        { resetBlocks s with inReset := false, freshSupply := false, linkMode := some mode })

theorem ResetStep.device {s t : State} (h : ResetStep s t) : t.device = (resetBlocks s).device := by
  cases h with
  | soft => exact (chooseAfterReset_work _).device
  | hold => rfl
  | release => rfl

/-- The steps of the blocks: a burst that completes; a line, frame or field start; a wait that expires. -/
inductive BlockStep (s : State) : State → Prop where
  | engineBurst {b : EngineBurst} {live : Bool} (hport : s.port.inFlight = some (.engine b live))
      (hb : b.addr < 2097152) :
      BlockStep s (settle (if live then finishEngineBurst b (s.setInFlight none) else s.setInFlight none))
  | fetchBurst {o : OutputId} {b : FetchBurst} {live : Bool} (hport : s.port.inFlight = some (.fetch o b live))
      (hb : b.addr < 2097152) :
      BlockStep s (arbitrate (if live then finishFetchBurst o b (s.setInFlight none) else s.setInFlight none))
  | line {o : OutputId} (hruns : (s.ou o).timingRuns = true)
      (hp : (s.ou o).scanLine + 1 < (s.ou o).timing.frameLines) (hfield : (s.ou o).fieldDue = false) :
      BlockStep s (enterLine o ((s.ou o).scanLine + 1) s)
  | frame {o : OutputId} (hruns : (s.ou o).timingRuns = true)
      (hp : (s.ou o).timing.frameLines ≤ (s.ou o).scanLine + 1) : BlockStep s (startFrame o s)
  | field {o : OutputId} (hruns : (s.ou o).timingRuns = true) (hfield : (s.ou o).fieldDue = true) :
      BlockStep s (s.setOu o { s.ou o with field := .bottom })
  | powerWait {o : OutputId} (h : (s.ou o).step = .powerWait) : BlockStep s (enterClockWait o s)
  | clockWait {o : OutputId} (h : (s.ou o).step = .clockWait) : BlockStep s (enterRunning o s)
  | backlightWait {o : OutputId} (h : (s.ou o).step = .backlightWait) : BlockStep s (enterSupplyWait o s)
  | supplyWait {o : OutputId} (h : (s.ou o).step = .supplyWait) : BlockStep s (enterOff o 0 s)

theorem finishFetchBurst_quiet (o : OutputId) (b : FetchBurst) (s : State) : Quiet s (finishFetchBurst o b s) :=
  setOu_quiet o _ s

theorem BlockStep.quiet {s t : State} (h : BlockStep s t) : Quiet s t := by
  cases h with
  | @engineBurst b live =>
    refine .trans ?_ (settle_quiet _)
    have hfree := setInFlight_quiet none s
    cases live
    · exact hfree
    · exact hfree.trans (finishEngineBurst_quiet b _)
  | @fetchBurst o b live =>
    refine .trans ?_ (arbitrate_quiet _)
    have hfree := setInFlight_quiet none s
    cases live
    · exact hfree
    · exact hfree.trans (finishFetchBurst_quiet o b _)
  | line => exact enterLine_quiet _ _ s
  | frame => exact startFrame_quiet _ s
  | field => exact setOu_quiet _ _ s
  | powerWait => exact enterClockWait_quiet _ s
  | clockWait => exact enterRunning_quiet _ s
  | backlightWait => exact enterSupplyWait_quiet _ s
  | supplyWait => exact enterOff_quiet _ 0 s

/-- What a command can come to. -/
inductive Effect (s : State) : State → Prop where
  | aside {t : State} (h : Aside s t) : Effect s t
  | taken {c : Instr} {row : RequestRow} {seq code : Byte} {args : List Byte} (hrow : requestRow c = some row)
      (h : Taking s seq code args) : Effect s (row.after (dealtWith seq code (row.body seq code args s)))
  | heldUpload {f : RequestFrame} {x : Session} (hheld : s.held = some .upload) (hf : s.headFrame = some f)
      (hx : s.pe.session = some x) (hroom : ¬ s.pe.room < x.takes (f.payload.drop 1)) :
      Effect s (settle (dealtWith f.seq f.codeOrZero (stageData x (f.payload.drop 1) { s with held := none })))
  | reset {t : State} (h : ResetStep s t) : Effect s t
  | block {t : State} (h : BlockStep s t) : Effect s t

/-- A command that does nothing has no effect. -/
theorem Effect.of_same {s t : State} (h : (.next s : Result) = .next t) : Effect s t :=
  Host.Outcome.next.inj h ▸ .aside (.work (.none s) id)

theorem Effect.of_work {s t u : State} (hu : LinkWork s u) (hwire : WireLaw s → WireLaw u)
    (h : (.next u : Result) = .next t) : Effect s t :=
  Host.Outcome.next.inj h ▸ .aside (.work hu hwire)

/-- R160: as a UART the law of the wires does not read the transmit position. -/
theorem Effect.of_transmit {s t u : State} {baud : Nat} (hmode : s.linkMode = some (.uart baud)) (hu : LinkWork s u)
    (hkeep : u.linkMode = s.linkMode ∧ u.wire = s.wire) (h : (.next u : Result) = .next t) : Effect s t :=
  .of_work hu (wireLaw_uart_of_wire hmode hkeep.1 hkeep.2) h

/-- R168: a request row's effect. -/
theorem takeRequest_effect {c : Instr} {row : RequestRow} (hrow : requestRow c = some row) (s : State) :
    Effect s (takeRequest row.names row.body row.after s) := by
  rcases takeRequest_cases row.names row.body row.after s with h | ⟨f, payload, hfree, hf, h⟩ |
    ⟨f, hfree, hf, hcached, hpending, h⟩ | ⟨seq, code, args, htaking, -, h⟩ <;> rw [h]
  · exact .aside (.work (.none s) id)
  · exact .aside (.retried payload hfree hf)
  · exact .aside (.empty hfree hf hcached hpending)
  · exact .taken hrow htaking

/-- The effect of every command. -/
theorem exec_effect {c : Instr} {s t : State} (h : exec c s = .next t) : Effect s t := by
  by_cases hrequest : isRequest c
  · obtain ⟨row, hrow⟩ := Option.isSome_iff_exists.1 ((requestRow_isSome_iff c).2 hrequest)
    rw [exec_requestRow hrow] at h
    exact Host.Outcome.next.inj h ▸ takeRequest_effect hrow s
  · have block {u : State} (hu : BlockStep s u) (h : (.next u : Result) = .next t) : Effect s t :=
      Host.Outcome.next.inj h ▸ .block hu
    have reset {u : State} (hu : ResetStep s u) (h : (.next u : Result) = .next t) : Effect s t :=
      Host.Outcome.next.inj h ▸ .reset hu
    cases c
    case receiveFrame bytes =>
      change (if s.inReset then _ else _) = _ at h
      split at h
      · exact .of_same h
      · exact .of_work (foldl_receiveWhole_work bytes s) (foldl_receiveWhole_wireLaw bytes) h
    case receivedByte e =>
      change (if s.inReset then _ else _) = _ at h
      split at h
      · exact .of_same h
      · exact .of_work (lineEvent_work e s) (lineEvent_wireLaw e) h
    case interByteTimeout =>
      change execInterByteTimeout s = _ at h
      unfold execInterByteTimeout at h
      split at h
      · exact .of_same h
      all_goals exact .of_work (.timeout s) timeoutError_wireLaw h
    case transmitTake =>
      change execTransmitTake s = _ at h
      unfold execTransmitTake at h
      split at h
      · next hmode =>
        exact .of_transmit hmode (.take s) ⟨(takeOutbound_outbound s).linkMode, takeOutbound_wire s⟩ h
      all_goals exact .of_same h
    case frameSent =>
      change execFrameSent s = _ at h
      unfold execFrameSent at h
      split at h
      · next hmode =>
        obtain ⟨_, _, hended⟩ := endOutbound_eq s
        exact .of_transmit hmode (.ended s) ⟨by rw [hended], by rw [hended]⟩ h
      all_goals exact .of_same h
    case softReset =>
      change execSoftReset s = _ at h
      unfold execSoftReset at h
      split at h
      · next hready =>
        obtain ⟨hreset, -, -, htx⟩ := hready
        exact reset (.soft (Bool.eq_false_iff.2 hreset) htx) h
      · exact .of_same h
    case hardResetAssert entry =>
      cases entry
      · exact reset (.hold s.freshSupply (.inl rfl)) h
      · exact reset (.hold true (.inr rfl)) h
    case hardResetRelease lmode1 lmode0 =>
      change execHardResetRelease lmode1 lmode0 s = _ at h
      unfold execHardResetRelease at h
      split at h
      · exact reset (.release _ _) h
      · exact .of_same h
    case heldUploadDataExecute =>
      change execHeldUploadDataExecute s = _ at h
      unfold execHeldUploadDataExecute at h
      split at h
      · next f x hheld hf hx =>
        dsimp only at h
        split at h
        · exact .of_same h
        · next hroom =>
          rw [executeRequest_eq_dealtWith] at h
          exact Host.Outcome.next.inj h ▸ .heldUpload hheld hf hx hroom
      · exact .of_same h
    case peBurstComplete =>
      change execPeBurstComplete s = _ at h
      unfold execPeBurstComplete at h
      split at h
      · next b live hport =>
        split at h
        · cases h
        · next hb => exact block (.engineBurst hport (Nat.lt_of_not_le hb)) h
      all_goals exact .of_same h
    case fetchBurstComplete =>
      change execFetchBurstComplete s = _ at h
      unfold execFetchBurstComplete at h
      split at h
      · next o b live hport =>
        split at h
        · cases h
        · next hb => exact block (.fetchBurst hport (Nat.lt_of_not_le hb)) h
      all_goals exact .of_same h
    case lineStart o =>
      change execLineStart o s = _ at h
      unfold execLineStart at h
      dsimp only at h
      split at h
      · next hdue =>
        obtain ⟨hruns, hp, hfield⟩ := hdue
        exact block (.line hruns hp (Bool.eq_false_iff.2 hfield)) h
      · exact .of_same h
    case frameStart o =>
      change execFrameStart o s = _ at h
      unfold execFrameStart at h
      dsimp only at h
      split at h
      · next hdue => exact block (.frame hdue.1 hdue.2) h
      · exact .of_same h
    case fieldStart o =>
      change execFieldStart o s = _ at h
      unfold execFieldStart at h
      dsimp only at h
      split at h
      · next hdue => exact block (.field hdue.1 hdue.2) h
      · exact .of_same h
    case powerWaitExpiry o =>
      change (if _ then _ else _) = _ at h
      split at h
      · next hstep => exact block (.powerWait hstep) h
      · exact .of_same h
    case clockWaitExpiry o =>
      change (if _ then _ else _) = _ at h
      split at h
      · next hstep => exact block (.clockWait hstep) h
      · exact .of_same h
    case backlightWaitExpiry o =>
      change (if _ then _ else _) = _ at h
      split at h
      · next hstep => exact block (.backlightWait hstep) h
      · exact .of_same h
    case supplyWaitExpiry o =>
      change (if _ then _ else _) = _ at h
      split at h
      · next hstep => exact block (.supplyWait hstep) h
      · exact .of_same h
    all_goals exact absurd (by simp [isRequest, requestCode]) hrequest

/-! ### Outcomes (R1; log 3, log 16) -/

theorem Quiet.waiting {s t : State} (h : Quiet s t) : t.pending = s.pending :=
  congrArg (fun l => l.2.2.2.2.2.2.2.2.2) h.linkSide

theorem waiting_of_device {s t : State} (h : t.device = s.device) : t.pending = s.pending :=
  congrArg (fun d => d.2.2.2.2.2.2.2.2.2.2.2) h

/-- R168: dealing with a body's result leaves the blocks alone. -/
theorem dealtWith_device (seq code : Byte) (r : State × Answer) : (dealtWith seq code r).device = r.1.device := by
  obtain ⟨t, _ | _ | _⟩ := r
  · exact releaseHead_device _
  · exact releaseHead_device _
  · rfl

/-- No body touches the commands that wait. -/
theorem BodyQuiet.waiting {seq : Byte} {s : State} {r : State × Answer} (h : BodyQuiet seq s r) :
    r.1.pending = s.pending := by
  obtain ⟨t, _ | _ | _⟩ := r
  · rcases h with h | ⟨q, h, -⟩ <;> exact h.waiting
  · obtain ⟨-, _, _, _, h⟩ := h
    exact h.waiting
  · have h : t = { s with held := some .upload } := h
    rw [h]

theorem stageData_quiet (x : Session) (data : List Byte) (s : State) : Quiet s (stageData x data s).1 := setPe_quiet _ s

/-- No command changes the queue. -/
theorem exec_pending {c : Instr} {s t : State} (h : exec c s = .next t) : t.pending = s.pending := by
  cases exec_effect h with
  | aside h => exact waiting_of_device h.device
  | @taken _ row seq code args hrow htaking =>
    obtain ⟨hbody, hafter⟩ := requestRow_quiet hrow seq code args s
    exact (hafter _).waiting.trans ((waiting_of_device (dealtWith_device seq code _)).trans hbody.waiting)
  | heldUpload =>
    exact (settle_quiet _).waiting.trans ((waiting_of_device (dealtWith_device _ _ _)).trans
      (stageData_quiet _ _ _).waiting)
  | reset h => exact (waiting_of_device h.device : t.pending = (resetBlocks s).pending)
  | block h => exact h.quiet.waiting

/-- R1: with the burst in progress one of frame memory, every command answers a next state. -/
theorem exec_next_of_grantExists (c : Instr) {s : State} (h : grantExists s) : ∃ t, exec c s = .next t := by
  by_cases hp : c = .peBurstComplete
  · subst hp
    change ∃ t, execPeBurstComplete s = .next t
    unfold execPeBurstComplete grantExists at *
    split
    · next b live hport =>
      rw [hport] at h
      exact ⟨_, if_neg (Nat.not_le.2 h)⟩
    all_goals exact ⟨_, rfl⟩
  · by_cases hf : c = .fetchBurstComplete
    · subst hf
      change ∃ t, execFetchBurstComplete s = .next t
      unfold execFetchBurstComplete grantExists at *
      split
      · next o b live hport =>
        rw [hport] at h
        exact ⟨_, if_neg (Nat.not_le.2 h)⟩
      all_goals exact ⟨_, rfl⟩
    · exact exec_next c s hp hf

/-- R1: a fetch burst outside frame memory stops its completion. -/
theorem exec_fetchBurst_fault {s : State} {a : Nat} (ha : 2097152 ≤ a) (o : OutputId) (i : Nat) (live : Bool)
    (h : s.port.inFlight = some (.fetch o ⟨i, a⟩ live)) : exec .fetchBurstComplete s = .fault (.noSuchAddress a) := by
  change execFetchBurstComplete s = _
  unfold execFetchBurstComplete
  rw [h]
  exact if_pos ha

/-- R1: so does an engine burst. -/
theorem exec_engineBurst_fault {s : State} {b : EngineBurst} (ha : 2097152 ≤ b.addr) (live : Bool)
    (h : s.port.inFlight = some (.engine b live)) : exec .peBurstComplete s = .fault (.noSuchAddress b.addr) := by
  change execPeBurstComplete s = _
  unfold execPeBurstComplete
  rw [h]
  exact if_pos ha

/-- Settles O2. -/
theorem outcomesAndTheQueue : Obligations.OutcomesAndTheQueue := by
  unfold Obligations.OutcomesAndTheQueue
  refine ⟨⟨fun s h => ?_, fun c s t h => exec_pending h⟩, fun s h => ?_, exec_next, fun s a ha =>
    ⟨exec_fetchBurst_fault ha, fun b live h haddr => haddr ▸ exec_engineBurst_fault (haddr ▸ ha) live h⟩⟩
  · unfold step
    rw [h]
  · unfold step
    split
    · exact ⟨s, rfl⟩
    · exact exec_next_of_grantExists _ (s := { s with pending := _ }) h

end Sys2Proof.Machine
end

