-- ==== Sys2Proof/Proofs/LinkLawsKept.lean ====
section
/-! PROOF. The laws of the Request Handler, the slots, the link and the Notice Queue under every command. -/

namespace Sys2Proof.Machine

/-- R169: where an UPLOAD_DATA is held, its frame is at hand and its request new. -/
def heldLawful (s : State) : Prop :=
  s.held = some .upload → collectionsLawful 7 s ∧ ∃ f, s.headFrame = some f ∧ s.fresh f.seq

theorem collectionsLawful.mono {m n : Nat} {s : State} (h : collectionsLawful m s) (hmn : m ≤ n) : collectionsLawful n s := by
  obtain ⟨hroom, hrest⟩ := h
  exact ⟨hroom.trans hmn, hrest⟩

theorem handlerLaw_iff (s : State) : HandlerLaw s ↔
    collectionsLawful 8 s ∧ heldLawful s ∧ (s.draining = true → s.pendingReplies = []) := by
  have hhead (p : RequestFrame → Prop) : (s.headFrame.elim False p) ↔ ∃ f, s.headFrame = some f ∧ p f := by
    cases s.headFrame <;> simp
  unfold HandlerLaw heldLawful collectionsLawful State.fresh
  rw [hhead]
  constructor
  · rintro ⟨hroom, htable, hcache, hcached, hpending, hfree, hheld, hdrain⟩
    refine ⟨⟨hroom, htable, hcache, hcached, hpending, hfree⟩, fun h => ?_, hdrain⟩
    exact ⟨⟨Nat.le_of_lt_succ (hheld h).1, htable, hcache, hcached, hpending, hfree⟩, (hheld h).2⟩
  · rintro ⟨⟨hroom, htable, hcache, hcached, hpending, hfree⟩, hheld, hdrain⟩
    exact ⟨hroom, htable, hcache, hcached, hpending, hfree,
      fun h => ⟨Nat.lt_succ_of_le (hheld h).1.1, (hheld h).2⟩, hdrain⟩

/-! ### Quiet operations -/

section
variable {s t : State} (h : Quiet s t)
include h

theorem Quiet.held : t.held = s.held := congrArg (fun l => l.2.2.2.2.2.2.2.2.1) h.linkSide
theorem Quiet.slots : t.slots = s.slots := congrArg (fun l => l.2.2.2.2.2.1) h.linkSide
theorem Quiet.arrival : t.arrival = s.arrival := congrArg (fun l => l.2.2.2.2.2.2.1) h.linkSide
theorem Quiet.tx : t.tx = s.tx := congrArg (fun l => l.2.2.2.2.2.2.2.1) h.linkSide
theorem Quiet.linkMode : t.linkMode = s.linkMode := congrArg (fun l => l.2.2.1) h.linkSide
theorem Quiet.wire : t.wire = s.wire := congrArg (fun l => l.2.2.2.1) h.linkSide
theorem Quiet.rx : t.rx = s.rx := congrArg (fun l => l.2.2.2.2.1) h.linkSide

theorem Quiet.headFrame : t.headFrame = s.headFrame := by
  unfold State.headFrame
  rw [h.slots, h.arrival]

theorem Quiet.handlerLaw (hs : HandlerLaw s) : HandlerLaw t := by
  rw [handlerLaw_iff] at hs ⊢
  obtain ⟨hroom, hheld, hdrain⟩ := hs
  refine ⟨h.collections 8 hroom, fun hup => ?_, fun hd => ?_⟩
  · obtain ⟨hroom, f, hf, hfresh⟩ := hheld (h.held ▸ hup)
    exact ⟨h.collections 7 hroom, f, h.headFrame.trans hf, h.fresh _ hfresh⟩
  · have hsub := h.pending
    rw [hdrain (by unfold State.draining at hd ⊢; rwa [← h.held])] at hsub
    exact List.sublist_nil.1 hsub

theorem Quiet.slotsLaw (hs : SlotsLaw s) : SlotsLaw t := by
  unfold SlotsLaw
  rw [h.slots, h.arrival]
  exact hs

theorem Quiet.linkLaws : (WireLaw s → WireLaw t) ∧ (ReceiverLaw s → ReceiverLaw t) ∧ (TransmitLaw s → TransmitLaw t) :=
  ⟨wireLaw_of_same h.linkMode h.wire h.tx, receiverLaw_of_rx h.rx, transmitLaw_of_same h.tx h.linkMode h.replies⟩

end

/-! ### The reply queue, the pending-reply table and the slots -/

section
variable {s : State}

/-- R168: a reply of a new request enters the reply queue and the cache. -/
theorem pushReply_collections {seq : Byte} (payload : List Byte) (h : collectionsLawful 7 s) (hnew : s.fresh seq) :
    collectionsLawful 8 (pushReply seq payload s) := by
  obtain ⟨hroom, htable, hcache, hcached, hpending, hfree⟩ := h
  have hother := (isPending_eq_false_iff s seq).1 hnew.2
  refine ⟨?_, htable, cacheInsert_length hcache, cacheInsert_nodup hcached, hpending, fun p hp =>
    cached_cacheInsert (s := s) (r := ⟨seq, payload⟩) rfl (Ne.symm (hother p hp)) (hfree p hp)⟩
  change (s.replies ++ [_]).length + s.pendingReplies.length ≤ 8
  rw [List.length_append, List.length_singleton]
  omega

/-- R170, R171: a retry's answer enters the reply queue only. -/
theorem queueReply_collections (seq : Byte) (payload : List Byte) (h : collectionsLawful 7 s) :
    collectionsLawful 8 (queueReply seq payload s) := by
  obtain ⟨hroom, hrest⟩ := h
  refine ⟨?_, hrest⟩
  change (s.replies ++ [_]).length + s.pendingReplies.length ≤ 8
  rw [List.length_append, List.length_singleton]
  omega

/-- R173: a new request fills a pending-reply entry. -/
theorem bindPending_collections {seq : Byte} (code : Byte) (owner : Block) (ref : PendingRef)
    (h : collectionsLawful 7 s) (hnew : s.fresh seq) (hentry : s.pendingFree = true) :
    collectionsLawful 8 (bindPending seq code owner ref s) := by
  obtain ⟨hroom, htable, hcache, hcached, hpending, hfree⟩ := h
  have hother := (isPending_eq_false_iff s seq).1 hnew.2
  have hentry : s.pendingReplies.length < 4 := of_decide_eq_true hentry
  have hlength : (s.pendingReplies ++ [(⟨seq, code, owner, ref⟩ : PendingReply)]).length = s.pendingReplies.length + 1 := by
    simp
  refine ⟨?_, ?_, hcache, hcached, ?_, fun p hp => ?_⟩
  · change s.replies.length + (s.pendingReplies ++ [_]).length ≤ 8
    omega
  · exact hlength.le.trans hentry
  · change ((s.pendingReplies ++ [(⟨seq, code, owner, ref⟩ : PendingReply)]).map (·.seq)).Nodup
    rw [List.map_append]
    refine List.concat_eq_append ▸ hpending.concat fun hmem => ?_
    obtain ⟨p, hp, hseq⟩ := List.mem_map.1 hmem
    exact hother p hp hseq
  · rcases List.mem_append.1 hp with hp | hp
    · exact hfree p hp
    · exact List.mem_singleton.1 hp ▸ hnew.1

/-- R157: releasing the head's slot touches the slots and the arrival list alone. -/
theorem releaseHead_frame (s : State) : ∃ slots arrival, releaseHead s = { s with slots := slots, arrival := arrival } := by
  unfold releaseHead
  split
  · exact ⟨s.slots, s.arrival, rfl⟩
  · exact ⟨_, _, rfl⟩

theorem releaseHead_slotsLaw (h : SlotsLaw s) : SlotsLaw (releaseHead s) := by
  unfold releaseHead
  split
  · exact h
  · next i rest ha =>
    obtain ⟨hlength, hnodup, hsmall, hoccupied⟩ := h
    rw [ha] at hnodup hsmall hoccupied
    obtain ⟨hi, hrest⟩ := List.nodup_cons.1 hnodup
    refine ⟨(List.length_set ..).trans hlength, hrest, fun j hj => hsmall j (List.mem_cons_of_mem _ hj), fun j hj => ?_⟩
    change ((s.slots.set i none).getD j none).isSome = true ↔ j ∈ rest
    by_cases hji : j = i
    · subst hji
      simp [hi, List.getD_eq_getElem?_getD, List.getElem?_set_self (hlength ▸ hj : j < s.slots.length)]
    · rw [List.getD_eq_getElem?_getD, List.getElem?_set_ne (Ne.symm hji), ← List.getD_eq_getElem?_getD, hoccupied j hj]
      simp [hji]

/-- What holds of the handler once a frame has been dealt with and no UPLOAD_DATA is held. -/
theorem releaseHead_handlerLaw (h : collectionsLawful 8 s) (hheld : s.held ≠ some .upload)
    (hdrain : s.draining = true → s.pendingReplies = []) : HandlerLaw (releaseHead s) := by
  obtain ⟨slots, arrival, hr⟩ := releaseHead_frame s
  rw [hr, handlerLaw_iff]
  exact ⟨h, fun hup => absurd hup hheld, hdrain⟩

theorem HandlerFree.collections (hfree : HandlerFree s) (h : collectionsLawful 8 s) : collectionsLawful 7 s := by
  obtain ⟨-, -, hroom⟩ := hfree
  obtain ⟨-, hrest⟩ := h
  exact ⟨Nat.le_of_lt_succ hroom, hrest⟩

theorem HandlerFree.not_draining (hfree : HandlerFree s) : s.draining = false := by
  unfold State.draining
  rw [hfree.2.1]

/-- R168 to R173: the handler's law holds once a request's body has run and its answer is dealt with. -/
theorem dealtWith_handlerLaw {seq code : Byte} {args : List Byte} {r : State × Answer} (htaking : Taking s seq code args)
    (hs : HandlerLaw s) (h : BodyQuiet seq s r) : HandlerLaw (dealtWith seq code r) := by
  obtain ⟨hfree, hf, hcached, hpending⟩ := htaking
  have hroom := hfree.collections ((handlerLaw_iff s).1 hs).1
  have hnew : s.fresh seq := ⟨hcached, hpending⟩
  have hnone := hfree.2.1
  have hquiet {u t : State} (hu : u.held = none) (ht : Quiet u t) : t.held ≠ some .upload ∧ t.draining = false := by
    unfold State.draining
    rw [ht.held, hu]
    exact ⟨fun hc => (by cases hc), rfl⟩
  obtain ⟨t, ans⟩ := r
  cases ans with
  | reply st fields =>
    rcases h with h | ⟨q, h, hempty⟩
    · obtain ⟨hheld, hdrain⟩ := hquiet hnone h
      exact releaseHead_handlerLaw (s := pushReply seq _ t)
        (pushReply_collections _ (h.collections 7 hroom) (h.fresh _ hnew)) hheld
        fun hd => Bool.noConfusion (hdrain.symm.trans hd)
    · have hheld : t.held ≠ some .upload := by
        rw [h.held]
        exact fun hc => (by cases hc)
      exact releaseHead_handlerLaw (s := pushReply seq _ t)
        (pushReply_collections _ (h.collections 7 hroom) (h.fresh _ hnew)) hheld fun _ => hempty hroom.2.2.2.2.1
  | deferred =>
    obtain ⟨hentry, code', owner, ref, h⟩ := h
    obtain ⟨hheld, hdrain⟩ := hquiet (u := bindPending seq code' owner ref s) hnone h
    exact releaseHead_handlerLaw (h.collections 8 (bindPending_collections code' owner ref hroom hnew hentry)) hheld
      fun hd => Bool.noConfusion (hdrain.symm.trans hd)
  | heldInSlot =>
    have h : t = { s with held := some .upload } := h
    change HandlerLaw t
    rw [h, handlerLaw_iff]
    exact ⟨hroom.mono (Nat.le_succ 7), fun _ => ⟨hroom, _, hf, hnew⟩, fun hd => (by cases hd)⟩

theorem dealtWith_slotsLaw {seq code : Byte} {r : State × Answer} (hs : SlotsLaw s) (h : BodyQuiet seq s r) :
    SlotsLaw (dealtWith seq code r) := by
  obtain ⟨t, ans⟩ := r
  cases ans with
  | reply st fields =>
    have ht : SlotsLaw t := by
      rcases h with h | ⟨q, h, -⟩
      · exact h.slotsLaw hs
      · exact h.slotsLaw hs
    exact releaseHead_slotsLaw (s := pushReply seq _ t) ht
  | deferred =>
    obtain ⟨-, code', owner, ref, h⟩ := h
    exact releaseHead_slotsLaw (h.slotsLaw (s := bindPending seq code' owner ref s) hs)
  | heldInSlot =>
    have h : t = { s with held := some .upload } := h
    change SlotsLaw t
    rw [h]
    exact hs

/-- R160: what an answer leaves of the link: the mode, the wires, the receiver and the transmit position, and replies
join the queue behind the one being sent. -/
def LinkKept (s t : State) : Prop :=
  t.linkMode = s.linkMode ∧ t.wire = s.wire ∧ t.rx = s.rx ∧ t.tx = s.tx ∧ s.replies <+: t.replies

theorem LinkKept.releaseHead {t : State} (h : LinkKept s t) : LinkKept s (releaseHead t) := by
  obtain ⟨_, _, hr⟩ := releaseHead_frame t
  rw [hr]
  exact h

theorem LinkKept.of_quiet {u t : State} (hu : LinkKept s u) (h : Quiet u t) : LinkKept s t := by
  obtain ⟨hmode, hwire, hrx, htx, hreplies⟩ := hu
  exact ⟨h.linkMode.trans hmode, h.wire.trans hwire, h.rx.trans hrx, h.tx.trans htx, hreplies.trans h.replies⟩

theorem LinkKept.refl (s : State) : LinkKept s s := ⟨rfl, rfl, rfl, rfl, List.prefix_refl _⟩

theorem LinkKept.pushReply {t : State} (h : LinkKept s t) (seq : Byte) (payload : List Byte) :
    LinkKept s (pushReply seq payload t) := by
  obtain ⟨hmode, hwire, hrx, htx, hreplies⟩ := h
  exact ⟨hmode, hwire, hrx, htx, hreplies.trans (List.prefix_append _ _)⟩

theorem LinkKept.linkLaws {t : State} (h : LinkKept s t) :
    (WireLaw s → WireLaw t) ∧ (ReceiverLaw s → ReceiverLaw t) ∧ (TransmitLaw s → TransmitLaw t) := by
  obtain ⟨hmode, hwire, hrx, htx, hreplies⟩ := h
  exact ⟨wireLaw_of_same hmode hwire htx, receiverLaw_of_rx hrx, transmitLaw_of_same htx hmode hreplies⟩

theorem dealtWith_link {seq code : Byte} {r : State × Answer} (h : BodyQuiet seq s r) :
    LinkKept s (dealtWith seq code r) := by
  obtain ⟨t, ans⟩ := r
  cases ans with
  | reply st fields =>
    have hkept : LinkKept s t := by
      rcases h with h | ⟨q, h, -⟩
      · exact (LinkKept.refl s).of_quiet h
      · exact .of_quiet (u := { s with held := some (.reset q) }) (.refl s) h
    exact (hkept.pushReply seq _).releaseHead
  | deferred =>
    obtain ⟨-, code', owner, ref, h⟩ := h
    exact (LinkKept.of_quiet (u := bindPending seq code' owner ref s) (.refl s) h).releaseHead
  | heldInSlot =>
    have h : t = { s with held := some .upload } := h
    change LinkKept s t
    rw [h]
    exact .refl s

theorem dealtWith_noticeLaw {seq code : Byte} {r : State × Answer} (hs : NoticeLaw s) (h : BodyQuiet seq s r) :
    NoticeLaw (dealtWith seq code r) := by
  have hreleased {w : State} (hw : NoticeLaw w) : NoticeLaw (releaseHead w) := by
    obtain ⟨_, _, hr⟩ := releaseHead_frame w
    rw [hr]
    exact hw
  obtain ⟨t, ans⟩ := r
  cases ans with
  | reply st fields =>
    refine hreleased (w := pushReply seq _ t) ?_
    rcases h with h | ⟨q, h, -⟩
    · exact h.notices hs
    · exact h.notices hs
  | deferred =>
    obtain ⟨-, code', owner, ref, h⟩ := h
    exact hreleased (h.notices (s := bindPending seq code' owner ref s) hs)
  | heldInSlot =>
    have h : t = { s with held := some .upload } := h
    change NoticeLaw t
    rw [h]
    exact hs

end

/-! ### Steps aside, the held UPLOAD_DATA and resets -/

section
variable {s t : State}

theorem HandlerKept.handlerLaw (h : HandlerKept s t) (hslots : SlotsLaw s) (hs : HandlerLaw s) : HandlerLaw t := by
  obtain ⟨hheld, hcache, hpending⟩ : t.held = s.held ∧ t.cache = s.cache ∧ t.pendingReplies = s.pendingReplies := by
    simpa using h.handler
  have hcollections {n : Nat} (hn : collectionsLawful n s) : collectionsLawful n t := by
    have hreplies := h.replies
    unfold collectionsLawful State.cached at *
    rw [hcache, hpending]
    exact ⟨by omega, hn.2⟩
  rw [handlerLaw_iff] at hs ⊢
  obtain ⟨hroom, hup, hdrain⟩ := hs
  refine ⟨hcollections hroom, fun hu => ?_, fun hd => ?_⟩
  · obtain ⟨hroom, f, hf, hfresh⟩ := hup (hheld ▸ hu)
    refine ⟨hcollections hroom, f, (h.head hslots (by rw [hf]; rfl)).trans hf, ?_⟩
    unfold State.fresh State.cached State.isPending at *
    rwa [hcache, hpending]
  · rw [hpending]
    exact hdrain (by unfold State.draining at *; rwa [← hheld])

theorem Aside.handlerLaws (h : Aside s t) (hs : HandlerLaw s) (hslots : SlotsLaw s) : HandlerLaw t ∧ SlotsLaw t := by
  have hnot (hfree : HandlerFree s) : s.held ≠ some .upload := by
    rw [hfree.2.1]
    exact fun hc => (by cases hc)
  have hdrain (hfree : HandlerFree s) (hd : s.draining = true) : s.pendingReplies = [] :=
    Bool.noConfusion (hfree.not_draining.symm.trans hd)
  have hroom := ((handlerLaw_iff s).1 hs).1
  cases h with
  | work h _ => exact ⟨h.kept.handlerLaw hslots hs, h.kept.slots hslots⟩
  | retried payload hfree hf =>
    exact ⟨releaseHead_handlerLaw (queueReply_collections _ payload (hfree.collections hroom)) (hnot hfree) (hdrain hfree),
      releaseHead_slotsLaw hslots⟩
  | empty hfree hf hcached hpending =>
    exact ⟨releaseHead_handlerLaw (pushReply_collections _ (hfree.collections hroom) ⟨hcached, hpending⟩) (hnot hfree)
      (hdrain hfree), releaseHead_slotsLaw hslots⟩

theorem Aside.linkLaws (h : Aside s t) :
    (WireLaw s → WireLaw t) ∧ (ReceiverLaw s → ReceiverLaw t) ∧ (TransmitLaw s → TransmitLaw t) := by
  cases h with
  | work h hwire => exact ⟨hwire, h.receiverLaw, h.transmitLaw⟩
  | retried =>
    have hqueued (w : Reply) : LinkKept s { s with replies := s.replies ++ [w] } :=
      ⟨rfl, rfl, rfl, rfl, List.prefix_append _ _⟩
    exact (hqueued _).releaseHead.linkLaws
  | empty => exact ((LinkKept.refl s).pushReply _ _).releaseHead.linkLaws

theorem Aside.noticeLaw (h : Aside s t) (hs : NoticeLaw s) : NoticeLaw t := by
  cases h with
  | work h _ => exact h.noticeLaw hs
  | @retried f payload =>
    obtain ⟨_, _, hr⟩ := releaseHead_frame (queueReply f.seq payload s)
    rw [hr]
    exact hs
  | @empty f =>
    obtain ⟨_, _, hr⟩ := releaseHead_frame (pushReply f.seq (replyPayload 0 .badLength []) s)
    change NoticeLaw (releaseHead _)
    rw [hr]
    exact hs

/-- R51: the held UPLOAD_DATA's request is dealt with as a request newly taken. -/
theorem heldUpload_handlerLaw {f : RequestFrame} (hs : HandlerLaw s) (hheld : s.held = some .upload)
    (hf : s.headFrame = some f) (code : Byte) (x : Session) (data : List Byte) :
    HandlerLaw (dealtWith f.seq code (stageData x data { s with held := none })) := by
  obtain ⟨-, hup, -⟩ := (handlerLaw_iff s).1 hs
  obtain ⟨hroom, f', hf', hfresh⟩ := hup hheld
  have hsame : f' = f := Option.some.inj (hf'.symm.trans hf)
  rw [hsame] at hfresh
  exact releaseHead_handlerLaw (s := pushReply f.seq _ _)
    (pushReply_collections _ ((stageData_quiet x data { s with held := none }).collections 7 hroom)
      ((stageData_quiet x data { s with held := none }).fresh _ hfresh)) (fun hc => (by cases hc)) (fun hd => (by cases hd))

theorem stageData_bodyQuiet (seq : Byte) (x : Session) (data : List Byte) (s : State) :
    BodyQuiet seq s (stageData x data s) := bodyQuiet_reply (stageData_quiet x data s) _ _

theorem ResetStep.handlerLaws (h : ResetStep s t) : HandlerLaw t ∧ SlotsLaw t := by
  cases h with
  | soft hreset htx =>
    have hkept := (chooseAfterReset_work (softCleared s)).kept
    exact ⟨hkept.handlerLaw reset_slotsLaw reset_handlerLaw, hkept.slots reset_slotsLaw⟩
  | hold => exact ⟨reset_handlerLaw, reset_slotsLaw⟩
  | release => exact ⟨reset_handlerLaw, reset_slotsLaw⟩

/-- R164: the wires at rest are lawful in every mode. -/
theorem wireLaw_reset (h : s.wire = .reset) : WireLaw s := by
  match hmode : s.linkMode with
  | some (.uart _) =>
    rw [wireLaw_uart hmode, h]
    exact ⟨rfl, Nat.zero_lt_succ 9, rfl, fun _ => rfl, rfl, rfl⟩
  | some .spi =>
    rw [wireLaw_spi hmode, h]
    exact ⟨rfl, Nat.zero_lt_succ 7, fun _ => rfl, fun hc => (by cases hc)⟩
  | none =>
    unfold WireLaw
    rw [hmode]
    exact h

theorem ResetStep.linkLaws (h : ResetStep s t) :
    (WireLaw s → WireLaw t) ∧ ReceiverLaw t ∧ TransmitLaw t := by
  cases h with
  | soft hreset htx =>
    have hwork := chooseAfterReset_work (softCleared s)
    exact ⟨fun hs => chooseAfterReset_wireLaw (wireLaw_of_same (s := s) rfl rfl htx.symm hs),
      hwork.receiverLaw (receiverLaw_hunt rfl), hwork.transmitLaw (transmitLaw_none rfl)⟩
  | hold => exact ⟨fun _ => wireLaw_reset rfl, receiverLaw_hunt rfl, transmitLaw_none rfl⟩
  | release => exact ⟨fun _ => wireLaw_reset rfl, receiverLaw_hunt rfl, transmitLaw_none rfl⟩

/-- R190: READY alone is lawful. -/
theorem ready_noticesLawful (cause : ReadyCause) : noticesLawful [⟨.ready cause, 0, false⟩] 1 := by
  unfold noticesLawful
  cases cause <;> decide

/-- R181: so is an empty queue. -/
theorem empty_noticesLawful : noticesLawful [] State.reset.nextNotice := by
  unfold noticesLawful
  decide

theorem ResetStep.noticeLaw (h : ResetStep s t) : NoticeLaw t := by
  cases h with
  | soft => exact (chooseAfterReset_work (softCleared s)).noticeLaw (ready_noticesLawful .request)
  | hold => exact empty_noticesLawful
  | release cause mode => exact ready_noticesLawful cause

end

/-! ### Every step -/

section
variable {s t : State} (h : Effect s t)
include h

theorem Effect.handlerLaws (hs : HandlerLaw s) (hslots : SlotsLaw s) : HandlerLaw t ∧ SlotsLaw t := by
  cases h with
  | aside h => exact h.handlerLaws hs hslots
  | taken hrow htaking =>
    obtain ⟨hbody, hafter⟩ := requestRow_quiet hrow _ _ _ s
    exact ⟨(hafter _).handlerLaw (dealtWith_handlerLaw htaking hs hbody),
      (hafter _).slotsLaw (dealtWith_slotsLaw hslots hbody)⟩
  | heldUpload hheld hf hx hroom =>
    exact ⟨(settle_quiet _).handlerLaw (heldUpload_handlerLaw hs hheld hf _ _ _),
      (settle_quiet _).slotsLaw (dealtWith_slotsLaw (s := { s with held := none }) hslots (stageData_bodyQuiet _ _ _ _))⟩
  | reset h => exact h.handlerLaws
  | block h => exact ⟨h.quiet.handlerLaw hs, h.quiet.slotsLaw hslots⟩

theorem Effect.linkLaws :
    (WireLaw s → WireLaw t) ∧ (ReceiverLaw s → ReceiverLaw t) ∧ (TransmitLaw s → TransmitLaw t) := by
  cases h with
  | aside h => exact h.linkLaws
  | taken hrow htaking =>
    obtain ⟨hbody, hquiet⟩ := requestRow_quiet hrow _ _ _ s
    exact ((dealtWith_link hbody).of_quiet (hquiet _)).linkLaws
  | heldUpload =>
    exact LinkKept.linkLaws (s := { s with held := none })
      ((dealtWith_link (stageData_bodyQuiet _ _ _ _)).of_quiet (settle_quiet _))
  | reset h =>
    obtain ⟨kw, kr, kt⟩ := h.linkLaws
    exact ⟨kw, fun _ => kr, fun _ => kt⟩
  | block h => exact h.quiet.linkLaws

theorem Effect.noticeLaw (hs : NoticeLaw s) : NoticeLaw t := by
  cases h with
  | aside h => exact h.noticeLaw hs
  | taken hrow htaking =>
    obtain ⟨hbody, hafter⟩ := requestRow_quiet hrow _ _ _ s
    exact (hafter _).notices (dealtWith_noticeLaw hs hbody)
  | heldUpload =>
    exact (settle_quiet _).notices (dealtWith_noticeLaw (s := { s with held := none }) hs (stageData_bodyQuiet _ _ _ _))
  | reset h => exact h.noticeLaw
  | block h => exact h.quiet.notices hs

end

/-- A step is idle, or the effect of a command on the state with the rest of the queue. -/
theorem step_effect {s t : State} (h : step s = .next t) : t = s ∨ ∃ rest, Effect { s with pending := rest } t := by
  rcases step_cases h with rfl | ⟨c, rest, h⟩
  · exact .inl rfl
  · exact .inr ⟨rest, exec_effect h⟩

/-- Settles O5. -/
theorem handlerLinkAndNoticeLawsAreKept : Obligations.HandlerLinkAndNoticeLawsAreKept := by
  unfold Obligations.HandlerLinkAndNoticeLawsAreKept
  refine ⟨fun s t hs hslots h => ?_, fun s t h => ?_, fun s t hs h => ?_⟩
  · rcases step_effect h with rfl | ⟨rest, h⟩
    · exact ⟨hs, hslots⟩
    · exact h.handlerLaws hs hslots
  · rcases step_effect h with rfl | ⟨rest, h⟩
    · exact ⟨id, id, id⟩
    · exact h.linkLaws
  · rcases step_effect h with rfl | ⟨rest, h⟩
    · exact hs
    · exact h.noticeLaw hs

end Sys2Proof.Machine
end

