-- ==== Sys2Proof/Proofs/RequestMoves.lean ====
section
/-! SUPPORT. What a request can do to the blocks behind the link, with what its checks established (R12 to R19, R37 to
R55, R67 to R76, R94, R107 to R126). -/

namespace Sys2Proof.Machine

/-- States that differ before the blocks only. -/
theorem device_frame {s t : State} (h : t.device = s.device) :
    ∃ r f lm w rx sl ar tx hd rs c ps ns k, t = { s with
      inReset := r, freshSupply := f, linkMode := lm, wire := w, rx := rx, slots := sl, arrival := ar, tx := tx
      held := hd, replies := rs, cache := c, pendingReplies := ps, notices := ns, nextNotice := k } := by
  refine ⟨t.inReset, t.freshSupply, t.linkMode, t.wire, t.rx, t.slots, t.arrival, t.tx, t.held, t.replies, t.cache,
    t.pendingReplies, t.notices, t.nextNotice, ?_⟩
  obtain ⟨hsu, hgr, hmem, hera, hpe, hp0, hp1, hshare, hu0, hu1, hport, hpending⟩ :
      t.surfaces = s.surfaces ∧ t.granules = s.granules ∧ t.mem = s.mem ∧ t.era = s.era ∧ t.pe = s.pe ∧
        t.pres0 = s.pres0 ∧ t.pres1 = s.pres1 ∧ t.share = s.share ∧ t.ou0 = s.ou0 ∧ t.ou1 = s.ou1 ∧ t.port = s.port ∧
        t.pending = s.pending := by
    simpa [State.device] using h
  rw [← hsu, ← hgr, ← hmem, ← hera, ← hpe, ← hp0, ← hp1, ← hshare, ← hu0, ← hu1, ← hport, ← hpending]

/-- R38, R40, R42, R44: what the checks of a job request establish. -/
def jobAccepted (s : State) (k : JobKind) : Prop :=
  (∀ id ∈ k.surfaces, id < 64 ∧ (s.surface id).state ≠ .empty) ∧
    (∀ id, k.destination = some id → (s.surface id).state = .filling) ∧
    (∀ id ∈ k.surfaces, (s.surface id).state = .filling ∨ (s.surface id).state = .ready) ∧
    jobShaped s k ∧ s.pe.jobs.length < 8

/-- R65: what the checks of PRESENT establish of its layers. -/
def layersAccepted (s : State) (layers : List Layer) : Prop :=
  layers.length ≤ 4 ∧ ∀ l ∈ layers, l.surface < 64 ∧ (s.surface l.surface).state = .ready ∧
    l.source.within (s.surface l.surface).storedWidth (s.surface l.surface).storedHeight = true

/-- R49: the session BEGIN_UPLOAD opens. -/
def Session.begun (dst : Nat) (rect : Rect) (expected : Nat) : Session :=
  { dst := dst, rect := rect, expected := expected, received := 0, written := 0, endRequested := false, link := none }

/-- What the body of a request can do to the surfaces, and DEVICE_RESET to the engine. -/
inductive SurfaceMove (s : State) : State → Prop where
  | created {f : Format} {t : Transform} {w h : Nat} {hint : Hint} {id base : Nat} (hid : s.lowestEmpty = some id)
      (hw : 1 ≤ w ∧ w ≤ 2048) (hh : 1 ≤ h ∧ h ≤ 2048) (hov2 : f = .ov2 → t = .t0)
      (hplace : s.place (granulesOf (strideOf f (storedSize t w h).1) (storedSize t w h).2) hint = some base) :
      SurfaceMove s (createAt id (newSurface f t w h base hint s.era) s)
  | freed {id : Nat} (hid : id < 64) (hready : (s.surface id).state = .ready)
      (hunused : (s.surface id).scanRefs = 0 ∧ (s.surface id).jobRefs = 0) : SurfaceMove s (freeSurface id s)
  | discarding {id : Nat} (hid : id < 64) (hready : (s.surface id).state = .ready)
      (hused : ¬ ((s.surface id).scanRefs = 0 ∧ (s.surface id).jobRefs = 0)) :
      SurfaceMove s (s.setSurface id { s.surface id with state := .discarding })
  | sealed {id : Nat} (hid : id < 64) (hfilling : (s.surface id).state = .filling) (hsession : s.sessionOn id = false)
      (hwriters : (s.surface id).writers = 0) : SurfaceMove s (s.setSurface id { s.surface id with state := .ready })
  | sealing {id : Nat} (hid : id < 64) (hfilling : (s.surface id).state = .filling) (hsession : s.sessionOn id = false)
      (hwriters : (s.surface id).writers ≠ 0) :
      SurfaceMove s (s.setSurface id { s.surface id with state := .sealing, sealPending := true })
  | reopened {id : Nat} (hid : id < 64) (hready : (s.surface id).state = .ready)
      (hunused : (s.surface id).scanRefs = 0 ∧ (s.surface id).jobRefs = 0) :
      SurfaceMove s (s.setSurface id { s.surface id with state := .filling })
  | stopped : SurfaceMove s (s.setPe { s.pe with stopped := true, request := none })

/-- What the body of a request can do to the Job Queue and the session; the Pixel Engine goes on after it. -/
inductive EngineRequest (s : State) : State → Prop where
  | discarded {id : Nat} (hid : id < 64) (hstate : (s.surface id).state = .filling ∨ (s.surface id).state = .sealing) :
      EngineRequest s (discardUnfinished id (s.surface id) s).1
  | job {k : JobKind} (hk : jobAccepted s k) (hstream : ∀ dst r, k ≠ .stream dst r) : EngineRequest s (appendJob k s)
  | begun {dst : Nat} {rect : Rect} (hk : jobAccepted s (.stream dst rect)) (hsession : s.pe.session = none) :
      EngineRequest s ((appendJob (.stream dst rect) s).setPe { (appendJob (.stream dst rect) s).pe with
        session := some (.begun dst rect (transferBytes (s.surface dst).format rect.area)), staging := [] })
  | staged {x : Session} (data : List Byte) (hx : s.pe.session = some x) (hroom : ¬ s.pe.room < x.takes data) :
      EngineRequest s (stageData x data s).1
  | ended {x : Session} (seq : Byte) (hx : s.pe.session = some x) :
      EngineRequest s (s.setPe { s.pe with session := some { x with endRequested := true, link := some seq } })
  | aborted (hx : s.pe.session.isSome = true) : EngineRequest s (abortSession s).1

/-- What the body of a request can do to the outputs. -/
inductive OutputRequest (s : State) : State → Prop where
  | timing {o : OutputId} {t : Timing} (hoff : (s.ou o).state = .off) (hrange : t.inRange)
      (hfirst : o = .out0 → t.interlace = false ∧ t.flicker = false) :
      OutputRequest s (s.setOu o { s.ou o with timing := t, valid := true })
  | paletteNow {o : OutputId} (first : Nat) (colours : List Colour) (hoff : (s.ou o).state = .off) :
      OutputRequest s (s.setOu o { s.ou o with
        active := writeEntries (s.ou o).active first colours
        staging := writeEntries (s.ou o).staging first colours, palettePending := false })
  | paletteLater {o : OutputId} (first : Nat) (colours : List Colour) (hon : (s.ou o).state ≠ .off) :
      OutputRequest s (s.setOu o { s.ou o with
        staging := writeEntries (s.ou o).staging first colours, palettePending := true })
  | started {o : OutputId} (hoff : (s.ou o).state = .off) (hvalid : (s.ou o).valid = true) :
      OutputRequest s (startSequence o s)
  | ending {o : OutputId} (hrunning : (s.ou o).state = .running) :
      OutputRequest s (s.setOu o { s.ou o with state := .ending })
  | reversed {o : OutputId} (hup : (s.ou o).state = .powerUp) : OutputRequest s (reversePowerUp o s)
  | appended {o : OutputId} (background : Colour) {layers : List Layer} (hlayers : layersAccepted s layers)
      (hup : (s.ou o).state = .powerUp ∨ (s.ou o).state = .running) (hroom : (s.pres o).queue.length < 3) {n : Nat}
      (hn : n = reservedN (s.ou o).timing.fetchFactor
        ((s.pres o).loads ++ [frameLineBytes s (s.ou o).timing layers]) (s.pres o).cursorTerm)
      (hadmits : s.admits o n = true) :
      OutputRequest s (acceptFrame o background layers (frameLineBytes s (s.ou o).timing layers) n s).1
  | replaced {o : OutputId} (background : Colour) {layers : List Layer} (hlayers : layersAccepted s layers)
      (hup : (s.ou o).state = .powerUp ∨ (s.ou o).state = .running) {n : Nat}
      (hn : n = reservedN (s.ou o).timing.fetchFactor
        ((s.pres o).current.toList.map (·.load) ++ [frameLineBytes s (s.ou o).timing layers]) (s.pres o).cursorTerm)
      (hadmits : s.admits o n = true) :
      OutputRequest s (acceptFrame o background layers (frameLineBytes s (s.ou o).timing layers) n (dropQueue o s)).1
  | unbound {o : OutputId} (hup : (s.ou o).state = .powerUp ∨ (s.ou o).state = .running) :
      OutputRequest s (recomputeLoad o (replacePending o .unbind s))
  | bound {o : OutputId} {b : Binding} (hup : (s.ou o).state = .powerUp ∨ (s.ou o).state = .running)
      (hid : b.surface < 64) (hready : (s.surface b.surface).state = .ready)
      (hshape : (s.surface b.surface).format = .ov2 ∧ (s.surface b.surface).width = 64 ∧ (s.surface b.surface).height = 64)
      (hadmits : s.admitsCursor o = true) : OutputRequest s (recomputeLoad o (replacePending o (.bind b) s))
  | moved {o : OutputId} (position : CursorPosition) (hup : (s.ou o).state = .powerUp ∨ (s.ou o).state = .running) :
      OutputRequest s (s.setPres o { s.pres o with pendingPosition := position })
  | share {n : Nat} (hn : 4 ≤ n ∧ n ≤ 9)
      (hbudget : 12 * (s.pres0.loadN * s.ou1.loadD + s.pres1.loadN * s.ou0.loadD) ≤ n * s.ou0.loadD * s.ou1.loadD) :
      OutputRequest s { s with share := n }

/-- What the body of a request can do to the blocks; `goes`: the Pixel Engine goes on after it. -/
inductive RequestMove (goes : Bool) (s : State) : State → Prop where
  | nothing : RequestMove goes s s
  | surface {t : State} (h : SurfaceMove s t) : RequestMove goes s t
  | output {t : State} (h : OutputRequest s t) : RequestMove goes s t
  | engine {t : State} (h : EngineRequest s t) (hgoes : goes = true) : RequestMove goes s t

/-- `t` comes of `s` by a request move, up to what is before the blocks. -/
def RequestWork (goes : Bool) (s t : State) : Prop :=
  ∃ v w, v.device = s.device ∧ RequestMove goes v w ∧ t.device = w.device

section
variable {goes : Bool} {s : State}

theorem RequestWork.of_device {t : State} (h : t.device = s.device) : RequestWork goes s t := ⟨s, s, rfl, .nothing, h⟩

theorem RequestWork.of_surface {t : State} (h : SurfaceMove s t) : RequestWork goes s t := ⟨s, t, rfl, .surface h, rfl⟩

theorem RequestWork.of_output {t : State} (h : OutputRequest s t) : RequestWork goes s t := ⟨s, t, rfl, .output h, rfl⟩

theorem RequestWork.of_engine {t : State} (h : EngineRequest s t) : RequestWork true s t :=
  ⟨s, t, rfl, .engine h rfl, rfl⟩

theorem RequestWork.nothing : RequestWork goes s s := .of_device rfl

theorem work_check {c : Prop} [Decidable c] {st : Status} {rest : State × Answer}
    (h : ¬ c → RequestWork goes s rest.1) : RequestWork goes s (if c then refuse st s else rest).1 := by
  by_cases hc : c
  · rw [if_pos hc]
    exact .nothing
  · rw [if_neg hc]
    exact h hc

theorem work_withSurface {args : List Byte} {rest : Nat → Surface → State × Answer}
    (h : ∀ id, id < 64 → (s.surface id).state ≠ .empty → RequestWork goes s (rest id (s.surface id)).1) :
    RequestWork goes s (withSurface args s rest).1 :=
  work_check fun _ => work_check fun hid => work_check fun hstate => h _ (Nat.lt_of_not_le hid) hstate

theorem work_withOutput {args : List Byte} {rest : OutputId → State × Answer}
    (h : ∀ o, RequestWork goes s (rest o).1) : RequestWork goes s (withOutput args s rest).1 := by
  refine work_check fun _ => ?_
  split
  · exact .nothing
  · exact h _

end

theorem arg8_le (bytes : List Byte) (i : Nat) : arg8 bytes i ≤ 255 := by
  unfold arg8
  omega

/-- R113, R114: the checks of SET_OUTPUT put every field in its range. -/
theorem timingArgs_inRange {args : List Byte} (h : firstBadTiming args = none) : (timingArgs args).inRange := by
  have hnone : (timingChecks args).find? (fun c => !c.2) = none := Option.map_eq_none_iff.1 h
  have hall : ∀ c ∈ timingChecks args, c.2 = true := fun c hc => by
    simpa using List.find?_eq_none.1 hnone c hc
  have hdivider : (timingArgs args).divider ≤ 255 := arg8_le args 1
  have hvblank : (timingArgs args).vblank ≤ 255 := arg8_le args 12
  have hpwr : (timingArgs args).tPwr ≤ 255 := arg8_le args 21
  have hclk : (timingArgs args).tClk ≤ 255 := arg8_le args 22
  unfold timingChecks at hall
  simp only [List.forall_mem_cons, decide_eq_true_eq, Bool.and_eq_true, Bool.or_eq_true, Bool.not_eq_true'] at hall
  obtain ⟨h1, ⟨h2, h2', h2''⟩, ⟨h3, h3'⟩, h4, ⟨h5, h5'⟩, h6, h7, h8, ⟨h9, h9'⟩, -, -, -, -, -, ⟨-, h15⟩, -⟩ := hall
  have hactive : 8 ≤ (timingArgs args).vactive ∧ (timingArgs args).vactive ≤ 1024 ∧
      ((timingArgs args).interlace = true → 16 ≤ (timingArgs args).vactive ∧ (timingArgs args).vactive % 2 = 0) := by
    split at h6
    · obtain ⟨hlow, hhigh, heven⟩ := of_decide_eq_true h6
      exact ⟨by omega, hhigh, fun _ => ⟨hlow, heven⟩⟩
    · next hi =>
      obtain ⟨hlow, hhigh⟩ := of_decide_eq_true h6
      exact ⟨hlow, hhigh, fun hc => absurd hc hi⟩
  obtain ⟨hlow, hhigh, heven⟩ := hactive
  refine ⟨h1, hdivider, h2, h2', h2'', h3, h3', h4, h5, h5', hlow, hhigh, heven, h7, hvblank, h8, h9, h9', ?_, hpwr, hclk⟩
  exact fun hf => h15.resolve_left (by rw [hf]; exact Bool.noConfusion)

theorem walkLayers_length {n : Nat} {bytes : List Byte} {layers : List LayerArgs}
    (h : walkLayers n bytes = some layers) : layers.length = n := by
  obtain ⟨entries, -, hlength, rfl, -⟩ := (walkLayers_iff n bytes layers).1 h
  rw [List.length_map, hlength]

section
variable (seq code : Byte) (args : List Byte) (s : State)

theorem create_work : RequestWork false s (createBody seq code args s).1 := by
  refine work_check fun _ => ?_
  dsimp only
  split
  · refine work_check fun hdim => work_check fun hov2 => ?_
    unfold createPlaced
    split
    · exact .nothing
    · next id hid =>
      dsimp only
      split
      · exact .nothing
      · next base hplace =>
        have hdims (n : Nat) : dimensionOk n = true ↔ 1 ≤ n ∧ n ≤ 2048 := by simp [dimensionOk]
        obtain ⟨hw, hh⟩ : dimensionOk (arg16 args 2) = true ∧ dimensionOk (arg16 args 4) = true := by
          simpa using hdim
        exact .of_surface (.created hid ((hdims _).1 hw) ((hdims _).1 hh)
          (fun hf => Classical.byContradiction fun ht => hov2 ⟨hf, ht⟩) hplace)
  · exact .nothing

theorem discard_work : RequestWork true s (discardBody seq code args s).1 := by
  refine work_withSurface fun id hid hstate => ?_
  split
  · exact .nothing
  · next hready =>
    split
    · next hunused => exact .of_surface (.freed hid hready hunused)
    · next hused => exact .of_surface (.discarding hid hready hused)
  · next hfilling => exact .of_engine (.discarded hid (.inl hfilling))
  · next hsealing => exact .of_engine (.discarded hid (.inr hsealing))
  · exact .nothing

theorem seal_work : RequestWork false s (sealBody seq code args s).1 := by
  refine work_withSurface fun id hid hstate => work_check fun hfilling => work_check fun hsession => ?_
  have hfilling := Classical.not_not.1 hfilling
  have hsession := Bool.eq_false_iff.2 hsession
  split
  · next hwriters => exact .of_surface (.sealed hid hfilling hsession hwriters)
  · next hwriters => exact work_check fun _ => ⟨s, _, rfl, .surface (.sealing hid hfilling hsession hwriters), rfl⟩

theorem reopen_work : RequestWork false s (reopenBody seq code args s).1 := by
  refine work_withSurface fun id hid hstate => work_check fun hready => ?_
  split
  · next hunused => exact .of_surface (.reopened hid (Classical.not_not.1 hready) hunused)
  · exact .nothing

theorem not_jobsFull {s : State} (h : ¬ s.jobsFull = true) : s.pe.jobs.length < 8 := by
  exact Nat.lt_of_not_le fun hle => h (decide_eq_true hle)

theorem beginUpload_work : RequestWork true s (beginUploadBody seq code args s).1 := by
  refine work_check fun _ => work_check fun hid => work_check fun hsession => work_check fun hsome =>
    work_check fun hfilling => work_check fun hwithin => work_check fun hfull => ?_
  have hfilling := Classical.not_not.1 hfilling
  have hwithin : (argRect args 1).within (s.surface (arg8 args 0)).width (s.surface (arg8 args 0)).height = true := by
    simpa using hwithin
  refine .of_engine (.begun ⟨fun id h => ?_, fun id h => ?_, fun id h => ?_, hwithin, not_jobsFull hfull⟩
    (by simpa using hsession))
  · exact List.mem_singleton.1 h ▸ ⟨Nat.lt_of_not_le hid, hsome⟩
  · exact Option.some.inj h ▸ hfilling
  · exact List.mem_singleton.1 h ▸ .inl hfilling

theorem uploadData_work : RequestWork true s (uploadDataBody seq code args s).1 := by
  refine work_check fun _ => ?_
  split
  · exact .nothing
  · next x hx =>
    refine work_check fun _ => ?_
    split
    · exact .of_device rfl
    · next hroom => exact .of_engine (.staged args hx hroom)

theorem endUpload_work : RequestWork true s (endUploadBody seq code args s).1 := by
  refine work_check fun _ => ?_
  split
  · exact .nothing
  · next x hx =>
    exact work_check fun _ => work_check fun _ =>
      ⟨bindPending seq code .pixelEngine .session s, _, rfl, .engine (.ended seq hx) rfl, rfl⟩

theorem abortUpload_work : RequestWork true s (abortUploadBody seq code args s).1 := by
  refine work_check fun _ => work_check fun hnone => .of_engine (.aborted ?_)
  rwa [← Option.not_isSome, Bool.not_eq_true', Bool.not_eq_false] at hnone

theorem fill_work : RequestWork true s (fillBody seq code args s).1 := by
  refine work_check fun _ => work_check fun hid => work_check fun hsome => work_check fun hfilling =>
    work_check fun hshape => work_check fun hfull => ?_
  have hfilling := Classical.not_not.1 hfilling
  have hk : jobAccepted s (.fill (arg8 args 0) (argRect args 1) (arg16 args 9)) := by
    refine ⟨fun id h => ?_, fun id h => ?_, fun id h => ?_, ?_, not_jobsFull hfull⟩
    · exact List.mem_singleton.1 h ▸ ⟨Nat.lt_of_not_le hid, hsome⟩
    · exact Option.some.inj h ▸ hfilling
    · exact List.mem_singleton.1 h ▸ .inl hfilling
    · simpa [Format.holds, jobShaped] using hshape
  have hmove := EngineRequest.job hk fun _ _ hc => (by cases hc)
  exact .of_engine hmove

/-- R40: what the checks of a COPY establish. -/
theorem copy_accepted {s : State} {dst src : Nat} {source : Rect} {dx dy : Nat} {key : Option Nat}
    (hids : ¬ (64 ≤ dst ∨ 64 ≤ src)) (hsome : ¬ ((s.surface dst).state = .empty ∨ (s.surface src).state = .empty))
    (hstates : ¬ ((s.surface dst).state ≠ .filling ∨ (dst ≠ src ∧ (s.surface src).state ≠ .ready)))
    (hfits : copyFits dst src (s.surface dst) (s.surface src) source dx dy key = true) (hfull : s.pe.jobs.length < 8) :
    jobAccepted s (.copy dst src source dx dy key) := by
  obtain ⟨hdst, hsrc⟩ := not_or.1 hids
  obtain ⟨hdsome, hssome⟩ := not_or.1 hsome
  obtain ⟨hfilling, hready⟩ := not_or.1 hstates
  have hfilling := Classical.not_not.1 hfilling
  have hmem {id : Nat} (h : id ∈ (JobKind.copy dst src source dx dy key).surfaces) :
      id = dst ∨ (id = src ∧ (s.surface src).state = .ready) := by
    unfold JobKind.surfaces at h
    dsimp only at h
    split at h
    · exact .inl (List.mem_singleton.1 h)
    · next hne =>
      rcases List.mem_cons.1 h with h | h
      · exact .inl h
      · exact .inr ⟨List.mem_singleton.1 h, Classical.byContradiction fun hnot => hready ⟨hne, hnot⟩⟩
  unfold copyFits at hfits
  simp only [Bool.and_eq_true, decide_eq_true_eq] at hfits
  obtain ⟨⟨⟨⟨hformat, -⟩, hsource⟩, htarget⟩, -⟩ := hfits
  refine ⟨fun id h => ?_, fun id h => ?_, fun id h => ?_, ⟨hsource, htarget, hformat⟩, hfull⟩
  · rcases hmem h with rfl | ⟨rfl, -⟩
    · exact ⟨Nat.lt_of_not_le hdst, hdsome⟩
    · exact ⟨Nat.lt_of_not_le hsrc, hssome⟩
  · exact Option.some.inj h ▸ hfilling
  · rcases hmem h with rfl | ⟨rfl, hr⟩
    · exact .inl hfilling
    · exact .inr hr

theorem copy_work : RequestWork true s (copyBody seq code args s).1 := by
  refine work_check fun _ => ?_
  dsimp only
  split
  · exact .nothing
  · refine work_check fun hids => work_check fun hsome => work_check fun hstates => work_check fun hfits =>
      work_check fun hfull => ?_
    have hmove := EngineRequest.job (copy_accepted hids hsome hstates (by simpa using hfits) (not_jobsFull hfull))
      fun _ _ hc => (by cases hc)
    exact .of_engine hmove

theorem read_work : RequestWork true s (readBody seq code args s).1 := by
  refine work_check fun _ => work_check fun hid => work_check fun hsome => work_check fun hstate =>
    work_check fun hshape => work_check fun hfull => work_check fun _ => ?_
  have hstate : (s.surface (arg8 args 0)).state = .filling ∨ (s.surface (arg8 args 0)).state = .ready :=
    (Decidable.not_and_iff_not_or_not.1 hstate).imp Classical.not_not.1 Classical.not_not.1
  have hk : jobAccepted (bindPending seq code .pixelEngine .job s) (.read (arg8 args 0) (argRect args 1) seq) := by
    refine ⟨fun id h => ?_, fun id h => (by cases h), fun id h => ?_, ?_, not_jobsFull hfull⟩
    · exact List.mem_singleton.1 h ▸ ⟨Nat.lt_of_not_le hid, hsome⟩
    · exact List.mem_singleton.1 h ▸ hstate
    · have hshape : (argRect args 1).within (s.surface (arg8 args 0)).width (s.surface (arg8 args 0)).height = true ∧
          transferBytes (s.surface (arg8 args 0)).format (argRect args 1).area ≤ 1016 := by
        simpa using hshape
      exact hshape
  exact ⟨_, _, rfl, .engine (.job hk fun _ _ hc => (by cases hc)) rfl, rfl⟩

theorem fence_work : RequestWork true s (fenceBody seq code args s).1 := by
  refine work_check fun _ => work_check fun hfull => work_check fun _ => ?_
  have hk : jobAccepted (bindPending seq code .pixelEngine .job s) (.fence seq) :=
    ⟨fun _ h => absurd h List.not_mem_nil, fun _ h => (by cases h), fun _ h => absurd h List.not_mem_nil, trivial,
      not_jobsFull hfull⟩
  exact ⟨_, _, rfl, .engine (.job hk fun _ _ hc => (by cases hc)) rfl, rfl⟩

theorem setOutput_work : RequestWork false s (setOutputBody seq code args s).1 := by
  unfold setOutputBody
  split
  · exact .nothing
  · split
    · exact .nothing
    · next o _ =>
      dsimp only
      split
      · exact .nothing
      · next hoff =>
        split
        · exact .nothing
        · next hinterlace =>
          split
          · exact .nothing
          · next hflicker =>
            split
            · exact .nothing
            · next hrange =>
              exact .of_output (.timing (Classical.not_not.1 hoff) (timingArgs_inRange hrange) fun ho =>
                ⟨decide_eq_false fun h => hinterlace ⟨ho, h⟩, decide_eq_false fun h => hflicker ⟨ho, h⟩⟩)

theorem start_work : RequestWork false s (startBody seq code args s).1 := by
  refine work_withOutput fun o => ?_
  dsimp only
  split
  · next hoff =>
    refine work_check fun hvalid => work_check fun _ => ?_
    have hvalid : (s.ou o).valid = true := by simpa using hvalid
    exact ⟨bindPending seq code .outputUnit (.start o) s, _, rfl, .output (.started hoff hvalid), rfl⟩
  · exact work_check fun _ => .of_device rfl
  · exact .nothing
  · exact .nothing
  · exact .nothing

theorem raise_device (n : Notice) (s : State) : (raise n s).device = s.device := by
  obtain ⟨ns, k, h⟩ := raise_eq n s
  rw [h]
  rfl

theorem stop_work : RequestWork false s (stopBody seq code args s).1 := by
  refine work_withOutput fun o => ?_
  dsimp only
  split
  · exact .nothing
  · refine work_check fun _ => ?_
    split
    · next hrunning =>
      exact ⟨bindPending seq code .outputUnit (.stop o) s, _, rfl, .output (.ending hrunning), raise_device _ _⟩
    · next hup => exact ⟨bindPending seq code .outputUnit (.stop o) s, _, rfl, .output (.reversed hup), rfl⟩
    all_goals exact .of_device rfl

theorem setPalette_work : RequestWork false s (setPaletteBody seq code args s).1 := by
  refine work_check fun _ => work_check fun _ => ?_
  split
  · exact .nothing
  · refine work_check fun _ => ?_
    dsimp only
    split
    · next hoff => exact .of_output (.paletteNow _ _ hoff)
    · next hon => exact .of_output (.paletteLater _ _ hon)

theorem presentAdmit_work (o : OutputId) (replace : Bool) (background : Colour) {layers : List Layer}
    (hlayers : layersAccepted s layers) (hup : (s.ou o).state = .powerUp ∨ (s.ou o).state = .running) :
    RequestWork false s (presentAdmit o replace background layers s).1 := by
  have check {c : Bool} {st : Status} {i : Nat} {rest : State × Answer} (h : c = false → RequestWork false s rest.1) :
      RequestWork false s (if c then refuseLayer st i s else rest).1 := by
    cases c
    · exact h rfl
    · exact .nothing
  cases replace with
  | true =>
    refine check fun _ => check fun hadmits => ?_
    exact .of_output (.replaced background hlayers hup rfl (by simpa using hadmits))
  | false =>
    refine check fun hroom => check fun _ => check fun hadmits => ?_
    have hroom : (s.pres o).queue.length < 3 := Nat.lt_of_not_le (of_decide_eq_false hroom)
    exact .of_output (.appended background hlayers hup hroom rfl (by simpa using hadmits))

theorem layersAccepted_of_checks {layers : List LayerArgs} (hlength : layers.length ≤ 4)
    (hrange : layers.findIdx? LayerArgs.outOfRange = none)
    (hready : layers.findIdx? (fun l => decide ((s.surface l.surface).state ≠ .ready)) = none)
    (hfits : layers.findIdx? (fun l => l.misfits (s.surface l.surface)) = none) :
    layersAccepted s (layers.map LayerArgs.toLayer) := by
  rw [List.findIdx?_eq_none_iff] at hrange hready hfits
  refine ⟨by rwa [List.length_map], fun l hl => ?_⟩
  obtain ⟨a, ha, rfl⟩ := List.mem_map.1 hl
  have hid := hrange a ha
  have hstate := hready a ha
  have hfit := hfits a ha
  simp only [LayerArgs.outOfRange, Bool.or_eq_false_iff, decide_eq_false_iff_not] at hid
  simp only [LayerArgs.misfits, Bool.or_eq_false_iff, Bool.not_eq_false'] at hfit
  have hstate : (s.surface a.surface).state = .ready := by simpa using hstate
  obtain ⟨⟨⟨⟨⟨⟨⟨⟨⟨hid, -⟩, -⟩, -⟩, -⟩, -⟩, -⟩, -⟩, -⟩, -⟩ := hid
  obtain ⟨⟨⟨hwithin, -⟩, -⟩, -⟩ := hfit
  exact ⟨Nat.lt_of_not_le hid, hstate, hwithin⟩

theorem present_work : RequestWork false s (presentBody seq code args s).1 := by
  unfold presentBody
  split
  · exact .nothing
  · next a ha =>
    split
    · exact .nothing
    · split
      · exact .nothing
      · next hcount =>
        split
        · exact .nothing
        · next hrange =>
          unfold presentSurfaces
          dsimp only
          split
          · exact .nothing
          · next hup =>
            split
            · exact .nothing
            · split
              · exact .nothing
              · next hready =>
                split
                · exact .nothing
                · next hfits =>
                  have hlength : a.layers.length = a.count := by
                    unfold presentArgs at ha
                    split at ha
                    · cases ha
                    · obtain ⟨layers, hl, rfl⟩ := Option.map_eq_some_iff.1 ha
                      exact walkLayers_length hl
                  refine presentAdmit_work s _ _ _ (layersAccepted_of_checks s (by omega) hrange hready hfits) ?_
                  exact (Decidable.not_and_iff_not_or_not.1 hup).imp Classical.not_not.1 Classical.not_not.1

theorem accepts_iff (u : OutputUnit) : u.accepts = true ↔ u.state = .powerUp ∨ u.state = .running := decide_eq_true_iff

theorem setCursor_work : RequestWork false s (setCursorBody seq code args s).1 := by
  refine work_check fun _ => ?_
  dsimp only
  split
  · exact .nothing
  · next o _ =>
    refine work_check fun hid => work_check fun hup => ?_
    have hup := (accepts_iff (s.ou o)).1 (by simpa using hup)
    split
    · exact .of_output (.unbound hup)
    · next hnone =>
      refine work_check fun _ => work_check fun hready => work_check fun hshape => work_check fun hadmits => ?_
      have hid : arg8 args 1 < 64 := Nat.lt_of_not_le fun h => hid ⟨h, hnone⟩
      obtain ⟨hformat, hrest⟩ := not_or.1 hshape
      obtain ⟨hw, hh⟩ := not_or.1 hrest
      exact .of_output (.bound (b := ⟨arg8 args 1, argColour args 2, argColour args 5⟩) hup hid (Classical.not_not.1 hready)
        ⟨Classical.not_not.1 hformat, Classical.not_not.1 hw, Classical.not_not.1 hh⟩ (by simpa using hadmits))

theorem moveCursor_work : RequestWork false s (moveCursorBody seq code args s).1 := by
  refine work_check fun _ => ?_
  dsimp only
  split
  · next o visible _ _ =>
    refine work_check fun _ => work_check fun hup => ?_
    exact .of_output (.moved _ ((accepts_iff (s.ou o)).1 (by simpa using hup)))
  · exact .nothing

theorem setBudget_work : RequestWork false s (setBudgetBody seq code args s).1 := by
  refine work_check fun _ => work_check fun hrange => ?_
  split
  · next hbudget => exact .of_output (.share (by omega) (of_decide_eq_true hbudget))
  · exact .nothing

theorem ack_work : RequestWork false s (ackBody seq code args s).1 := by
  refine work_check fun _ => ?_
  dsimp only
  split
  · exact .of_device rfl
  · exact .nothing

theorem resend_work : RequestWork false s (resendBody seq code args s).1 := by
  refine work_check fun _ => ?_
  split
  · exact .nothing
  · exact .of_device rfl

theorem deviceReset_work : RequestWork false s (deviceResetBody seq code args s).1 := by
  refine work_check fun _ => ?_
  obtain ⟨rs, c, ps, h⟩ := cancelPending_eq s
  rw [h]
  exact ⟨s, _, rfl, .surface .stopped, rfl⟩

end

/-- The Pixel Engine goes on after a request, or there is nothing for it to do. -/
def goesOn : Bool → State → State
  | true => settle
  | false => id

/-- What each request row can do to the blocks. -/
theorem requestRow_work {i : Instr} {row : RequestRow} (h : requestRow i = some row) (seq code : Byte)
    (args : List Byte) (s : State) : ∃ goes, RequestWork goes s (row.body seq code args s).1 ∧ row.after = goesOn goes := by
  cases i <;> cases h
  case ping => exact ⟨false, work_check fun _ => .nothing, rfl⟩
  case getInfo => exact ⟨false, work_check fun _ => .nothing, rfl⟩
  case deviceReset => exact ⟨false, deviceReset_work seq code args s, rfl⟩
  case createSurface => exact ⟨false, create_work seq code args s, rfl⟩
  case discardSurface => exact ⟨true, discard_work seq code args s, rfl⟩
  case sealSurface => exact ⟨false, seal_work seq code args s, rfl⟩
  case reopenSurface => exact ⟨false, reopen_work seq code args s, rfl⟩
  case getSurface => exact ⟨false, work_withSurface fun _ _ _ => .nothing, rfl⟩
  case getMemoryMap => exact ⟨false, work_check fun _ => .nothing, rfl⟩
  case beginUpload => exact ⟨true, beginUpload_work seq code args s, rfl⟩
  case uploadData => exact ⟨true, uploadData_work seq code args s, rfl⟩
  case endUpload => exact ⟨true, endUpload_work seq code args s, rfl⟩
  case abortUpload => exact ⟨true, abortUpload_work seq code args s, rfl⟩
  case fillRect => exact ⟨true, fill_work seq code args s, rfl⟩
  case copyRect => exact ⟨true, copy_work seq code args s, rfl⟩
  case readPixels => exact ⟨true, read_work seq code args s, rfl⟩
  case fence => exact ⟨true, fence_work seq code args s, rfl⟩
  case setOutput => exact ⟨false, setOutput_work seq code args s, rfl⟩
  case startOutput => exact ⟨false, start_work seq code args s, rfl⟩
  case stopOutput => exact ⟨false, stop_work seq code args s, rfl⟩
  case getOutput => exact ⟨false, work_withOutput fun _ => .nothing, rfl⟩
  case setPalette => exact ⟨false, setPalette_work seq code args s, rfl⟩
  case present => exact ⟨false, present_work seq code args s, rfl⟩
  case setCursor => exact ⟨false, setCursor_work seq code args s, rfl⟩
  case moveCursor => exact ⟨false, moveCursor_work seq code args s, rfl⟩
  case setBudget => exact ⟨false, setBudget_work seq code args s, rfl⟩
  case ackNotices => exact ⟨false, ack_work seq code args s, rfl⟩
  case resendNotices => exact ⟨false, resend_work seq code args s, rfl⟩
  case unknownRequest => exact ⟨false, .nothing, rfl⟩

end Sys2Proof.Machine
end

