-- ==== Sys2Proof/Proofs/OutputMoves.lean ====
section
/-! SUPPORT. What a step can do to an output: its unit but for the bytes fetched and the line composed, and its
presentation state (R67 to R79, R107 to R144). -/

namespace Sys2Proof.Machine

/-- What every command keeps, where it does not read what is before the blocks. -/
theorem Effect.induct {P : State → Prop} (hdevice : ∀ s t : State, t.device = s.device → P s → P t)
    (hreset : ∀ s, P s → P (resetBlocks s)) (hmove : ∀ goes s t, RequestMove goes s t → P s → P t)
    (hsettle : ∀ s, P s → P (settle s))
    (hblock : ∀ s t, BlockStep s t → P s → P t) {s t : State} (h : Effect s t) (hs : P s) : P t := by
  have hdealt (seq code : Byte) (r : State × Answer) (hr : P r.1) : P (dealtWith seq code r) :=
    hdevice _ _ (dealtWith_device seq code r) hr
  cases h with
  | aside h => exact hdevice _ _ h.device hs
  | @taken _ row seq code args hrow htaking =>
    obtain ⟨goes, ⟨v, w, hv, hvw, hw⟩, hafter⟩ := requestRow_work hrow seq code args s
    have hbody := hdealt seq code _ (hdevice _ _ hw (hmove _ _ _ hvw (hdevice _ _ hv hs)))
    rw [hafter]
    cases goes
    · exact hbody
    · exact hsettle _ hbody
  | heldUpload hheld hf hx hroom =>
    exact hsettle _ (hdealt _ _ (stageData _ _ _) (hmove true _ _
      (.engine (.staged _ hx hroom) rfl) (hdevice s { s with held := none } rfl hs)))
  | reset h => exact hdevice _ _ h.device (hreset s hs)
  | block h => exact hblock _ _ h hs

/-! ### Outputs compared -/

/-- R136: a half but for the bytes it fetches or shows. -/
def LineHalf.bare (h : LineHalf) : LineHalf :=
  { h with areas := if h.condition = .free then h.areas else [], todo := if h.condition = .free then h.todo else [] }

theorem LineHalf.bare_grantNext (h : LineHalf) : h.grantNext.bare = h.bare := by
  unfold LineHalf.grantNext
  split
  · next hc =>
    have hbusy : ¬ h.condition = .free := fun hf => by rw [hc] at hf; cases hf
    simp only [LineHalf.bare, hbusy, if_false]
  · rfl
  · rfl

theorem LineHalf.bare_take (h : LineHalf) (s : State) (b : FetchBurst) : (h.take s b).bare = h.bare := by
  unfold LineHalf.take
  split
  · rfl
  · rfl
  · next hc =>
    have hbusy : ¬ h.condition = .free := fun hf => by rw [hc] at hf; cases hf
    simp only [LineHalf.bare, hbusy, if_false]

/-- An Output Unit but for the bytes fetched, the line composed and the counts. -/
def OutputUnit.core (u : OutputUnit) : OutputUnit :=
  { u with halfA := u.halfA.bare, halfB := u.halfB.bare, carry := none, head := none, driven := none, framesShown := 0
           lineMiss := 0 }

/-- `t` has the outputs of `s`. -/
structure OutputsKept (s t : State) : Prop where
  unit : ∀ o, (t.ou o).core = (s.ou o).core
  pres : ∀ o, t.pres o = s.pres o
  share : t.share = s.share

theorem OutputsKept.refl (s : State) : OutputsKept s s := ⟨fun _ => rfl, fun _ => rfl, rfl⟩

theorem OutputsKept.trans {s t u : State} (h : OutputsKept s t) (h' : OutputsKept t u) : OutputsKept s u :=
  ⟨fun o => (h'.unit o).trans (h.unit o), fun o => (h'.pres o).trans (h.pres o), h'.share.trans h.share⟩

/-- The outputs' part of the state. -/
def State.outputs (s : State) := (s.ou0, s.ou1, s.pres0, s.pres1, s.share)

theorem OutputsKept.of_outputs {s t : State} (h : t.outputs = s.outputs) : OutputsKept s t := by
  obtain ⟨hu0, hu1, hp0, hp1, hshare⟩ : t.ou0 = s.ou0 ∧ t.ou1 = s.ou1 ∧ t.pres0 = s.pres0 ∧ t.pres1 = s.pres1 ∧
      t.share = s.share := by
    simpa [State.outputs] using h
  refine ⟨fun o => congrArg _ ?_, fun o => ?_, hshare⟩ <;> cases o
  · exact hu0
  · exact hu1
  · exact hp0
  · exact hp1

theorem OutputsKept.of_device {s t : State} (h : t.device = s.device) : OutputsKept s t := by
  obtain ⟨_, _, _, _, _, _, _, _, _, _, _, _, _, _, rfl⟩ := device_frame h
  exact .of_outputs rfl

theorem OutputsKept.of_claim {s t : State} (h : ClaimFrame s t) : OutputsKept s t := by
  obtain ⟨_, _, _, _, _, _, _, rfl⟩ := h
  exact .of_outputs rfl

theorem setPe_outputsKept (e : Engine) (s : State) : OutputsKept s (s.setPe e) := .of_outputs rfl

theorem setInFlight_outputsKept (g : Option Grant) (s : State) : OutputsKept s (s.setInFlight g) := .of_outputs rfl

theorem killFetchBurst_outputsKept (o : OutputId) (s : State) : OutputsKept s (killFetchBurst o s) := by
  obtain ⟨g, h⟩ := killFetchBurst_eq o s
  rw [h]
  exact setInFlight_outputsKept g s

theorem grantFetch_core (o o' : OutputId) (b : FetchBurst) (s : State) :
    ((grantFetch o' b s).ou o).core = (s.ou o).core := by
  have hgranted (u : OutputUnit) :
      OutputUnit.core { u with halfA := u.halfA.grantNext, halfB := u.halfB.grantNext } = u.core := by
    unfold OutputUnit.core
    dsimp only
    rw [LineHalf.bare_grantNext, LineHalf.bare_grantNext]
  cases o <;> cases o'
  · exact hgranted s.ou0
  · rfl
  · rfl
  · exact hgranted s.ou1

theorem arbitrate_outputsKept (s : State) : OutputsKept s (arbitrate s) := by
  refine ⟨fun o => ?_, fun o => ?_, ?_⟩
  · rcases arbitrate_cases s with h | ⟨-, o', b, -, h⟩ | ⟨-, b, -, -, -, h⟩
    · rw [h]
    · rw [h]
      exact grantFetch_core o o' b s
    · rw [h]
      cases o <;> rfl
  · obtain ⟨_, _, _, _, _, _, h⟩ := arbitrate_frame s
    rw [h]
    cases o <;> rfl
  · obtain ⟨_, _, _, _, _, _, h⟩ := arbitrate_frame s
    rw [h]

theorem EngineFrame.outputsKept {s t : State} (h : EngineFrame s t) : OutputsKept s t := by
  obtain ⟨e, h⟩ := h
  exact (setPe_outputsKept e s).trans (.of_claim h)

theorem settle_outputsKept (s : State) : OutputsKept s (settle s) :=
  (runEngine_frame _ s).outputsKept.trans (arbitrate_outputsKept _)

/-- `t` is `s` with this unit and presentation state on output `o`. -/
structure OutputSet (o : OutputId) (u : OutputUnit) (p : Presentation) (s t : State) : Prop where
  unit : (t.ou o).core = u.core
  pres : t.pres o = p
  otherUnit : (t.ou (otherOutput o)).core = (s.ou (otherOutput o)).core
  otherPres : t.pres (otherOutput o) = s.pres (otherOutput o)
  share : t.share = s.share

theorem eq_otherOutput {o o' : OutputId} (h : o ≠ o') : o = otherOutput o' := by
  cases o <;> cases o' <;> simp_all [otherOutput]

theorem otherOutput_ne (o : OutputId) : otherOutput o ≠ o := by
  cases o <;> exact fun h => (by cases h)

section
variable {o : OutputId} {u : OutputUnit} {p : Presentation} {s t w : State}

theorem OutputSet.after (h : OutputSet o u p s t) (h' : OutputsKept t w) : OutputSet o u p s w :=
  ⟨(h'.unit o).trans h.unit, (h'.pres o).trans h.pres, (h'.unit _).trans h.otherUnit, (h'.pres _).trans h.otherPres,
    h'.share.trans h.share⟩

theorem OutputSet.before (h : OutputsKept s t) (h' : OutputSet o u p t w) : OutputSet o u p s w :=
  ⟨h'.unit, h'.pres, h'.otherUnit.trans (h.unit _), h'.otherPres.trans (h.pres _), h'.share.trans h.share⟩

theorem OutputSet.trans {u' : OutputUnit} {p' : Presentation} (h : OutputSet o u p s t) (h' : OutputSet o u' p' t w) :
    OutputSet o u' p' s w :=
  ⟨h'.unit, h'.pres, h'.otherUnit.trans h.otherUnit, h'.otherPres.trans h.otherPres, h'.share.trans h.share⟩

theorem setOu_outputSet (o : OutputId) (u : OutputUnit) (s : State) : OutputSet o u (s.pres o) s (s.setOu o u) := by
  refine ⟨?_, State.pres_setOu s o o u, ?_, State.pres_setOu s o _ u, State.setOu_share s o u⟩
  · rw [State.ou_setOu_self]
  · rw [State.ou_setOu_other s u (otherOutput_ne o)]

theorem setPres_outputSet (o : OutputId) (p : Presentation) (s : State) : OutputSet o (s.ou o) p s (s.setPres o p) := by
  refine ⟨?_, State.pres_setPres_self s o p, ?_, State.pres_setPres_other s p (otherOutput_ne o), State.setPres_share s o p⟩
  · rw [State.ou_setPres]
  · rw [State.ou_setPres]

end

/-! ### The moves of an output -/

/-- R136: a half that fetches lines. -/
def LineHalf.fetching (lines : List Nat) : LineHalf := { condition := .fetching, lines := lines, areas := [], todo := [] }

/-- R136, R138: an output whose fetch for a line has begun. -/
def OutputUnit.fetched (u : OutputUnit) (y : Nat) (wasB : Bool) : OutputUnit :=
  u.fillFree wasB (.fetching (u.timing.sourceLines y))

/-- R136: an output on line `p`, whose half SHOWN until then is FREE. -/
def OutputUnit.entered (u : OutputUnit) (p : Nat) : OutputUnit :=
  { u with scanLine := p, halfA := u.halfA.release, halfB := u.halfB.release }

/-- R140: an output whose half FETCHING becomes SHOWN. -/
def OutputUnit.shows (u : OutputUnit) : OutputUnit := { u with halfA := u.halfA.show, halfB := u.halfB.show }

/-- R140: an output on line `p`, before a fetch begins there. -/
def OutputUnit.reached (u : OutputUnit) (p : Nat) : OutputUnit :=
  match u.timing.lineKind p with
  | .active _ => (u.entered p).shows
  | .blank => u.entered p

/-- R138, R140: an output at the line start of line `p`. -/
def OutputUnit.onLine (u : OutputUnit) (p : Nat) : OutputUnit :=
  match u.timing.fetchAt p with
  | some y => (u.reached p).fetched y u.showsB
  | none => u.reached p

/-- R67: a presentation state with a record accepted. -/
def Presentation.accepted (p : Presentation) (r : FrameRecord) (n : Nat) : Presentation :=
  { p with token := r.token, queue := p.queue ++ [r], loadN := n }

/-- R79: a presentation state that holds nothing. -/
def Presentation.holdsNothing (p : Presentation) : Prop :=
  p.queue = [] ∧ p.current = none ∧ p.binding = none ∧ p.pendingBinding = .noChange

/-- What a step can make of one output at a time. -/
inductive OutputMove (s : State) (o : OutputId) : OutputUnit → Presentation → Prop where
  | timing {t : Timing} (hoff : (s.ou o).state = .off) (hrange : t.inRange)
      (hfirst : o = .out0 → t.interlace = false ∧ t.flicker = false) :
      OutputMove s o { s.ou o with timing := t, valid := true } (s.pres o)
  | paletteNow (first : Nat) (colours : List Colour) (hoff : (s.ou o).state = .off) :
      OutputMove s o { s.ou o with
        active := writeEntries (s.ou o).active first colours
        staging := writeEntries (s.ou o).staging first colours, palettePending := false } (s.pres o)
  | paletteLater (first : Nat) (colours : List Colour) (hon : (s.ou o).state ≠ .off) :
      OutputMove s o { s.ou o with
        staging := writeEntries (s.ou o).staging first colours, palettePending := true } (s.pres o)
  | powered (hoff : (s.ou o).state = .off) (hvalid : (s.ou o).valid = true) : OutputMove s o (s.ou o).powered (s.pres o)
  | clock (hstep : (s.ou o).step = .powerWait) : OutputMove s o ((s.ou o).clockStarted.fetched 0 false) (s.pres o)
  | running (hstep : (s.ou o).step = .clockWait) :
      OutputMove s o { s.ou o with state := .running, step := .showing, timer := none } (s.pres o)
  | ending (hrunning : (s.ou o).state = .running) : OutputMove s o { s.ou o with state := .ending } (s.pres o)
  | shut : OutputMove s o (s.ou o) (s.pres o).shut
  | supply (h : (s.ou o).step = .backlightWait ∨ ((s.ou o).step = .clockWait ∧ (s.pres o).holdsNothing)) :
      OutputMove s o (s.ou o).supplyHeld (s.pres o)
  | off (h : (s.ou o).step = .supplyWait ∨
        ((s.ou o).state = .powerUp ∧ (s.ou o).step ≠ .clockWait ∧ (s.pres o).holdsNothing)) :
      OutputMove s o (s.ou o).shutOff (s.pres o)
  | line (hruns : (s.ou o).timingRuns = true) (hp : (s.ou o).scanLine + 1 < (s.ou o).timing.frameLines)
      (hfield : (s.ou o).fieldDue = false) : OutputMove s o ((s.ou o).onLine ((s.ou o).scanLine + 1)) (s.pres o)
  | field (hruns : (s.ou o).timingRuns = true) (hfield : (s.ou o).fieldDue = true) :
      OutputMove s o { s.ou o with field := .bottom } (s.pres o)
  | frame (hruns : (s.ou o).timingRuns = true) (wasB : Bool) {p : Presentation}
      (hp : p = s.pres o ∨ p = (s.pres o).taken (s.ou o).timing.fetchFactor) :
      OutputMove s o ((s.ou o).opened.copyPalette.fetched 0 wasB) p
  | frameEnding (hstep : (s.ou o).step = .showing) (wasB : Bool) :
      OutputMove s o (OutputUnit.fetched
        { (s.ou o).opened with state := .powerDown, step := .backlightWait, timer := some (s.ou o).timing.tClk }.copyPalette
        0 wasB) (s.pres o).shut
  | accepted (background : Colour) {layers : List Layer} (hlayers : layers.length ≤ 4)
      (hup : (s.ou o).state = .powerUp ∨ (s.ou o).state = .running) {queue : List FrameRecord}
      (hqueue : queue = [] ∨ (queue = (s.pres o).queue ∧ queue.length < 3)) {load n : Nat}
      (hn : n = reservedN (s.ou o).timing.fetchFactor
        ((s.pres o).current.toList.map (·.load) ++ queue.map (·.load) ++ [load]) (s.pres o).cursorTerm)
      (hadmits : s.admits o n = true) :
      OutputMove s o (s.ou o) (Presentation.accepted { s.pres o with queue := queue }
        ⟨o, background, layers, nextToken (s.pres o).token, load⟩ n)
  | unbound (hup : (s.ou o).state = .powerUp ∨ (s.ou o).state = .running) :
      OutputMove s o (s.ou o) ((s.pres o).rebound (s.ou o).timing.fetchFactor .unbind)
  | bound {b : Binding} (hup : (s.ou o).state = .powerUp ∨ (s.ou o).state = .running)
      (hadmits : s.admitsCursor o = true) :
      OutputMove s o (s.ou o) ((s.pres o).rebound (s.ou o).timing.fetchFactor (.bind b))
  | moved (position : CursorPosition) : OutputMove s o (s.ou o) { s.pres o with pendingPosition := position }

/-- What a step can do to the outputs. -/
inductive OutputsStep : State → State → Prop where
  | kept {s t : State} (h : OutputsKept s t) : OutputsStep s t
  | moved {s t : State} {o : OutputId} {u : OutputUnit} {p : Presentation} (h : OutputMove s o u p)
      (ht : OutputSet o u p s t) : OutputsStep s t
  | share {s t : State} (hunit : ∀ o, (t.ou o).core = (s.ou o).core) (hpres : ∀ o, t.pres o = s.pres o)
      (hn : 4 ≤ t.share ∧ t.share ≤ 9)
      (hbudget : 12 * (s.pres0.loadN * s.ou1.loadD + s.pres1.loadN * s.ou0.loadD) ≤
        t.share * s.ou0.loadD * s.ou1.loadD) : OutputsStep s t
  | both {s t u : State} (h : OutputsStep s t) (h' : OutputsStep t u) : OutputsStep s u

/-! ### The steps of an output -/

/-- R136: which bytes a half has fetched, and which are still to come, is not looked at. -/
theorem fillFree_core (u : OutputUnit) (wasB : Bool) {h h' : LineHalf} (hh : h.bare = h'.bare) :
    (u.fillFree wasB h).core = (u.fillFree wasB h').core := by
  unfold OutputUnit.fillFree OutputUnit.core
  split
  · dsimp only
    rw [hh]
  · split
    · dsimp only
      rw [hh]
    · rfl

theorem beginFetch_set (o : OutputId) (y : Nat) (wasB : Bool) (s : State) :
    OutputSet o ((s.ou o).fetched y wasB) (s.pres o) s (beginFetch o y wasB s) := by
  refine OutputSet.after ?_ (arbitrate_outputsKept _)
  have hset := setOu_outputSet o ((s.ou o).fillFree wasB {
    condition := .fetching, lines := (s.ou o).timing.sourceLines y
    areas := (((s.ou o).timing.sourceLines y).map fun line => lineAreas (s.pres o) (s.ou o).timing line).flatten
    todo := fetchBursts s
      (((s.ou o).timing.sourceLines y).map fun line => lineAreas (s.pres o) (s.ou o).timing line).flatten }) s
  exact { hset with unit := hset.unit.trans (fillFree_core _ wasB rfl) }

section
variable (o : OutputId) (s : State)

theorem killed_set (u : OutputUnit) : OutputSet o u (s.pres o) s (killFetchBurst o (s.setOu o u)) :=
  (setOu_outputSet o u s).after (killFetchBurst_outputsKept o _)

theorem killed_ou (u : OutputUnit) : (killFetchBurst o (s.setOu o u)).ou o = u := by
  rw [killFetchBurst_ou, State.ou_setOu_self]

theorem killed_pres (u : OutputUnit) : (killFetchBurst o (s.setOu o u)).pres o = s.pres o := by
  rw [killFetchBurst_pres, State.pres_setOu]

theorem enterOff_set (released : Nat) : OutputSet o (s.ou o).shutOff (s.pres o) s (enterOff o released s) := by
  rw [enterOff_eq]
  exact ((setOu_outputSet o _ s).after (.of_claim (completeRef_frame _ _ _))).after (.of_claim (raise_frame _ _))

theorem enterRunning_set :
    OutputSet o { s.ou o with state := .running, step := .showing, timer := none } (s.pres o) s (enterRunning o s) := by
  rw [enterRunning_eq]
  exact ((setOu_outputSet o _ s).after (.of_claim (completeRef_frame _ _ _))).after (.of_claim (raise_frame _ _))

/-- R125, R126: SUPPLY WAIT, and OFF where its wait is 0. -/
theorem enterSupplyWait_step
    (h : (s.ou o).step = .backlightWait ∨ ((s.ou o).step = .clockWait ∧ (s.pres o).holdsNothing)) :
    OutputsStep s (enterSupplyWait o s) := by
  have hheld := OutputsStep.moved (.supply h) (killed_set o s (s.ou o).supplyHeld)
  rw [enterSupplyWait_eq]
  dsimp only
  split
  · refine hheld.both (.moved (.off (.inl ?_)) (enterOff_set o _ 0))
    rw [killed_ou]
    rfl
  · exact hheld

/-- R123: CLOCK WAIT, and RUNNING where its wait is 0. -/
theorem enterClockWait_step (h : (s.ou o).step = .powerWait) : OutputsStep s (enterClockWait o s) := by
  have hbegun := beginFetch_set o 0 false (killFetchBurst o (s.setOu o (s.ou o).clockStarted))
  rw [killed_ou, killed_pres] at hbegun
  have hclock := OutputsStep.moved (.clock h) ((killed_set o s _).trans hbegun)
  rw [enterClockWait_eq]
  dsimp only
  split
  · refine hclock.both (.moved (.running ?_) (enterRunning_set o _))
    obtain ⟨a, b, hou⟩ := beginFetch_ou o 0 false (killFetchBurst o (s.setOu o (s.ou o).clockStarted))
    rw [hou, killed_ou]
    rfl
  · exact hclock

/-- R122: POWER WAIT, and CLOCK WAIT where its wait is 0. -/
theorem startSequence_step (hoff : (s.ou o).state = .off) (hvalid : (s.ou o).valid = true) :
    OutputsStep s (startSequence o s) := by
  have hpowered := OutputsStep.moved (.powered hoff hvalid)
    ((setOu_outputSet o (s.ou o).powered s).after (.of_claim (raise_frame (.outputState o .powerUp 1 0) _)))
  rw [startSequence_eq]
  dsimp only
  split
  · refine hpowered.both (enterClockWait_step o _ ?_)
    rw [(raise_frame _ _).ou, State.ou_setOu_self]
    rfl
  · exact hpowered

theorem shut_holdsNothing (p : Presentation) : p.shut.holdsNothing := ⟨rfl, rfl, rfl, rfl⟩

theorem releaseOutput_set : OutputSet o (s.ou o) (s.pres o).shut s (releaseOutput o s) := by
  rw [releaseOutput_eq]
  exact (setPres_outputSet o _ s).after (.of_claim (scansGivenUp_frame _ _))

theorem releaseOutput_ou : (releaseOutput o s).ou o = s.ou o := by
  rw [releaseOutput_eq, (scansGivenUp_frame _ _).ou, State.ou_setPres]

/-- R126: the power-up sequence reversed. -/
theorem reversePowerUp_step (hup : (s.ou o).state = .powerUp) : OutputsStep s (reversePowerUp o s) := by
  generalize hw : completeRef (.start o) .cancelled (releaseOutput o s) = w
  have hframe : ClaimFrame (releaseOutput o s) w := hw ▸ completeRef_frame _ _ _
  have hou : w.ou o = s.ou o := (hframe.ou o).trans (releaseOutput_ou o s)
  have hempty : (w.pres o).holdsNothing := by
    rw [hframe.pres, releaseOutput_pres]
    exact shut_holdsNothing _
  have hshut : OutputsStep s w := .moved .shut ((releaseOutput_set o s).after (.of_claim hframe))
  unfold reversePowerUp
  dsimp only
  rw [hw]
  split
  · next hstep =>
    generalize hv : raiseState o .powerDown (s.pres o).heldRecords w = v
    have hraise : ClaimFrame w v := hv ▸ raise_frame _ _
    refine hshut.both (.both (.kept (.of_claim hraise)) (enterSupplyWait_step o v (.inr ⟨?_, ?_⟩)))
    · rw [hraise.ou, hou]
      exact hstep
    · rw [hraise.pres]
      exact hempty
  · next hstep =>
    refine hshut.both (.moved (.off (.inr ⟨?_, ?_, hempty⟩)) (enterOff_set o w _))
    · rw [hou]
      exact hup
    · rw [hou]
      exact hstep

/-- A unit with the same core changes nothing that is looked at. -/
theorem setOu_outputsKept {u : OutputUnit} (h : u.core = (s.ou o).core) : OutputsKept s (s.setOu o u) := by
  have hset := setOu_outputSet o u s
  refine ⟨fun o' => ?_, fun o' => State.pres_setOu s o o' u, State.setOu_share s o u⟩
  by_cases ho : o' = o
  · rw [ho, hset.unit, h]
  · rw [State.ou_setOu_other s u ho]

theorem driveLine_outputsKept (y : Nat) (areas : List Area) : OutputsKept s (driveLine o y areas s) := by
  unfold driveLine
  dsimp only
  split <;> exact setOu_outputsKept o s rfl

theorem countMiss_outputsKept (y : Nat) : OutputsKept s (countMiss o y s) :=
  (setOu_outputsKept o s (u := { s.ou o with lineMiss := hold 4294967295 ((s.ou o).lineMiss + 1) }) rfl).trans (.of_claim (raise_frame _ _))

/-- R140: the line start of an active line. -/
theorem showLine_set (y : Nat) :
    OutputSet o (s.ou o).shows (s.pres o) s (showLine o y s) := by
  have hshown := killed_set o s (s.ou o).shows
  unfold showLine
  dsimp only
  split
  · exact (hshown.after (driveLine_outputsKept o _ y _)).after (countMiss_outputsKept o _ y)
  · exact hshown.after (driveLine_outputsKept o _ y _)

/-- R136: a fetch that begins reads the timing and the halves' conditions only. -/
theorem fetched_core {u v : OutputUnit} (h : u.core = v.core) (y : Nat) (wasB : Bool) :
    (u.fetched y wasB).core = (v.fetched y wasB).core := by
  have hfield {α : Type} (f : OutputUnit → α) : f u.core = f v.core := congrArg f h
  have hlines : u.timing.sourceLines y = v.timing.sourceLines y := hfield (·.timing.sourceLines y)
  have ha : u.halfA.condition = v.halfA.condition := hfield (·.halfA.condition)
  have hb : u.halfB.condition = v.halfB.condition := hfield (·.halfB.condition)
  unfold OutputUnit.fetched OutputUnit.fillFree
  rw [hlines, ha, hb]
  split
  · exact congrArg (fun c : OutputUnit => { c with halfB := (LineHalf.fetching (v.timing.sourceLines y)).bare }) h
  · split
    · exact congrArg (fun c : OutputUnit => { c with halfA := (LineHalf.fetching (v.timing.sourceLines y)).bare }) h
    · exact h

/-- R140: line `p` entered, before a fetch begins there. -/
def lineReached (o : OutputId) (p : Nat) (s : State) : State :=
  let w := s.setOu o { (s.ou o).entered p with driven := none }
  match (s.ou o).timing.lineKind p with
  | .active y => showLine o y w
  | .blank => w

theorem enterLine_eq (p : Nat) : enterLine o p s =
    match (s.ou o).timing.fetchAt p with
    | some y => beginFetch o y (s.ou o).showsB (lineReached o p s)
    | none => lineReached o p s := rfl

theorem lineReached_set (p : Nat) : OutputSet o ((s.ou o).reached p) (s.pres o) s (lineReached o p s) := by
  have hset := setOu_outputSet o { (s.ou o).entered p with driven := none } s
  unfold lineReached OutputUnit.reached
  dsimp only
  cases (s.ou o).timing.lineKind p with
  | blank => exact { hset with unit := hset.unit }
  | active y =>
    have hline := showLine_set o (s.setOu o { (s.ou o).entered p with driven := none }) y
    rw [State.ou_setOu_self, State.pres_setOu] at hline
    have hboth := hset.trans hline
    exact { hboth with unit := hboth.unit }

/-- R138, R140: a line start. -/
theorem enterLine_set (p : Nat) : OutputSet o ((s.ou o).onLine p) (s.pres o) s (enterLine o p s) := by
  have hreached := lineReached_set o s p
  rw [enterLine_eq]
  unfold OutputUnit.onLine
  cases (s.ou o).timing.fetchAt p with
  | none => exact hreached
  | some y =>
    have hbegun := beginFetch_set o y (s.ou o).showsB (lineReached o p s)
    rw [hreached.pres] at hbegun
    exact hreached.trans { hbegun with unit := hbegun.unit.trans (fetched_core hreached.unit y _) }

/-! ### Frame starts (R128) -/

/-- R128: the palette copied and the fetch of line 0 begun. -/
theorem frameBegun_set {t : State} {u : OutputUnit} {p : Presentation} (h : OutputSet o u p s t) (wasB : Bool) :
    OutputSet o (u.copyPalette.fetched 0 wasB) p s (beginFetch o 0 wasB (copyPalette o t)) := by
  have hcopied := setOu_outputSet o (t.ou o).copyPalette t
  have hbegun := beginFetch_set o 0 wasB (copyPalette o t)
  have hcore {a b : OutputUnit} (hab : a.core = b.core) : a.copyPalette.core = b.copyPalette.core := by
    have hfield {α : Type} (f : OutputUnit → α) : f a.core = f b.core := congrArg f hab
    have hpending : a.palettePending = b.palettePending := hfield (·.palettePending)
    unfold OutputUnit.copyPalette
    rw [hpending]
    split
    · exact congrArg (fun c : OutputUnit => { c with active := c.staging, palettePending := false }) hab
    · exact hab
  have hpres : (copyPalette o t).pres o = p := hcopied.pres.trans h.pres
  rw [hpres] at hbegun
  refine h.trans { (hcopied.trans hbegun) with unit := hbegun.unit.trans (fetched_core ?_ 0 wasB) }
  exact hcopied.unit.trans (hcore h.unit)

/-- R128: a frame start. -/
theorem startFrame_step (hruns : (s.ou o).timingRuns = true) : OutputsStep s (startFrame o s) := by
  have hopened : OutputSet o (s.ou o).opened (s.pres o) s (openFrame o s) := by
    rw [openFrame_eq]
    exact killed_set o s _
  have hou : (openFrame o s).ou o = (s.ou o).opened := by
    rw [openFrame_eq, killed_ou]
  have hpres : (openFrame o s).pres o = s.pres o := hopened.pres
  unfold startFrame
  dsimp only
  split
  · have htaken : OutputSet o (s.ou o).opened ((s.pres o).taken (s.ou o).timing.fetchFactor) s (take o (openFrame o s)) := by
      obtain ⟨u, p, hframe⟩ := take_frame o (openFrame o s)
      have hset : OutputSet o u p (openFrame o s) (take o (openFrame o s)) :=
        OutputSet.after ((setOu_outputSet o u _).trans (by
          have h := setPres_outputSet o p ((openFrame o s).setOu o u)
          rw [State.ou_setOu_self] at h
          exact h)) (.of_claim hframe)
      refine hopened.trans { hset with unit := ?_, pres := ?_ }
      · rw [take_ou, hou]
        rfl
      · rw [take_pres, hpres, hou]
        rfl
    exact .moved (.frame hruns _ (.inr rfl)) (frameBegun_set o s htaken _)
  · next hstep _ =>
    rw [hou] at hstep
    have hreleased : OutputSet o { (s.ou o).opened with
        state := .powerDown, step := .backlightWait, timer := some (s.ou o).timing.tClk } (s.pres o).shut s
        (endShowing o (openFrame o s)) := by
      have h := releaseOutput_set o (openFrame o s)
      rw [hou, hpres] at h
      have hentered := setOu_outputSet o { (releaseOutput o (openFrame o s)).ou o with
        state := .powerDown, step := .backlightWait, timer := some (s.ou o).timing.tClk } (releaseOutput o (openFrame o s))
      rw [releaseOutput_ou, hou, h.pres] at hentered
      have hdone := (hopened.trans (h.trans hentered)).after (.of_claim (raise_frame
        (.outputState o .powerDown 1 ((openFrame o s).pres o).heldRecords) _))
      unfold endShowing enterStep raiseState
      dsimp only
      rw [releaseOutput_ou, hou]
      exact hdone
    have hended := OutputsStep.moved (.frameEnding hstep (s.ou o).showsB) (frameBegun_set o s hreleased _)
    split
    · refine hended.both (enterSupplyWait_step o _ (.inl ?_))
      have hunit := (frameBegun_set o s hreleased (s.ou o).showsB).unit
      have hback (u : OutputUnit) (wasB : Bool) : (u.copyPalette.fetched 0 wasB).step = u.step := by
        unfold OutputUnit.fetched OutputUnit.copyPalette OutputUnit.fillFree
        repeat' split
        all_goals rfl
      exact (congrArg OutputUnit.step hunit).trans (hback _ _)
    · exact hended
  · exact .moved (.frame hruns _ (.inl rfl)) (frameBegun_set o s hopened _)

end

/-! ### The steps of the Pixel Engine and the Surface Manager -/

theorem landWrite_outputsKept (s : State) : OutputsKept s (landWrite s) := by
  unfold landWrite releaseStaged
  split
  · dsimp only
    split
    · split
      · exact .of_outputs rfl
      · exact .of_outputs rfl
    all_goals exact .of_outputs rfl
  · exact .refl s

theorem removeJobs_outputsKept (doomed : Job → Bool) (s : State) : OutputsKept s (removeJobs doomed s) := by
  obtain ⟨_, _, _, _, _, h⟩ := jobsTaken_eq doomed s
  rw [removeJobs_eq, h]
  exact .of_outputs rfl

theorem appendJob_outputsKept (k : JobKind) (s : State) : OutputsKept s (appendJob k s) := by
  obtain ⟨l, h⟩ := addJobUses_eq k (s.setPe { s.pe with jobs := s.pe.jobs ++ [⟨k, 0⟩] })
  rw [appendJob, h]
  exact .of_outputs rfl

theorem cancelNaming_outputsKept (id : Nat) (s : State) : OutputsKept s (cancelNaming id s) := by
  have htaken : OutputsKept s (jobsTaken (Job.naming id) s) := removeJobs_eq (Job.naming id) s ▸ removeJobs_outputsKept _ s
  exact (htaken.trans (setPe_outputsKept _ _)).trans (.of_claim (cancelNaming_claim id s))

theorem discardUnfinished_outputsKept (id : Nat) (r : Surface) (s : State) :
    OutputsKept s (discardUnfinished id r s).1 := by
  have hcancelled := cancelNaming_outputsKept id s
  have hfreed (w : State) : OutputsKept w (freeSurface id w) := .of_outputs rfl
  unfold discardUnfinished
  dsimp only
  split
  · exact (hcancelled.trans (.of_claim (completeRef_frame _ _ _))).trans (hfreed _)
  · exact hcancelled.trans (hfreed _)

theorem finishGrantedStreamWrite_outputsKept (s : State) : OutputsKept s (finishGrantedStreamWrite s) := by
  unfold finishGrantedStreamWrite
  split
  · split
    · exact (landWrite_outputsKept s).trans (setInFlight_outputsKept _ _)
    · exact .refl s
  · exact .refl s

theorem abortSession_outputsKept (s : State) : OutputsKept s (abortSession s).1 := by
  unfold abortSession
  have hwritten := finishGrantedStreamWrite_outputsKept s
  dsimp only
  split
  · exact hwritten
  · next x _ =>
    generalize finishGrantedStreamWrite s = w at hwritten ⊢
    have hreleased (js : List Job) (v : State) : ClaimFrame v (js.foldl (fun acc j => releaseJob j.kind acc) v) := by
      induction js generalizing v with
      | nil => exact .refl v
      | cons j js ih => exact (releaseJob_frame j.kind v).trans (ih _)
    have hleft := (hwritten.trans (removeJobs_outputsKept Job.isStream w)).trans
      (.of_claim (hreleased (w.pe.jobs.filter Job.isStream) _))
    cases x.link with
    | none => exact hleft.trans (setPe_outputsKept _ _)
    | some link => exact (hleft.trans (setPe_outputsKept _ _)).trans (.of_claim (completeSeq_frame _ _ _ _))

theorem finishEngineBurst_outputsKept (b : EngineBurst) (s : State) : OutputsKept s (finishEngineBurst b s) := by
  cases b with
  | readSource a => exact setPe_outputsKept _ s
  | readDestination a => exact setPe_outputsKept _ s
  | writeDestination a => exact landWrite_outputsKept s

theorem finishFetchBurst_outputsKept (o : OutputId) (b : FetchBurst) (s : State) :
    OutputsKept s (finishFetchBurst o b s) := by
  refine setOu_outputsKept o s ?_
  unfold OutputUnit.core
  dsimp only
  rw [LineHalf.bare_take, LineHalf.bare_take]

/-! ### PRESENT and SET_CURSOR -/

section
variable (o : OutputId) (s : State)

/-- R67: an accepted frame. -/
theorem acceptFrame_set (background : Colour) (layers : List Layer) (load n : Nat) :
    OutputSet o (s.ou o) ((s.pres o).accepted ⟨o, background, layers, nextToken (s.pres o).token, load⟩ n) s
      (acceptFrame o background layers load n s).1 := by
  have hadded : ClaimFrame s (layers.foldl (fun w l => addScan l.surface w) s) := by
    have h := foldl_addScan_frame (layers.map (·.surface)) s
    rwa [List.foldl_map] at h
  have hset := setPres_outputSet o ((s.pres o).accepted ⟨o, background, layers, nextToken (s.pres o).token, load⟩ n)
    (layers.foldl (fun w l => addScan l.surface w) s)
  rw [hadded.ou] at hset
  rw [acceptFrame_eq]
  exact .before (.of_claim hadded) hset

theorem dropQueue_set : OutputSet o (s.ou o) { s.pres o with queue := [] } s (dropQueue o s) :=
  (setPres_outputSet o _ s).after (.of_claim (releaseScans_frame _ _))

/-- R75: a pending binding replaced, and the load recomputed. -/
theorem rebound_set (b : PendingBinding) :
    OutputSet o (s.ou o) ((s.pres o).rebound (s.ou o).timing.fetchFactor b) s (recomputeLoad o (replacePending o b s)) := by
  rw [recomputeLoad_replacePending]
  have hreleased := (setPres_outputSet o { s.pres o with pendingBinding := b } s).after
    (.of_claim ((releaseScans_frame (s.pres o).pendingBinding.surfaces _).trans (foldl_addScan_frame b.surfaces _)))
  have hset := setPres_outputSet o ((s.pres o).rebound (s.ou o).timing.fetchFactor b)
    (b.surfaces.foldl (fun acc id => addScan id acc) (releaseScans (s.pres o).pendingBinding.surfaces
      (s.setPres o { s.pres o with pendingBinding := b })))
  exact { hreleased.trans hset with unit := hset.unit.trans hreleased.unit }

end

/-! ### Every command -/

theorem SurfaceMove.outputs {s t : State} (h : SurfaceMove s t) : OutputsKept s t := by
  cases h with
  | created => exact .of_outputs rfl
  | freed => exact .of_outputs rfl
  | discarding => exact .of_outputs rfl
  | sealed => exact .of_outputs rfl
  | sealing => exact .of_outputs rfl
  | reopened => exact .of_outputs rfl
  | stopped => exact setPe_outputsKept _ s

theorem EngineRequest.outputs {s t : State} (h : EngineRequest s t) : OutputsKept s t := by
  cases h with
  | discarded => exact discardUnfinished_outputsKept _ _ s
  | job => exact appendJob_outputsKept _ s
  | begun => exact (appendJob_outputsKept _ s).trans (setPe_outputsKept _ _)
  | staged => exact setPe_outputsKept _ s
  | ended => exact setPe_outputsKept _ s
  | aborted => exact abortSession_outputsKept s

theorem OutputRequest.outputs {s t : State} (h : OutputRequest s t) : OutputsStep s t := by
  cases h with
  | timing hoff hrange hfirst => exact .moved (.timing hoff hrange hfirst) (setOu_outputSet _ _ s)
  | paletteNow first colours hoff => exact .moved (.paletteNow first colours hoff) (setOu_outputSet _ _ s)
  | paletteLater first colours hon => exact .moved (.paletteLater first colours hon) (setOu_outputSet _ _ s)
  | started hoff hvalid => exact startSequence_step _ s hoff hvalid
  | ending hrunning => exact .moved (.ending hrunning) (setOu_outputSet _ _ s)
  | reversed hup => exact reversePowerUp_step _ s hup
  | @appended o background layers hlayers hup hroom n hn hadmits =>
    refine .moved (.accepted background hlayers.1 hup (.inr ⟨rfl, hroom⟩) ?_ hadmits) (acceptFrame_set o s _ _ _ _)
    rw [hn, Presentation.loads, List.map_append]
  | @replaced o background layers hlayers hup n hn hadmits =>
    have hdropped := dropQueue_set o s
    have haccepted := acceptFrame_set o (dropQueue o s) background layers (frameLineBytes s (s.ou o).timing layers) n
    rw [hdropped.pres] at haccepted
    refine .moved (.accepted background hlayers.1 hup (.inl rfl) (hn.trans ?_) hadmits)
      { hdropped.trans haccepted with unit := haccepted.unit.trans hdropped.unit }
    rw [List.map_nil, List.append_nil]
  | unbound hup => exact .moved (.unbound hup) (rebound_set _ s _)
  | bound hup hid hready hshape hadmits => exact .moved (.bound hup hadmits) (rebound_set _ s _)
  | moved position hup => exact .moved (.moved position) (setPres_outputSet _ _ s)
  | share hn hbudget => exact .share (fun _ => rfl) (fun _ => rfl) hn hbudget

theorem RequestMove.outputs {goes : Bool} {s t : State} (h : RequestMove goes s t) : OutputsStep s t := by
  cases h with
  | nothing => exact .kept (.refl s)
  | surface h => exact .kept h.outputs
  | output h => exact h.outputs
  | engine h => exact .kept h.outputs

theorem BlockStep.outputs {s t : State} (h : BlockStep s t) : OutputsStep s t := by
  cases h with
  | @engineBurst b live =>
    refine .kept (.trans ?_ (settle_outputsKept _))
    have hfree := setInFlight_outputsKept none s
    cases live
    · exact hfree
    · exact hfree.trans (finishEngineBurst_outputsKept b _)
  | @fetchBurst o b live =>
    refine .kept (.trans ?_ (arbitrate_outputsKept _))
    have hfree := setInFlight_outputsKept none s
    cases live
    · exact hfree
    · exact hfree.trans (finishFetchBurst_outputsKept o b _)
  | line hruns hp hfield => exact .moved (.line hruns hp hfield) (enterLine_set _ s _)
  | frame hruns => exact startFrame_step _ s hruns
  | field hruns hfield => exact .moved (.field hruns hfield) (setOu_outputSet _ _ s)
  | powerWait h => exact enterClockWait_step _ s h
  | clockWait h => exact .moved (.running h) (enterRunning_set _ s)
  | backlightWait h => exact enterSupplyWait_step _ s (.inl h)
  | supplyWait h => exact .moved (.off (.inl h)) (enterOff_set _ s 0)

/-- A law of the outputs that every move keeps is kept by every command. -/
theorem Effect.outputs_induct {P : State → Prop} (hkept : ∀ s t, OutputsStep s t → P s → P t)
    (hreset : ∀ s, P (resetBlocks s)) {s t : State} (h : Effect s t) (hs : P s) : P t :=
  h.induct (fun _ _ h => hkept _ _ (.kept (.of_device h))) (fun s _ => hreset s) (fun _ _ _ h => hkept _ _ h.outputs)
    (fun s => hkept _ _ (.kept (settle_outputsKept s))) (fun _ _ h => hkept _ _ h.outputs) hs

end Sys2Proof.Machine
end

