-- ==== Sys2Proof/Proofs/OutputLawsKept.lean ====
section
/-! PROOF. The laws of the outputs, of what they hold, and of the palettes, under every command (R61, R106, R113 to R135).
-/

namespace Sys2Proof.Machine

/-- A law of one output that every move keeps, and that reads the unit's core only, holds of every output after a step. -/
theorem OutputsStep.lawful {L : OutputId → OutputUnit → Presentation → Prop}
    (hcore : ∀ {o u v p}, u.core = v.core → L o v p → L o u p)
    (hmove : ∀ {s o u p}, OutputMove s o u p → L o (s.ou o) (s.pres o) → L o u p) {s t : State} (h : OutputsStep s t)
    (hs : ∀ o, L o (s.ou o) (s.pres o)) (o : OutputId) : L o (t.ou o) (t.pres o) := by
  induction h generalizing o with
  | kept h =>
    rw [h.pres]
    exact hcore (h.unit o) (hs o)
  | @moved s t o' u p h ht =>
    by_cases ho : o = o'
    · rw [ho, ht.pres]
      exact hcore ht.unit (hmove h (hs o'))
    · rw [eq_otherOutput ho, ht.otherPres]
      exact hcore ht.otherUnit (hs _)
  | share hunit hpres =>
    rw [hpres]
    exact hcore (hunit o) (hs o)
  | both _ _ ih ih' => exact ih' (ih hs) o

theorem outputLaw_iff (s : State) : OutputLaw s ↔ ∀ o, outputLawful o (s.ou o) :=
  ⟨fun h o => by cases o; exacts [h.1, h.2], fun h => ⟨h .out0, h .out1⟩⟩

theorem presentationLaw_iff (s : State) : PresentationLaw s ↔ ∀ o, presentationLawful o (s.ou o) (s.pres o) :=
  ⟨fun h o => by cases o; exacts [h.1, h.2], fun h => ⟨h .out0, h .out1⟩⟩

theorem paletteLaw_iff (s : State) : PaletteLaw s ↔ ∀ o, paletteLawful (s.ou o) :=
  ⟨fun h o => by cases o; exacts [h.1, h.2], fun h => ⟨h .out0, h .out1⟩⟩

/-! ### What the moves leave of a unit -/

theorem OutputUnit.fillFree_eq (u : OutputUnit) (wasB : Bool) (h : LineHalf) :
    ∃ a b, u.fillFree wasB h = { u with halfA := a, halfB := b } := by
  rcases u.fillFree_cases wasB h with ⟨-, h⟩ | ⟨-, h⟩ | ⟨-, -, h⟩
  · exact ⟨_, u.halfB, h⟩
  · exact ⟨u.halfA, _, h⟩
  · exact ⟨u.halfA, u.halfB, h⟩

theorem OutputUnit.fetched_eq (u : OutputUnit) (y : Nat) (wasB : Bool) :
    ∃ a b, u.fetched y wasB = { u with halfA := a, halfB := b } := u.fillFree_eq wasB _

theorem OutputUnit.reached_eq (u : OutputUnit) (p : Nat) :
    ∃ a b, u.reached p = { u with scanLine := p, halfA := a, halfB := b } := by
  unfold OutputUnit.reached
  split
  · exact ⟨_, _, rfl⟩
  · exact ⟨_, _, rfl⟩

theorem OutputUnit.onLine_eq (u : OutputUnit) (p : Nat) :
    ∃ a b, u.onLine p = { u with scanLine := p, halfA := a, halfB := b } := by
  obtain ⟨a, b, h⟩ := u.reached_eq p
  unfold OutputUnit.onLine
  split
  · next y _ =>
    obtain ⟨a', b', h'⟩ := (u.reached p).fetched_eq y u.showsB
    exact ⟨a', b', by rw [h', h]⟩
  · exact ⟨a, b, h⟩

/-- A law that reads the unit without its halves. -/
theorem halves_irrelevant {L : OutputUnit → Prop} (hL : ∀ u a b, L u → L { u with halfA := a, halfB := b })
    {u : OutputUnit} (h : L u) (y : Nat) (wasB : Bool) : L (u.fetched y wasB) := by
  obtain ⟨a, b, hu⟩ := u.fetched_eq y wasB
  rw [hu]
  exact hL u a b h

/-! ### The state machine (R121, R135) -/

theorem outputLawful_core {o : OutputId} {u v : OutputUnit} (h : u.core = v.core) (hv : outputLawful o v) :
    outputLawful o u := by
  have hv : outputLawful o v.core := hv
  rw [← h] at hv
  exact hv

/-- R121: the sequence step of a state. -/
theorem stepFixes.step_of_off {u : OutputUnit} (h : stepFixes u) (hoff : u.state = .off) : u.step = .off := by
  unfold stepFixes at h
  rw [hoff] at h
  cases hstep : u.step <;> rw [hstep] at h <;> simp at h ⊢

theorem stepFixes.step_of_running {u : OutputUnit} (h : stepFixes u) (hrunning : u.state = .running) :
    u.step = .showing ∧ u.timer = none := by
  unfold stepFixes at h
  rw [hrunning] at h
  cases hstep : u.step <;> rw [hstep] at h <;> simp at h ⊢
  exact h

theorem stepFixes.step_of_powerUp {u : OutputUnit} (h : stepFixes u) (hup : u.state = .powerUp) :
    u.step = .powerWait ∨ u.step = .clockWait := by
  unfold stepFixes at h
  rw [hup] at h
  cases hstep : u.step <;> rw [hstep] at h <;> simp at h ⊢

/-- R121: the steps in which the timing runs. -/
def SequenceStep.runs : SequenceStep → Bool
  | .clockWait | .showing | .backlightWait => true
  | .off | .powerWait | .supplyWait => false

theorem timingRuns_of_step {u : OutputUnit} {step : SequenceStep} (h : u.step = step) : u.timingRuns = step.runs := by
  subst h
  rfl

/-- R114, R121: with its timing stopped, an output's field is TOP, and nothing binds its line. -/
theorem outputLawful_stopped {o : OutputId} {u : OutputUnit} (hfix : stepFixes u) (hvalid : u.valid = true → u.timing.inRange)
    (hinvalid : u.valid = false → u.timing = .zero ∧ u.step = .off)
    (hfirst : o = .out0 → u.timing.interlace = false ∧ u.timing.flicker = false) (hstopped : u.timingRuns = false)
    (hfield : u.field = .top) : outputLawful o u :=
  ⟨hfix, hvalid, hinvalid, hfirst, fun _ => hfield, fun _ hruns => Bool.noConfusion (hstopped.symm.trans hruns)⟩

/-- R119, R135: on the frame's first line the field is TOP. -/
theorem outputLawful_first {o : OutputId} {u : OutputUnit} (hfix : stepFixes u) (hvalid : u.valid = true → u.timing.inRange)
    (hinvalid : u.valid = false → u.timing = .zero ∧ u.step = .off)
    (hfirst : o = .out0 → u.timing.interlace = false ∧ u.timing.flicker = false) (hline : u.scanLine = 0)
    (hfield : u.field = .top) : outputLawful o u :=
  ⟨hfix, hvalid, hinvalid, hfirst, fun _ => hfield, fun _ _ hlt => absurd (hline ▸ hlt) (Nat.not_lt_zero _)⟩

theorem OutputUnit.fieldDue_eq_false {u : OutputUnit} (h : u.fieldDue = false) (hi : u.timing.interlace = true)
    (hline : u.scanLine = u.timing.topBlankStart) : u.field = .bottom := by
  unfold OutputUnit.fieldDue at h
  cases hf : u.field with
  | top => simp [hi, hline, hf] at h
  | bottom => rfl

/-- R121, R135: every move keeps the law of the output. -/
theorem OutputMove.outputLawful {s : State} {o : OutputId} {u : OutputUnit} {p : Presentation} (h : OutputMove s o u p)
    (hs : Sys2Proof.Machine.outputLawful o (s.ou o)) :
    Sys2Proof.Machine.outputLawful o u := by
  have hhalves (v : OutputUnit) (a b : LineHalf) (hv : Sys2Proof.Machine.outputLawful o v) :
      Sys2Proof.Machine.outputLawful o { v with halfA := a, halfB := b } := hv
  obtain ⟨hfix, hvalid, hinvalid, hfirst, htop, hbottom⟩ := hs
  have invalid_of_step {step : SequenceStep} (hstep : (s.ou o).step = step) (hne : step ≠ .off)
      (hv : (s.ou o).valid = false) : False := hne (hstep ▸ (hinvalid hv).2)
  cases h with
  | timing hoff hrange hfirst =>
    have hstep := hfix.step_of_off hoff
    have hstopped := timingRuns_of_step hstep
    refine outputLawful_stopped ?_ (fun _ => hrange) (fun hc => (by cases hc)) hfirst hstopped
      (htop (.inr (.inl hstopped)))
    unfold stepFixes at hfix ⊢
    rw [hstep] at hfix
    dsimp only
    rw [hstep]
    exact hfix
  | paletteNow => exact ⟨hfix, hvalid, hinvalid, hfirst, htop, hbottom⟩
  | paletteLater => exact ⟨hfix, hvalid, hinvalid, hfirst, htop, hbottom⟩
  | powered hoff hon =>
    have hstopped := timingRuns_of_step (hfix.step_of_off hoff)
    exact outputLawful_stopped ⟨rfl, rfl⟩ hvalid (fun hv => Bool.noConfusion (hon.symm.trans hv)) hfirst rfl
      (htop (.inr (.inl hstopped)))
  | clock hstep =>
    refine halves_irrelevant hhalves ?_ _ _
    exact outputLawful_first ⟨rfl, rfl⟩ hvalid
      (fun hv => (invalid_of_step hstep (fun hc => (by cases hc)) hv).elim) hfirst rfl rfl
  | running hstep =>
    have hruns := timingRuns_of_step hstep
    exact ⟨⟨.inl rfl, rfl⟩, hvalid, fun hv => (invalid_of_step hstep (fun hc => (by cases hc)) hv).elim, hfirst,
      fun h => htop (h.imp_right (.imp_left fun hc => (by cases hc))), fun hi _ => hbottom hi hruns⟩
  | ending hrunning =>
    obtain ⟨hstep, htimer⟩ := hfix.step_of_running hrunning
    refine ⟨?_, hvalid, hinvalid, hfirst, htop, hbottom⟩
    unfold stepFixes
    dsimp only
    rw [hstep]
    exact ⟨.inr rfl, htimer⟩
  | shut => exact ⟨hfix, hvalid, hinvalid, hfirst, htop, hbottom⟩
  | supply h =>
    refine outputLawful_stopped ⟨rfl, rfl⟩ hvalid (fun hv => ?_) hfirst rfl rfl
    rcases h with h | ⟨h, -⟩
    · exact (invalid_of_step h (fun hc => (by cases hc)) hv).elim
    · exact (invalid_of_step h (fun hc => (by cases hc)) hv).elim
  | off h =>
    have hstopped : (s.ou o).timingRuns = false := by
      rcases h with h | ⟨hup, hstep, -⟩
      · exact timingRuns_of_step h
      · exact timingRuns_of_step ((hfix.step_of_powerUp hup).resolve_right hstep)
    exact outputLawful_stopped ⟨rfl, rfl⟩ hvalid (fun hv => ⟨(hinvalid hv).1, rfl⟩) hfirst rfl
      (htop (.inr (.inl hstopped)))
  | line hruns hp hfield =>
    obtain ⟨a, b, hu⟩ := (s.ou o).onLine_eq ((s.ou o).scanLine + 1)
    rw [hu]
    refine ⟨hfix, hvalid, hinvalid, hfirst, fun h => htop (h.imp_right (.imp_right fun hlt => ?_)), fun hi hr hlt => ?_⟩
    · exact Nat.lt_of_succ_lt hlt
    · rcases Nat.lt_or_eq_of_le (Nat.le_of_lt_succ hlt) with hlt | heq
      · exact hbottom hi hr hlt
      · exact OutputUnit.fieldDue_eq_false (u := s.ou o) hfield hi heq.symm
  | field hruns hfield =>
    obtain ⟨hi, hline, -⟩ := (OutputUnit.fieldDue_iff _).1 hfield
    refine ⟨hfix, hvalid, hinvalid, hfirst, fun h => ?_, fun _ _ _ => rfl⟩
    rcases h with h | h | h
    · exact Bool.noConfusion (hi.symm.trans h)
    · exact Bool.noConfusion (hruns.symm.trans h)
    · exact absurd (hline ▸ h) (Nat.lt_irrefl _)
  | frame hruns wasB =>
    refine halves_irrelevant hhalves ?_ _ _
    rw [OutputUnit.copyPalette_eq]
    exact outputLawful_first hfix hvalid hinvalid hfirst rfl rfl
  | frameEnding hstep wasB =>
    refine halves_irrelevant hhalves ?_ _ _
    rw [OutputUnit.copyPalette_eq]
    exact outputLawful_first ⟨rfl, rfl⟩ hvalid (fun hv => (invalid_of_step hstep (fun hc => (by cases hc)) hv).elim) hfirst
      rfl rfl
  | accepted => exact ⟨hfix, hvalid, hinvalid, hfirst, htop, hbottom⟩
  | unbound => exact ⟨hfix, hvalid, hinvalid, hfirst, htop, hbottom⟩
  | bound => exact ⟨hfix, hvalid, hinvalid, hfirst, htop, hbottom⟩
  | moved => exact ⟨hfix, hvalid, hinvalid, hfirst, htop, hbottom⟩

/-! ### What an output holds (R61) -/

/-- R61: the records an output holds. -/
def Presentation.records (p : Presentation) : List FrameRecord := p.queue ++ p.current.toList

theorem Presentation.taken_records (factor : Nat) (p : Presentation) {r : FrameRecord}
    (h : r ∈ (p.taken factor).records) : r ∈ p.records := by
  unfold Presentation.records at h ⊢
  change r ∈ p.queue.tail ++ (if p.queue = [] then p.current else p.queue.head?).toList at h
  cases hq : p.queue with
  | nil => simpa [hq] using h
  | cons x rest =>
    simp only [hq, List.tail_cons, List.head?_cons, reduceCtorEq, if_false, Option.toList_some, List.mem_append,
      List.mem_singleton] at h
    rcases h with h | rfl
    · exact List.mem_append_left _ (List.mem_cons_of_mem _ h)
    · exact List.mem_append_left _ List.mem_cons_self

/-- R70, R77: an output that holds nothing takes nothing. -/
theorem Presentation.holdsNothing.taken {p : Presentation} (h : p.holdsNothing) (factor : Nat) :
    (p.taken factor).holdsNothing := by
  obtain ⟨hqueue, hcurrent, hbinding, hpending⟩ := h
  refine ⟨?_, ?_, ?_, rfl⟩
  · change p.queue.tail = []
    rw [hqueue]
    rfl
  · change (if p.queue = [] then p.current else p.queue.head?) = none
    rw [if_pos hqueue, hcurrent]
  · change (match p.pendingBinding with
      | .noChange => p.binding
      | .unbind => none
      | .bind b => some b) = none
    rw [hpending]
    exact hbinding

theorem nextToken_range {token : Nat} (h : token ≤ 65535) : 1 ≤ nextToken token ∧ nextToken token ≤ 65535 := by
  unfold nextToken
  split <;> omega

theorem presentationLawful_core {o : OutputId} {u v : OutputUnit} {p : Presentation} (h : u.core = v.core)
    (hv : presentationLawful o v p) : presentationLawful o u p := by
  have hv : presentationLawful o v.core p := hv
  rw [← h] at hv
  exact hv

/-- R61: every move keeps what an output holds lawful. -/
theorem OutputMove.presentationLawful {s : State} {o : OutputId} {u : OutputUnit} {p : Presentation}
    (h : OutputMove s o u p) (hu : Sys2Proof.Machine.outputLawful o (s.ou o))
    (hs : Sys2Proof.Machine.presentationLawful o (s.ou o) (s.pres o)) :
    Sys2Proof.Machine.presentationLawful o u p := by
  obtain ⟨hfix, -⟩ := hu
  obtain ⟨hlength, hempty, htoken, hrecords⟩ := hs
  have hholds (h : (s.ou o).state = .off ∨ (s.ou o).state = .powerDown) : (s.pres o).holdsNothing := hempty h
  have hsame {v : OutputUnit} (hv : v.state = .off ∨ v.state = .powerDown → (s.pres o).holdsNothing) :
      Sys2Proof.Machine.presentationLawful o v (s.pres o) := ⟨hlength, hv, htoken, hrecords⟩
  have hshut (v : OutputUnit) : Sys2Proof.Machine.presentationLawful o v (s.pres o).shut :=
    ⟨Nat.zero_le _, fun _ => ⟨rfl, rfl, rfl, rfl⟩, htoken, fun _ hr => absurd hr List.not_mem_nil⟩
  have hhalves {q : Presentation} (v : OutputUnit) (a b : LineHalf) (hv : Sys2Proof.Machine.presentationLawful o v q) :
      Sys2Proof.Machine.presentationLawful o { v with halfA := a, halfB := b } q := hv
  have hpowered {v : OutputUnit} {st : OutputState} (hv : v.state = st) (hoff : st ≠ .off) (hdown : st ≠ .powerDown) :
      v.state = .off ∨ v.state = .powerDown → (s.pres o).holdsNothing := fun h =>
    (h.elim (fun h => hoff (hv.symm.trans h)) fun h => hdown (hv.symm.trans h)).elim
  have hnot (hup : (s.ou o).state = .powerUp ∨ (s.ou o).state = .running)
      (hc : (s.ou o).state = .off ∨ (s.ou o).state = .powerDown) : False := by
    rcases hup with h | h <;> rw [h] at hc <;> rcases hc with hc | hc <;> cases hc
  cases h with
  | timing => exact hsame hempty
  | paletteNow => exact hsame hempty
  | paletteLater => exact hsame hempty
  | powered => exact hsame (hpowered (st := .powerUp) rfl (fun hc => by cases hc) fun hc => by cases hc)
  | clock =>
    refine halves_irrelevant hhalves ?_ _ _
    exact hsame (hpowered (st := .powerUp) rfl (fun hc => by cases hc) fun hc => by cases hc)
  | running => exact hsame (hpowered (st := .running) rfl (fun hc => by cases hc) fun hc => by cases hc)
  | ending => exact hsame (hpowered (st := .ending) rfl (fun hc => by cases hc) fun hc => by cases hc)
  | shut => exact hshut _
  | supply h =>
    refine hsame fun _ => ?_
    rcases h with h | ⟨-, h⟩
    · unfold stepFixes at hfix
      rw [h] at hfix
      exact hholds (.inr hfix.1)
    · exact h
  | off h =>
    refine hsame fun _ => ?_
    rcases h with h | ⟨-, -, h⟩
    · unfold stepFixes at hfix
      rw [h] at hfix
      exact hholds (.inr hfix.1)
    · exact h
  | line =>
    obtain ⟨a, b, hu⟩ := (s.ou o).onLine_eq ((s.ou o).scanLine + 1)
    rw [hu]
    exact hsame hempty
  | field => exact hsame hempty
  | frame hruns wasB hp =>
    refine halves_irrelevant hhalves ?_ _ _
    rw [OutputUnit.copyPalette_eq]
    rcases hp with rfl | rfl
    · exact hsame hempty
    · refine ⟨?_, fun h => (hholds h).taken _, htoken, fun r hr => hrecords r ((s.pres o).taken_records _ hr)⟩
      change (s.pres o).queue.tail.length ≤ 3
      rw [List.length_tail]
      omega
  | frameEnding =>
    refine halves_irrelevant hhalves ?_ _ _
    rw [OutputUnit.copyPalette_eq]
    exact hshut _
  | @accepted background layers hlayers hup queue hqueue load n hn hadmits =>
    have hqlength : queue.length < 3 := by
      rcases hqueue with rfl | ⟨-, h⟩
      · exact Nat.zero_lt_succ 2
      · exact h
    have hsub : ∀ r ∈ queue, r ∈ (s.pres o).queue := by
      rcases hqueue with rfl | ⟨rfl, -⟩
      · exact fun _ h => absurd h List.not_mem_nil
      · exact fun _ h => h
    obtain ⟨hlow, hhigh⟩ := nextToken_range htoken
    refine ⟨?_, fun hc => (hnot hup hc).elim, hhigh, fun r hr => ?_⟩
    · change (queue ++ [_]).length ≤ 3
      rw [List.length_append, List.length_singleton]
      exact hqlength
    · change r ∈ (queue ++ [_]) ++ (s.pres o).current.toList at hr
      rcases List.mem_append.1 hr with hr | hr
      · rcases List.mem_append.1 hr with hr | hr
        · exact hrecords r (List.mem_append_left _ (hsub r hr))
        · rw [List.mem_singleton.1 hr]
          exact ⟨rfl, hlayers, hlow, hhigh⟩
      · exact hrecords r (List.mem_append_right _ hr)
  | unbound hup => exact ⟨hlength, fun hc => (hnot hup hc).elim, htoken, hrecords⟩
  | bound hup => exact ⟨hlength, fun hc => (hnot hup hc).elim, htoken, hrecords⟩
  | moved => exact ⟨hlength, hempty, htoken, hrecords⟩

theorem OutputsStep.outputLaws {s t : State} (h : OutputsStep s t) (hs : OutputLaw s ∧ PresentationLaw s) :
    OutputLaw t ∧ PresentationLaw t := by
  rw [outputLaw_iff, presentationLaw_iff, ← forall_and] at hs ⊢
  exact h.lawful (L := fun o u p => outputLawful o u ∧ presentationLawful o u p)
    (fun h hv => ⟨outputLawful_core h hv.1, presentationLawful_core h hv.2⟩)
    (fun h hv => ⟨h.outputLawful hv.1, h.presentationLawful hv.1 hv.2⟩) hs

theorem reset_outputLaw : OutputLaw State.reset := ⟨reset_outputLawful _, reset_outputLawful _⟩

theorem reset_presentationLaw : PresentationLaw State.reset :=
  ⟨reset_presentationLawful _ _, reset_presentationLawful _ _⟩

/-- Settles O6. -/
theorem outputLawIsKept : Obligations.OutputLawIsKept := by
  unfold Obligations.OutputLawIsKept
  intro s t hs hpres h
  rcases step_effect h with rfl | ⟨rest, h⟩
  · exact ⟨hs, hpres⟩
  · exact h.outputs_induct (P := fun w => OutputLaw w ∧ PresentationLaw w) (fun _ _ h => h.outputLaws)
      (fun _ => ⟨reset_outputLaw, reset_presentationLaw⟩) ⟨hs, hpres⟩

/-! ### The palettes (R106) -/

theorem paletteLawful_core {u v : OutputUnit} (h : u.core = v.core) (hv : paletteLawful v) : paletteLawful u := by
  have hv : paletteLawful v.core := hv
  rw [← h] at hv
  exact hv

/-- R110, R111: the staging palette copied to the active one. -/
theorem paletteLawful_copied {u v : OutputUnit} (h : paletteLawful u)
    (hactive : v.active = if u.palettePending then u.staging else u.active) (hstaging : v.staging = u.staging)
    (hpending : v.palettePending = false) : paletteLawful v := by
  obtain ⟨hlength, hslength, hsame, hoff⟩ := h
  refine ⟨?_, hstaging ▸ hslength, fun _ => ?_, fun _ => hpending⟩
  · rw [hactive]
    split
    · exact hslength
    · exact hlength
  · rw [hactive, hstaging]
    split
    · rfl
    · next h => exact hsame (Bool.eq_false_iff.2 h)

/-- R106: every move keeps the law of the palettes. -/
theorem OutputMove.paletteLawful {s : State} {o : OutputId} {u : OutputUnit} {p : Presentation}
    (h : OutputMove s o u p) (hs : Sys2Proof.Machine.paletteLawful (s.ou o)) :
    Sys2Proof.Machine.paletteLawful u := by
  have hhalves (v : OutputUnit) (a b : LineHalf) (hv : Sys2Proof.Machine.paletteLawful v) :
      Sys2Proof.Machine.paletteLawful { v with halfA := a, halfB := b } := hv
  have ⟨hlength, hslength, hsame, hoff⟩ := hs
  cases h with
  | timing => exact ⟨hlength, hslength, hsame, hoff⟩
  | paletteNow first colours hstate =>
    refine ⟨(writeEntries_length _ _ _).trans hlength, (writeEntries_length _ _ _).trans hslength, fun _ => ?_, fun _ => rfl⟩
    exact congrArg (writeEntries · first colours) (hsame (hoff hstate))
  | paletteLater first colours hon =>
    exact ⟨hlength, (writeEntries_length _ _ _).trans hslength, fun hc => (by cases hc), fun hc => absurd hc hon⟩
  | powered => exact ⟨hlength, hslength, hsame, fun hc => (by cases hc)⟩
  | clock =>
    refine halves_irrelevant hhalves ?_ _ _
    exact paletteLawful_copied hs rfl rfl rfl
  | running => exact ⟨hlength, hslength, hsame, fun hc => (by cases hc)⟩
  | ending => exact ⟨hlength, hslength, hsame, fun hc => (by cases hc)⟩
  | shut => exact ⟨hlength, hslength, hsame, hoff⟩
  | supply => exact ⟨hlength, hslength, hsame, fun hc => (by cases hc)⟩
  | off => exact paletteLawful_copied hs rfl rfl rfl
  | line =>
    obtain ⟨a, b, hu⟩ := (s.ou o).onLine_eq ((s.ou o).scanLine + 1)
    rw [hu]
    exact ⟨hlength, hslength, hsame, hoff⟩
  | field => exact ⟨hlength, hslength, hsame, hoff⟩
  | frame =>
    refine halves_irrelevant hhalves ?_ _ _
    rw [OutputUnit.copyPalette_eq]
    exact paletteLawful_copied hs rfl rfl rfl
  | frameEnding =>
    refine halves_irrelevant hhalves ?_ _ _
    rw [OutputUnit.copyPalette_eq]
    exact paletteLawful_copied hs rfl rfl rfl
  | accepted => exact ⟨hlength, hslength, hsame, hoff⟩
  | unbound => exact ⟨hlength, hslength, hsame, hoff⟩
  | bound => exact ⟨hlength, hslength, hsame, hoff⟩
  | moved => exact ⟨hlength, hslength, hsame, hoff⟩

theorem OutputsStep.paletteLaw {s t : State} (h : OutputsStep s t) (hs : PaletteLaw s) : PaletteLaw t := by
  rw [paletteLaw_iff] at hs ⊢
  exact h.lawful (L := fun _ u _ => paletteLawful u) (fun h => paletteLawful_core h) (fun h => h.paletteLawful) hs

theorem Effect.paletteLaw {s t : State} (h : Effect s t) (hs : PaletteLaw s) : PaletteLaw t :=
  h.outputs_induct (fun _ _ h => h.paletteLaw) (fun _ => ⟨reset_paletteLawful, reset_paletteLawful⟩) hs

end Sys2Proof.Machine
end

