-- ==== Sys2Proof/Proofs/BudgetKept.lean ====
section
/-! PROOF. The budget under every command (R84 to R94).
-/

namespace Sys2Proof.Machine

/-! ### The reserved load -/

theorem foldl_max_le {l : List Nat} {a m : Nat} : l.foldl max a ≤ m ↔ a ≤ m ∧ ∀ x ∈ l, x ≤ m := by
  induction l generalizing a with
  | nil => simp
  | cons x l ih =>
    rw [List.foldl_cons, ih, max_le_iff, List.forall_mem_cons, and_assoc]

theorem reservedN_mono (factor : Nat) {loads loads' : List Nat} {c c' : Nat} (hloads : loads ⊆ loads') (hc : c ≤ c') :
    reservedN factor loads c ≤ reservedN factor loads' c' := by
  have hmax : loads.foldl max 0 ≤ loads'.foldl max 0 :=
    foldl_max_le.2 ⟨Nat.zero_le _, fun x hx => (foldl_max_le.1 (Nat.le_refl _)).2 x (hloads hx)⟩
  exact Nat.mul_le_mul_left _ (Nat.add_le_add hmax hc)

theorem reservedN_nil (factor : Nat) : reservedN factor [] 0 = 0 := rfl

/-- R84: the cursor term is monotone in what is bound. -/
theorem cursorTerm_mono {p q : Presentation}
    (h : p.binding.isSome ∨ p.pendingBinding.names = true → q.binding.isSome ∨ q.pendingBinding.names = true) :
    p.cursorTerm ≤ q.cursorTerm := by
  rw [cursorTerm_eq, cursorTerm_eq]
  split
  · next hp => rw [if_pos (h hp)]
  · exact Nat.zero_le _

/-- R61, R84: an output that holds nothing has no load. -/
theorem Presentation.holdsNothing.reserved {p : Presentation} (h : p.holdsNothing) (factor : Nat) :
    reservedN factor p.loads p.cursorTerm = 0 := by
  obtain ⟨hqueue, hcurrent, hbinding, hpending⟩ := h
  have hloads : p.loads = [] := by rw [Presentation.loads, hqueue, hcurrent]; rfl
  have hcursor : p.cursorTerm = 0 := by rw [Presentation.cursorTerm, hbinding, hpending]; rfl
  rw [hloads, hcursor, reservedN_nil]

theorem Presentation.taken_loads (factor : Nat) (p : Presentation) : (p.taken factor).loads ⊆ p.loads := by
  intro x hx
  obtain ⟨r, hr, rfl⟩ := List.mem_map.1 hx
  have hr := p.taken_records factor (List.mem_append.2 (List.mem_append.1 hr).symm)
  exact List.mem_map_of_mem (List.mem_append.2 (List.mem_append.1 hr).symm)

/-- R77, R84: a cursor latched was counted before. -/
theorem Presentation.taken_cursorTerm (factor : Nat) (p : Presentation) :
    (p.taken factor).cursorTerm ≤ p.cursorTerm := by
  refine cursorTerm_mono fun h => ?_
  have hpending : (p.taken factor).pendingBinding = .noChange := rfl
  have hbinding : (p.taken factor).binding = match p.pendingBinding with
      | .noChange => p.binding
      | .unbind => none
      | .bind b => some b := rfl
  rw [hpending, hbinding] at h
  cases hp : p.pendingBinding with
  | noChange => exact .inl (by simpa [hp, PendingBinding.names] using h)
  | unbind => simp [hp, PendingBinding.names] at h
  | bind b => exact .inr rfl

/-! ### The budget check -/

theorem admits_iff (s : State) (o : OutputId) (n : Nat) : s.admits o n = true ↔
    12 * (n * (s.ou (otherOutput o)).loadD + (s.pres (otherOutput o)).loadN * (s.ou o).loadD) ≤
      s.share * (s.ou o).loadD * (s.ou (otherOutput o)).loadD :=
  decide_eq_true_iff

theorem admits_mono {s : State} {o : OutputId} {n m : Nat} (hn : n ≤ m) (h : s.admits o m = true) :
    s.admits o n = true := by
  rw [admits_iff] at h ⊢
  exact Nat.le_trans (Nat.mul_le_mul_left _ (Nat.add_le_add_right (Nat.mul_le_mul_right _ hn) _)) h

/-- R88, R93: the law of the budget, read from either output. -/
theorem budgetLaw_iff (s : State) (o : OutputId) : BudgetLaw s ↔
    (4 ≤ s.share ∧ s.share ≤ 9) ∧ (∀ o, reservedLawful (s.ou o) (s.pres o)) ∧ s.admits o (s.pres o).loadN = true := by
  have hboth : (∀ o, reservedLawful (s.ou o) (s.pres o)) ↔ reservedLawful s.ou0 s.pres0 ∧ reservedLawful s.ou1 s.pres1 :=
    ⟨fun h => ⟨h .out0, h .out1⟩, fun h o => by cases o; exacts [h.1, h.2]⟩
  have hsum : s.admits o (s.pres o).loadN = true ↔
      12 * (s.pres0.loadN * s.ou1.loadD + s.pres1.loadN * s.ou0.loadD) ≤ s.share * s.ou0.loadD * s.ou1.loadD := by
    rw [admits_iff]
    cases o with
    | out0 => exact Iff.rfl
    | out1 =>
      have hleft : 12 * (s.pres1.loadN * s.ou0.loadD + s.pres0.loadN * s.ou1.loadD) =
          12 * (s.pres0.loadN * s.ou1.loadD + s.pres1.loadN * s.ou0.loadD) := by rw [Nat.add_comm]
      have hright : s.share * s.ou1.loadD * s.ou0.loadD = s.share * s.ou0.loadD * s.ou1.loadD := Nat.mul_right_comm _ _ _
      change 12 * (s.pres1.loadN * s.ou0.loadD + s.pres0.loadN * s.ou1.loadD) ≤ s.share * s.ou1.loadD * s.ou0.loadD ↔ _
      rw [hleft, hright]
  unfold BudgetLaw
  rw [hboth, hsum]
  tauto

/-- R88: with no load on an output, a changed D keeps the check. -/
theorem admits_unloaded {share n d d' dother : Nat} (hd : 0 < d) (h : 12 * (0 * dother + n * d) ≤ share * d * dother) :
    12 * (0 * dother + n * d') ≤ share * d' * dother := by
  rw [Nat.zero_mul, Nat.zero_add] at h ⊢
  have hother : 12 * n ≤ share * dother := by
    refine Nat.le_of_mul_le_mul_right ?_ hd
    calc 12 * n * d = 12 * (n * d) := Nat.mul_assoc ..
      _ ≤ share * d * dother := h
      _ = share * dother * d := Nat.mul_right_comm ..
  calc 12 * (n * d') = 12 * n * d' := (Nat.mul_assoc ..).symm
    _ ≤ share * dother * d' := Nat.mul_le_mul_right _ hother
    _ = share * d' * dother := Nat.mul_right_comm ..

/-! ### The moves of an output -/

/-- R85: what of a unit its load is formed from. -/
def OutputUnit.clocked (u : OutputUnit) : Bool × Timing := (u.valid, u.timing)

theorem clocked_core {u v : OutputUnit} (h : u.core = v.core) : u.clocked = v.clocked :=
  show u.core.clocked = v.core.clocked from congrArg OutputUnit.clocked h

theorem OutputUnit.loadD_clocked {u v : OutputUnit} (h : u.clocked = v.clocked) : u.loadD = v.loadD := by
  obtain ⟨hvalid, htiming⟩ := Prod.mk.inj h
  unfold OutputUnit.loadD
  rw [hvalid, htiming]

theorem reservedLawful_clocked {u v : OutputUnit} {p : Presentation} (h : u.clocked = v.clocked)
    (hp : reservedLawful v p) : reservedLawful u p := by
  obtain ⟨-, htiming⟩ := Prod.mk.inj h
  unfold reservedLawful at hp ⊢
  rwa [htiming]

/-- R93: what a move leaves of an output's load: its timing stands and its N is checked or no greater, or it has none. -/
structure Weighed (s : State) (o : OutputId) (u : OutputUnit) (p : Presentation) : Prop where
  reserved : reservedLawful u p
  fits : (u.clocked = (s.ou o).clocked ∧ (p.loadN ≤ (s.pres o).loadN ∨ s.admits o p.loadN = true)) ∨ p.loadN = 0

theorem Weighed.same {s : State} {o : OutputId} {u : OutputUnit} {p : Presentation} (hu : u.clocked = (s.ou o).clocked)
    (hp : p.loads = (s.pres o).loads) (hc : p.cursorTerm = (s.pres o).cursorTerm) (hn : p.loadN = (s.pres o).loadN)
    (h : reservedLawful (s.ou o) (s.pres o)) : Weighed s o u p := by
  refine ⟨reservedLawful_clocked hu ?_, .inl ⟨hu, .inl (Nat.le_of_eq hn)⟩⟩
  unfold reservedLawful at h ⊢
  rw [hp, hc, hn]
  exact h

theorem Weighed.shut (s : State) (o : OutputId) (u : OutputUnit) : Weighed s o u (s.pres o).shut :=
  ⟨(reservedN_nil _).symm, .inr rfl⟩

theorem clocked_fetched (u : OutputUnit) (y : Nat) (wasB : Bool) : (u.fetched y wasB).clocked = u.clocked := by
  obtain ⟨a, b, h⟩ := u.fetched_eq y wasB
  rw [h]
  rfl

theorem clocked_copyPalette (u : OutputUnit) : u.copyPalette.clocked = u.clocked := by
  rw [OutputUnit.copyPalette_eq]
  rfl

theorem clocked_onLine (u : OutputUnit) (p : Nat) : (u.onLine p).clocked = u.clocked := by
  obtain ⟨a, b, h⟩ := u.onLine_eq p
  rw [h]
  rfl

/-- R91, R93: every move weighs what it changes. -/
theorem OutputMove.weighed {s : State} {o : OutputId} {u : OutputUnit} {p : Presentation} (h : OutputMove s o u p)
    (hpres : Sys2Proof.Machine.presentationLawful o (s.ou o) (s.pres o)) (hs : reservedLawful (s.ou o) (s.pres o)) : Weighed s o u p := by
  obtain ⟨-, hempty, -⟩ := hpres
  have hsame {u : OutputUnit} (hu : u.clocked = (s.ou o).clocked) : Weighed s o u (s.pres o) := .same hu rfl rfl rfl hs
  cases h with
  | timing hoff =>
    have hholds : (s.pres o).holdsNothing := hempty (.inl hoff)
    have hzero : (s.pres o).loadN = 0 := hs.trans (hholds.reserved _)
    exact ⟨hzero.trans (hholds.reserved _).symm, .inr hzero⟩
  | paletteNow => exact hsame rfl
  | paletteLater => exact hsame rfl
  | powered => exact hsame rfl
  | clock => exact hsame (clocked_fetched _ _ _)
  | running => exact hsame rfl
  | ending => exact hsame rfl
  | shut => exact .shut s o _
  | supply => exact hsame rfl
  | off => exact hsame rfl
  | line => exact hsame (clocked_onLine _ _)
  | field => exact hsame rfl
  | frame hruns wasB hp =>
    have hclocked : ((s.ou o).opened.copyPalette.fetched 0 wasB).clocked = (s.ou o).clocked :=
      (clocked_fetched _ _ _).trans (clocked_copyPalette _)
    rcases hp with rfl | rfl
    · exact hsame hclocked
    · refine ⟨reservedLawful_clocked hclocked rfl, .inl ⟨hclocked, .inl ?_⟩⟩
      rw [hs]
      exact reservedN_mono _ ((s.pres o).taken_loads (s.ou o).timing.fetchFactor)
        ((s.pres o).taken_cursorTerm (s.ou o).timing.fetchFactor)
  | frameEnding => exact .shut s o _
  | @accepted background layers hlayers hup queue hqueue load n hn hadmits =>
    refine ⟨?_, .inl ⟨rfl, .inr hadmits⟩⟩
    refine hn.trans (congrArg (reservedN _ · _) ?_)
    simp only [Presentation.loads, Presentation.accepted, List.map_append, List.append_assoc, List.map_cons,
      List.map_nil]
  | unbound =>
    have hn : ((s.pres o).rebound (s.ou o).timing.fetchFactor .unbind).loadN = reservedN (s.ou o).timing.fetchFactor
        (s.pres o).loads ((s.pres o).rebound (s.ou o).timing.fetchFactor .unbind).cursorTerm := by
      rw [cursorTerm_eq]
      rfl
    refine ⟨hn, .inl ⟨rfl, .inl ?_⟩⟩
    rw [hn, hs]
    refine reservedN_mono _ (List.Subset.refl _) (cursorTerm_mono fun h => .inl ?_)
    exact h.resolve_right fun hc => Bool.noConfusion hc
  | @bound b hup hadmits =>
    have hn : ((s.pres o).rebound (s.ou o).timing.fetchFactor (.bind b)).loadN = reservedN (s.ou o).timing.fetchFactor
        (s.pres o).loads 16 := by
      unfold Presentation.rebound reservedN
      dsimp only
      rw [if_pos (.inr rfl)]
    refine ⟨hn.trans ?_, .inl ⟨rfl, .inr ?_⟩⟩
    · rw [cursorTerm_eq, if_pos (.inr rfl)]
      rfl
    · rw [hn]
      exact (Bool.and_eq_true_iff.1 hadmits).2
  | moved => exact .same rfl rfl rfl rfl hs

/-! ### The law (R93) -/

theorem OutputsKept.budgetLaw {s t : State} (hunit : ∀ o, (t.ou o).core = (s.ou o).core)
    (hpres : ∀ o, t.pres o = s.pres o) : (∀ o, (t.ou o).loadD = (s.ou o).loadD) ∧
      ((∀ o, reservedLawful (s.ou o) (s.pres o)) → ∀ o, reservedLawful (t.ou o) (t.pres o)) := by
  have hclocked (o : OutputId) : (t.ou o).clocked = (s.ou o).clocked := clocked_core (hunit o)
  exact ⟨fun o => OutputUnit.loadD_clocked (hclocked o),
    fun h o => reservedLawful_clocked (hclocked o) ((hpres o).symm ▸ h o)⟩

/-- R93: an output set to what was weighed keeps the law. -/
theorem Weighed.budgetLaw {s t : State} {o : OutputId} {u : OutputUnit} {p : Presentation} (h : Weighed s o u p)
    (ht : OutputSet o u p s t) (hu : outputLawful o (s.ou o)) (hs : BudgetLaw s) : BudgetLaw t := by
  rw [budgetLaw_iff _ o] at hs ⊢
  obtain ⟨hshare, hreserved, hadmits⟩ := hs
  have hclocked : (t.ou o).clocked = u.clocked := clocked_core ht.unit
  have hclockedOther : (t.ou (otherOutput o)).clocked = (s.ou (otherOutput o)).clocked :=
    clocked_core ht.otherUnit
  refine ⟨ht.share ▸ hshare, fun o' => ?_, ?_⟩
  · by_cases ho : o' = o
    · rw [ho, ht.pres]
      exact reservedLawful_clocked hclocked h.reserved
    · rw [eq_otherOutput ho, ht.otherPres]
      exact reservedLawful_clocked hclockedOther (hreserved _)
  · rw [admits_iff, ht.pres, ht.otherPres, ht.share, OutputUnit.loadD_clocked hclockedOther,
      OutputUnit.loadD_clocked hclocked]
    rcases h.fits with ⟨hsame, hfits⟩ | hzero
    · rw [OutputUnit.loadD_clocked hsame]
      exact (admits_iff s o p.loadN).1 (hfits.elim (fun hle => admits_mono hle hadmits) id)
    · rw [hzero]
      exact admits_unloaded hu.loadD_pos ((admits_iff s o 0).1 (admits_mono (Nat.zero_le _) hadmits))

theorem OutputsStep.budgetLaw {s t : State} (h : OutputsStep s t) (ho : OutputLaw s ∧ PresentationLaw s)
    (hs : BudgetLaw s) : BudgetLaw t := by
  induction h with
  | @kept s t h =>
    obtain ⟨hload, hreserved⟩ := OutputsKept.budgetLaw h.unit h.pres
    rw [budgetLaw_iff _ .out0] at hs ⊢
    obtain ⟨hshare, hlawful, hadmits⟩ := hs
    refine ⟨h.share ▸ hshare, hreserved hlawful, ?_⟩
    rw [admits_iff] at hadmits ⊢
    rw [h.pres, h.pres, h.share, hload, hload]
    exact hadmits
  | @moved s t o u p h ht =>
    obtain ⟨hout, hpres⟩ := ho
    rw [outputLaw_iff] at hout
    rw [presentationLaw_iff] at hpres
    exact (h.weighed (hpres o) (((budgetLaw_iff s o).1 hs).2.1 o)).budgetLaw ht (hout o) hs
  | @share s t hunit hpres hn hbudget =>
    obtain ⟨hload, hreserved⟩ := OutputsKept.budgetLaw hunit hpres
    obtain ⟨-, hlawful, -⟩ := (budgetLaw_iff s .out0).1 hs
    refine (budgetLaw_iff t .out0).2 ⟨hn, hreserved hlawful, ?_⟩
    rw [admits_iff, hpres, hpres, hload, hload]
    exact hbudget
  | both h _ ih ih' => exact ih' (h.outputLaws ho) (ih ho hs)

/-- Settles O7. -/
theorem budgetIsNeverExceeded : Obligations.BudgetIsNeverExceeded := by
  unfold Obligations.BudgetIsNeverExceeded
  intro s t hout hpres hs h
  rcases step_effect h with rfl | ⟨rest, h⟩
  · exact hs
  · have hlaws := h.outputs_induct (P := fun w => (OutputLaw w ∧ PresentationLaw w) ∧ BudgetLaw w)
      (fun _ _ h hw => ⟨h.outputLaws hw.1, h.budgetLaw hw.1 hw.2⟩)
      (fun _ => ⟨⟨reset_outputLaw, reset_presentationLaw⟩, reset_budgetLaw⟩) ⟨⟨hout, hpres⟩, hs⟩
    exact hlaws.2

end Sys2Proof.Machine
end

