-- ==== Sys2Proof/Proofs/LineStoreKept.lean ====
section
/-! PROOF. The line stores under every command (R136 to R144). -/

namespace Sys2Proof.Machine

/-! ### The line a frame fetches for (R138) -/

/-- The active line a frame line drives. -/
def LineKind.line : LineKind → Option Nat
  | .active y => some y
  | .blank => none

theorem findSome?_congr_mem {α β : Type} {f g : α → Option β} {l : List α} (h : ∀ x ∈ l, f x = g x) :
    l.findSome? f = l.findSome? g := by
  induction l with
  | nil => rfl
  | cons x l ih =>
    rw [List.forall_mem_cons] at h
    rw [List.findSome?_cons, List.findSome?_cons, h.1, ih h.2]

theorem Timing.nextActive_eq (t : Timing) (p : Nat) :
    t.nextActive p = (List.range' (p + 1) (t.frameLines - (p + 1))).findSome? fun q => (t.lineKind q).line := by
  have hkind (q : Nat) : (if p < q then (match t.lineKind q with
      | .active y => some y
      | .blank => none) else none) = if p < q then (t.lineKind q).line else none := by
    cases t.lineKind q <;> rfl
  refine (congrArg (List.findSome? · (List.range t.frameLines)) (funext hkind)).trans ?_
  rcases Nat.le_total t.frameLines (p + 1) with hle | hle
  · rw [Nat.sub_eq_zero_of_le hle, List.range'_zero, List.findSome?_nil, List.findSome?_eq_none_iff]
    exact fun q hq => if_neg fun h => by have := List.mem_range.1 hq; omega
  · have hsplit : List.range t.frameLines = List.range (p + 1) ++ List.range' (p + 1) (t.frameLines - (p + 1)) := by
      have happend := List.range'_append_1 (s := 0) (m := p + 1) (n := t.frameLines - (p + 1))
      rw [Nat.zero_add, Nat.add_sub_cancel' hle] at happend
      rw [List.range_eq_range', List.range_eq_range', happend]
    have hbefore : (List.range (p + 1)).findSome? (fun q => if p < q then (t.lineKind q).line else none) = none :=
      List.findSome?_eq_none_iff.2 fun q hq => if_neg fun h => by have := List.mem_range.1 hq; omega
    rw [hsplit, List.findSome?_append, hbefore, Option.none_or]
    exact findSome?_congr_mem fun q hq => if_pos (List.mem_range'_1.1 hq).1

/-- R117, R118: behind the frame's last line no line is active. -/
theorem Timing.nextActive_last {t : Timing} {p : Nat} (h : t.frameLines ≤ p + 1) : t.nextActive p = none := by
  rw [Timing.nextActive_eq, Nat.sub_eq_zero_of_le h]
  rfl

theorem Timing.nextActive_before {t : Timing} {p : Nat} (h : p + 1 < t.frameLines) :
    t.nextActive p = (t.lineKind (p + 1)).line.or (t.nextActive (p + 1)) := by
  have hmore : t.frameLines - (p + 1) = (t.frameLines - (p + 1 + 1)) + 1 := by omega
  rw [Timing.nextActive_eq, Timing.nextActive_eq, hmore, List.range'_succ, List.findSome?_cons]
  cases (t.lineKind (p + 1)).line <;> rfl

/-- R138: behind blank lines the next active line is the first that is not blank. -/
theorem Timing.nextActive_of_blanks {t : Timing} {p q y : Nat} (hpq : p < q) (hq : q < t.frameLines)
    (hy : t.lineKind q = .active y) (hblank : ∀ g, p < g → g < q → t.lineKind g = .blank) : t.nextActive p = some y := by
  obtain ⟨n, rfl⟩ : ∃ n, q = p + 1 + n := ⟨q - (p + 1), by omega⟩
  induction n generalizing p with
  | zero =>
    rw [Timing.nextActive_before hq, hy]
    rfl
  | succ n ih =>
    have hsucc : p + 1 + (n + 1) = p + 1 + 1 + n := by omega
    rw [hsucc] at hq hy hblank
    rw [Timing.nextActive_before (by omega), hblank (p + 1) (by omega) (by omega)]
    exact ih (by omega) hq hy fun g hg hlt => hblank g (by omega) hlt

theorem Timing.fetchedLine_active {t : Timing} {p y : Nat} (h : p + 1 < t.frameLines) (hy : t.lineKind (p + 1) = .active y) :
    t.fetchedLine p = some y := by
  have hnext : t.nextActive p = some y := by
    rw [Timing.nextActive_before h, hy]
    rfl
  unfold Timing.fetchedLine
  rw [hy]
  cases t.lineKind p <;> exact hnext

theorem Timing.fetchedLine_blank {t : Timing} {p : Nat} (h : t.lineKind p = .blank) : t.fetchedLine p = t.nextActive p := by
  unfold Timing.fetchedLine
  rw [h]

/-- R138: an active line before a blank group has nothing fetched for it. -/
theorem Timing.fetchedLine_group {t : Timing} {p y : Nat} (hy : t.lineKind p = .active y)
    (h : t.lineKind (p + 1) = .blank) : t.fetchedLine p = none := by
  unfold Timing.fetchedLine
  rw [hy, h]

/-- R138: the line whose fetch begins at a line start is the line fetched for from there. -/
theorem Timing.fetchedLine_fetchAt {t : Timing} {p y : Nat} (hrange : t.inRange) (h : t.fetchAt p = some y) :
    t.fetchedLine p = some y := by
  have hlines := hrange.lines
  rcases (t.fetchAt_iff p y).1 h with ⟨hblank, hgroup⟩ | ⟨-, hlast, hactive⟩
  · rw [Timing.fetchedLine_blank hblank]
    cases hi : t.interlace with
    | false =>
      have hlines' := Timing.frameLines_progressive hi
      refine Timing.nextActive_of_blanks (q := t.vblank) ?_ ?_ ((Timing.lineKind_progressive_active hi).2 ?_)
        fun g _ hg => (Timing.lineKind_progressive_blank hi).2 hg
      all_goals
        simp only [hi, Bool.false_eq_true, false_and, and_false, or_false] at hgroup
        omega
    | true =>
      have heven := hrange.even hi
      have htop : t.topBlankStart = t.vblank + 1 + t.vactive / 2 := rfl
      have hlines' := Timing.frameLines_interlaced hi heven.2
      rcases hgroup with ⟨hp, hy⟩ | ⟨-, -, hp, hy⟩
      · refine Timing.nextActive_of_blanks (q := t.vblank + 1) (by omega) (by omega)
          ((Timing.lineKind_interlaced_active hi).2 (by omega)) fun g _ hg => (Timing.lineKind_interlaced_blank hi).2 (.inl hg)
      · refine Timing.nextActive_of_blanks (q := t.topBlankStart + t.vblank) (by omega) (by omega)
          ((Timing.lineKind_interlaced_active hi).2 (by omega)) fun g _ hg =>
            (Timing.lineKind_interlaced_blank hi).2 (by omega)
  · exact Timing.fetchedLine_active hlast hactive

/-- R138: where a fetch begins on a blank line, the line before had nothing more to fetch. -/
theorem Timing.fetchedLine_before_group {t : Timing} {p y : Nat} (hrange : t.inRange) (hblank : t.lineKind (p + 1) = .blank)
    (h : t.fetchAt (p + 1) = some y) : t.fetchedLine p = none := by
  have hlines := hrange.lines
  rcases (t.fetchAt_iff (p + 1) y).1 h with ⟨-, hgroup⟩ | ⟨hactive, -⟩
  · obtain ⟨-, hi, htop, -⟩ := hgroup.resolve_left fun h => absurd h.1 (Nat.succ_ne_zero p)
    have heven := hrange.even hi
    have hstart : t.topBlankStart = t.vblank + 1 + t.vactive / 2 := rfl
    exact Timing.fetchedLine_group ((Timing.lineKind_interlaced_active hi).2 (.inl ⟨by omega, by omega, rfl⟩)) hblank
  · exact absurd hblank hactive

/-- R138: within a blank group the line fetched for stays. -/
theorem Timing.fetchedLine_within_group {t : Timing} {p : Nat} (hp : p + 1 < t.frameLines)
    (hblank : t.lineKind (p + 1) = .blank) (h : t.fetchAt (p + 1) = none) : t.fetchedLine (p + 1) = t.fetchedLine p := by
  have hbefore : t.lineKind p = .blank := by
    have hnot : ¬ (t.interlace = true ∧ p + 1 = t.topBlankStart) := fun hc => by
      have hsome := (t.fetchAt_iff (p + 1) 1).2 (.inl ⟨hblank, .inr ⟨Nat.succ_ne_zero p, hc.1, hc.2, rfl⟩⟩)
      rw [h] at hsome
      cases hsome
    cases hi : t.interlace with
    | false =>
      rw [Timing.lineKind_progressive_blank hi] at hblank ⊢
      omega
    | true =>
      have htop : ¬ p + 1 = t.topBlankStart := fun hc => hnot ⟨hi, hc⟩
      rw [Timing.lineKind_interlaced_blank hi] at hblank ⊢
      omega
  rw [Timing.fetchedLine_blank hblank, Timing.fetchedLine_blank hbefore, Timing.nextActive_before hp, hblank]
  rfl

/-- R138: an active line at whose start no fetch begins has nothing fetched for it. -/
theorem Timing.fetchedLine_none {t : Timing} {p y : Nat} (hy : t.lineKind p = .active y) (h : t.fetchAt p = none) :
    t.fetchedLine p = none := by
  rcases Nat.lt_or_ge (p + 1) t.frameLines with hp | hp
  · cases hnext : t.lineKind (p + 1) with
    | blank => exact Timing.fetchedLine_group hy hnext
    | active y' =>
      have hsome := (t.fetchAt_iff p y').2 (.inr ⟨hy ▸ fun hc => (by cases hc), hp, hnext⟩)
      rw [h] at hsome
      cases hsome
  · cases hnext : t.lineKind (p + 1) with
    | blank => exact Timing.fetchedLine_group hy hnext
    | active y' =>
      unfold Timing.fetchedLine
      rw [hy, hnext]
      exact Timing.nextActive_last hp

/-! ### The halves that serve a line (R136) -/

/-- R136: the lines a half serves in a condition. -/
def LineHalf.serves (h : LineHalf) (c : HalfCondition) : List (List Nat) := if h.condition = c then [h.lines] else []

theorem serving_eq (u : OutputUnit) (c : HalfCondition) : u.serving c = u.halfA.serves c ++ u.halfB.serves c := by
  unfold OutputUnit.serving LineHalf.serves
  by_cases ha : u.halfA.condition = c <;> by_cases hb : u.halfB.condition = c <;> simp [ha, hb]

section
variable (h : LineHalf)

theorem serves_of_free {h : LineHalf} (hfree : h.condition = .free) {c : HalfCondition} (hc : c ≠ .free) :
    h.serves c = [] :=
  if_neg fun hcc => hc (hcc.symm.trans hfree)

theorem serves_release_shown : h.release.serves .shown = [] := by
  unfold LineHalf.release
  cases hc : h.condition
  · exact serves_of_free hc fun hc => by cases hc
  · exact if_neg fun hf => by rw [hc] at hf; cases hf
  · rfl

theorem serves_release_fetching : h.release.serves .fetching = h.serves .fetching := by
  unfold LineHalf.release
  cases hc : h.condition
  · rfl
  · rfl
  · exact (if_neg fun hf => by rw [hc] at hf; cases hf).symm

theorem serves_show_shown : h.show.serves .shown = h.serves .fetching ++ h.serves .shown := by
  unfold LineHalf.show LineHalf.serves
  cases hc : h.condition <;> simp [hc]

theorem serves_show_fetching : h.show.serves .fetching = [] := by
  unfold LineHalf.show LineHalf.serves
  cases hc : h.condition <;> simp [hc]

end

section
variable (u : OutputUnit) (p : Nat)

theorem entered_serving : (u.entered p).serving .fetching = u.serving .fetching ∧ (u.entered p).serving .shown = [] := by
  simp only [serving_eq, OutputUnit.entered, serves_release_fetching, serves_release_shown, List.append_nil, and_self]

/-- R140: what was fetched for is shown. -/
theorem shows_serving {u : OutputUnit} (h : u.serving .shown = []) :
    u.shows.serving .shown = u.serving .fetching ∧ u.shows.serving .fetching = [] := by
  rw [serving_eq, List.append_eq_nil_iff] at h
  obtain ⟨ha, hb⟩ := h
  simp only [serving_eq, OutputUnit.shows, serves_show_fetching, serves_show_shown, ha, hb, List.append_nil, and_self]

/-- R136, R138: while a half is FREE and none is FETCHING, a fetch begins into a FREE half. -/
theorem fetched_serving {u : OutputUnit} (y : Nat) (wasB : Bool) (hnone : u.serving .fetching = [])
    (hone : (u.serving .shown).length ≤ 1) :
    (u.fetched y wasB).serving .fetching = [u.timing.sourceLines y] ∧
      (u.fetched y wasB).serving .shown = u.serving .shown := by
  have hfetching : (LineHalf.fetching (u.timing.sourceLines y)).serves .fetching = [u.timing.sourceLines y] := rfl
  have hshown : (LineHalf.fetching (u.timing.sourceLines y)).serves .shown = [] := rfl
  have hnone' := hnone
  rw [serving_eq, List.append_eq_nil_iff] at hnone
  obtain ⟨hA, hB⟩ := hnone
  unfold OutputUnit.fetched
  rcases u.fillFree_cases wasB (.fetching (u.timing.sourceLines y)) with ⟨hfree, h⟩ | ⟨hfree, h⟩ | ⟨hna, hnb, h⟩
  · rw [h]
    simp only [serving_eq, hfetching, hshown, hB, serves_of_free hfree (c := .shown) (fun hc => by cases hc),
      List.append_nil, and_self]
  · rw [h]
    simp only [serving_eq, hfetching, hshown, hA, serves_of_free hfree (c := .shown) (fun hc => by cases hc),
      List.nil_append, List.append_nil, and_self]
  · exfalso
    have hbusy {h : LineHalf} (hnot : h.condition ≠ .free) (hf : h.serves .fetching = []) :
        h.serves .shown = [h.lines] := by
      unfold LineHalf.serves at hf ⊢
      cases hc : h.condition with
      | free => exact absurd hc hnot
      | fetching => rw [if_pos hc] at hf; cases hf
      | shown => rw [if_pos rfl]
    rw [serving_eq, hbusy hna hA, hbusy hnb hB] at hone
    exact absurd hone (Nat.not_succ_le_self 1)

end

/-! ### The law (R136, R144) -/

theorem LineHalf.bare_eq_free {h : LineHalf} : h.bare = .free ↔ h = .free := by
  constructor
  · intro hbare
    have hfree : h.condition = .free := congrArg LineHalf.condition hbare
    rw [LineHalf.bare, if_pos hfree, if_pos hfree] at hbare
    exact hbare
  · rintro rfl
    rfl

theorem lineStoreLawful_core_iff (u : OutputUnit) : lineStoreLawful u.core ↔ lineStoreLawful u := by
  have hserving (c : HalfCondition) : u.core.serving c = u.serving c := by
    rw [serving_eq, serving_eq]
    rfl
  have hruns : u.core.timingRuns = u.timingRuns := rfl
  have hfree : (u.core.halfA = .free ∧ u.core.halfB = .free) ↔ (u.halfA = .free ∧ u.halfB = .free) :=
    and_congr LineHalf.bare_eq_free LineHalf.bare_eq_free
  unfold lineStoreLawful
  rw [hserving, hserving, hruns, hfree]
  rfl

theorem lineStoreLawful_core {u v : OutputUnit} (h : u.core = v.core) (hv : lineStoreLawful v) : lineStoreLawful u := by
  rw [← lineStoreLawful_core_iff] at hv ⊢
  rwa [h]

theorem lineStoreLaw_iff (s : State) : LineStoreLaw s ↔ ∀ o, lineStoreLawful (s.ou o) :=
  ⟨fun h o => by cases o; exacts [h.1, h.2], fun h => ⟨h .out0, h .out1⟩⟩

theorem lineStoreLawful_running {u : OutputUnit} (hruns : u.timingRuns = true) : lineStoreLawful u ↔
    u.scanLine < u.timing.frameLines ∧
      u.serving .fetching = ((u.timing.fetchedLine u.scanLine).map u.timing.sourceLines).toList ∧
      u.serving .shown = ((u.timing.lineKind u.scanLine).line.map u.timing.sourceLines).toList := by
  unfold lineStoreLawful
  rw [if_pos hruns]
  cases u.timing.lineKind u.scanLine <;> exact Iff.rfl

theorem lineStoreLawful_stopped {u : OutputUnit} (hstopped : u.timingRuns = false) :
    lineStoreLawful u ↔ u.halfA = .free ∧ u.halfB = .free := by
  unfold lineStoreLawful
  rw [if_neg (Bool.eq_false_iff.1 hstopped)]

/-- R121: an output whose timing runs has a timing in range. -/
theorem outputLawful.inRange_of_runs {o : OutputId} {u : OutputUnit} (h : outputLawful o u) (hruns : u.timingRuns = true) :
    u.timing.inRange := by
  obtain ⟨-, hvalid, hinvalid, -⟩ := h
  cases hv : u.valid with
  | true => exact hvalid hv
  | false =>
    have hstopped := timingRuns_of_step (hinvalid hv).2
    exact Bool.noConfusion (hruns.symm.trans hstopped)

/-- R138: at a frame start the fetch for line 0 begins. -/
theorem lineStoreLawful_first {u : OutputUnit} (hrange : u.timing.inRange) (hruns : u.timingRuns = true)
    (ha : u.halfA = .free) (hb : u.halfB = .free) (hline : u.scanLine = 0) (wasB : Bool) :
    lineStoreLawful (u.fetched 0 wasB) := by
  have hlines := hrange.lines
  have hblank : u.timing.lineKind 0 = .blank := by
    cases hi : u.timing.interlace with
    | false => exact (Timing.lineKind_progressive_blank hi).2 (by omega)
    | true => exact (Timing.lineKind_interlaced_blank hi).2 (.inl (Nat.succ_pos _))
  have hfetch : u.timing.fetchAt 0 = some 0 := (u.timing.fetchAt_iff 0 0).2 (.inl ⟨hblank, .inl ⟨rfl, rfl⟩⟩)
  have hframe : 0 < u.timing.frameLines := by
    unfold Timing.frameLines
    split <;> omega
  have hempty (c : HalfCondition) (hc : c ≠ .free) : u.serving c = [] := by
    rw [serving_eq, ha, hb, serves_of_free rfl hc]
    rfl
  obtain ⟨hfetching, hshown⟩ := fetched_serving 0 wasB (hempty .fetching fun hc => by cases hc)
    (by rw [hempty .shown fun hc => by cases hc]; exact Nat.zero_le _)
  obtain ⟨a, b, hu⟩ := u.fetched_eq 0 wasB
  have hruns' : (u.fetched 0 wasB).timingRuns = true := by rw [hu]; exact hruns
  have htiming : (u.fetched 0 wasB).timing = u.timing := by rw [hu]
  have hscan : (u.fetched 0 wasB).scanLine = 0 := by rw [hu]; exact hline
  rw [lineStoreLawful_running hruns', htiming, hscan, hfetching, hshown, Timing.fetchedLine_fetchAt hrange hfetch, hblank,
    hempty .shown fun hc => by cases hc]
  exact ⟨hframe, rfl, rfl⟩

theorem reached_serving {u : OutputUnit} {p : Nat} : (u.reached p).serving .shown =
      (match u.timing.lineKind p with
      | .active _ => u.serving .fetching
      | .blank => []) ∧
    (u.reached p).serving .fetching =
      match u.timing.lineKind p with
      | .active _ => []
      | .blank => u.serving .fetching := by
  obtain ⟨hfetching, hshown⟩ := entered_serving u p
  unfold OutputUnit.reached
  cases u.timing.lineKind p with
  | blank => exact ⟨hshown, hfetching⟩
  | active y =>
    obtain ⟨hs, hf⟩ := shows_serving hshown
    exact ⟨hs.trans hfetching, hf⟩

/-- R138, R140: a line start shows the line that was fetched and fetches the next one. -/
theorem lineStoreLawful_onLine {u : OutputUnit} (hrange : u.timing.inRange) (hruns : u.timingRuns = true)
    (hp : u.scanLine + 1 < u.timing.frameLines) (hs : lineStoreLawful u) : lineStoreLawful (u.onLine (u.scanLine + 1)) := by
  obtain ⟨-, hfetching, -⟩ := (lineStoreLawful_running hruns).1 hs
  obtain ⟨a, b, hu⟩ := u.onLine_eq (u.scanLine + 1)
  have hruns' : (u.onLine (u.scanLine + 1)).timingRuns = true := by rw [hu]; exact hruns
  have htiming : (u.onLine (u.scanLine + 1)).timing = u.timing := by rw [hu]
  have hscan : (u.onLine (u.scanLine + 1)).scanLine = u.scanLine + 1 := by rw [hu]
  obtain ⟨ra, rb, hr⟩ := u.reached_eq (u.scanLine + 1)
  have hrtiming : (u.reached (u.scanLine + 1)).timing = u.timing := by rw [hr]
  have hreached : (u.reached (u.scanLine + 1)).serving .shown =
        ((u.timing.lineKind (u.scanLine + 1)).line.map u.timing.sourceLines).toList ∧
      (u.reached (u.scanLine + 1)).serving .fetching = match u.timing.fetchAt (u.scanLine + 1) with
        | some _ => []
        | none => ((u.timing.fetchedLine (u.scanLine + 1)).map u.timing.sourceLines).toList := by
    obtain ⟨hsh, hfe⟩ := reached_serving (u := u) (p := u.scanLine + 1)
    rw [hsh, hfe, hfetching]
    cases hkind : u.timing.lineKind (u.scanLine + 1) with
    | active y =>
      refine ⟨by rw [Timing.fetchedLine_active hp hkind]; rfl, ?_⟩
      cases hat : u.timing.fetchAt (u.scanLine + 1) with
      | some y' => rfl
      | none => rw [Timing.fetchedLine_none hkind hat]; rfl
    | blank =>
      refine ⟨rfl, ?_⟩
      cases hat : u.timing.fetchAt (u.scanLine + 1) with
      | some y' => rw [Timing.fetchedLine_before_group hrange hkind hat]; rfl
      | none => rw [Timing.fetchedLine_within_group hp hkind hat]
  rw [lineStoreLawful_running hruns', htiming, hscan]
  refine ⟨hp, ?_⟩
  unfold OutputUnit.onLine
  cases hat : u.timing.fetchAt (u.scanLine + 1) with
  | none =>
    rw [hat] at hreached
    exact ⟨hreached.2, hreached.1⟩
  | some y =>
    rw [hat] at hreached
    have hlength : ((u.reached (u.scanLine + 1)).serving .shown).length ≤ 1 := by
      rw [hreached.1]
      cases (u.timing.lineKind (u.scanLine + 1)).line.map u.timing.sourceLines
      · exact Nat.zero_le _
      · exact Nat.le_refl _
    obtain ⟨hf, hsh⟩ := fetched_serving y u.showsB hreached.2 hlength
    refine ⟨?_, hsh.trans hreached.1⟩
    rw [hrtiming] at hf
    rw [Timing.fetchedLine_fetchAt hrange hat]
    exact hf

/-- R136, R144: every move keeps the law of the line store. -/
theorem OutputMove.lineStoreLawful {s : State} {o : OutputId} {u : OutputUnit} {p : Presentation}
    (h : OutputMove s o u p) (ho : Sys2Proof.Machine.outputLawful o (s.ou o))
    (hs : Sys2Proof.Machine.lineStoreLawful (s.ou o)) : Sys2Proof.Machine.lineStoreLawful u := by
  have hrange := ho.inRange_of_runs
  have hvalid := ho.2.1
  obtain ⟨hfix, -, hinvalid, -⟩ := ho
  have hstopped (step : SequenceStep) (hstep : (s.ou o).step = step) (hr : step.runs = false) :
      (s.ou o).halfA = .free ∧ (s.ou o).halfB = .free :=
    (lineStoreLawful_stopped ((timingRuns_of_step hstep).trans hr)).1 hs
  have inRange_of_step (step : SequenceStep) (hstep : (s.ou o).step = step) (hne : step ≠ .off) :
      (s.ou o).timing.inRange := by
    cases hv : (s.ou o).valid with
    | true => exact hvalid hv
    | false => exact absurd (hstep.symm.trans (hinvalid hv).2) hne
  cases h with
  | timing hoff =>
    have hstep := hfix.step_of_off hoff
    exact (lineStoreLawful_stopped (timingRuns_of_step (u := { s.ou o with timing := _, valid := true }) hstep)).2
      (hstopped .off hstep rfl)
  | paletteNow => exact hs
  | paletteLater => exact hs
  | powered hoff => exact hstopped .off (hfix.step_of_off hoff) rfl
  | clock hstep =>
    refine lineStoreLawful_first ?_ rfl rfl rfl rfl _
    exact inRange_of_step .powerWait hstep fun hc => by cases hc
  | running hstep =>
    exact (lineStoreLawful_running rfl).2 ((lineStoreLawful_running (timingRuns_of_step hstep)).1 hs)
  | ending => exact hs
  | shut => exact hs
  | supply => exact ⟨rfl, rfl⟩
  | off h =>
    rcases h with h | ⟨hup, hstep, -⟩
    · exact hstopped .supplyWait h rfl
    · exact hstopped .powerWait ((hfix.step_of_powerUp hup).resolve_right hstep) rfl
  | line hruns hp => exact lineStoreLawful_onLine (hrange hruns) hruns hp hs
  | field => exact hs
  | frame hruns =>
    rw [OutputUnit.copyPalette_eq]
    refine lineStoreLawful_first ?_ ?_ rfl rfl rfl _
    · exact hrange hruns
    · exact hruns
  | frameEnding hstep =>
    rw [OutputUnit.copyPalette_eq]
    refine lineStoreLawful_first ?_ rfl rfl rfl rfl _
    exact inRange_of_step .showing hstep fun hc => by cases hc
  | accepted => exact hs
  | unbound => exact hs
  | bound => exact hs
  | moved => exact hs

theorem OutputsStep.lineStoreLaws {s t : State} (h : OutputsStep s t) (hs : OutputLaw s ∧ LineStoreLaw s) :
    OutputLaw t ∧ LineStoreLaw t := by
  rw [outputLaw_iff, lineStoreLaw_iff, ← forall_and] at hs ⊢
  exact h.lawful (L := fun o u _ => outputLawful o u ∧ lineStoreLawful u)
    (fun h hv => ⟨outputLawful_core h hv.1, lineStoreLawful_core h hv.2⟩)
    (fun h hv => ⟨h.outputLawful hv.1, h.lineStoreLawful hv.1 hv.2⟩) hs

/-- Settles O8. -/
theorem lineStoreLawIsKept : Obligations.LineStoreLawIsKept := by
  unfold Obligations.LineStoreLawIsKept
  intro s t hout hs h
  rcases step_effect h with rfl | ⟨rest, h⟩
  · exact hs
  · have hlaws := h.outputs_induct (P := fun w => OutputLaw w ∧ LineStoreLaw w) (fun _ _ h => h.lineStoreLaws)
      (fun _ => ⟨reset_outputLaw, reset_lineStoreLawful, reset_lineStoreLawful⟩) ⟨hout, hs⟩
    exact hlaws.2

end Sys2Proof.Machine
end

