-- ==== Sys2Proof/Proofs/OutputChains.lean ====
section
/-! SUPPORT. The steps of the outputs taken apart into the few operations that surfaces, the Memory Port and frame memory see: what
an output's unit keeps of its fetches, references given up and taken, a fetch that begins (R8 to R10, R67 to R79, R138). -/

namespace Sys2Proof.Machine

/-- R136: a half that asks for no more than before: its requests stand as they were, or are gone. -/
def LineHalf.narrows (h before : LineHalf) : Prop :=
  h.todo = [] ∨ (h.todo = before.todo ∧ h.condition = before.condition)

/-- A unit that asks for no more than before. -/
def OutputUnit.narrows (u before : OutputUnit) : Prop := u.halfA.narrows before.halfA ∧ u.halfB.narrows before.halfB

theorem LineHalf.narrows_refl (h : LineHalf) : h.narrows h := .inr ⟨rfl, rfl⟩

theorem LineHalf.narrows_free (h : LineHalf) : LineHalf.free.narrows h := .inl rfl

theorem LineHalf.narrows_release (h : LineHalf) : h.release.narrows h := by
  unfold LineHalf.release
  split
  · exact .inl rfl
  all_goals exact .inr ⟨rfl, rfl⟩

theorem LineHalf.narrows_show (h : LineHalf) : h.show.narrows h := by
  unfold LineHalf.show
  split
  · exact .inl rfl
  all_goals exact .inr ⟨rfl, rfl⟩

theorem OutputUnit.narrows_same {u v : OutputUnit} (ha : u.halfA = v.halfA) (hb : u.halfB = v.halfB) : u.narrows v :=
  ⟨ha ▸ u.halfA.narrows_refl, hb ▸ u.halfB.narrows_refl⟩

/-- R74: the surfaces an output's cursor bindings name. -/
def Presentation.cursors (p : Presentation) : List Nat := bindingSurfaces p.binding ++ p.pendingBinding.surfaces

/-- What an output holds that names surfaces. -/
def Presentation.holdings (p : Presentation) := (p.queue, p.current, p.binding, p.pendingBinding)

/-- R65, R74: what a record and a cursor binding are held to on acceptance. -/
def recordFits (s : State) (r : FrameRecord) : Prop :=
  ∀ l ∈ r.layers, l.source.within (s.surface l.surface).storedWidth (s.surface l.surface).storedHeight = true

def cursorFits (s : State) (id : Nat) : Prop :=
  (s.surface id).format = .ov2 ∧ (s.surface id).width = 64 ∧ (s.surface id).height = 64

/-- Steps of the outputs, one operation after another. -/
inductive OutputChain : State → State → Prop where
  | front {s t : State} (h : t.device = s.device) : OutputChain s t
  | unit {s : State} {o : OutputId} {u : OutputUnit} (hu : u.narrows (s.ou o)) : OutputChain s (s.setOu o u)
  | kill (o : OutputId) (s : State) : OutputChain s (killFetchBurst o s)
  | fetch (o : OutputId) (y : Nat) (wasB : Bool) (s : State) : OutputChain s (beginFetch o y wasB s)
  | presents {s : State} {o : OutputId} {p : Presentation} (hp : p.holdings = (s.pres o).holdings) :
      OutputChain s (s.setPres o p)
  | given {s : State} {o : OutputId} {p : Presentation} {released : List Nat}
      (hcount : ∀ id, (s.pres o).scanUses.count id = released.count id + p.scanUses.count id)
      (hrecords : p.records ⊆ (s.pres o).records) (hcursors : p.cursors ⊆ (s.pres o).cursors) :
      OutputChain s (scansGivenUp released (s.setPres o p))
  | accepted {s : State} {o : OutputId} {p : Presentation} {r : FrameRecord}
      (hids : ∀ id ∈ r.surfaces, id < 64 ∧ (s.surface id).state = .ready) (hfits : recordFits s r)
      (hp : p.holdings = Presentation.holdings { s.pres o with queue := (s.pres o).queue ++ [r] }) :
      OutputChain s ((r.surfaces.foldl (fun w id => addScan id w) s).setPres o p)
  | rebound {s : State} {o : OutputId} {b : PendingBinding}
      (hb : ∀ id ∈ b.surfaces, id < 64 ∧ (s.surface id).state = .ready ∧ cursorFits s id) :
      OutputChain s (recomputeLoad o (replacePending o b s))
  | share (n : Nat) (s : State) : OutputChain s { s with share := n }
  | trans {s t u : State} (h : OutputChain s t) (h' : OutputChain t u) : OutputChain s u

theorem OutputChain.refl (s : State) : OutputChain s s := .front rfl

theorem completeRef_device (ref : PendingRef) (st : Status) (s : State) : (completeRef ref st s).device = s.device := by
  obtain ⟨_, _, _, h⟩ := completeRef_eq ref st s
  rw [h]
  rfl

/-! ### What an output holds (R61) -/

theorem Presentation.scanUses_of_holdings {p q : Presentation} (h : p.holdings = q.holdings) : p.scanUses = q.scanUses := by
  obtain ⟨hqueue, hcurrent, hbinding, hpending⟩ : p.queue = q.queue ∧ p.current = q.current ∧ p.binding = q.binding ∧
      p.pendingBinding = q.pendingBinding := by simpa [Presentation.holdings] using h
  unfold Presentation.scanUses
  rw [hqueue, hcurrent, hbinding, hpending]

theorem Presentation.records_of_holdings {p q : Presentation} (h : p.holdings = q.holdings) : p.records = q.records := by
  obtain ⟨hqueue, hcurrent, -⟩ : p.queue = q.queue ∧ p.current = q.current ∧ p.binding = q.binding ∧
      p.pendingBinding = q.pendingBinding := by simpa [Presentation.holdings] using h
  unfold Presentation.records
  rw [hqueue, hcurrent]

theorem Presentation.cursors_of_holdings {p q : Presentation} (h : p.holdings = q.holdings) : p.cursors = q.cursors := by
  obtain ⟨-, -, hbinding, hpending⟩ : p.queue = q.queue ∧ p.current = q.current ∧ p.binding = q.binding ∧
      p.pendingBinding = q.pendingBinding := by simpa [Presentation.holdings] using h
  unfold Presentation.cursors
  rw [hbinding, hpending]

theorem Presentation.scanUses_eq (p : Presentation) :
    p.scanUses = (p.records.map FrameRecord.surfaces).flatten ++ p.cursors := by
  unfold Presentation.scanUses Presentation.records Presentation.cursors
  rw [List.append_assoc]

/-- R8: the uses of the records and of the cursor counted apart. -/
theorem Presentation.count_scanUses (p : Presentation) (id : Nat) : p.scanUses.count id =
    (p.queue.map FrameRecord.surfaces).flatten.count id + (p.current.elim [] FrameRecord.surfaces).count id +
      (bindingSurfaces p.binding).count id + p.pendingBinding.surfaces.count id := by
  unfold Presentation.scanUses
  rw [List.map_append, List.flatten_append, List.count_append, List.count_append, List.count_append]
  cases p.current with
  | none => rfl
  | some r => simp

theorem retired_eq (p : Presentation) :
    p.retired = if p.queue = [] then [] else p.current.elim [] FrameRecord.surfaces := by
  unfold Presentation.retired FrameRecord.surfaces
  cases p.current <;> rfl

/-- R70: the frame that is replaced gives its uses up, and no other. -/
theorem advanced_count (p : Presentation) (id : Nat) :
    p.scanUses.count id = p.retired.count id + p.advanced.scanUses.count id := by
  rw [retired_eq, Presentation.count_scanUses, Presentation.count_scanUses]
  unfold Presentation.advanced
  cases hq : p.queue with
  | nil => simp
  | cons r rest =>
    simp only [reduceCtorEq, if_false, List.tail_cons, List.head?_cons, Option.elim_some, List.map_cons, List.flatten_cons,
      List.count_append]
    omega

/-- R77: so does the cursor binding that is replaced. -/
theorem latched_count (p : Presentation) (id : Nat) :
    p.scanUses.count id = p.unbound.count id + p.latched.scanUses.count id := by
  rw [Presentation.count_scanUses, Presentation.count_scanUses]
  unfold Presentation.latched Presentation.unbound
  rw [← bindingSurfaces_eq]
  cases hp : p.pendingBinding with
  | noChange => simp [PendingBinding.surfaces]
  | unbind =>
    simp only [PendingBinding.surfaces, bindingSurfaces, reduceCtorEq, if_false, List.count_nil, Option.elim_none]
    omega
  | bind b =>
    simp only [PendingBinding.surfaces, bindingSurfaces, reduceCtorEq, if_false, List.count_nil, Option.elim_some]
    omega

theorem advanced_records (p : Presentation) : p.advanced.records ⊆ p.records := fun _ h => p.taken_records 0 h

theorem latched_cursors (p : Presentation) : p.latched.cursors ⊆ p.cursors := by
  intro id h
  unfold Presentation.cursors Presentation.latched at *
  cases hp : p.pendingBinding with
  | noChange => simpa [hp, PendingBinding.surfaces] using h
  | unbind => simp [hp, PendingBinding.surfaces, bindingSurfaces] at h
  | bind b => exact List.mem_append_right _ (by simpa [hp, PendingBinding.surfaces, bindingSurfaces] using h)

section
variable (o : OutputId) (s : State)

theorem raise_chain (n : Notice) : OutputChain s (raise n s) := .front (raise_device n s)

theorem OutputChain.raised {s t : State} (h : OutputChain s t) (n : Notice) : OutputChain s (raise n t) :=
  h.trans (raise_chain t n)

theorem OutputChain.completed {s t : State} (h : OutputChain s t) (ref : PendingRef) (st : Status) :
    OutputChain s (completeRef ref st t) := h.trans (.front (completeRef_device ref st t))

/-- A unit whose halves stand as they were. -/
theorem setOu_chain {u : OutputUnit} (ha : u.halfA = (s.ou o).halfA) (hb : u.halfB = (s.ou o).halfB) :
    OutputChain s (s.setOu o u) := .unit (OutputUnit.narrows_same ha hb)

theorem OutputChain.unitSet {o : OutputId} {u : OutputUnit} {s t : State} (h : OutputChain s t)
    (ha : u.halfA = (t.ou o).halfA) (hb : u.halfB = (t.ou o).halfB) : OutputChain s (t.setOu o u) :=
  h.trans (setOu_chain o t ha hb)

/-- A unit whose halves are FREE. -/
theorem freed_chain {u : OutputUnit} (ha : u.halfA = .free) (hb : u.halfB = .free) :
    OutputChain s (killFetchBurst o (s.setOu o u)) :=
  .trans (.unit ⟨ha ▸ LineHalf.narrows_free _, hb ▸ LineHalf.narrows_free _⟩) (.kill o _)

theorem copyPalette_chain : OutputChain s (copyPalette o s) := by
  unfold copyPalette
  rw [OutputUnit.copyPalette_eq]
  exact setOu_chain o s rfl rfl

/-! ### The panel power sequence (R120 to R126) -/

theorem enterOff_chain (released : Nat) : OutputChain s (enterOff o released s) := by
  rw [enterOff_eq]
  refine .raised (.completed (.unitSet (.refl s) ?_ ?_) _ _) _ <;> rfl

theorem enterRunning_chain : OutputChain s (enterRunning o s) := by
  rw [enterRunning_eq]
  refine .raised (.completed (.unitSet (.refl s) ?_ ?_) _ _) _ <;> rfl

theorem enterSupplyWait_chain : OutputChain s (enterSupplyWait o s) := by
  rw [enterSupplyWait_eq]
  dsimp only
  split
  · exact (freed_chain o s rfl rfl).trans (enterOff_chain o _ 0)
  · exact freed_chain o s rfl rfl

theorem enterClockWait_chain : OutputChain s (enterClockWait o s) := by
  have hbegun := (freed_chain o s (u := (s.ou o).clockStarted) rfl rfl).trans (.fetch o 0 false _)
  rw [enterClockWait_eq]
  dsimp only
  split
  · exact hbegun.trans (enterRunning_chain o _)
  · exact hbegun

theorem startSequence_chain : OutputChain s (startSequence o s) := by
  have hpowered := (setOu_chain o s (u := (s.ou o).powered) rfl rfl).raised (.outputState o .powerUp 1 0)
  rw [startSequence_eq]
  dsimp only
  split
  · exact hpowered.trans (enterClockWait_chain o _)
  · exact hpowered

theorem releaseOutput_chain : OutputChain s (releaseOutput o s) := by
  rw [releaseOutput_eq]
  exact .given (fun _ => rfl) (List.nil_subset _) (List.nil_subset _)

theorem reversePowerUp_chain : OutputChain s (reversePowerUp o s) := by
  have hreleased := (releaseOutput_chain o s).completed (.start o) .cancelled
  unfold reversePowerUp
  dsimp only
  split
  · exact (hreleased.raised _).trans (enterSupplyWait_chain o _)
  · exact hreleased.trans (enterOff_chain o _ _)

/-! ### Lines and frames (R128, R136 to R141) -/

theorem showLine_chain (y : Nat) : OutputChain s (showLine o y s) := by
  have hshown : OutputChain s (killFetchBurst o (s.setOu o (s.ou o).shows)) :=
    .trans (.unit ⟨LineHalf.narrows_show _, LineHalf.narrows_show _⟩) (.kill o _)
  have hdriven (areas : List Area) (w : State) : OutputChain w (driveLine o y areas w) := by
    unfold driveLine
    dsimp only
    split <;> exact setOu_chain o w rfl rfl
  have hmissed (w : State) : OutputChain w (countMiss o y w) := by
    refine .raised (.unitSet (.refl w) ?_ ?_) _ <;> rfl
  unfold showLine
  dsimp only
  split
  · exact (hshown.trans (hdriven _ _)).trans (hmissed _)
  · exact hshown.trans (hdriven _ _)

theorem enterLine_chain (p : Nat) : OutputChain s (enterLine o p s) := by
  have hentered : OutputChain s (s.setOu o { (s.ou o).entered p with driven := none }) :=
    .unit ⟨LineHalf.narrows_release _, LineHalf.narrows_release _⟩
  have hreached : OutputChain s (lineReached o p s) := by
    unfold lineReached
    dsimp only
    split
    · exact hentered.trans (showLine_chain o _ _)
    · exact hentered
  rw [enterLine_eq]
  split
  · exact hreached.trans (.fetch o _ _ _)
  · exact hreached

theorem take_chain : OutputChain s (take o s) := by
  have hframe : OutputChain s (takeFrame o s) := by
    rw [takeFrame_eq]
    dsimp only
    split
    · exact .refl s
    · refine .raised (.unitSet (.given (advanced_count _) (advanced_records _) (List.Subset.refl _)) ?_ ?_) _ <;> rfl
  have hpres := takeFrame_pres o s
  rw [take_eq]
  refine (hframe.trans (.given (fun id => ?_) ?_ ?_)).trans (.presents ?_)
  · rw [hpres]
    exact latched_count (s.pres o).advanced id
  · rw [hpres]
    exact List.Subset.refl _
  · rw [hpres]
    exact latched_cursors (s.pres o).advanced
  · rw [(scansGivenUp_frame _ _).pres, State.pres_setPres_self]
    rfl

theorem startFrame_chain : OutputChain s (startFrame o s) := by
  have hopened : OutputChain s (openFrame o s) := by
    rw [openFrame_eq]
    exact freed_chain o s rfl rfl
  have hbegun (w : State) : OutputChain w (beginFetch o 0 (s.ou o).showsB (copyPalette o w)) :=
    (copyPalette_chain o w).trans (.fetch o 0 _ _)
  unfold startFrame
  dsimp only
  split
  · exact (hopened.trans (take_chain o _)).trans (hbegun _)
  · have hended : OutputChain (openFrame o s) (endShowing o (openFrame o s)) := by
      refine .raised (.unitSet (releaseOutput_chain o _) ?_ ?_) _ <;> rfl
    have hshut := (hopened.trans hended).trans (hbegun _)
    split
    · exact hshut.trans (enterSupplyWait_chain o _)
    · exact hshut
  · exact hopened.trans (hbegun _)

/-! ### PRESENT (R65 to R68) -/

theorem acceptFrame_chain (background : Colour) {layers : List Layer} (hlayers : layersAccepted s layers) (load n : Nat) :
    OutputChain s (acceptFrame o background layers load n s).1 := by
  have hchain := OutputChain.accepted (o := o) (r := ⟨o, background, layers, nextToken (s.pres o).token, load⟩)
    (p := (s.pres o).accepted ⟨o, background, layers, nextToken (s.pres o).token, load⟩ n) (s := s)
    (fun id hid => by
      obtain ⟨l, hl, rfl⟩ := List.mem_map.1 hid
      obtain ⟨hlt, hready, -⟩ := hlayers.2 l hl
      exact ⟨hlt, hready⟩)
    (fun l hl => (hlayers.2 l hl).2.2) rfl
  rw [acceptFrame_eq]
  rw [FrameRecord.surfaces, List.foldl_map] at hchain
  exact hchain

theorem dropQueue_chain : OutputChain s (dropQueue o s) := by
  have hdropped : dropQueue o s = scansGivenUp ((s.pres o).queue.map FrameRecord.surfaces).flatten
      (s.setPres o { s.pres o with queue := [] }) := releaseScans_eq _ _
  rw [hdropped]
  refine .given (fun id => ?_) (fun r hr => List.mem_append_right _ hr) (List.Subset.refl _)
  rw [Presentation.count_scanUses, Presentation.count_scanUses]
  simp only [List.map_nil, List.flatten_nil, List.count_nil]
  omega

/-- R68: what dropping the queue leaves of a surface that is READY. -/
theorem dropQueue_surface {id : Nat} (h : (s.surface id).state = .ready) : ∃ n, (dropQueue o s).surface id =
    { s.surface id with scanRefs := n } := by
  have hdropped : dropQueue o s = scansGivenUp ((s.pres o).queue.map FrameRecord.surfaces).flatten
      (s.setPres o { s.pres o with queue := [] }) := releaseScans_eq _ _
  have hsame : (s.setPres o { s.pres o with queue := [] }).surface id = s.surface id := State.surface_setPres ..
  rw [hdropped, scansGivenUp_surface, hsame]
  · exact ⟨_, rfl⟩
  · rw [hsame, h]
    exact .inr (by decide)

theorem layersAccepted_dropQueue {layers : List Layer} (h : layersAccepted s layers) :
    layersAccepted (dropQueue o s) layers := by
  refine ⟨h.1, fun l hl => ?_⟩
  obtain ⟨hlt, hready, hwithin⟩ := h.2 l hl
  obtain ⟨n, hsurface⟩ := dropQueue_surface o s hready
  rw [hsurface]
  exact ⟨hlt, hready, hwithin⟩

end

/-! ### Requests and block steps -/

theorem OutputRequest.chain {s t : State} (h : OutputRequest s t) : OutputChain s t := by
  cases h with
  | timing => exact setOu_chain _ s rfl rfl
  | paletteNow => exact setOu_chain _ s rfl rfl
  | paletteLater => exact setOu_chain _ s rfl rfl
  | started => exact startSequence_chain _ s
  | ending => exact setOu_chain _ s rfl rfl
  | reversed => exact reversePowerUp_chain _ s
  | appended background hlayers => exact acceptFrame_chain _ s background hlayers _ _
  | replaced background hlayers =>
    exact (dropQueue_chain _ s).trans (acceptFrame_chain _ _ background (layersAccepted_dropQueue _ s hlayers) _ _)
  | unbound => exact .rebound fun _ h => absurd h List.not_mem_nil
  | bound hup hid hready hshape => exact .rebound fun _ h => List.mem_singleton.1 h ▸ ⟨hid, hready, hshape⟩
  | moved => exact .presents rfl
  | share => exact .share _ s

/-- What a step of the blocks is: a burst that completes, or steps of the outputs. -/
theorem BlockStep.chain {s t : State} (h : BlockStep s t) :
    (∃ b live, s.port.inFlight = some (.engine b live) ∧ b.addr < 2097152 ∧
        t = settle (if live then finishEngineBurst b (s.setInFlight none) else s.setInFlight none)) ∨
      (∃ o b live, s.port.inFlight = some (.fetch o b live) ∧ b.addr < 2097152 ∧
        t = arbitrate (if live then finishFetchBurst o b (s.setInFlight none) else s.setInFlight none)) ∨
      OutputChain s t := by
  cases h with
  | engineBurst hport hb => exact .inl ⟨_, _, hport, hb, rfl⟩
  | fetchBurst hport hb => exact .inr (.inl ⟨_, _, _, hport, hb, rfl⟩)
  | line => exact .inr (.inr (enterLine_chain _ s _))
  | frame => exact .inr (.inr (startFrame_chain _ s))
  | field => exact .inr (.inr (setOu_chain _ s rfl rfl))
  | powerWait => exact .inr (.inr (enterClockWait_chain _ s))
  | clockWait => exact .inr (.inr (enterRunning_chain _ s))
  | backlightWait => exact .inr (.inr (enterSupplyWait_chain _ s))
  | supplyWait => exact .inr (.inr (enterOff_chain _ s 0))

end Sys2Proof.Machine
end

