-- ==== Sys2Proof/Proofs/MemoryAndPort.lean ====
section
/-! PROOF. Frame memory in its canonical form, the palettes, and no request behind an idle port, under every command (R1, R106, R145).
-/

namespace Sys2Proof.Machine

/-! ### Frames -/

theorem ClaimFrame.mem {s t : State} (h : ClaimFrame s t) : t.mem = s.mem := by
  obtain ⟨_, _, _, _, _, _, _, rfl⟩ := h
  rfl

theorem GrantFrame.mem {s t : State} (h : GrantFrame s t) : t.mem = s.mem := by
  obtain ⟨_, _, _, _, _, _, rfl⟩ := h
  rfl

theorem killFetchBurst_mem (o : OutputId) (s : State) : (killFetchBurst o s).mem = s.mem := by
  obtain ⟨g, h⟩ := killFetchBurst_eq o s
  rw [h]
  rfl

theorem rebound_frame (o : OutputId) (b : PendingBinding) (s : State) :
    PresentFrame o s (recomputeLoad o (replacePending o b s)) := by
  rw [recomputeLoad_replacePending]
  exact (PresentFrame.of_setPres o _ s).trans
    ((PresentFrame.of_claim ((releaseScans_frame _ _).trans (foldl_addScan_frame _ _))).trans (.of_setPres o _ _))

theorem PresentFrame.mem {o : OutputId} {s t : State} (h : PresentFrame o s t) : t.mem = s.mem := by
  obtain ⟨u, p, h⟩ := h
  rw [h.mem]
  exact (State.setPres_mem _ o p).trans (State.setOu_mem s o u)

/-- R1: the steps of the outputs leave frame memory alone. -/
theorem OutputChain.mem {s t : State} (h : OutputChain s t) : t.mem = s.mem := by
  induction h with
  | front h =>
    obtain ⟨_, _, _, _, _, _, _, _, _, _, _, _, _, _, rfl⟩ := device_frame h
    rfl
  | unit => exact State.setOu_mem ..
  | kill o s => exact killFetchBurst_mem o s
  | fetch o y wasB s => exact (arbitrate_frame _).mem.trans (State.setOu_mem ..)
  | presents => exact State.setPres_mem ..
  | given => exact (scansGivenUp_frame _ _).mem.trans (State.setPres_mem ..)
  | accepted => exact (State.setPres_mem ..).trans (foldl_addScan_frame _ _).mem
  | rebound => exact (rebound_frame _ _ _).mem
  | share => rfl
  | trans _ _ ih ih' => exact ih'.trans ih

theorem settle_mem (s : State) : (settle s).mem = s.mem := by
  obtain ⟨e, h⟩ := runEngine_frame (s.pe.moveBound + 1) s
  exact (arbitrate_frame _).mem.trans h.mem

/-! ### Requests of the Surface Manager and the Pixel Engine -/

/-- What leaves frame memory canonical, the outputs alone, and asks the port for no more than before; a burst in progress,
requested or held is one that was. -/
structure PortKept (s t : State) : Prop where
  mem : Memory.wf s.mem = true → Memory.wf t.mem = true
  first : t.ou0 = s.ou0
  second : t.ou1 = s.ou1
  idle : t.port.inFlight = none → s.port.inFlight = none
  request : t.pe.request = s.pe.request ∨ t.pe.request = none
  granted : ∀ g, t.port.inFlight = some g → ∃ g', s.port.inFlight = some g' ∧ g'.addr = g.addr
  held : t.pe.heldBurst = s.pe.heldBurst ∨ t.pe.heldBurst = none

/-- What leaves the port itself alone. -/
theorem PortKept.of_port {s t : State} (hmem : Memory.wf s.mem = true → Memory.wf t.mem = true)
    (hou : t.ou0 = s.ou0 ∧ t.ou1 = s.ou1) (hport : t.port = s.port)
    (hrequest : t.pe.request = s.pe.request ∨ t.pe.request = none)
    (hheld : t.pe.heldBurst = s.pe.heldBurst ∨ t.pe.heldBurst = none) : PortKept s t :=
  ⟨hmem, hou.1, hou.2, fun h => hport ▸ h, hrequest, fun g h => ⟨g, hport ▸ h, rfl⟩, hheld⟩

theorem PortKept.refl (s : State) : PortKept s s := .of_port id ⟨rfl, rfl⟩ rfl (.inl rfl) (.inl rfl)

theorem PortKept.trans {s t u : State} (h : PortKept s t) (h' : PortKept t u) : PortKept s u :=
  ⟨h'.mem ∘ h.mem, h'.first.trans h.first, h'.second.trans h.second, h.idle ∘ h'.idle,
    h'.request.elim (fun hr => h.request.imp hr.trans hr.trans) .inr, fun g hg => by
      obtain ⟨g', hg', haddr'⟩ := h'.granted g hg
      obtain ⟨g'', hg'', haddr⟩ := h.granted g' hg'
      exact ⟨g'', hg'', haddr.trans haddr'⟩,
    h'.held.elim (fun hh => h.held.imp hh.trans hh.trans) .inr⟩

theorem PortKept.of_claim {s t : State} (h : ClaimFrame s t) : PortKept s t := by
  obtain ⟨_, _, _, _, _, _, _, rfl⟩ := h
  exact .of_port id ⟨rfl, rfl⟩ rfl (.inl rfl) (.inl rfl)

theorem PortKept.of_setPe {e : Engine} {s : State} (hrequest : e.request = s.pe.request ∨ e.request = none)
    (hheld : e.heldBurst = s.pe.heldBurst) : PortKept s (s.setPe e) := .of_port id ⟨rfl, rfl⟩ rfl hrequest (.inl hheld)

theorem PortKept.of_surfaces {s : State} (su : List Surface) (gr : List (Option Nat)) :
    PortKept s { s with surfaces := su, granules := gr } := .of_port id ⟨rfl, rfl⟩ rfl (.inl rfl) (.inl rfl)

section
variable (s : State)

theorem landWrite_portKept : PortKept s (landWrite s) := by
  have hwritten (era : Nat) (changes : List ByteChange) (e : Engine) (he : e.request = s.pe.request)
      (hheld : e.heldBurst = none) : PortKept s { s with mem := applyChanges s.mem era changes, pe := e } :=
    .of_port (applyChanges_wf era changes) ⟨rfl, rfl⟩ rfl (.inl he) (.inr hheld)
  unfold landWrite releaseStaged
  split
  · dsimp only
    split
    · split <;> exact hwritten _ _ _ rfl rfl
    all_goals exact hwritten _ _ _ rfl rfl
  · exact .refl s

theorem jobsTaken_portKept (doomed : Job → Bool) : PortKept s (jobsTaken doomed s) := by
  cases h : s.pe.jobs.head?.elim false doomed with
  | true =>
    rw [jobsTaken_of_head doomed s h]
    refine ⟨id, rfl, rfl, fun hidle => ?_, .inr rfl, fun g hdead => ?_, .inr rfl⟩
    · have hidle : deadEngineBurst s.port.inFlight = none := hidle
      cases hg : s.port.inFlight with
      | none => rfl
      | some g => rw [hg] at hidle; cases g <;> cases hidle
    · have hdead : deadEngineBurst s.port.inFlight = some g := hdead
      cases hg : s.port.inFlight with
      | none => rw [hg] at hdead; cases hdead
      | some g' => rw [hg] at hdead; cases g' <;> cases hdead <;> exact ⟨_, rfl, rfl⟩
  | false =>
    rw [jobsTaken_of_not_head doomed s h]
    exact .of_setPe (.inl rfl) rfl

theorem cancelNaming_portKept (id : Nat) : PortKept s (cancelNaming id s) := by
  refine (jobsTaken_portKept s _).trans (.trans (.of_setPe (.inl ?_) ?_) (.of_claim (cancelNaming_claim id s))) <;>
    rw [Engine.cancelled_eq]

theorem discardUnfinished_portKept (id : Nat) (r : Surface) : PortKept s (discardUnfinished id r s).1 := by
  have hcancelled := cancelNaming_portKept s id
  unfold discardUnfinished
  dsimp only
  split
  · exact (hcancelled.trans (.of_claim (completeRef_frame _ _ _))).trans (.of_surfaces _ _)
  · exact hcancelled.trans (.of_surfaces _ _)

theorem appendJob_portKept (k : JobKind) : PortKept s (appendJob k s) := by
  obtain ⟨l, h⟩ := addJobUses_eq k (s.setPe { s.pe with jobs := s.pe.jobs ++ [⟨k, 0⟩] })
  rw [appendJob, h]
  exact .of_port id ⟨rfl, rfl⟩ rfl (.inl rfl) (.inl rfl)

theorem finishGrantedStreamWrite_portKept : PortKept s (finishGrantedStreamWrite s) := by
  unfold finishGrantedStreamWrite
  split
  · next a j rest hport hjobs =>
    split
    · have hlanded := landWrite_portKept s
      refine { hlanded with idle := fun h => (by cases h), granted := fun g h => ?_ }
      obtain rfl := Option.some.inj h
      exact ⟨_, hport, rfl⟩
    · exact .refl s
  · exact .refl s

theorem foldl_releaseJob_frame (js : List Job) : ClaimFrame s (js.foldl (fun acc j => releaseJob j.kind acc) s) := by
  induction js generalizing s with
  | nil => exact .refl s
  | cons j js ih => exact (releaseJob_frame j.kind s).trans (ih _)

theorem abortSession_portKept : PortKept s (abortSession s).1 := by
  have hwritten := finishGrantedStreamWrite_portKept s
  unfold abortSession
  dsimp only
  split
  · exact hwritten
  · next x _ =>
    generalize finishGrantedStreamWrite s = w at hwritten ⊢
    have hleft := (hwritten.trans (removeJobs_eq Job.isStream w ▸ jobsTaken_portKept w Job.isStream)).trans
      (.of_claim (foldl_releaseJob_frame _ (w.pe.jobs.filter Job.isStream)))
    have hclosed (v : State) : PortKept v (v.setPe v.pe.closeSession) := .of_setPe (.inl rfl) rfl
    cases x.link with
    | none => exact hleft.trans (hclosed _)
    | some link => exact (hleft.trans (hclosed _)).trans (.of_claim (completeSeq_frame _ _ _ _))

end

theorem SurfaceMove.portKept {s t : State} (h : SurfaceMove s t) : PortKept s t := by
  cases h with
  | created => exact .of_port (Memory.forget_wf _ _) ⟨rfl, rfl⟩ rfl (.inl rfl) (.inl rfl)
  | freed => exact .of_surfaces _ _
  | discarding => exact .of_surfaces _ _
  | sealed => exact .of_surfaces _ _
  | sealing => exact .of_surfaces _ _
  | reopened => exact .of_surfaces _ _
  | stopped => exact .of_setPe (.inr rfl) rfl

theorem EngineRequest.portKept {s t : State} (h : EngineRequest s t) : PortKept s t := by
  cases h with
  | discarded => exact discardUnfinished_portKept s _ _
  | job => exact appendJob_portKept s _
  | begun => exact (appendJob_portKept s _).trans (.of_setPe (.inl rfl) rfl)
  | staged => exact .of_setPe (.inl rfl) rfl
  | ended => exact .of_setPe (.inl rfl) rfl
  | aborted => exact abortSession_portKept s

/-! ### The Memory Port (R145) -/

theorem PortKept.portLaw {s t : State} (h : PortKept s t) (hs : PortLaw s) : PortLaw t := by
  intro hidle
  obtain ⟨h0, h1, hpe⟩ := hs (h.idle hidle)
  exact ⟨h.first ▸ h0, h.second ▸ h1, h.request.elim (fun hr => hr.trans hpe) id⟩

/-- R145: once the arbiter has looked, no request stands behind an idle port. -/
theorem arbitrate_portLaw (s : State) : PortLaw (arbitrate s) := by
  intro hidle
  cases hg : s.port.inFlight with
  | some g =>
    rw [arbitrate_busy hg, hg] at hidle
    cases hidle
  | none =>
    rw [arbitrate_idle hg] at hidle ⊢
    cases h0 : s.ou0.fetchRequest with
    | some b0 =>
      exfalso
      rw [h0] at hidle
      cases h1 : s.ou1.fetchRequest with
      | some b1 =>
        rw [h1] at hidle
        dsimp only at hidle
        split at hidle <;> cases hidle
      | none => rw [h1] at hidle; cases hidle
    | none =>
      cases h1 : s.ou1.fetchRequest with
      | some b1 => rw [h0, h1] at hidle; cases hidle
      | none =>
        cases hb : s.pe.request with
        | some b => rw [h0, h1, hb] at hidle; cases hidle
        | none => exact ⟨h0, h1, hb⟩

theorem LineHalf.narrows.waiting {h before : LineHalf} (hn : h.narrows before) (hb : before.waiting = []) :
    h.waiting = [] := by
  unfold LineHalf.waiting at *
  rcases hn with hn | ⟨htodo, hcond⟩
  · rw [hn]
    cases h.condition <;> rfl
  · rw [htodo, hcond]
    exact hb

theorem fetchRequest_eq_none {u : OutputUnit} : u.fetchRequest = none ↔ u.halfA.waiting = [] ∧ u.halfB.waiting = [] := by
  rw [OutputUnit.fetchRequest, List.head?_eq_none_iff, List.append_eq_nil_iff]

theorem portLaw_iff (s : State) : PortLaw s ↔
    (s.port.inFlight = none → (∀ o, (s.ou o).fetchRequest = none) ∧ s.pe.request = none) := by
  refine forall_congr' fun _ => ⟨fun h => ⟨fun o => ?_, h.2.2⟩, fun h => ⟨h.1 .out0, h.1 .out1, h.2⟩⟩
  cases o
  exacts [h.1, h.2.1]

theorem OutputUnit.narrows.portLaw {s : State} {o : OutputId} {u : OutputUnit} (hu : u.narrows (s.ou o))
    (hs : PortLaw s) : PortLaw (s.setOu o u) := by
  rw [portLaw_iff] at hs ⊢
  rw [State.setOu_port, State.setOu_pe]
  intro hidle
  obtain ⟨hfetch, hpe⟩ := hs hidle
  refine ⟨fun o' => ?_, hpe⟩
  by_cases ho : o' = o
  · rw [ho, State.ou_setOu_self]
    obtain ⟨ha, hb⟩ := fetchRequest_eq_none.1 (hfetch o)
    exact fetchRequest_eq_none.2 ⟨hu.1.waiting ha, hu.2.waiting hb⟩
  · rw [State.ou_setOu_other s u ho]
    exact hfetch o'

theorem killFetchBurst_portLaw (o : OutputId) {s : State} (hs : PortLaw s) : PortLaw (killFetchBurst o s) := by
  unfold killFetchBurst
  split
  · split
    · exact fun hidle => by cases hidle
    · exact hs
  · exact hs
  · exact hs

/-- What the Memory Port looks at. -/
def State.portSide (s : State) := (s.port, s.ou0, s.ou1, s.pe)

theorem portLaw_of_portSide {s t : State} (h : t.portSide = s.portSide) (hs : PortLaw s) : PortLaw t := by
  obtain ⟨hport, h0, h1, hpe⟩ : t.port = s.port ∧ t.ou0 = s.ou0 ∧ t.ou1 = s.ou1 ∧ t.pe = s.pe := by
    simpa [State.portSide] using h
  unfold PortLaw
  rw [hport, h0, h1, hpe]
  exact hs

theorem ClaimFrame.portSide {s t : State} (h : ClaimFrame s t) : t.portSide = s.portSide := by
  obtain ⟨_, _, _, _, _, _, _, rfl⟩ := h
  rfl

theorem setPres_portSide (o : OutputId) (p : Presentation) (s : State) : (s.setPres o p).portSide = s.portSide := by
  cases o <;> rfl

theorem device_portSide {s t : State} (h : t.device = s.device) : t.portSide = s.portSide := by
  obtain ⟨_, _, _, _, _, _, _, _, _, _, _, _, _, _, rfl⟩ := device_frame h
  rfl

theorem rebound_portSide (o : OutputId) (b : PendingBinding) (s : State) :
    (recomputeLoad o (replacePending o b s)).portSide = s.portSide := by
  rw [recomputeLoad_replacePending, setPres_portSide, (foldl_addScan_frame _ _).portSide,
    (releaseScans_frame _ _).portSide, setPres_portSide]

theorem OutputChain.portLaw {s t : State} (h : OutputChain s t) (hs : PortLaw s) : PortLaw t := by
  induction h with
  | front h => exact portLaw_of_portSide (device_portSide h) hs
  | unit hu => exact hu.portLaw hs
  | kill o s => exact killFetchBurst_portLaw o hs
  | fetch => exact arbitrate_portLaw _
  | presents => exact portLaw_of_portSide (setPres_portSide ..) hs
  | given => exact portLaw_of_portSide ((scansGivenUp_frame _ _).portSide.trans (setPres_portSide ..)) hs
  | accepted => exact portLaw_of_portSide ((setPres_portSide ..).trans (foldl_addScan_frame _ _).portSide) hs
  | rebound => exact portLaw_of_portSide (rebound_portSide ..) hs
  | share => exact hs
  | trans _ _ ih ih' => exact ih' (ih hs)

theorem RequestMove.portLaw {goes : Bool} {s t : State} (h : RequestMove goes s t) (hs : PortLaw s) : PortLaw t := by
  cases h with
  | nothing => exact hs
  | surface h => exact h.portKept.portLaw hs
  | output h => exact h.chain.portLaw hs
  | engine h => exact h.portKept.portLaw hs

theorem BlockStep.portLaw {s t : State} (h : BlockStep s t) (hs : PortLaw s) : PortLaw t := by
  rcases h.chain with ⟨b, live, -, -, rfl⟩ | ⟨o, b, live, -, -, rfl⟩ | h
  · exact arbitrate_portLaw _
  · exact arbitrate_portLaw _
  · exact h.portLaw hs

theorem resetBlocks_portLaw (s : State) : PortLaw (resetBlocks s) := fun _ => ⟨rfl, rfl, rfl⟩

theorem Effect.portLaw {s t : State} (h : Effect s t) (hs : PortLaw s) : PortLaw t :=
  h.induct (fun _ _ h => portLaw_of_portSide (device_portSide h)) (fun s _ => resetBlocks_portLaw s)
    (fun _ _ _ h => h.portLaw) (fun _ _ => arbitrate_portLaw _) (fun _ _ h => h.portLaw) hs

/-! ### Frame memory (R1) -/

theorem MemoryLaw.of_mem {s t : State} (h : t.mem = s.mem) (hs : MemoryLaw s) : MemoryLaw t := by
  unfold MemoryLaw at *
  rwa [h]

theorem RequestMove.memoryLaw {goes : Bool} {s t : State} (h : RequestMove goes s t) (hs : MemoryLaw s) : MemoryLaw t := by
  cases h with
  | nothing => exact hs
  | surface h => exact h.portKept.mem hs
  | output h => exact .of_mem h.chain.mem hs
  | engine h => exact h.portKept.mem hs

theorem finishEngineBurst_memoryLaw (b : EngineBurst) {s : State} (hs : MemoryLaw s) :
    MemoryLaw (finishEngineBurst b s) := by
  cases b with
  | readSource a => exact hs
  | readDestination a => exact hs
  | writeDestination a => exact (landWrite_portKept s).mem hs

theorem finishFetchBurst_mem (o : OutputId) (b : FetchBurst) (s : State) : (finishFetchBurst o b s).mem = s.mem :=
  State.setOu_mem ..

theorem BlockStep.memoryLaw {s t : State} (h : BlockStep s t) (hs : MemoryLaw s) : MemoryLaw t := by
  have hfree : MemoryLaw (s.setInFlight none) := hs
  rcases h.chain with ⟨b, live, -, -, rfl⟩ | ⟨o, b, live, -, -, rfl⟩ | h
  · unfold MemoryLaw
    rw [settle_mem]
    cases live
    · exact hfree
    · exact finishEngineBurst_memoryLaw b hfree
  · unfold MemoryLaw
    rw [(arbitrate_frame _).mem]
    cases live
    · exact hfree
    · exact (finishFetchBurst_mem o b (s.setInFlight none)).symm ▸ hfree
  · exact .of_mem h.mem hs

theorem Effect.memoryLaw {s t : State} (h : Effect s t) (hs : MemoryLaw s) : MemoryLaw t :=
  h.induct (fun _ _ h => .of_mem (OutputChain.front h).mem) (fun _ _ => State.reset_mem_wf) (fun _ _ _ h => h.memoryLaw)
    (fun s hs => by unfold MemoryLaw; rw [settle_mem]; exact hs) (fun _ _ h => h.memoryLaw) hs

/-- Settles O4. -/
theorem memoryPaletteAndPortLawsAreKept : Obligations.MemoryPaletteAndPortLawsAreKept := by
  unfold Obligations.MemoryPaletteAndPortLawsAreKept
  refine ⟨fun s t hs h => ?_, fun s t hs h => ?_, fun s t hs h => ?_⟩
  · rcases step_effect h with rfl | ⟨rest, h⟩
    · exact hs
    · exact h.memoryLaw hs
  · rcases step_effect h with rfl | ⟨rest, h⟩
    · exact hs
    · exact h.paletteLaw hs
  · rcases step_effect h with rfl | ⟨rest, h⟩
    · exact hs
    · exact h.portLaw hs

end Sys2Proof.Machine
end

