-- ==== Sys2Proof/Proofs/Ledgers.lean ====
section
/-! SUPPORT. The Surface Manager's books: the counts of every surface against the uses that name it, while a claim is settled surface
by surface (R2 to R10). -/

namespace Sys2Proof.Machine

/-! ### What a record says of itself -/

/-- R2, R3: a record without its state and its counts. -/
def Surface.shape (r : Surface) : Surface :=
  { r with state := .empty, scanRefs := 0, jobRefs := 0, writers := 0, sealPending := false }

/-- What reads the shape only is the same for records of the same shape. -/
theorem Surface.of_shape {α : Type} {f : Surface → α} (hf : ∀ r : Surface, f r.shape = f r) {r r' : Surface}
    (h : r'.shape = r.shape) : f r' = f r := by
  rw [← hf r', h, hf]

theorem surfaceShaped_shape (r : Surface) : surfaceShaped r.shape ↔ surfaceShaped r := Iff.rfl

/-- R4: what a state says of the counts, with no word yet on what is still to be settled. -/
def Surface.allowed (r : Surface) : Prop :=
  match r.state with
  | .empty => r.scanRefs = 0 ∧ r.jobRefs = 0 ∧ r.writers = 0 ∧ r.sealPending = false
  | .filling => r.scanRefs = 0 ∧ r.sealPending = false
  | .sealing => r.scanRefs = 0 ∧ r.sealPending = true
  | .ready => r.writers = 0 ∧ r.sealPending = false
  | .discarding => r.writers = 0 ∧ r.sealPending = false

/-- R10: nothing follows on the surface any more. -/
def Surface.settled (r : Surface) : Prop :=
  (r.state = .sealing → 0 < r.writers) ∧ (r.state = .discarding → 0 < r.scanRefs + r.jobRefs)

theorem stateFits_iff (r : Surface) :
    stateFits r ∧ (r.state = .empty → r.writers = 0 ∧ r.sealPending = false) ↔ r.allowed ∧ r.settled := by
  unfold stateFits Surface.allowed Surface.settled
  cases r.state <;> simp <;> tauto

/-- Fewer uses are allowed wherever more are. -/
theorem Surface.allowed.fewer {r : Surface} (h : r.allowed) {scans jobs writers : Nat} (hs : scans ≤ r.scanRefs)
    (hj : jobs ≤ r.jobRefs) (hw : writers ≤ r.writers) :
    Surface.allowed { r with scanRefs := scans, jobRefs := jobs, writers := writers } := by
  unfold Surface.allowed at *
  dsimp only
  cases hstate : r.state <;> rw [hstate] at h <;> dsimp only at h ⊢
  · obtain ⟨h1, h2, h3, h4⟩ := h
    exact ⟨by omega, by omega, by omega, h4⟩
  all_goals
    obtain ⟨h1, h2⟩ := h
    exact ⟨by omega, h2⟩

/-- R8: the entries that name a surface, and those that write it. -/
def naming (kinds : List JobKind) (id : Nat) : Nat := (kinds.filter fun k => k.surfaces.contains id).length

def writing (kinds : List JobKind) (id : Nat) : Nat := (kinds.filter fun k => decide (k.destination = some id)).length

theorem naming_cons (k : JobKind) (kinds : List JobKind) (id : Nat) :
    naming (k :: kinds) id = (if id ∈ k.surfaces then 1 else 0) + naming kinds id := by
  unfold naming
  by_cases h : id ∈ k.surfaces
  · simp [h, Nat.add_comm]
  · simp [h]

theorem writing_cons (k : JobKind) (kinds : List JobKind) (id : Nat) :
    writing (k :: kinds) id = (if k.destination = some id then 1 else 0) + writing kinds id := by
  unfold writing
  by_cases h : k.destination = some id
  · simp [h, Nat.add_comm]
  · simp [h]

theorem naming_pos {kinds : List JobKind} {k : JobKind} (hk : k ∈ kinds) {id : Nat} (hid : id ∈ k.surfaces) :
    0 < naming kinds id :=
  List.length_pos_of_mem (List.mem_filter.2 ⟨hk, List.contains_iff_mem.2 hid⟩)

/-- R8: a surface that is written is named. -/
theorem mem_surfaces_of_destination {k : JobKind} {id : Nat} (h : k.destination = some id) : id ∈ k.surfaces := by
  cases k with
  | fill dst r v => exact List.mem_singleton.2 (Option.some.inj h).symm
  | stream dst r => exact List.mem_singleton.2 (Option.some.inj h).symm
  | copy dst src r dx dy key =>
    obtain rfl := Option.some.inj h
    unfold JobKind.surfaces
    dsimp only
    split <;> exact List.mem_cons_self
  | read target r link => cases h
  | fence link => cases h

/-! ### Surface Table and Granule Map (R2, R5) -/

/-- R2, R3, R5: the table and the map agree. -/
structure Region (s : State) : Prop where
  surfaces : s.surfaces.length = 64
  granules : s.granules.length = 512
  shaped : ∀ id < 64, (s.surface id).state ≠ .empty → surfaceShaped (s.surface id)
  held : ∀ g < 512, ∀ id < 64, s.granules.getD g none = some id ↔
    (s.surface id).state ≠ .empty ∧ (s.surface id).base ≤ g ∧ g < (s.surface id).base + (s.surface id).granules
  known : ∀ g < 512, (s.granules.getD g none).elim True fun id => id < 64

/-- Records changed in state and counts only, none becoming or ceasing to be EMPTY, keep the table. -/
theorem Region.of_shape {s t : State} (h : Region s) (hlength : t.surfaces.length = s.surfaces.length)
    (hgranules : t.granules = s.granules) (hshape : ∀ id < 64, (t.surface id).shape = (s.surface id).shape ∧
      ((t.surface id).state = .empty ↔ (s.surface id).state = .empty)) : Region t := by
  refine ⟨hlength.trans h.surfaces, hgranules ▸ h.granules, fun id hid hne => ?_, fun g hg id hid => ?_, hgranules ▸ h.known⟩
  · obtain ⟨hsame, hempty⟩ := hshape id hid
    rw [← surfaceShaped_shape, hsame, surfaceShaped_shape]
    exact h.shaped id hid (hempty.not.1 hne)
  · obtain ⟨hsame, hempty⟩ := hshape id hid
    have hbase : (t.surface id).base = (s.surface id).base := Surface.of_shape (fun _ => rfl) hsame
    have hsize : (t.surface id).granules = (s.surface id).granules := Surface.of_shape (fun _ => rfl) hsame
    rw [hgranules, hbase, hsize, ne_eq, hempty]
    exact h.held g hg id hid

theorem surface_set (s : State) (id i : Nat) (r : Surface) (gr : List (Option Nat)) (h : id < s.surfaces.length) :
    State.surface { s with surfaces := s.surfaces.set id r, granules := gr } i = if i = id then r else s.surface i := by
  by_cases hi : i = id
  · subst hi
    rw [if_pos rfl]
    exact State.surface_setSurface_self s r h
  · rw [if_neg hi]
    exact State.surface_setSurface_other s r hi

theorem surface_setSurface (s : State) {id : Nat} (i : Nat) (r : Surface) (h : id < s.surfaces.length) :
    (s.setSurface id r).surface i = if i = id then r else s.surface i := surface_set s id i r s.granules h

theorem freeSurface_surface (s : State) {id : Nat} (i : Nat) (h : id < s.surfaces.length) :
    (freeSurface id s).surface i = if i = id then .empty else s.surface i := surface_set s id i .empty _ h

/-- R7: a surface freed leaves the table. -/
theorem Region.freed {s : State} (h : Region s) {id : Nat} (hid : id < 64) : Region (freeSurface id s) := by
  have hlt : id < s.surfaces.length := h.surfaces ▸ hid
  have hgranule (g : Nat) : (freeSurface id s).granules.getD g none =
      if s.granules.getD g none = some id then none else s.granules.getD g none := by
    change (freeGranules s.granules id).getD g none = _
    rw [freeGranules, List.getD_eq_getElem?_getD, List.getElem?_map, List.getD_eq_getElem?_getD]
    cases s.granules[g]? <;> simp
  refine ⟨(List.length_set ..).trans h.surfaces, (List.length_map ..).trans h.granules, fun i hi hne => ?_,
    fun g hg i hi => ?_, fun g hg => ?_⟩
  · rw [freeSurface_surface s i hlt] at hne ⊢
    split at hne
    · exact absurd rfl hne
    · next hother =>
      rw [if_neg hother]
      exact h.shaped i hi hne
  · rw [hgranule, freeSurface_surface s i hlt]
    by_cases hother : i = id
    · rw [if_pos hother]
      constructor
      · intro hsome
        split at hsome
        · cases hsome
        · next hnot => exact absurd (hother ▸ hsome) hnot
      · exact fun hsome => absurd rfl hsome.1
    · rw [if_neg hother, ← h.held g hg i hi]
      split
      · next hsame =>
        rw [hsame]
        exact ⟨fun hsome => (by cases hsome), fun hsome => absurd (Option.some.inj hsome).symm hother⟩
      · exact Iff.rfl
  · rw [hgranule]
    split
    · trivial
    · exact h.known g hg

/-- R13: a surface created joins the table. -/
theorem Region.created {s : State} (h : Region s) {id : Nat} (hid : id < 64) (hempty : (s.surface id).state = .empty)
    {r : Surface} (hr : r.state ≠ .empty) (hshaped : surfaceShaped r) (hfree : windowFree s.granules r.base r.granules) :
    Region (createAt id r s) := by
  have hlt : id < s.surfaces.length := h.surfaces ▸ hid
  have hsurface (i : Nat) : (createAt id r s).surface i = if i = id then r else s.surface i :=
    surface_set s id i r s.granules hlt
  have hgranule {g : Nat} (hg : g < 512) : (createAt id r s).granules.getD g none =
      if r.base ≤ g ∧ g < r.base + r.granules then some id else s.granules.getD g none := by
    change (holdGranules s.granules r.base r.granules id).getD g none = _
    have hin : g < s.granules.length := h.granules ▸ hg
    rw [holdGranules, List.getD_eq_getElem?_getD, List.getElem?_mapIdx, List.getD_eq_getElem?_getD,
      List.getElem?_eq_getElem hin]
    rfl
  have hwas {g : Nat} (hg : r.base ≤ g ∧ g < r.base + r.granules) : s.granules.getD g none = none := by
    have hnone := (windowFree_iff _ _ _).1 hfree g hg.1 hg.2
    rw [List.getD_eq_getElem?_getD, hnone]
    rfl
  refine ⟨(List.length_set ..).trans h.surfaces, (List.length_mapIdx ..).trans h.granules, fun i hi hne => ?_,
    fun g hg i hi => ?_, fun g hg => ?_⟩
  · rw [hsurface] at hne ⊢
    split
    · exact hshaped
    · next hother =>
      rw [if_neg hother] at hne
      exact h.shaped i hi hne
  · rw [hgranule hg, hsurface]
    by_cases hother : i = id
    · rw [if_pos hother, hother]
      constructor
      · intro hsome
        split at hsome
        · next hin => exact ⟨hr, hin⟩
        · exact absurd hempty ((h.held g hg id hid).1 hsome).1
      · exact fun hin => if_pos hin.2
    · rw [if_neg hother, ← h.held g hg i hi]
      split
      · next hin =>
        rw [hwas hin]
        exact ⟨fun hsome => absurd (Option.some.inj hsome).symm hother, fun hsome => by cases hsome⟩
      · exact Iff.rfl
  · rw [hgranule hg]
    split
    · exact hid
    · exact h.known g hg

/-! ### The books (R4, R8) -/

/-- R8: the counts of a record are the uses that name it, and fit its state; a surface in `unsettled` may still have
something follow on it. -/
structure Booked (scans : List Nat) (kinds : List JobKind) (unsettled : List Nat) (id : Nat) (r : Surface) : Prop where
  scans : r.scanRefs = scans.count id
  jobs : r.jobRefs = naming kinds id
  writers : r.writers = writing kinds id
  allowed : r.allowed
  settled : id ∉ unsettled → r.settled

/-- R2 to R10: the table, and every record booked against the uses `scans` and `kinds`. -/
structure Ledger (scans : List Nat) (kinds : List JobKind) (unsettled : List Nat) (s : State) : Prop where
  region : Region s
  scanIds : ∀ id ∈ scans, id < 64
  jobIds : ∀ k ∈ kinds, ∀ id ∈ k.surfaces, id < 64
  booked : ∀ id < 64, Booked scans kinds unsettled id (s.surface id)

/-- The kinds of the entries queued. -/
def State.kinds (s : State) : List JobKind := s.pe.jobs.map (·.kind)

theorem naming_kinds (s : State) (id : Nat) : naming s.kinds id = s.jobsNaming id := by
  unfold naming State.kinds State.jobsNaming
  rw [List.filter_map, List.length_map]
  rfl

theorem writing_kinds (s : State) (id : Nat) : writing s.kinds id = s.jobsWriting id := by
  unfold writing State.kinds State.jobsWriting
  rw [List.filter_map, List.length_map]
  rfl

/-- The laws of the table and of the counts are the books with nothing left to settle. -/
theorem ledger_iff (s : State) : Ledger s.scanUses s.kinds [] s ↔ SurfaceTableLaw s ∧ UseCountLaw s := by
  constructor
  · rintro ⟨hregion, hscanIds, hjobIds, hbooked⟩
    have hfits {id : Nat} (hid : id < 64) := (stateFits_iff (s.surface id)).2
      ⟨(hbooked id hid).allowed, (hbooked id hid).settled List.not_mem_nil⟩
    refine ⟨⟨hregion.surfaces, hregion.granules, hregion.shaped, fun id hid hempty => ?_, hregion.held, hregion.known⟩,
      hscanIds, fun j hj => hjobIds j.kind (List.mem_map_of_mem hj), fun id hid => ⟨(hbooked id hid).scans,
        (hbooked id hid).jobs.trans (naming_kinds s id), (hbooked id hid).writers.trans (writing_kinds s id),
        (hfits hid).1⟩⟩
    have hallowed := (hbooked id hid).allowed
    unfold Surface.allowed at hallowed
    rw [hempty] at hallowed
    exact hallowed
  · rintro ⟨⟨hlength, hgranules, hshaped, hempty, hheld, hknown⟩, hscanIds, hjobIds, hcounts⟩
    refine ⟨⟨hlength, hgranules, hshaped, hheld, hknown⟩, hscanIds, fun k hk => ?_, fun id hid => ?_⟩
    · obtain ⟨j, hj, rfl⟩ := List.mem_map.1 hk
      exact hjobIds j hj
    · obtain ⟨hscan, hjob, hwriter, hfits⟩ := hcounts id hid
      obtain ⟨hallowed, hsettled⟩ := (stateFits_iff (s.surface id)).1
        ⟨hfits, fun he => (hempty id hid he).2.2⟩
      exact ⟨hscan, hjob.trans (naming_kinds s id).symm, hwriter.trans (writing_kinds s id).symm, hallowed,
        fun _ => hsettled⟩

/-- What claims leave of the surfaces: their shape, unless they are freed; no EMPTY record is filled in, and a FILLING
surface stays FILLING. -/
structure SurfacesStay (s t : State) : Prop where
  shape : ∀ id, (t.surface id).shape = (s.surface id).shape ∨ (t.surface id).state = .empty
  empty : ∀ id, (s.surface id).state = .empty → (t.surface id).state = .empty
  filling : ∀ id, (s.surface id).state = .filling → (t.surface id).state = .filling

theorem SurfacesStay.of_surfaces {s t : State} (h : t.surfaces = s.surfaces) : SurfacesStay s t := by
  have hsame := surface_of_surfaces h
  exact ⟨fun id => .inl (by rw [hsame]), fun id he => by rw [hsame]; exact he, fun id he => by rw [hsame]; exact he⟩

theorem SurfacesStay.refl (s : State) : SurfacesStay s s := .of_surfaces rfl

theorem SurfacesStay.trans {s t u : State} (h : SurfacesStay s t) (h' : SurfacesStay t u) : SurfacesStay s u := by
  refine ⟨fun id => ?_, fun id he => h'.empty id (h.empty id he), fun id hf => h'.filling id (h.filling id hf)⟩
  rcases h'.shape id with hu | hu
  · rcases h.shape id with ht | ht
    · exact .inl (hu.trans ht)
    · exact .inr (h'.empty id ht)
  · exact .inr hu

section
variable {scans : List Nat} {kinds : List JobKind} {unsettled : List Nat} {s t : State}

theorem Ledger.of_same (h : Ledger scans kinds unsettled s) (hsurfaces : t.surfaces = s.surfaces)
    (hgranules : t.granules = s.granules) : Ledger scans kinds unsettled t := by
  have hsame := surface_of_surfaces hsurfaces
  exact ⟨h.region.of_shape (by rw [hsurfaces]) hgranules fun id _ => by simp only [hsame, and_self], h.scanIds, h.jobIds,
    fun id hid => hsame id ▸ h.booked id hid⟩

/-- The order in which uses are counted does not matter. -/
theorem Ledger.perm (h : Ledger scans kinds unsettled s) {scans' : List Nat} {kinds' : List JobKind}
    (hscans : scans.Perm scans') (hkinds : kinds.Perm kinds') : Ledger scans' kinds' unsettled s := by
  have hnaming (id : Nat) : naming kinds id = naming kinds' id := (hkinds.filter _).length_eq
  have hwriting (id : Nat) : writing kinds id = writing kinds' id := (hkinds.filter _).length_eq
  refine ⟨h.region, fun id hid => h.scanIds id (hscans.mem_iff.2 hid), fun k hk => h.jobIds k (hkinds.mem_iff.2 hk),
    fun id hid => ?_⟩
  obtain ⟨hs, hj, hw, ha, hset⟩ := h.booked id hid
  exact ⟨hs.trans (hscans.count_eq id), hj.trans (hnaming id), hw.trans (hwriting id), ha, hset⟩

/-- Records rewritten in state and counts keep the books when each is booked. -/
theorem Ledger.rebook (h : Ledger scans kinds unsettled s) (hlength : t.surfaces.length = s.surfaces.length)
    (hgranules : t.granules = s.granules) (hshape : ∀ id < 64, (t.surface id).shape = (s.surface id).shape ∧
      ((t.surface id).state = .empty ↔ (s.surface id).state = .empty)) {scans' : List Nat} {kinds' : List JobKind}
    {unsettled' : List Nat} (hscans : ∀ id ∈ scans', id < 64) (hkinds : ∀ k ∈ kinds', ∀ id ∈ k.surfaces, id < 64)
    (hbooked : ∀ id < 64, Booked scans' kinds' unsettled' id (t.surface id)) : Ledger scans' kinds' unsettled' t :=
  ⟨h.region.of_shape hlength hgranules hshape, hscans, hkinds, hbooked⟩

/-- One record rewritten in state and counts. -/
theorem Ledger.setSurface (h : Ledger scans kinds unsettled s) {id : Nat} (hid : id < 64) {r : Surface}
    (hshape : r.shape = (s.surface id).shape ∧ (r.state = .empty ↔ (s.surface id).state = .empty)) {unsettled' : List Nat}
    (hother : ∀ i, i ≠ id → i ∉ unsettled' → i ∉ unsettled) (hbooked : Booked scans kinds unsettled' id r) :
    Ledger scans kinds unsettled' (s.setSurface id r) := by
  have hlt : id < s.surfaces.length := h.region.surfaces ▸ hid
  refine h.rebook (t := s.setSurface id r) (List.length_set ..) rfl (fun i _ => ?_) h.scanIds h.jobIds fun i hi => ?_
  · rw [surface_setSurface s i r hlt]
    split
    · next he => exact he ▸ hshape
    · exact ⟨rfl, Iff.rfl⟩
  · rw [surface_setSurface s i r hlt]
    split
    · next he => exact he ▸ hbooked
    · next hne =>
      obtain ⟨hs, hj, hw, ha, hset⟩ := h.booked i hi
      exact ⟨hs, hj, hw, ha, fun hn => hset (hother i hne hn)⟩

/-- R7: a surface with no use left is freed. -/
theorem Ledger.freed (h : Ledger scans kinds unsettled s) {id : Nat} (hid : id < 64)
    (hnone : (s.surface id).scanRefs = 0 ∧ (s.surface id).jobRefs = 0 ∧ (s.surface id).writers = 0) {unsettled' : List Nat}
    (hother : ∀ i, i ≠ id → i ∉ unsettled' → i ∉ unsettled) : Ledger scans kinds unsettled' (freeSurface id s) := by
  have hlt : id < s.surfaces.length := h.region.surfaces ▸ hid
  obtain ⟨hscan, hjob, hwriter⟩ := hnone
  refine ⟨h.region.freed hid, h.scanIds, h.jobIds, fun i hi => ?_⟩
  obtain ⟨hs, hj, hw, ha, hset⟩ := h.booked i hi
  rw [freeSurface_surface s i hlt]
  split
  · next he =>
    subst he
    exact ⟨hscan.symm.trans hs, hjob.symm.trans hj, hwriter.symm.trans hw, ⟨rfl, rfl, rfl, rfl⟩,
      fun _ => ⟨fun hc => (by cases hc), fun hc => (by cases hc)⟩⟩
  · next hne => exact ⟨hs, hj, hw, ha, fun hn => hset (hother i hne hn)⟩

/-- A surface that is named is not EMPTY. -/
theorem Ledger.scanned (h : Ledger scans kinds unsettled s) {id : Nat} (hid : id ∈ scans) :
    id < 64 ∧ (s.surface id).state ≠ .empty := by
  have hlt := h.scanIds id hid
  refine ⟨hlt, fun hempty => ?_⟩
  have hallowed := (h.booked id hlt).allowed
  unfold Surface.allowed at hallowed
  rw [hempty] at hallowed
  have := List.count_pos_iff.2 hid
  have := (h.booked id hlt).scans
  omega

theorem Ledger.named (h : Ledger scans kinds unsettled s) {k : JobKind} (hk : k ∈ kinds) {id : Nat}
    (hid : id ∈ k.surfaces) : id < 64 ∧ (s.surface id).state ≠ .empty := by
  have hlt := h.jobIds k hk id hid
  refine ⟨hlt, fun hempty => ?_⟩
  have hallowed := (h.booked id hlt).allowed
  unfold Surface.allowed at hallowed
  rw [hempty] at hallowed
  have := naming_pos hk hid
  have := (h.booked id hlt).jobs
  omega

/-! ### What follows on a surface (R7, R10) -/

theorem completeRef_granules (ref : PendingRef) (st : Status) (s : State) : (completeRef ref st s).granules = s.granules := by
  obtain ⟨_, _, _, h⟩ := completeRef_eq ref st s
  rw [h]

theorem raise_granules (n : Notice) (s : State) : (raise n s).granules = s.granules := by
  obtain ⟨_, _, h⟩ := raise_eq n s
  rw [h]

/-- R10: settling a surface settles it. -/
theorem Ledger.settleSurface {id : Nat} (h : Ledger scans kinds (id :: unsettled) s) :
    Ledger scans kinds unsettled (settleSurface id s) := by
  have hother (i : Nat) (hne : i ≠ id) (hn : i ∉ unsettled) : i ∉ id :: unsettled := by
    rw [List.mem_cons, not_or]
    exact ⟨hne, hn⟩
  rcases Nat.lt_or_ge id 64 with hid | hid
  · obtain ⟨hs, hj, hw, ha, hset⟩ := h.booked id hid
    rw [settleSurface_eq]
    split
    · next hsealing =>
      refine Ledger.of_same ?_ (completeRef_surfaces _ _ _) (completeRef_granules _ _ _)
      have hready : Booked scans kinds unsettled id { s.surface id with state := .ready, sealPending := false } :=
        ⟨hs, hj, hw, ⟨hsealing.2, rfl⟩, fun _ => ⟨fun hc => (by cases hc), fun hc => (by cases hc)⟩⟩
      refine h.setSurface hid (r := { s.surface id with state := .ready, sealPending := false }) ⟨rfl, ?_⟩ hother hready
      rw [hsealing.1]
      exact ⟨fun hc => (by cases hc), fun hc => (by cases hc)⟩
    · next hnotSealing =>
      split
      · next hdiscarding =>
        refine Ledger.of_same ?_ (raise_surfaces _ _) (raise_granules _ _)
        unfold Surface.allowed at ha
        rw [hdiscarding.1] at ha
        exact h.freed hid ⟨hdiscarding.2.1, hdiscarding.2.2, ha.1⟩ hother
      · next hnotDiscarding =>
        refine ⟨h.region, h.scanIds, h.jobIds, fun i hi => ?_⟩
        obtain ⟨hs', hj', hw', ha', hset'⟩ := h.booked i hi
        refine ⟨hs', hj', hw', ha', fun hn => ?_⟩
        by_cases hne : i = id
        · subst hne
          refine ⟨fun hc => Nat.pos_of_ne_zero fun hz => hnotSealing ⟨hc, hz⟩, fun hc => Nat.pos_of_ne_zero fun hz => ?_⟩
          exact hnotDiscarding ⟨hc, by omega, by omega⟩
        · exact hset' (hother i hne hn)
  · have hempty : s.surface id = .empty := by
      unfold State.surface
      rw [List.getD_eq_getElem?_getD, List.getElem?_eq_none (by rw [h.region.surfaces]; exact hid)]
      rfl
    have hnothing : Machine.settleSurface id s = s := by
      rw [settleSurface_eq, hempty]
      rfl
    rw [hnothing]
    refine ⟨h.region, h.scanIds, h.jobIds, fun i hi => ?_⟩
    obtain ⟨hs', hj', hw', ha', hset'⟩ := h.booked i hi
    exact ⟨hs', hj', hw', ha', fun hn => hset' (hother i (fun he => by omega) hn)⟩

theorem Ledger.settleSurfaces {ids : List Nat} (h : Ledger scans kinds (ids ++ unsettled) s) :
    Ledger scans kinds unsettled (ids.foldl (fun w id => Machine.settleSurface id w) s) := by
  induction ids generalizing s with
  | nil => exact h
  | cons id ids ih => exact ih h.settleSurface

theorem settleSurface_stay (id : Nat) (s : State) (h : s.surfaces.length = 64) :
    SurfacesStay s (Machine.settleSurface id s) ∧ (Machine.settleSurface id s).surfaces.length = 64 := by
  rw [settleSurface_eq]
  split
  · next hsealing =>
    rcases Nat.lt_or_ge id 64 with hid | hid
    · have hlt : id < s.surfaces.length := h ▸ hid
      have hset : SurfacesStay s (s.setSurface id { s.surface id with state := .ready, sealPending := false }) := by
        refine ⟨fun i => .inl ?_, fun i hi => ?_, fun i hi => ?_⟩
        · rw [surface_setSurface s i _ hlt]
          split
          · next he => rw [he]; rfl
          · rfl
        · rw [surface_setSurface s i _ hlt, if_neg fun he => by rw [he, hsealing.1] at hi; cases hi]
          exact hi
        · rw [surface_setSurface s i _ hlt, if_neg fun he => by rw [he, hsealing.1] at hi; cases hi]
          exact hi
      refine ⟨hset.trans (.of_surfaces (completeRef_surfaces _ _ _)), ?_⟩
      rw [completeRef_surfaces]
      exact (List.length_set ..).trans h
    · exfalso
      have hempty : s.surface id = .empty := by
        unfold State.surface
        rw [List.getD_eq_getElem?_getD, List.getElem?_eq_none (by rw [h]; exact hid)]
        rfl
      rw [hempty] at hsealing
      cases hsealing.1
  · split
    · next hdiscarding =>
      have hlt : id < s.surfaces.length := by
        refine Nat.lt_of_not_le fun hid => ?_
        have hempty : s.surface id = .empty := by
          unfold State.surface
          rw [List.getD_eq_getElem?_getD, List.getElem?_eq_none hid]
          rfl
        rw [hempty] at hdiscarding
        cases hdiscarding.1
      have hfreed : SurfacesStay s (freeSurface id s) := by
        refine ⟨fun i => ?_, fun i hi => ?_, fun i hi => ?_⟩
        · rw [freeSurface_surface s i hlt]
          split
          · exact .inr rfl
          · exact .inl rfl
        · rw [freeSurface_surface s i hlt]
          split
          · rfl
          · exact hi
        · rw [freeSurface_surface s i hlt, if_neg fun he => by rw [he, hdiscarding.1] at hi; cases hi]
          exact hi
      refine ⟨hfreed.trans (.of_surfaces (raise_surfaces _ _)), ?_⟩
      rw [raise_surfaces]
      exact (List.length_set ..).trans h
    · exact ⟨.refl s, h⟩

theorem settleSurfaces_stay (ids : List Nat) (s : State) (h : s.surfaces.length = 64) :
    SurfacesStay s (ids.foldl (fun w id => Machine.settleSurface id w) s) := by
  induction ids generalizing s with
  | nil => exact .refl s
  | cons id ids ih =>
    obtain ⟨hfirst, hlength⟩ := settleSurface_stay id s h
    exact hfirst.trans (ih _ hlength)

/-! ### Uses given up (R8, R10) -/

theorem mapSurfaces_stay {f : Nat → Surface → Surface} (hempty : ∀ i, f i .empty = .empty)
    (hshape : ∀ i r, (f i r).shape = r.shape) (hstate : ∀ i r, (f i r).state = r.state) (s : State) :
    SurfacesStay s (s.mapSurfaces f) :=
  ⟨fun id => .inl (by rw [surface_mapSurfaces s (hempty id), hshape]),
    fun id h => by rw [surface_mapSurfaces s (hempty id), hstate]; exact h,
    fun id h => by rw [surface_mapSurfaces s (hempty id), hstate]; exact h⟩

theorem lessScans_stay (uses : List Nat) (s : State) : SurfacesStay s (s.mapSurfaces fun i r => r.lessScans uses i) :=
  mapSurfaces_stay (Surface.lessScans_empty uses) (fun _ _ => rfl) (fun _ _ => rfl) s

theorem lessJob_stay (k : JobKind) (s : State) : SurfacesStay s (s.mapSurfaces fun i r => r.lessJob k i) :=
  mapSurfaces_stay (Surface.lessJob_empty k) (fun _ _ => rfl) (fun _ _ => rfl) s

theorem scansGivenUp_stay (uses : List Nat) (s : State) (h : s.surfaces.length = 64) :
    SurfacesStay s (scansGivenUp uses s) :=
  (lessScans_stay uses s).trans (settleSurfaces_stay uses (s.mapSurfaces fun i r => r.lessScans uses i)
    ((List.length_mapIdx ..).trans h))

theorem jobGivenUp_stay (ids : List Nat) (k : JobKind) (s : State) (h : s.surfaces.length = 64) :
    SurfacesStay s (jobGivenUp ids k s) :=
  (lessJob_stay k s).trans (settleSurfaces_stay ids (s.mapSurfaces fun i r => r.lessJob k i)
    ((List.length_mapIdx ..).trans h))

/-- R8, R10: scan references given up. -/
theorem Ledger.scansGivenUp {released : List Nat} (h : Ledger (released ++ scans) kinds unsettled s) :
    Ledger scans kinds unsettled (scansGivenUp released s) := by
  have hless (i : Nat) := surface_mapSurfaces s (Surface.lessScans_empty released i)
  refine Ledger.settleSurfaces (s := s.mapSurfaces fun i r => r.lessScans released i) ?_
  refine h.rebook (t := s.mapSurfaces fun i r => r.lessScans released i) (List.length_mapIdx ..) rfl (fun id _ => ?_)
    (fun id hid => h.scanIds id (List.mem_append_right _ hid)) h.jobIds fun id hid => ?_
  · rw [hless]
    exact ⟨rfl, Iff.rfl⟩
  · obtain ⟨hs, hj, hw, ha, hset⟩ := h.booked id hid
    rw [List.count_append] at hs
    rw [hless]
    refine ⟨?_, hj, hw, ha.fewer (Nat.sub_le _ _) (Nat.le_refl _) (Nat.le_refl _), fun hn => ?_⟩
    · change (s.surface id).scanRefs - released.count id = scans.count id
      omega
    · rw [List.mem_append, not_or] at hn
      have hzero := List.count_eq_zero_of_not_mem hn.1
      have hsame : (s.surface id).lessScans released id = s.surface id := by
        unfold Surface.lessScans
        rw [hzero, Nat.sub_zero]
      rw [hsame]
      exact hset hn.2

/-- R8, R10: the uses of an entry given up, where every surface it names is settled then or left unsettled. -/
theorem Ledger.jobGivenUp {ids : List Nat} {k : JobKind} (h : Ledger scans (k :: kinds) unsettled s)
    (hids : ∀ id ∈ k.surfaces, id ∈ ids ++ unsettled) : Ledger scans kinds unsettled (jobGivenUp ids k s) := by
  have hless (i : Nat) := surface_mapSurfaces s (Surface.lessJob_empty k i)
  refine Ledger.settleSurfaces (s := s.mapSurfaces fun i r => r.lessJob k i) ?_
  refine h.rebook (t := s.mapSurfaces fun i r => r.lessJob k i) (List.length_mapIdx ..) rfl (fun id _ => ?_) h.scanIds
    (fun k' hk' => h.jobIds k' (List.mem_cons_of_mem _ hk')) fun id hid => ?_
  · rw [hless]
    exact ⟨rfl, Iff.rfl⟩
  · obtain ⟨hs, hj, hw, ha, hset⟩ := h.booked id hid
    rw [naming_cons] at hj
    rw [writing_cons] at hw
    rw [hless]
    refine ⟨hs, ?_, ?_, ha.fewer (Nat.le_refl _) (Nat.sub_le _ _) (Nat.sub_le _ _), fun hn => ?_⟩
    · change (s.surface id).jobRefs - (if id ∈ k.surfaces then 1 else 0) = naming kinds id
      omega
    · change (s.surface id).writers - (if k.destination = some id then 1 else 0) = writing kinds id
      omega
    · have hnot : id ∉ k.surfaces := fun hmem => hn (hids id hmem)
      have hsame : (s.surface id).lessJob k id = s.surface id := by
        unfold Surface.lessJob
        rw [if_neg hnot, if_neg fun hd => hnot (mem_surfaces_of_destination hd)]
        rfl
      rw [hsame]
      exact hset fun hmem => hn (List.mem_append_right _ hmem)

theorem Ledger.releaseJob {k : JobKind} (h : Ledger scans (k :: kinds) unsettled s) :
    Ledger scans kinds unsettled (releaseJob k s) := by
  rw [releaseJob_eq]
  exact h.jobGivenUp fun id hid => List.mem_append_left _ hid

theorem releaseJob_stay (k : JobKind) (s : State) (h : s.surfaces.length = 64) : SurfacesStay s (Machine.releaseJob k s) := by
  rw [releaseJob_eq]
  exact jobGivenUp_stay _ k s h

/-! ### Uses added (R8, R9, R37) -/

/-- R9: a scan reference is added to a READY surface. -/
theorem Ledger.addScans {ids : List Nat} (h : Ledger scans kinds unsettled s)
    (hids : ∀ id ∈ ids, id < 64 ∧ (s.surface id).state = .ready) :
    Ledger (ids ++ scans) kinds unsettled (ids.foldl (fun w id => addScan id w) s) := by
  have hsurface {id : Nat} (hid : id < 64) := foldl_addScan_surface ids (s := s) (id := id) (h.region.surfaces ▸ hid)
  have hframe : (ids.foldl (fun w id => addScan id w) s).surfaces.length = s.surfaces.length ∧
      (ids.foldl (fun w id => addScan id w) s).granules = s.granules := by
    clear hsurface h hids
    induction ids generalizing s with
    | nil => exact ⟨rfl, rfl⟩
    | cons id ids ih =>
      obtain ⟨hlength, hgranules⟩ := ih (s := addScan id s)
      exact ⟨hlength.trans (List.length_set ..), hgranules⟩
  refine h.rebook hframe.1 hframe.2 (fun id hid => ?_) (fun id hid => ?_) h.jobIds fun id hid => ?_
  · rw [hsurface hid]
    exact ⟨rfl, Iff.rfl⟩
  · exact (List.mem_append.1 hid).elim (fun hid => (hids id hid).1) (h.scanIds id)
  · obtain ⟨hs, hj, hw, ha, hset⟩ := h.booked id hid
    rw [hsurface hid]
    refine ⟨?_, hj, hw, ?_, fun hn => ?_⟩
    · change (s.surface id).scanRefs + ids.count id = (ids ++ scans).count id
      rw [List.count_append, hs, Nat.add_comm]
    · by_cases hmem : id ∈ ids
      · unfold Surface.allowed at ha ⊢
        rw [(hids id hmem).2] at ha
        dsimp only
        rw [(hids id hmem).2]
        exact ha
      · rw [List.count_eq_zero_of_not_mem hmem]
        exact ha
    · obtain ⟨hseal, hdiscard⟩ := hset hn
      exact ⟨hseal, fun hc => by have := hdiscard hc; dsimp only; omega⟩

theorem addScans_stay (ids : List Nat) (s : State) (h : ∀ id ∈ ids, id < s.surfaces.length) :
    SurfacesStay s (ids.foldl (fun w id => addScan id w) s) := by
  have hsame (id : Nat) : ∃ n, (ids.foldl (fun w id => addScan id w) s).surface id =
      { s.surface id with scanRefs := n } := by
    induction ids generalizing s with
    | nil => exact ⟨_, rfl⟩
    | cons i ids ih =>
      obtain ⟨hi, hids⟩ := List.forall_mem_cons.1 h
      have hlength : (addScan i s).surfaces.length = s.surfaces.length := List.length_set ..
      obtain ⟨n, hn⟩ := ih (addScan i s) (fun id hid => hlength.symm ▸ hids id hid)
      rw [List.foldl_cons, hn, addScan, surface_setSurface s id _ hi]
      split
      · next he => exact ⟨n, by rw [he]⟩
      · exact ⟨n, rfl⟩
  refine ⟨fun id => ?_, fun id he => ?_, fun id he => ?_⟩
  · obtain ⟨n, hn⟩ := hsame id
    exact .inl (by rw [hn]; rfl)
  · obtain ⟨n, hn⟩ := hsame id
    rw [hn]
    exact he
  · obtain ⟨n, hn⟩ := hsame id
    rw [hn]
    exact he

/-- R37: job references added on distinct surfaces. -/
theorem foldl_addJobRef_surface {ids : List Nat} (hnodup : ids.Nodup) (s : State) {id : Nat}
    (h : id < s.surfaces.length) : (ids.foldl (fun w i => addJobRef i w) s).surface id =
      { s.surface id with jobRefs := (s.surface id).jobRefs + if id ∈ ids then 1 else 0 } := by
  induction ids generalizing s with
  | nil => simp
  | cons i ids ih =>
    obtain ⟨hnew, hids⟩ := List.nodup_cons.1 hnodup
    rw [List.foldl_cons, ih hids (addJobRef i s) (by rw [addJobRef]; simpa using h)]
    by_cases hi : id = i
    · subst hi
      rw [addJobRef, State.surface_setSurface_self s _ h]
      simp [hnew]
    · rw [addJobRef, State.surface_setSurface_other s _ hi]
      simp [hi]

theorem foldl_addJobRef_frame (ids : List Nat) (s : State) :
    (ids.foldl (fun w i => addJobRef i w) s).surfaces.length = s.surfaces.length ∧
      (ids.foldl (fun w i => addJobRef i w) s).granules = s.granules := by
  induction ids generalizing s with
  | nil => exact ⟨rfl, rfl⟩
  | cons id ids ih =>
    obtain ⟨hlength, hgranules⟩ := ih (addJobRef id s)
    exact ⟨hlength.trans (List.length_set ..), hgranules⟩

theorem addJobUses_frame (k : JobKind) (s : State) :
    (addJobUses k s).surfaces.length = s.surfaces.length ∧ (addJobUses k s).granules = s.granules := by
  have hfold := foldl_addJobRef_frame k.surfaces s
  unfold addJobUses
  cases k.destination with
  | none => exact hfold
  | some dst => exact ⟨(List.length_set ..).trans hfold.1, hfold.2⟩

/-- R37: what an entry's uses add to a record. -/
theorem addJobUses_surface (k : JobKind) (s : State) {id : Nat} (h : id < s.surfaces.length) :
    (addJobUses k s).surface id = { s.surface id with
      jobRefs := (s.surface id).jobRefs + if id ∈ k.surfaces then 1 else 0
      writers := (s.surface id).writers + if k.destination = some id then 1 else 0 } := by
  have hfold := foldl_addJobRef_surface k.surfaces_nodup s h
  have hlength := (foldl_addJobRef_frame k.surfaces s).1
  unfold addJobUses
  cases hdst : k.destination with
  | none =>
    simp only [reduceCtorEq, if_false]
    exact hfold
  | some dst =>
    by_cases hi : id = dst
    · subst hi
      dsimp only [Option.elim]
      rw [addWriter, State.surface_setSurface_self _ _ (hlength.symm ▸ h), hfold, if_pos rfl]
    · dsimp only [Option.elim]
      rw [addWriter, State.surface_setSurface_other _ _ hi, hfold, if_neg fun hc => hi (Option.some.inj hc).symm]
      rfl

/-- R37: an entry appended is booked on the surfaces it names. -/
theorem Ledger.addJobUses {k : JobKind} (h : Ledger scans kinds unsettled s) (hids : ∀ id ∈ k.surfaces, id < 64)
    (hnamed : ∀ id ∈ k.surfaces, (s.surface id).state = .filling ∨ (s.surface id).state = .ready)
    (hdst : ∀ id, k.destination = some id → (s.surface id).state = .filling) :
    Ledger scans (k :: kinds) unsettled (addJobUses k s) := by
  obtain ⟨hlength, hgranules⟩ := addJobUses_frame k s
  have hsurface {id : Nat} (hid : id < 64) := addJobUses_surface k s (h.region.surfaces ▸ hid : id < s.surfaces.length)
  refine h.rebook hlength hgranules (fun id hid => ?_) h.scanIds (fun k' hk' => ?_) fun id hid => ?_
  · rw [hsurface hid]
    exact ⟨rfl, Iff.rfl⟩
  · rcases List.mem_cons.1 hk' with rfl | hk'
    · exact hids
    · exact h.jobIds k' hk'
  · obtain ⟨hs, hj, hw, ha, hset⟩ := h.booked id hid
    rw [hsurface hid]
    refine ⟨hs, ?_, ?_, ?_, fun hn => ?_⟩
    · rw [naming_cons, ← hj]
      exact Nat.add_comm ..
    · rw [writing_cons, ← hw]
      exact Nat.add_comm ..
    · by_cases hmem : id ∈ k.surfaces
      · unfold Surface.allowed at ha ⊢
        dsimp only
        rcases hnamed id hmem with hstate | hstate
        · rw [hstate] at ha ⊢
          exact ha
        · have hnot : ¬ k.destination = some id := fun hd => by
            rw [hdst id hd] at hstate
            cases hstate
          rw [hstate] at ha ⊢
          rw [if_neg hnot]
          exact ha
      · rw [if_neg hmem, if_neg fun hd => hmem (mem_surfaces_of_destination hd)]
        exact ha
    · obtain ⟨hseal, hdiscard⟩ := hset hn
      exact ⟨fun hc => Nat.add_pos_left (hseal hc) _, fun hc => by have := hdiscard hc; dsimp only; omega⟩

theorem addJobUses_stay (k : JobKind) (s : State) : SurfacesStay s (Machine.addJobUses k s) := by
  have hlength := (addJobUses_frame k s).1
  have hsame (id : Nat) : ∃ n m, (Machine.addJobUses k s).surface id = { s.surface id with jobRefs := n, writers := m } := by
    rcases Nat.lt_or_ge id s.surfaces.length with h | h
    · exact ⟨_, _, addJobUses_surface k s h⟩
    · have hnone {w : State} (hw : w.surfaces.length ≤ id) : w.surface id = .empty := by
        unfold State.surface
        rw [List.getD_eq_getElem?_getD, List.getElem?_eq_none hw]
        rfl
      exact ⟨0, 0, by rw [hnone h, hnone (hlength.symm ▸ h)]; rfl⟩
  refine ⟨fun id => ?_, fun id he => ?_, fun id he => ?_⟩
  all_goals
    obtain ⟨n, m, hn⟩ := hsame id
    rw [hn]
  · exact .inl rfl
  · exact he
  · exact he

end

end Sys2Proof.Machine
end

