-- ==== Sys2Proof/Proofs/BooksKept.lean ====
section
/-! SUPPORT. The steps of the outputs keep the books, and what the outputs hold fits its surfaces (R4, R8, R65, R74). -/

namespace Sys2Proof.Machine

/-- The books of the Surface Manager hold, and what the outputs hold fits the surfaces it names. -/
structure Consistent (s : State) : Prop where
  ledger : Ledger s.scanUses s.kinds [] s
  frames : FrameShapeLaw s

theorem consistent_iff (s : State) : Consistent s ↔ (SurfaceTableLaw s ∧ UseCountLaw s) ∧ FrameShapeLaw s :=
  ⟨fun h => ⟨(ledger_iff s).1 h.ledger, h.frames⟩, fun h => ⟨(ledger_iff s).2 h.1, h.2⟩⟩

theorem Consistent.length {s : State} (h : Consistent s) : s.surfaces.length = 64 := h.ledger.region.surfaces

theorem framesShaped_iff (s : State) (p : Presentation) :
    framesShaped s p ↔ (∀ r ∈ p.records, recordFits s r) ∧ ∀ id ∈ p.cursors, cursorFits s id := Iff.rfl

theorem frameShapeLaw_iff (s : State) : FrameShapeLaw s ↔ ∀ o, framesShaped s (s.pres o) :=
  ⟨fun h o => by cases o; exacts [h.1, h.2], fun h => ⟨h .out0, h .out1⟩⟩

theorem scanUses_perm (s : State) (o : OutputId) :
    s.scanUses.Perm ((s.pres o).scanUses ++ (s.pres (otherOutput o)).scanUses) := by
  cases o
  · exact .refl _
  · exact List.perm_append_comm

theorem mem_scanUses_of_pres {s : State} {o : OutputId} {id : Nat} (h : id ∈ (s.pres o).scanUses) : id ∈ s.scanUses :=
  (scanUses_perm s o).mem_iff.2 (List.mem_append_left _ h)

theorem mem_scanUses_of_record {p : Presentation} {r : FrameRecord} (hr : r ∈ p.records) {l : Layer} (hl : l ∈ r.layers) :
    l.surface ∈ p.scanUses := by
  rw [Presentation.scanUses_eq]
  exact List.mem_append_left _ (List.mem_flatten.2 ⟨_, List.mem_map_of_mem hr, List.mem_map_of_mem hl⟩)

theorem mem_scanUses_of_cursor {p : Presentation} {id : Nat} (h : id ∈ p.cursors) : id ∈ p.scanUses := by
  rw [Presentation.scanUses_eq]
  exact List.mem_append_right _ h

theorem cursorFits_shape {s t : State} {id : Nat} (h : (t.surface id).shape = (s.surface id).shape) (hs : cursorFits s id) :
    cursorFits t id := by
  obtain ⟨hformat, hwidth, hheight⟩ := hs
  exact ⟨(Surface.of_shape (fun _ => rfl) h).trans hformat, (Surface.of_shape (fun _ => rfl) h).trans hwidth,
    (Surface.of_shape (fun _ => rfl) h).trans hheight⟩

/-- R65, R74: what fitted its surfaces fits them while those in use keep their shape. -/
theorem frameShapeLaw_of_shape {s t : State} (h : ∀ id ∈ t.scanUses, (t.surface id).shape = (s.surface id).shape)
    (hs : ∀ o, framesShaped s (t.pres o)) : FrameShapeLaw t := by
  rw [frameShapeLaw_iff]
  intro o
  obtain ⟨hrecords, hcursors⟩ := hs o
  have hshape {id : Nat} (hid : id ∈ (t.pres o).scanUses) : (t.surface id).shape = (s.surface id).shape :=
    h id (mem_scanUses_of_pres hid)
  refine ⟨fun r hr l hl => ?_, fun id hid => cursorFits_shape (hshape (mem_scanUses_of_cursor hid)) (hcursors id hid)⟩
  have hsame := hshape (mem_scanUses_of_record hr hl)
  have hw : (t.surface l.surface).storedWidth = (s.surface l.surface).storedWidth := Surface.of_shape (fun _ => rfl) hsame
  have hh : (t.surface l.surface).storedHeight = (s.surface l.surface).storedHeight := Surface.of_shape (fun _ => rfl) hsame
  rw [hw, hh]
  exact hrecords r hr l hl

/-- The books of a state whose surfaces stayed. -/
theorem Consistent.of_ledger {s t : State} (hledger : Ledger t.scanUses t.kinds [] t) (hstay : SurfacesStay s t)
    (hs : ∀ o, framesShaped s (t.pres o)) : Consistent t :=
  ⟨hledger, frameShapeLaw_of_shape (fun id hid => (hstay.shape id).resolve_right (hledger.scanned hid).2) hs⟩

/-- What the books are read from. -/
def State.bookSide (s : State) := (s.surfaces, s.granules, s.pres0, s.pres1, s.pe.jobs)

theorem Consistent.of_bookSide {s t : State} (hs : Consistent s) (h : t.bookSide = s.bookSide) : Consistent t := by
  obtain ⟨hsurfaces, hgranules, h0, h1, hjobs⟩ : t.surfaces = s.surfaces ∧ t.granules = s.granules ∧ t.pres0 = s.pres0 ∧
      t.pres1 = s.pres1 ∧ t.pe.jobs = s.pe.jobs := by simpa [State.bookSide] using h
  have huses : t.scanUses = s.scanUses := by rw [State.scanUses, h0, h1]; rfl
  have hkinds : t.kinds = s.kinds := by rw [State.kinds, hjobs]; rfl
  refine .of_ledger (s := s) ?_ (.of_surfaces hsurfaces) fun o => ?_
  · rw [huses, hkinds]
    exact hs.ledger.of_same hsurfaces hgranules
  · have hpres : t.pres o = s.pres o := by cases o; exacts [h0, h1]
    rw [hpres]
    exact (frameShapeLaw_iff s).1 hs.frames o

theorem stay_of_bookSide {s t : State} (h : t.bookSide = s.bookSide) : SurfacesStay s t :=
  .of_surfaces (congrArg (fun b => b.1) h)

theorem kinds_of_bookSide {s t : State} (h : t.bookSide = s.bookSide) : t.kinds = s.kinds :=
  congrArg (fun b => b.2.2.2.2.map (·.kind)) h

theorem device_bookSide {s t : State} (h : t.device = s.device) : t.bookSide = s.bookSide := by
  obtain ⟨_, _, _, _, _, _, _, _, _, _, _, _, _, _, rfl⟩ := device_frame h
  rfl

theorem setOu_bookSide (s : State) (o : OutputId) (u : OutputUnit) : (s.setOu o u).bookSide = s.bookSide := by
  cases o <;> rfl

theorem killFetchBurst_bookSide (o : OutputId) (s : State) : (killFetchBurst o s).bookSide = s.bookSide := by
  obtain ⟨g, h⟩ := killFetchBurst_eq o s
  rw [h]
  rfl

theorem arbitrate_bookSide (s : State) : (arbitrate s).bookSide = s.bookSide := by
  obtain ⟨_, _, _, _, _, _, h⟩ := arbitrate_frame s
  rw [h]
  rfl

theorem beginFetch_bookSide (o : OutputId) (y : Nat) (wasB : Bool) (s : State) :
    (beginFetch o y wasB s).bookSide = s.bookSide := (arbitrate_bookSide _).trans (setOu_bookSide ..)

/-- What an output presents, exchanged. -/
theorem setPres_pres (s : State) (o o' : OutputId) (p : Presentation) :
    (s.setPres o p).pres o' = if o' = o then p else s.pres o' := by
  split
  · next h => rw [h, State.pres_setPres_self]
  · next h => exact State.pres_setPres_other s p h

theorem setPres_framesShaped {s w : State} {o : OutputId} {p : Presentation} (hs : FrameShapeLaw s)
    (hp : framesShaped s p) (hw : ∀ o', w.pres o' = (s.setPres o p).pres o') (o' : OutputId) : framesShaped s (w.pres o') := by
  rw [hw, setPres_pres]
  split
  · exact hp
  · exact (frameShapeLaw_iff s).1 hs o'

theorem setPres_kinds (s : State) (o : OutputId) (p : Presentation) : (s.setPres o p).kinds = s.kinds := by
  cases o <;> rfl

theorem ClaimFrame.kinds {s t : State} (h : ClaimFrame s t) : t.kinds = s.kinds := congrArg (fun e => e.jobs.map (·.kind)) h.pe

theorem scanUses_of_pres {s t : State} (h : ∀ o, t.pres o = s.pres o) : t.scanUses = s.scanUses := by
  have h0 : t.pres0 = s.pres0 := h .out0
  have h1 : t.pres1 = s.pres1 := h .out1
  rw [State.scanUses, h0, h1]
  rfl

/-- The uses an output's presentation state exchanged leaves. -/
theorem setPres_scanUses_perm {s : State} {o : OutputId} {p : Presentation} {given added : List Nat}
    (h : (added ++ (s.pres o).scanUses).Perm (given ++ p.scanUses)) :
    (added ++ s.scanUses).Perm (given ++ (s.setPres o p).scanUses) := by
  have hleft := (scanUses_perm s o).append_left added
  have hright := (scanUses_perm (s.setPres o p) o).append_left given
  rw [State.pres_setPres_self, State.pres_setPres_other s p (otherOutput_ne o)] at hright
  refine hleft.trans (.trans ?_ hright.symm)
  rw [← List.append_assoc, ← List.append_assoc]
  exact h.append_right _

section
variable {s : State} {o : OutputId} {p : Presentation}

/-- R8, R10: references given up together with what held them. -/
theorem Consistent.given (hs : Consistent s) {released : List Nat}
    (hcount : ∀ id, (s.pres o).scanUses.count id = released.count id + p.scanUses.count id)
    (hrecords : p.records ⊆ (s.pres o).records) (hcursors : p.cursors ⊆ (s.pres o).cursors) :
    Consistent (scansGivenUp released (s.setPres o p)) ∧ SurfacesStay s (scansGivenUp released (s.setPres o p)) := by
  have hframe := scansGivenUp_frame released (s.setPres o p)
  have hperm : ((s.pres o).scanUses).Perm (released ++ p.scanUses) :=
    List.perm_iff_count.2 fun id => by rw [List.count_append]; exact hcount id
  have huses := setPres_scanUses_perm (added := []) hperm
  have hset : SurfacesStay s (s.setPres o p) := .of_surfaces (State.setPres_surfaces ..)
  have hstay := hset.trans (scansGivenUp_stay released _ (by rw [State.setPres_surfaces]; exact hs.length))
  refine ⟨.of_ledger (s := s) ?_ hstay fun o' => ?_, hstay⟩
  · rw [scanUses_of_pres hframe.pres, hframe.kinds, setPres_kinds]
    exact ((hs.ledger.perm huses (.refl _)).of_same (t := s.setPres o p) (State.setPres_surfaces ..)
      (State.setPres_granules ..)).scansGivenUp
  · obtain ⟨hr, hc⟩ := (frameShapeLaw_iff s).1 hs.frames o
    exact setPres_framesShaped hs.frames ⟨fun r h => hr r (hrecords h), fun id h => hc id (hcursors h)⟩ hframe.pres o'

/-- R9: references taken together with what holds them. -/
theorem Consistent.claimed (hs : Consistent s) {ids : List Nat}
    (hids : ∀ id ∈ ids, id < 64 ∧ (s.surface id).state = .ready) (hperm : (ids ++ (s.pres o).scanUses).Perm p.scanUses)
    (hp : framesShaped s p) :
    Consistent ((ids.foldl (fun w id => addScan id w) s).setPres o p) ∧
      SurfacesStay s ((ids.foldl (fun w id => addScan id w) s).setPres o p) := by
  have hframe := foldl_addScan_frame ids s
  have hstay : SurfacesStay s ((ids.foldl (fun w id => addScan id w) s).setPres o p) :=
    (addScans_stay ids s fun id hid => hs.length ▸ (hids id hid).1).trans (.of_surfaces (State.setPres_surfaces ..))
  have hpres (o' : OutputId) : ((ids.foldl (fun w id => addScan id w) s).setPres o p).pres o' = (s.setPres o p).pres o' := by
    rw [setPres_pres, setPres_pres, hframe.pres]
  have huses := setPres_scanUses_perm (s := s) (o := o) (p := p) (given := []) hperm
  refine ⟨.of_ledger (s := s) ?_ hstay (setPres_framesShaped hs.frames hp hpres), hstay⟩
  rw [scanUses_of_pres hpres, setPres_kinds, hframe.kinds]
  exact ((hs.ledger.addScans hids).perm huses (.refl _)).of_same (State.setPres_surfaces ..) (State.setPres_granules ..)

/-- R67: an accepted frame is the last of the queue. -/
theorem accepted_perm {r : FrameRecord} (hp : p.holdings = Presentation.holdings { s.pres o with queue := (s.pres o).queue ++ [r] }) :
    (r.surfaces ++ (s.pres o).scanUses).Perm p.scanUses := by
  refine List.perm_iff_count.2 fun id => ?_
  rw [Presentation.scanUses_of_holdings hp, List.count_append, Presentation.count_scanUses, Presentation.count_scanUses]
  simp only [List.map_append, List.map_cons, List.map_nil, List.flatten_append, List.flatten_cons, List.flatten_nil,
    List.append_nil, List.count_append]
  omega

theorem accepted_framesShaped {r : FrameRecord} (hs : FrameShapeLaw s) (hfits : recordFits s r)
    (hp : p.holdings = Presentation.holdings { s.pres o with queue := (s.pres o).queue ++ [r] }) : framesShaped s p := by
  obtain ⟨hrecords, hcursors⟩ := (frameShapeLaw_iff s).1 hs o
  rw [framesShaped_iff, Presentation.records_of_holdings hp, Presentation.cursors_of_holdings hp]
  refine ⟨fun r' hr' => ?_, hcursors⟩
  rcases List.mem_append.1 hr' with hr' | hr'
  · rcases List.mem_append.1 hr' with hr' | hr'
    · exact hrecords r' (List.mem_append_left _ hr')
    · exact List.mem_singleton.1 hr' ▸ hfits
  · exact hrecords r' (List.mem_append_right _ hr')

/-- R75: the pending binding exchanged: its reference is given up, and the new one's taken. -/
theorem Consistent.rebound (hs : Consistent s) {b : PendingBinding}
    (hb : ∀ id ∈ b.surfaces, id < 64 ∧ (s.surface id).state = .ready ∧ cursorFits s id) :
    Consistent (recomputeLoad o (replacePending o b s)) ∧ SurfacesStay s (recomputeLoad o (replacePending o b s)) := by
  rw [recomputeLoad_replacePending]
  generalize hp : (s.pres o).rebound (s.ou o).timing.fetchFactor b = p
  generalize hq : { s.pres o with pendingBinding := b } = q
  rw [releaseScans_eq]
  have hbare := hs.ledger.of_same (t := s.setPres o q) (State.setPres_surfaces ..) (State.setPres_granules ..)
  generalize hrest : (Presentation.scanUses { s.pres o with pendingBinding := .noChange }) ++
    (s.pres (otherOutput o)).scanUses = rest
  have hold : s.scanUses.Perm ((s.pres o).pendingBinding.surfaces ++ rest) := by
    refine (scanUses_perm s o).trans ?_
    rw [← hrest, ← List.append_assoc]
    refine .append_right _ (List.perm_iff_count.2 fun id => ?_)
    rw [List.count_append, Presentation.count_scanUses, Presentation.count_scanUses]
    simp only [PendingBinding.surfaces, List.count_nil]
    omega
  have hreleased := (hbare.perm hold (.refl _)).scansGivenUp
  have hset : SurfacesStay s (s.setPres o q) := .of_surfaces (State.setPres_surfaces ..)
  have hgivenStay := hset.trans (scansGivenUp_stay (s.pres o).pendingBinding.surfaces _
    (by rw [State.setPres_surfaces]; exact hs.length))
  have hgivenFrame := scansGivenUp_frame (s.pres o).pendingBinding.surfaces (s.setPres o q)
  have hready (id : Nat) (hid : id ∈ b.surfaces) : id < 64 ∧
      ((scansGivenUp (s.pres o).pendingBinding.surfaces (s.setPres o q)).surface id).state = .ready := by
    obtain ⟨hlt, hstate, -⟩ := hb id hid
    have hsame : (s.setPres o q).surface id = s.surface id := State.surface_setPres ..
    refine ⟨hlt, ?_⟩
    rw [scansGivenUp_surface (.inr (by rw [hsame, hstate]; decide)), hsame]
    exact hstate
  generalize scansGivenUp (s.pres o).pendingBinding.surfaces (s.setPres o q) = w at hreleased hgivenStay hgivenFrame hready
  have hadded := hreleased.addScans hready
  have hframe := hgivenFrame.trans (foldl_addScan_frame b.surfaces w)
  have hpres (o' : OutputId) : ((b.surfaces.foldl (fun w id => addScan id w) w).setPres o p).pres o' =
      (s.setPres o p).pres o' := by
    rw [setPres_pres, setPres_pres, hframe.pres, setPres_pres]
    split <;> rfl
  have hstay : SurfacesStay s ((b.surfaces.foldl (fun w id => addScan id w) w).setPres o p) :=
    (hgivenStay.trans (addScans_stay b.surfaces w fun id hid => hreleased.region.surfaces ▸ (hready id hid).1)).trans
      (.of_surfaces (State.setPres_surfaces ..))
  refine ⟨.of_ledger (s := s) ?_ hstay (setPres_framesShaped hs.frames ?_ hpres), hstay⟩
  · rw [scanUses_of_pres hpres, setPres_kinds, hframe.kinds, setPres_kinds]
    refine (hadded.perm ?_ (.refl _)).of_same (State.setPres_surfaces ..) (State.setPres_granules ..)
    have huses := scanUses_perm (s.setPres o p) o
    rw [State.pres_setPres_self, State.pres_setPres_other s p (otherOutput_ne o)] at huses
    refine .trans ?_ huses.symm
    rw [← hrest, ← List.append_assoc]
    refine .append_right _ (List.perm_iff_count.2 fun id => ?_)
    rw [List.count_append, Presentation.count_scanUses, Presentation.count_scanUses, ← hp]
    simp only [PendingBinding.surfaces, Presentation.rebound, List.count_nil]
    omega
  · obtain ⟨hrecords, hcursors⟩ := (frameShapeLaw_iff s).1 hs.frames o
    rw [← hp]
    refine ⟨hrecords, fun id hid => ?_⟩
    rcases List.mem_append.1 hid with hid | hid
    · exact hcursors id (List.mem_append_left _ hid)
    · exact (hb id hid).2.2

end

/-- R4, R8, R65, R74: the steps of the outputs keep the books. -/
theorem OutputChain.consistent {s t : State} (h : OutputChain s t) (hs : Consistent s) :
    Consistent t ∧ SurfacesStay s t ∧ t.kinds = s.kinds := by
  have hside {s t : State} (hs : Consistent s) (h : t.bookSide = s.bookSide) :
      Consistent t ∧ SurfacesStay s t ∧ t.kinds = s.kinds := ⟨hs.of_bookSide h, stay_of_bookSide h, kinds_of_bookSide h⟩
  induction h with
  | front h => exact hside hs (device_bookSide h)
  | unit => exact hside hs (setOu_bookSide ..)
  | kill o s => exact hside hs (killFetchBurst_bookSide o s)
  | fetch o y wasB s => exact hside hs (beginFetch_bookSide o y wasB s)
  | @presents s o p hp =>
    have hstay : SurfacesStay s (s.setPres o p) := .of_surfaces (State.setPres_surfaces ..)
    have huses := setPres_scanUses_perm (s := s) (o := o) (p := p) (given := []) (added := [])
      (by rw [Presentation.scanUses_of_holdings hp])
    refine ⟨.of_ledger (s := s) ?_ hstay (setPres_framesShaped hs.frames ?_ fun _ => rfl), hstay, setPres_kinds s o p⟩
    · rw [setPres_kinds]
      exact (hs.ledger.perm huses (.refl _)).of_same (State.setPres_surfaces ..) (State.setPres_granules ..)
    · rw [framesShaped_iff, Presentation.records_of_holdings hp, Presentation.cursors_of_holdings hp]
      exact (frameShapeLaw_iff s).1 hs.frames o
  | given hcount hrecords hcursors =>
    obtain ⟨ht, hstay⟩ := hs.given hcount hrecords hcursors
    exact ⟨ht, hstay, (scansGivenUp_frame _ _).kinds.trans (setPres_kinds ..)⟩
  | accepted hids hfits hp =>
    obtain ⟨ht, hstay⟩ := hs.claimed hids (accepted_perm hp) (accepted_framesShaped hs.frames hfits hp)
    exact ⟨ht, hstay, (setPres_kinds ..).trans (foldl_addScan_frame _ _).kinds⟩
  | rebound hb =>
    obtain ⟨ht, hstay⟩ := hs.rebound hb
    refine ⟨ht, hstay, ?_⟩
    rw [recomputeLoad_replacePending, setPres_kinds, (foldl_addScan_frame _ _).kinds, (releaseScans_frame _ _).kinds,
      setPres_kinds]
  | share n s => exact hside hs rfl
  | trans _ _ ih ih' =>
    obtain ⟨ht, hstay, hkinds⟩ := ih hs
    obtain ⟨hu, hstay', hkinds'⟩ := ih' ht
    exact ⟨hu, hstay.trans hstay', hkinds'.trans hkinds⟩

end Sys2Proof.Machine
end

