-- ==== Sys2Proof/Proofs/EngineFits.lean ====
section
/-! SUPPORT. What the Job Queue and the upload session are held to, and what leaves that alone (R35, R36, R47 to R52). -/

namespace Sys2Proof.Machine

/-! ### The two laws in parts -/

/-- R36: the entry at the head has progress no further than the pixels it can set; an empty queue holds, requests and awaits nothing. -/
def State.headFits (s : State) : Prop :=
  s.pe.jobs.head?.elim (s.pe.heldBurst = none ∧ s.pe.request = none ∧ s.engineBurstLive = false)
    fun j => j.progress + s.pe.heldPixels ≤ s.readyPixels j.kind

theorem headFits_cons {s : State} {j : Job} {rest : List Job} (h : s.pe.jobs = j :: rest) :
    s.headFits ↔ j.progress + s.pe.heldPixels ≤ s.readyPixels j.kind := by
  unfold State.headFits
  rw [h]
  rfl

theorem headFits_nil {s : State} (h : s.pe.jobs = []) :
    s.headFits ↔ s.pe.heldBurst = none ∧ s.pe.request = none ∧ s.engineBurstLive = false := by
  unfold State.headFits
  rw [h]
  rfl

/-- R35, R36: the Job Queue's law. -/
structure QueueFits (s : State) : Prop where
  length : s.pe.jobs.length ≤ 8
  shaped : ∀ j ∈ s.pe.jobs, jobShaped s j.kind
  waiting : ∀ j ∈ s.pe.jobs.tail, j.progress = 0
  head : s.headFits

theorem jobQueueLaw_iff (s : State) : JobQueueLaw s ↔ QueueFits s :=
  ⟨fun ⟨hlength, hshaped, hwaiting, hhead⟩ => ⟨hlength, hshaped, hwaiting, hhead⟩,
    fun ⟨hlength, hshaped, hwaiting, hhead⟩ => ⟨hlength, hshaped, hwaiting, hhead⟩⟩

/-- R47, R48, R52: the law of an open session. -/
structure SessionFits (s : State) (x : Session) : Prop where
  entry : (s.pe.jobs.filter Job.isStream).map (·.kind) = [.stream x.dst x.rect]
  expected : x.expected = transferBytes (s.surface x.dst).format x.rect.area
  positive : 1 ≤ x.expected
  written : x.written ≤ x.received
  received : x.received ≤ x.expected
  staged : s.pe.staging.length = x.received - x.written
  room : s.pe.staging.length ≤ 4096
  linked : x.endRequested = x.link.isSome
  filling : (s.surface x.dst).state = .filling
  done : ∀ j ∈ s.pe.jobs.filter Job.isStream, x.written = s.writtenAfter j.kind x j.progress
  held : s.pe.jobs.head?.elim false Job.isStream = true → s.pe.heldBurst.elim True fun h => h.changes = [] → h.pixels = 0

theorem sessionLaw_some {s : State} {x : Session} (hx : s.pe.session = some x) : SessionLaw s ↔ SessionFits s x := by
  unfold SessionLaw
  rw [hx]
  exact ⟨fun ⟨h1, h2, h3, h4, h5, h6, h7, h8, h9, h10, h11⟩ => ⟨h1, h2, h3, h4, h5, h6, h7, h8, h9, h10, h11⟩,
    fun ⟨h1, h2, h3, h4, h5, h6, h7, h8, h9, h10, h11⟩ => ⟨h1, h2, h3, h4, h5, h6, h7, h8, h9, h10, h11⟩⟩

theorem sessionLaw_none {s : State} (hx : s.pe.session = none) :
    SessionLaw s ↔ s.pe.jobs.filter Job.isStream = [] ∧ s.pe.staging = [] := by
  unfold SessionLaw
  rw [hx]

theorem mem_kinds {s : State} {j : Job} (h : j ∈ s.pe.jobs) : j.kind ∈ s.kinds := List.mem_map_of_mem h

theorem isStream_iff (j : Job) : j.isStream = true ↔ ∃ dst r, j.kind = .stream dst r := by
  unfold Job.isStream
  cases j.kind <;> simp

section
variable {s : State} {x : Session}

/-- R47: the session's entry is queued. -/
theorem SessionFits.mem_kinds (h : SessionFits s x) : JobKind.stream x.dst x.rect ∈ s.kinds := by
  have hmem : JobKind.stream x.dst x.rect ∈ (s.pe.jobs.filter Job.isStream).map (·.kind) := by
    rw [h.entry]
    exact List.mem_singleton_self _
  obtain ⟨j, hj, hk⟩ := List.mem_map.1 hmem
  exact hk ▸ Machine.mem_kinds (List.mem_of_mem_filter hj)

/-- R47: a STREAM entry is the session's. -/
theorem SessionFits.kind (h : SessionFits s x) {j : Job} (hj : j ∈ s.pe.jobs) (hstream : j.isStream = true) :
    j.kind = .stream x.dst x.rect := by
  have hmem : j.kind ∈ (s.pe.jobs.filter Job.isStream).map (·.kind) :=
    List.mem_map_of_mem (List.mem_filter.2 ⟨hj, hstream⟩)
  rw [h.entry] at hmem
  exact List.mem_singleton.1 hmem

/-- R47: with a STREAM entry at the head no other is queued. -/
theorem SessionFits.rest (h : SessionFits s x) {j : Job} {rest : List Job} (hj : s.pe.jobs = j :: rest)
    (hstream : j.isStream = true) : rest.filter Job.isStream = [] := by
  have hentry := h.entry
  rw [hj, List.filter_cons_of_pos hstream, List.map_cons] at hentry
  exact List.map_eq_nil_iff.1 (List.cons.inj hentry).2

/-- R48: where a session stands open, a STREAM entry at the head is its own, and without one there is none. -/
theorem SessionLaw.stream_session (h : SessionLaw s) {j : Job} (hj : j ∈ s.pe.jobs) (hstream : j.isStream = true) :
    ∃ x, s.pe.session = some x ∧ SessionFits s x := by
  cases hx : s.pe.session with
  | some x => exact ⟨x, rfl, (sessionLaw_some hx).1 h⟩
  | none =>
    have hnone := ((sessionLaw_none hx).1 h).1
    exact absurd (List.mem_filter.2 ⟨hj, hstream⟩) (hnone ▸ List.not_mem_nil)

end

/-! ### What the laws read of the surfaces -/

theorem mem_surfaces_copy {dst src : Nat} {r : Rect} {dx dy : Nat} {key : Option Nat} :
    dst ∈ (JobKind.copy dst src r dx dy key).surfaces ∧ src ∈ (JobKind.copy dst src r dx dy key).surfaces := by
  unfold JobKind.surfaces
  dsimp only
  split
  · next h => exact ⟨List.mem_cons_self, h ▸ List.mem_cons_self⟩
  · exact ⟨List.mem_cons_self, List.mem_cons_of_mem _ List.mem_cons_self⟩

theorem shape_bounds {r r' : Surface} (h : r'.shape = r.shape) :
    r'.width = r.width ∧ r'.height = r.height ∧ r'.format = r.format :=
  ⟨Surface.of_shape (fun _ => rfl) h, Surface.of_shape (fun _ => rfl) h, Surface.of_shape (fun _ => rfl) h⟩

theorem jobShaped_shape {s t : State} {k : JobKind} (h : ∀ id ∈ k.surfaces, (t.surface id).shape = (s.surface id).shape)
    (hs : jobShaped s k) : jobShaped t k := by
  cases k with
  | fill dst r value =>
    obtain ⟨hw, hh, hf⟩ := shape_bounds (h dst (List.mem_singleton_self _))
    unfold jobShaped at *
    dsimp only at *
    rwa [hw, hh, hf]
  | copy dst src r dx dy key =>
    obtain ⟨hw, hh, hf⟩ := shape_bounds (h dst mem_surfaces_copy.1)
    obtain ⟨hw', hh', hf'⟩ := shape_bounds (h src mem_surfaces_copy.2)
    unfold jobShaped at *
    dsimp only at *
    rwa [hw, hh, hf, hw', hh', hf']
  | stream dst r =>
    obtain ⟨hw, hh, -⟩ := shape_bounds (h dst (List.mem_singleton_self _))
    unfold jobShaped at *
    dsimp only at *
    rwa [hw, hh]
  | read target r link =>
    obtain ⟨hw, hh, hf⟩ := shape_bounds (h target (List.mem_singleton_self _))
    unfold jobShaped at *
    dsimp only at *
    rwa [hw, hh, hf]
  | fence link => trivial

/-- R36, R52: the pixels a job can set depend on the session and on its surface's format. -/
theorem readyPixels_congr {s t : State} (hsession : t.pe.session = s.pe.session)
    (hformat : ∀ x, s.pe.session = some x → (t.surface x.dst).format = (s.surface x.dst).format) (k : JobKind) :
    t.readyPixels k = s.readyPixels k := by
  cases k with
  | stream dst r =>
    unfold State.readyPixels
    rw [hsession]
    cases hx : s.pe.session with
    | none => rfl
    | some x =>
      unfold State.coveredPixels
      dsimp only
      rw [hformat x hx]
  | _ => rfl

theorem writtenAfter_congr {s t : State} {x : Session} (hformat : (t.surface x.dst).format = (s.surface x.dst).format)
    (k : JobKind) (n : Nat) : t.writtenAfter k x n = s.writtenAfter k x n := by
  unfold State.writtenAfter
  rw [hformat]

/-- `t` has the work of `s`; and where nothing is to be done nothing is asked for or awaited. -/
structure SameWork (s t : State) : Prop where
  jobs : t.pe.jobs = s.pe.jobs
  session : t.pe.session = s.pe.session
  staging : t.pe.staging = s.pe.staging
  held : t.pe.heldBurst = s.pe.heldBurst
  idle : s.pe.jobs = [] → s.pe.request = none → s.engineBurstLive = false →
    t.pe.request = none ∧ t.engineBurstLive = false

theorem SameWork.of_pe {s t : State} (h : t.pe = s.pe) (hlive : t.engineBurstLive = s.engineBurstLive) : SameWork s t :=
  ⟨by rw [h], by rw [h], by rw [h], by rw [h], fun _ hr hl => ⟨by rw [h]; exact hr, hlive.trans hl⟩⟩

/-- The Job Queue's law and the session's. -/
structure EngineFits (s : State) : Prop where
  queue : QueueFits s
  session : SessionLaw s

theorem SameWork.engineFits {s t : State} (h : SameWork s t) (hs : EngineFits s)
    (hshape : ∀ k ∈ s.kinds, ∀ id ∈ k.surfaces, (t.surface id).shape = (s.surface id).shape)
    (hfilling : ∀ x, s.pe.session = some x → (t.surface x.dst).state = .filling) : EngineFits t := by
  obtain ⟨⟨hlength, hshaped, hwaiting, hhead⟩, hsession⟩ := hs
  have hformat (x : Session) (hx : s.pe.session = some x) : (t.surface x.dst).format = (s.surface x.dst).format :=
    (shape_bounds (hshape _ ((sessionLaw_some hx).1 hsession).mem_kinds _ (List.mem_singleton_self _))).2.2
  have hheld : t.pe.heldPixels = s.pe.heldPixels := congrArg (fun b : Option HeldBurst => b.elim 0 HeldBurst.pixels) h.held
  refine ⟨⟨h.jobs ▸ hlength, fun j hj => ?_, h.jobs ▸ hwaiting, ?_⟩, ?_⟩
  · rw [h.jobs] at hj
    exact jobShaped_shape (hshape _ (mem_kinds hj)) (hshaped j hj)
  · cases hj : s.pe.jobs with
    | nil =>
      obtain ⟨hb, hr, hl⟩ := (headFits_nil hj).1 hhead
      exact (headFits_nil (h.jobs.trans hj)).2 ⟨h.held.trans hb, h.idle hj hr hl⟩
    | cons j rest =>
      rw [headFits_cons (h.jobs.trans hj), hheld, readyPixels_congr h.session hformat]
      exact (headFits_cons hj).1 hhead
  · cases hx : s.pe.session with
    | none =>
      obtain ⟨hnone, hstaging⟩ := (sessionLaw_none hx).1 hsession
      exact (sessionLaw_none (h.session.trans hx)).2 ⟨h.jobs ▸ hnone, h.staging.trans hstaging⟩
    | some x =>
      have hfits := (sessionLaw_some hx).1 hsession
      refine (sessionLaw_some (h.session.trans hx)).2 ?_
      exact
        { entry := h.jobs ▸ hfits.entry
          expected := by rw [hformat x hx]; exact hfits.expected
          positive := hfits.positive
          written := hfits.written
          received := hfits.received
          staged := h.staging ▸ hfits.staged
          room := h.staging ▸ hfits.room
          linked := hfits.linked
          filling := hfilling x hx
          done := fun j hj => by
            rw [writtenAfter_congr (hformat x hx)]
            exact hfits.done j (h.jobs ▸ hj)
          held := fun hj => by
            rw [h.held]
            rw [h.jobs] at hj
            exact hfits.held hj }

/-! ### Books and engine together -/

/-- The laws of the Surface Manager, of what the outputs hold, and of the Pixel Engine. -/
structure Working (s : State) : Prop where
  books : Consistent s
  engine : EngineFits s

theorem working_iff (s : State) : Working s ↔ ((SurfaceTableLaw s ∧ UseCountLaw s) ∧ FrameShapeLaw s) ∧
    JobQueueLaw s ∧ SessionLaw s := by
  rw [← consistent_iff, jobQueueLaw_iff]
  exact ⟨fun h => ⟨h.books, h.engine.queue, h.engine.session⟩, fun h => ⟨h.1, h.2.1, h.2.2⟩⟩

/-- R8: the surfaces the queue names keep their shape while they stay. -/
theorem Consistent.shape_of_stay {s t : State} (ht : Consistent t) (hstay : SurfacesStay s t) (hkinds : t.kinds = s.kinds) :
    ∀ k ∈ s.kinds, ∀ id ∈ k.surfaces, (t.surface id).shape = (s.surface id).shape := by
  intro k hk id hid
  rw [← hkinds] at hk
  exact (hstay.shape id).resolve_right (ht.ledger.named hk hid).2

theorem SessionLaw.filling_of_stay {s t : State} (hs : SessionLaw s) (hstay : SurfacesStay s t) (x : Session)
    (hx : s.pe.session = some x) : (t.surface x.dst).state = .filling :=
  hstay.filling _ ((sessionLaw_some hx).1 hs).filling

/-- What leaves the work alone, and the surfaces as claims do, keeps both. -/
theorem Working.of_sameWork {s t : State} (hs : Working s) (ht : Consistent t) (hstay : SurfacesStay s t)
    (hwork : SameWork s t) : Working t := by
  refine ⟨ht, hwork.engineFits hs.engine (ht.shape_of_stay hstay ?_) (hs.engine.session.filling_of_stay hstay)⟩
  rw [State.kinds, hwork.jobs]
  rfl

/-! ### The steps of the outputs (R145) -/

/-- R145: of the Pixel Engine, a grant takes its request; then its burst is in progress. -/
structure EngineAwaits (s t : State) : Prop where
  pe : ∃ r, t.pe = { s.pe with request := r }
  awaits : (t.pe.request = s.pe.request ∧ t.engineBurstLive = s.engineBurstLive) ∨
    (s.pe.request.isSome = true ∧ t.pe.request = none ∧ t.engineBurstLive = true)

theorem EngineAwaits.of_pe {s t : State} (h : t.pe = s.pe) (hlive : t.engineBurstLive = s.engineBurstLive) :
    EngineAwaits s t := ⟨⟨s.pe.request, h⟩, .inl ⟨by rw [h], hlive⟩⟩

theorem EngineAwaits.of_portSide {s t : State} (h : t.portSide = s.portSide) : EngineAwaits s t := by
  have hport : t.port = s.port := congrArg (fun b => b.1) h
  refine .of_pe (congrArg (fun b => b.2.2.2) h) ?_
  unfold State.engineBurstLive
  rw [hport]

theorem EngineAwaits.trans {s t u : State} (h : EngineAwaits s t) (h' : EngineAwaits t u) : EngineAwaits s u := by
  obtain ⟨⟨r, hr⟩, ha⟩ := h
  obtain ⟨⟨r', hr'⟩, ha'⟩ := h'
  refine ⟨⟨r', by rw [hr', hr]⟩, ?_⟩
  rcases ha' with ⟨hreq', hlive'⟩ | ⟨hsome', hnone', hlive'⟩
  · rcases ha with ⟨hreq, hlive⟩ | ⟨hsome, hnone, hlive⟩
    · exact .inl ⟨hreq'.trans hreq, hlive'.trans hlive⟩
    · exact .inr ⟨hsome, hreq'.trans hnone, hlive'.trans hlive⟩
  · rcases ha with ⟨hreq, -⟩ | ⟨-, hnone, -⟩
    · exact .inr ⟨hreq ▸ hsome', hnone', hlive'⟩
    · rw [hnone] at hsome'
      cases hsome'

theorem EngineAwaits.sameWork {s t : State} (h : EngineAwaits s t) : SameWork s t := by
  obtain ⟨⟨r, hr⟩, ha⟩ := h
  refine ⟨by rw [hr], by rw [hr], by rw [hr], by rw [hr], fun _ hreq hlive => ?_⟩
  rcases ha with ⟨hsame, hl⟩ | ⟨hsome, -⟩
  · exact ⟨hsame.trans hreq, hl.trans hlive⟩
  · rw [hreq] at hsome
    cases hsome

theorem arbitrate_awaits (s : State) : EngineAwaits s (arbitrate s) := by
  rcases arbitrate_cases s with h | ⟨hidle, o, b, -, h⟩ | ⟨hidle, b, -, -, hb, h⟩
  · rw [h]
    exact .of_pe rfl rfl
  · have hlive : s.engineBurstLive = false := by
      unfold State.engineBurstLive
      rw [hidle]
    rw [h]
    refine .of_pe ?_ ?_
    · cases o <;> rfl
    · rw [hlive]
      cases o <;> rfl
  · rw [h]
    exact ⟨⟨none, rfl⟩, .inr ⟨by rw [hb]; rfl, rfl, rfl⟩⟩

theorem killFetchBurst_awaits (o : OutputId) (s : State) : EngineAwaits s (killFetchBurst o s) := by
  unfold killFetchBurst
  split
  · next o' b live hg =>
    split
    · refine .of_pe rfl ?_
      unfold State.engineBurstLive
      rw [hg]
      rfl
    · exact .of_pe rfl rfl
  · exact .of_pe rfl rfl
  · exact .of_pe rfl rfl

theorem setOu_awaits (s : State) (o : OutputId) (u : OutputUnit) : EngineAwaits s (s.setOu o u) := by
  refine .of_pe (State.setOu_pe s o u) ?_
  unfold State.engineBurstLive
  rw [State.setOu_port]

theorem OutputChain.awaits {s t : State} (h : OutputChain s t) : EngineAwaits s t := by
  induction h with
  | front h => exact .of_portSide (device_portSide h)
  | unit => exact setOu_awaits _ _ _
  | kill o s => exact killFetchBurst_awaits o s
  | fetch => exact (setOu_awaits _ _ _).trans (arbitrate_awaits _)
  | presents => exact .of_portSide (setPres_portSide ..)
  | given => exact .of_portSide ((scansGivenUp_frame _ _).portSide.trans (setPres_portSide ..))
  | accepted => exact .of_portSide ((setPres_portSide ..).trans (foldl_addScan_frame _ _).portSide)
  | rebound => exact .of_portSide (rebound_portSide ..)
  | share => exact .of_pe rfl rfl
  | trans _ _ ih ih' => exact ih.trans ih'

theorem OutputChain.working {s t : State} (h : OutputChain s t) (hs : Working s) : Working t := by
  obtain ⟨ht, hstay, -⟩ := h.consistent hs.books
  exact hs.of_sameWork ht hstay h.awaits.sameWork

theorem Working.of_device {s t : State} (hs : Working s) (h : t.device = s.device) : Working t :=
  (OutputChain.front h).working hs

theorem Working.arbitrate {s : State} (hs : Working s) : Working (arbitrate s) :=
  hs.of_sameWork (hs.books.of_bookSide (arbitrate_bookSide s)) (stay_of_bookSide (arbitrate_bookSide s))
    (arbitrate_awaits s).sameWork

end Sys2Proof.Machine
end

