-- ==== Sys2Proof/Proofs/EngineSteps.lean ====
section
/-! SUPPORT. The Pixel Engine's own steps keep the books and its laws: moves, completions, and bursts that complete (R36, R45, R52). -/

namespace Sys2Proof.Machine

/-! ### The engine's entries -/

/-- What the books read, but for the Job Queue. -/
def State.tables (s : State) := (s.surfaces, s.granules, s.pres0, s.pres1)

theorem Consistent.of_kinds {s t : State} (hs : Consistent s) (h : t.tables = s.tables) (hkinds : t.kinds = s.kinds) :
    Consistent t := by
  obtain ⟨hsurfaces, hgranules, h0, h1⟩ : t.surfaces = s.surfaces ∧ t.granules = s.granules ∧ t.pres0 = s.pres0 ∧
      t.pres1 = s.pres1 := by simpa [State.tables] using h
  have hpres (o : OutputId) : t.pres o = s.pres o := by cases o; exacts [h0, h1]
  refine .of_ledger (s := s) ?_ (.of_surfaces hsurfaces) fun o => ?_
  · rw [scanUses_of_pres hpres, hkinds]
    exact hs.ledger.of_same hsurfaces hgranules
  · rw [hpres]
    exact (frameShapeLaw_iff s).1 hs.frames o

theorem surfaces_of_tables {s t : State} (h : t.tables = s.tables) : t.surfaces = s.surfaces := congrArg (fun b => b.1) h

section
variable {s t : State} {j : Job} {rest : List Job}

/-- R36: the active entry's progress does not change what it is. -/
theorem kinds_advanced (hj : s.pe.jobs = j :: rest) {n : Nat} (hjobs : t.pe.jobs = { j with progress := n } :: rest) :
    t.kinds = s.kinds := by
  unfold State.kinds
  rw [hjobs, hj]
  rfl

/-- R36: the active entry advanced, or the burst it holds changed, with the session as it stands. -/
theorem Working.advanced (hs : Working s) (hj : s.pe.jobs = j :: rest) {n : Nat}
    (hjobs : t.pe.jobs = { j with progress := n } :: rest) (hsession : t.pe.session = s.pe.session)
    (hstaging : t.pe.staging = s.pe.staging) (htables : t.tables = s.tables)
    (hready : n + t.pe.heldPixels ≤ s.readyPixels j.kind)
    (hstream : j.isStream = true → n = j.progress ∧
      t.pe.heldBurst.elim True fun h => h.changes = [] → h.pixels = 0) : Working t := by
  have hkinds := kinds_advanced hj hjobs
  have hsame := surface_of_surfaces (surfaces_of_tables htables)
  obtain ⟨⟨hlength, hshaped, hwaiting, hhead⟩, hlaw⟩ := hs.engine
  refine ⟨hs.books.of_kinds htables hkinds, ⟨?_, fun k hk => ?_, ?_, ?_⟩, ?_⟩
  · rw [hjobs, List.length_cons]
    rw [hj, List.length_cons] at hlength
    exact hlength
  · have hmem : k.kind ∈ s.kinds := hkinds ▸ mem_kinds hk
    obtain ⟨k', hk', hkind⟩ := List.mem_map.1 hmem
    rw [← hkind]
    exact jobShaped_shape (fun id _ => by rw [hsame]) (hshaped k' hk')
  · rw [hjobs]
    rw [hj] at hwaiting
    exact hwaiting
  · rw [headFits_cons hjobs, readyPixels_congr hsession fun x _ => by rw [hsame]]
    exact hready
  · have hfilter : (t.pe.jobs.filter Job.isStream).map (·.kind) = (s.pe.jobs.filter Job.isStream).map (·.kind) := by
      rw [hjobs, hj, List.filter_cons, List.filter_cons]
      have hflag : Job.isStream { j with progress := n } = j.isStream := rfl
      rw [hflag]
      split <;> rfl
    cases hx : s.pe.session with
    | none =>
      obtain ⟨hnone, hempty⟩ := (sessionLaw_none hx).1 hlaw
      rw [hnone] at hfilter
      exact (sessionLaw_none (hsession.trans hx)).2 ⟨List.map_eq_nil_iff.1 hfilter, hstaging.trans hempty⟩
    | some x =>
      have hfits := (sessionLaw_some hx).1 hlaw
      refine (sessionLaw_some (hsession.trans hx)).2 ?_
      exact
        { entry := hfilter.trans hfits.entry
          expected := by rw [hsame]; exact hfits.expected
          positive := hfits.positive
          written := hfits.written
          received := hfits.received
          staged := by rw [hstaging]; exact hfits.staged
          room := by rw [hstaging]; exact hfits.room
          linked := hfits.linked
          filling := by rw [hsame]; exact hfits.filling
          done := fun k hk => by
            rw [writtenAfter_congr (s := s) (by rw [hsame])]
            obtain ⟨hk, hflag⟩ := List.mem_filter.1 hk
            rw [hjobs] at hk
            rcases List.mem_cons.1 hk with rfl | hk
            · obtain ⟨hn, -⟩ := hstream hflag
              change x.written = s.writtenAfter j.kind x n
              rw [hn]
              exact hfits.done j (List.mem_filter.2 ⟨hj ▸ List.mem_cons_self, hflag⟩)
            · exact hfits.done k (List.mem_filter.2 ⟨hj ▸ List.mem_cons_of_mem _ hk, hflag⟩)
          held := fun hhd => by
            rw [hjobs] at hhd
            exact (hstream hhd).2 }

/-! ### Moves (R36, R41) -/

theorem Working.asked (hs : Working s) (hj : s.pe.jobs = j :: rest) (b : EngineBurst) :
    Working (s.setPe { s.pe with request := some b }) := by
  refine hs.of_sameWork (hs.books.of_bookSide rfl) (.of_surfaces rfl) ⟨rfl, rfl, rfl, rfl, fun hc => ?_⟩
  rw [hj] at hc
  cases hc

theorem Working.moved (hs : Working s) (hj : s.pe.jobs = j :: rest) {e : Engine} (h : s.engineMove j rest = .go e) :
    Working (s.setPe e) := by
  have hhead := (headFits_cons hj).1 hs.engine.queue.head
  have hheld {b : HeldBurst} (hb : s.pe.heldBurst = some b) : s.pe.heldPixels = b.pixels := by
    unfold Engine.heldPixels
    rw [hb]
    rfl
  rcases engineMove_go h with ⟨b, hb, hchanges, rfl⟩ | ⟨hmore, ⟨out, hnot, rfl⟩ | ⟨b, changes, hb, hne, rfl⟩⟩
  · refine hs.advanced (t := s.setPe { s.pe with heldBurst := none, jobs := { j with progress := j.progress + b.pixels } :: rest })
      hj rfl rfl rfl rfl ?_ fun hstream => ⟨?_, trivial⟩
    · rw [hheld hb] at hhead
      exact hhead
    · obtain ⟨x, -, hfits⟩ := hs.engine.session.stream_session (hj ▸ List.mem_cons_self) hstream
      have hpixels := hfits.held (by rw [hj]; exact hstream)
      rw [hb] at hpixels
      have hzero : b.pixels = 0 := hpixels hchanges
      rw [hzero, Nat.add_zero]
  · refine hs.advanced (t := s.setPe { s.pe with readOut := out, jobs := { j with progress := j.progress + 1 } :: rest })
      hj rfl rfl rfl rfl ?_ fun hstream => absurd (hnot.symm.trans hstream) Bool.noConfusion
    change j.progress + 1 + s.pe.heldPixels ≤ s.readyPixels j.kind
    omega
  · refine hs.advanced (t := s.setPe { s.pe with heldBurst := some { b with changes := changes, pixels := b.pixels + 1 } })
      (n := j.progress) hj hj rfl rfl rfl ?_ fun hstream => ⟨rfl, fun hc => absurd hc (hne hstream)⟩
    rw [hheld hb] at hmore
    exact hmore

/-! ### Completion (R45) -/

/-- R45: a completion releases the uses of the entry that leaves. -/
theorem completeActive_tables (hj : s.pe.jobs = j :: rest) : ∃ w, w.surfaces = s.surfaces ∧ w.granules = s.granules ∧
    (completeActive s).surfaces = (releaseJob j.kind w).surfaces ∧
    (completeActive s).granules = (releaseJob j.kind w).granules := by
  have hseq (seq : Byte) (st : Status) (fields : List Byte) (v : State) :
      (completeSeq seq st fields v).surfaces = v.surfaces ∧ (completeSeq seq st fields v).granules = v.granules := by
    obtain ⟨_, _, _, h⟩ := completeSeq_eq seq st fields v
    rw [h]
    exact ⟨rfl, rfl⟩
  rw [completeActive_cons hj]
  cases j.kind with
  | fill dst r value => exact ⟨s.activeLeft rest, rfl, rfl, rfl, rfl⟩
  | copy dst src r dx dy key => exact ⟨s.activeLeft rest, rfl, rfl, rfl, rfl⟩
  | read target r link => exact ⟨s.activeLeft rest, rfl, rfl, hseq _ _ _ _⟩
  | fence link => exact ⟨s.activeLeft rest, rfl, rfl, hseq _ _ _ _⟩
  | stream dst r =>
    cases s.pe.session with
    | none => exact ⟨s.activeLeft rest, rfl, rfl, rfl, rfl⟩
    | some x =>
      refine ⟨(s.activeLeft rest).setPe (s.activeLeft rest).pe.closeSession, rfl, rfl, ?_⟩
      dsimp only
      cases x.link with
      | none => exact ⟨rfl, rfl⟩
      | some link => exact hseq _ _ _ _

theorem ClaimFrame.scanUses {s t : State} (h : ClaimFrame s t) : t.scanUses = s.scanUses := scanUses_of_pres h.pres

theorem Working.completed (hs : Working s) (hbusy : s.engineBusy = false) (hj : s.pe.jobs = j :: rest) :
    Working (completeActive s) := by
  obtain ⟨w, hsurfaces, hgranules, htable, hmap⟩ := completeActive_tables hj
  have hframe := completeActive_claim hj
  have hpe := completeActive_pe hj
  have huses : (completeActive s).scanUses = s.scanUses := hframe.scanUses
  have hkinds : (completeActive s).kinds = rest.map (·.kind) := by
    unfold State.kinds
    rw [hpe]
    rfl
  have hold : s.kinds = j.kind :: rest.map (·.kind) := by
    unfold State.kinds
    rw [hj]
    rfl
  have hledger : Ledger s.scanUses (rest.map (·.kind)) [] (completeActive s) :=
    ((hold ▸ hs.books.ledger).of_same hsurfaces hgranules).releaseJob.of_same htable hmap
  have hstay : SurfacesStay s (completeActive s) :=
    ((SurfacesStay.of_surfaces hsurfaces).trans (releaseJob_stay j.kind w (hsurfaces ▸ hs.books.length))).trans
      (.of_surfaces htable)
  have hbooks : Consistent (completeActive s) := by
    refine .of_ledger (huses.symm ▸ hkinds.symm ▸ hledger) hstay fun o => ?_
    rw [hframe.pres]
    exact (frameShapeLaw_iff s).1 hs.books.frames o
  have hnamed (k : Job) (hk : k ∈ rest) (id : Nat) (hid : id ∈ k.kind.surfaces) :
      ((completeActive s).surface id).shape = (s.surface id).shape :=
    (hstay.shape id).resolve_right (hledger.named (List.mem_map_of_mem hk) hid).2
  obtain ⟨⟨hlength, hshaped, hwaiting, hhead⟩, hlaw⟩ := hs.engine
  rw [hj] at hlength hshaped hwaiting
  have hjobs : (completeActive s).pe.jobs = rest := by rw [hpe]; rfl
  have hheld : (completeActive s).pe.heldBurst = none := by rw [hpe]; rfl
  refine ⟨hbooks, ⟨?_, fun k hk => ?_, fun k hk => ?_, ?_⟩, ?_⟩
  · rw [hjobs]
    exact Nat.le_of_succ_le hlength
  · rw [hjobs] at hk
    exact jobShaped_shape (hnamed k hk) (hshaped k (List.mem_cons_of_mem _ hk))
  · rw [hjobs] at hk
    exact hwaiting k (List.mem_of_mem_tail hk)
  · cases hrest : rest with
    | nil =>
      obtain ⟨-, -, hlive⟩ := engineBusy_eq_false.1 hbusy
      refine (headFits_nil (hjobs.trans hrest)).2 ⟨hheld, by rw [hpe]; rfl, ?_⟩
      have hport : (completeActive s).port = s.port := hframe.port
      unfold State.engineBurstLive at hlive ⊢
      rw [hport]
      exact hlive
    | cons k rest' =>
      have hzero : k.progress = 0 := hwaiting k (hrest ▸ List.mem_cons_self)
      rw [headFits_cons (hjobs.trans hrest), hzero]
      unfold Engine.heldPixels
      rw [hheld]
      exact Nat.zero_le _
  · cases hstream : j.isStream with
    | true =>
      obtain ⟨x, hx, hfits⟩ := hlaw.stream_session (hj ▸ List.mem_cons_self) hstream
      refine (sessionLaw_none ?_).2 ⟨?_, ?_⟩
      · rw [hpe, Engine.finished, hstream]
        rfl
      · rw [hjobs]
        exact hfits.rest hj hstream
      · rw [hpe, Engine.finished, hstream, hx]
        rfl
    | false =>
      have hsession : (completeActive s).pe.session = s.pe.session := by
        rw [hpe, Engine.finished, hstream]
        rfl
      have hstaging : (completeActive s).pe.staging = s.pe.staging := by
        rw [hpe, Engine.finished, hstream]
        rfl
      have hfilter : rest.filter Job.isStream = s.pe.jobs.filter Job.isStream := by
        rw [hj, List.filter_cons_of_neg (Bool.eq_false_iff.1 hstream)]
      cases hx : s.pe.session with
      | none =>
        obtain ⟨hnone, hempty⟩ := (sessionLaw_none hx).1 hlaw
        exact (sessionLaw_none (hsession.trans hx)).2 ⟨by rw [hjobs, hfilter]; exact hnone, hstaging.trans hempty⟩
      | some x =>
        have hfits := (sessionLaw_some hx).1 hlaw
        have hfilling : ((completeActive s).surface x.dst).state = .filling := hstay.filling _ hfits.filling
        have hformat : ((completeActive s).surface x.dst).format = (s.surface x.dst).format := by
          refine (shape_bounds ((hstay.shape x.dst).resolve_right fun hempty => ?_)).2.2
          rw [hfilling] at hempty
          cases hempty
        refine (sessionLaw_some (hsession.trans hx)).2 ?_
        exact
          { entry := by rw [hjobs, hfilter]; exact hfits.entry
            expected := by rw [hformat]; exact hfits.expected
            positive := hfits.positive
            written := hfits.written
            received := hfits.received
            staged := by rw [hstaging]; exact hfits.staged
            room := by rw [hstaging]; exact hfits.room
            linked := hfits.linked
            filling := hfilling
            done := fun k hk => by
              rw [writtenAfter_congr hformat]
              rw [hjobs, hfilter] at hk
              exact hfits.done k hk
            held := fun _ => by
              rw [hheld]
              trivial }

/-- R36: the Pixel Engine going on keeps its laws and the books. -/
theorem Working.settle (hs : Working s) : Working (settle s) := by
  refine Working.arbitrate ?_
  exact runEngine_keeps (fun _ _ _ b hs _ hj _ => hs.asked hj b) (fun _ _ _ _ hs _ hj hm => hs.moved hj hm)
    (fun _ _ _ hs hbusy hj _ => hs.completed hbusy hj) _ hs

/-! ### Bursts that complete (R36, R52) -/

/-- R52: with more pixels written no fewer bytes have left the buffer, and none that has not been received. -/
theorem SessionFits.writtenAfter_le {x : Session} (hfits : SessionFits s x) {n m : Nat} (hnm : n ≤ m)
    (hready : m ≤ s.readyPixels (.stream x.dst x.rect)) (hx : s.pe.session = some x) :
    s.writtenAfter (.stream x.dst x.rect) x n ≤ s.writtenAfter (.stream x.dst x.rect) x m ∧
      s.writtenAfter (.stream x.dst x.rect) x m ≤ x.received := by
  have hpixels : JobKind.pixels (.stream x.dst x.rect) = x.rect.area := rfl
  have hcovered : s.readyPixels (.stream x.dst x.rect) = min x.rect.area (8 * x.received / (s.surface x.dst).format.bpp) := by
    unfold State.readyPixels State.coveredPixels
    rw [hx]
    rfl
  have hbpp := Format.bpp_pos (s.surface x.dst).format
  rw [hcovered, le_min_iff, Nat.le_div_iff_mul_le hbpp] at hready
  obtain ⟨harea, hbits⟩ := hready
  have hexpected : x.expected = (x.rect.area * (s.surface x.dst).format.bpp + 7) / 8 := hfits.expected
  have hmul : n * (s.surface x.dst).format.bpp ≤ m * (s.surface x.dst).format.bpp := Nat.mul_le_mul_right _ hnm
  have hmul' : m * (s.surface x.dst).format.bpp ≤ x.rect.area * (s.surface x.dst).format.bpp := Nat.mul_le_mul_right _ harea
  have hreceived := hfits.received
  unfold State.writtenAfter
  rw [hpixels]
  by_cases hm : m = x.rect.area
  · subst hm
    rw [if_pos rfl]
    refine ⟨?_, by omega⟩
    split
    · exact Nat.le_refl _
    · omega
  · rw [if_neg hm, if_neg (by omega)]
    exact ⟨Nat.div_le_div_right hmul, by omega⟩

/-- R36, R52: a held burst of a STREAM lands, and the bytes of its pixels leave the staging buffer. -/
theorem Working.landed_stream (hs : Working s) (hj : s.pe.jobs = j :: rest) {h : HeldBurst} (hh : s.pe.heldBurst = some h)
    (hstream : j.isStream = true) : Working (landWrite s) := by
  obtain ⟨x, hx, hfits⟩ := hs.engine.session.stream_session (hj ▸ List.mem_cons_self) hstream
  have hkind := hfits.kind (hj ▸ List.mem_cons_self) hstream
  have hdst : j.kind.destination = some x.dst := by rw [hkind]; rfl
  have hland := (landWrite_eq hj hh hdst).trans (releaseStaged_of_stream hstream _ (x := x) hx)
  have hkinds := kinds_advanced (t := landWrite s) (n := j.progress + h.pixels) hj (by rw [hland]; rfl)
  obtain ⟨⟨hlength, hshaped, hwaiting, hhead⟩, -⟩ := hs.engine
  rw [headFits_cons hj] at hhead
  have hheld : s.pe.heldPixels = h.pixels := by
    unfold Engine.heldPixels
    rw [hh]
    rfl
  rw [hheld] at hhead
  have hdone := hfits.done j (List.mem_filter.2 ⟨hj ▸ List.mem_cons_self, hstream⟩)
  rw [hkind] at hdone hhead
  obtain ⟨hmono, hreceived⟩ := hfits.writtenAfter_le (Nat.le_add_right j.progress h.pixels) hhead hx
  have hbooks : Consistent (landWrite s) := by
    refine hs.books.of_kinds ?_ hkinds
    rw [hland]
    rfl
  have hjobs : (landWrite s).pe.jobs = { j with progress := j.progress + h.pixels } :: rest := by rw [hland]; rfl
  have hsurface (id : Nat) : (landWrite s).surface id = s.surface id := by rw [hland]; rfl
  have hsession : (landWrite s).pe.session =
      some { x with written := s.writtenAfter j.kind x (j.progress + h.pixels) } := by rw [hland]; rfl
  have hstaging : (landWrite s).pe.staging =
      s.pe.staging.drop (s.writtenAfter j.kind x (j.progress + h.pixels) - x.written) := by rw [hland]; rfl
  have hnone : (landWrite s).pe.heldBurst = none := by rw [hland]; rfl
  rw [hkind] at hsession hstaging
  rw [hj] at hlength hshaped hwaiting
  have hstaged := hfits.staged
  have hroom := hfits.room
  generalize hwritten : s.writtenAfter (.stream x.dst x.rect) x (j.progress + h.pixels) = written at *
  refine ⟨hbooks, ⟨?_, fun k hk => ?_, ?_, ?_⟩, (sessionLaw_some hsession).2 ?_⟩
  · rw [hjobs]
    exact hlength
  · rw [hjobs] at hk
    refine jobShaped_shape (s := s) (fun id _ => by rw [hsurface]) ?_
    rcases List.mem_cons.1 hk with rfl | hk
    · exact hshaped j List.mem_cons_self
    · exact hshaped k (List.mem_cons_of_mem _ hk)
  · rw [hjobs]
    exact hwaiting
  · rw [headFits_cons hjobs]
    unfold Engine.heldPixels
    rw [hnone]
    change j.progress + h.pixels ≤ (landWrite s).readyPixels j.kind
    have hready : (landWrite s).readyPixels (.stream x.dst x.rect) = s.readyPixels (.stream x.dst x.rect) := by
      unfold State.readyPixels State.coveredPixels
      rw [hsession, hx]
      dsimp only
      rw [hsurface]
    rw [hkind, hready]
    exact hhead
  · have hfilter : (landWrite s).pe.jobs.filter Job.isStream = [{ j with progress := j.progress + h.pixels }] := by
      rw [hjobs, List.filter_cons_of_pos (by exact hstream), hfits.rest hj hstream]
    exact
      { entry := by
          rw [hfilter]
          exact congrArg (fun k => [k]) hkind
        expected := by rw [hsurface]; exact hfits.expected
        positive := hfits.positive
        written := hreceived
        received := hfits.received
        staged := by
          rw [hstaging, List.length_drop]
          dsimp only
          omega
        room := by
          rw [hstaging, List.length_drop]
          omega
        linked := hfits.linked
        filling := by rw [hsurface]; exact hfits.filling
        done := fun k hk => by
          rw [hfilter] at hk
          obtain rfl := List.mem_singleton.1 hk
          change written = (landWrite s).writtenAfter j.kind { x with written := written } (j.progress + h.pixels)
          rw [writtenAfter_congr (s := s) (by rw [hsurface]), hkind, ← hwritten]
          rfl
        held := fun _ => by
          rw [hnone]
          trivial }

theorem Working.landWrite (hs : Working s) : Working (landWrite s) := by
  cases hj : s.pe.jobs with
  | nil =>
    unfold Machine.landWrite
    rw [hj]
    exact hs
  | cons j rest =>
    cases hh : s.pe.heldBurst with
    | none =>
      unfold Machine.landWrite
      rw [hj, hh]
      exact hs
    | some h =>
      cases hstream : j.isStream with
      | true => exact hs.landed_stream hj hh hstream
      | false =>
        have hland : Machine.landWrite s = { s with
            mem := applyChanges s.mem (j.kind.destination.elim Surface.empty s.surface).era h.changes
            pe := { s.pe with heldBurst := none, jobs := { j with progress := j.progress + h.pixels } :: rest } } := by
          unfold Machine.landWrite
          rw [hj, hh]
          exact releaseStaged_of_not_stream hstream _ _
        rw [hland]
        refine hs.advanced (n := j.progress + h.pixels) hj rfl rfl rfl rfl ?_ fun hc => absurd (hstream.symm.trans hc) Bool.noConfusion
        have hhead := (headFits_cons hj).1 hs.engine.queue.head
        unfold Engine.heldPixels at hhead
        rw [hh] at hhead
        exact hhead

theorem Working.finishEngineBurst (hs : Working s) (hjobs : s.pe.jobs ≠ []) (b : EngineBurst) :
    Working (finishEngineBurst b s) := by
  cases b with
  | readSource a => exact hs.of_sameWork (hs.books.of_bookSide rfl) (.of_surfaces rfl) ⟨rfl, rfl, rfl, rfl, fun _ hr hl => ⟨hr, hl⟩⟩
  | readDestination a =>
    obtain ⟨j, rest, hj⟩ := List.exists_cons_of_ne_nil hjobs
    have hhead := (headFits_cons hj).1 hs.engine.queue.head
    refine hs.advanced (t := s.setPe { s.pe with heldBurst := some ⟨a, [], 0⟩ }) (n := j.progress) hj hj rfl rfl rfl ?_
      fun _ => ⟨rfl, fun _ => rfl⟩
    exact Nat.le_trans (Nat.add_le_add_left (Nat.zero_le _) _) hhead
  | writeDestination a => exact hs.landWrite

/-- R146: the port free again leaves the work alone. -/
theorem Working.portFreed (hs : Working s) : Working (s.setInFlight none) :=
  hs.of_sameWork (hs.books.of_bookSide rfl) (.of_surfaces rfl) ⟨rfl, rfl, rfl, rfl, fun _ hr _ => ⟨hr, rfl⟩⟩

/-- R36: a burst awaited has an entry that awaits it. -/
theorem Working.jobs_of_live (hs : Working s) (hlive : s.engineBurstLive = true) : s.pe.jobs ≠ [] := by
  intro hj
  obtain ⟨-, -, hnot⟩ := (headFits_nil hj).1 hs.engine.queue.head
  exact Bool.noConfusion (hlive.symm.trans hnot)

end

theorem finishFetchBurst_bookSide (o : OutputId) (b : FetchBurst) (s : State) :
    (finishFetchBurst o b s).bookSide = s.bookSide := setOu_bookSide ..

theorem finishFetchBurst_awaits (o : OutputId) (b : FetchBurst) (s : State) :
    EngineAwaits s (finishFetchBurst o b s) := setOu_awaits ..

theorem BlockStep.working {s t : State} (h : BlockStep s t) (hs : Working s) : Working t := by
  rcases h.chain with ⟨b, live, hport, -, rfl⟩ | ⟨o, b, live, -, -, rfl⟩ | h
  · refine Working.settle ?_
    cases live with
    | false => exact hs.portFreed
    | true =>
      refine hs.portFreed.finishEngineBurst (hs.jobs_of_live ?_) b
      unfold State.engineBurstLive
      rw [hport]
  · refine Working.arbitrate ?_
    cases live with
    | false => exact hs.portFreed
    | true =>
      have hside := finishFetchBurst_bookSide o b (s.setInFlight none)
      exact hs.portFreed.of_sameWork (hs.portFreed.books.of_bookSide hside) (stay_of_bookSide hside)
        (finishFetchBurst_awaits o b _).sameWork
  · exact h.working hs

end Sys2Proof.Machine
end

