-- ==== Sys2Proof/Proofs/SurfaceRequests.lean ====
section
/-! SUPPORT. The requests of the Surface Manager keep the books and the engine's laws (R12 to R19). -/

namespace Sys2Proof.Machine

/-! ### Surfaces in use -/

/-- R8: an output or the Job Queue names the surface. -/
def State.inUse (s : State) (id : Nat) : Prop := id ∈ s.scanUses ∨ ∃ k ∈ s.kinds, id ∈ k.surfaces

section
variable {s t : State}

theorem Consistent.inUse_state (h : Consistent s) {id : Nat} (hid : s.inUse id) : (s.surface id).state ≠ .empty := by
  rcases hid with hid | ⟨k, hk, hid⟩
  · exact (h.ledger.scanned hid).2
  · exact (h.ledger.named hk hid).2

/-- R8: with no count left no use is. -/
theorem Consistent.not_inUse (h : Consistent s) {id : Nat} (hid : id < 64)
    (hnone : (s.surface id).scanRefs = 0 ∧ (s.surface id).jobRefs = 0) : ¬ s.inUse id := by
  obtain ⟨hscan, hjob, -⟩ := h.ledger.booked id hid
  rintro (hused | ⟨k, hk, hused⟩)
  · have := List.count_pos_iff.2 hused
    omega
  · have := naming_pos hk hused
    omega

/-- Surfaces changed with the books in order, those in use in shape, and the session's left FILLING. -/
theorem Working.resurfaced (hs : Working s) (hledger : Ledger s.scanUses s.kinds [] t) (hpe : t.pe = s.pe)
    (hpres : ∀ o, t.pres o = s.pres o) (hport : t.port = s.port)
    (hshape : ∀ id, s.inUse id → (t.surface id).shape = (s.surface id).shape)
    (hfilling : ∀ x, s.pe.session = some x → (t.surface x.dst).state = .filling) : Working t := by
  have huses : t.scanUses = s.scanUses := scanUses_of_pres hpres
  have hkinds : t.kinds = s.kinds := by
    unfold State.kinds
    rw [hpe]
  have hlive : t.engineBurstLive = s.engineBurstLive := by
    unfold State.engineBurstLive
    rw [hport]
  refine ⟨⟨by rw [huses, hkinds]; exact hledger, frameShapeLaw_of_shape (s := s) (fun id hid => ?_) fun o => ?_⟩,
    (SameWork.of_pe hpe hlive).engineFits hs.engine (fun k hk id hid => hshape id (.inr ⟨k, hk, hid⟩)) hfilling⟩
  · exact hshape id (.inl (huses ▸ hid))
  · rw [hpres]
    exact (frameShapeLaw_iff s).1 hs.books.frames o

theorem Working.session_filling (hs : Working s) {x : Session} (hx : s.pe.session = some x) :
    (s.surface x.dst).state = .filling := ((sessionLaw_some hx).1 hs.engine.session).filling

/-! ### CREATE_SURFACE (R12, R13) -/

theorem strideOf_pos (f : Format) {w : Nat} (hw : 1 ≤ w) : 1 ≤ strideOf f w := by
  have hpos : 1 ≤ w * f.bpp := Nat.mul_pos hw (Format.bpp_pos f)
  unfold strideOf ceilDiv
  omega

theorem granulesOf_pos {stride h : Nat} (hstride : 1 ≤ stride) (hh : 1 ≤ h) : 1 ≤ granulesOf stride h := by
  have hpos : 1 ≤ stride * h := Nat.mul_pos hstride hh
  unfold granulesOf ceilDiv Config.granuleBytes
  omega

theorem storedSize_pos (t : Transform) {w h : Nat} (hw : 1 ≤ w) (hh : 1 ≤ h) :
    1 ≤ (storedSize t w h).1 ∧ 1 ≤ (storedSize t w h).2 := by
  cases t <;> simp [storedSize, hw, hh]

theorem lowestEmpty_spec {id : Nat} (h : s.lowestEmpty = some id) : id < 64 ∧ (s.surface id).state = .empty := by
  unfold State.lowestEmpty at h
  have hstate := List.find?_some h
  rw [decide_eq_true_eq] at hstate
  exact ⟨List.mem_range.1 (List.mem_of_find?_eq_some h), hstate⟩

/-- R3, R13: a new record describes its surface. -/
theorem newSurface_shaped {f : Format} {tr : Transform} {w h base : Nat} (hint : Hint) (era : Nat)
    (hw : 1 ≤ w ∧ w ≤ 2048) (hh : 1 ≤ h ∧ h ≤ 2048) (hov2 : f = .ov2 → tr = .t0)
    (hbase : base + granulesOf (strideOf f (storedSize tr w h).1) (storedSize tr w h).2 ≤ 512) :
    surfaceShaped (newSurface f tr w h base hint era) :=
  ⟨hw.1, hw.2, hh.1, hh.2, hov2, rfl, rfl, rfl, hbase⟩

theorem Working.created (hs : Working s) {f : Format} {tr : Transform} {w h : Nat} {hint : Hint} {id base : Nat}
    (hid : s.lowestEmpty = some id) (hw : 1 ≤ w ∧ w ≤ 2048) (hh : 1 ≤ h ∧ h ≤ 2048) (hov2 : f = .ov2 → tr = .t0)
    (hplace : s.place (granulesOf (strideOf f (storedSize tr w h).1) (storedSize tr w h).2) hint = some base) :
    Working (createAt id (newSurface f tr w h base hint s.era) s) := by
  obtain ⟨hlt, hempty⟩ := lowestEmpty_spec hid
  have hlength : id < s.surfaces.length := hs.books.length ▸ hlt
  obtain ⟨hsw, hsh⟩ := storedSize_pos tr hw.1 hh.1
  have hfree := place_windowFree hplace
  have hend := windowFree_end_le (granulesOf_pos (strideOf_pos f hsw) hsh) hfree
  rw [hs.books.ledger.region.granules] at hend
  have hsurface (i : Nat) : (createAt id (newSurface f tr w h base hint s.era) s).surface i =
      if i = id then newSurface f tr w h base hint s.era else s.surface i :=
    surface_set s id i _ s.granules hlength
  have hother {i : Nat} (hi : (s.surface i).state ≠ .empty) :
      (createAt id (newSurface f tr w h base hint s.era) s).surface i = s.surface i := by
    rw [hsurface, if_neg fun he : i = id => hi (he ▸ hempty)]
  refine hs.resurfaced ⟨hs.books.ledger.region.created hlt hempty (fun hc => (by cases hc)) (newSurface_shaped hint s.era hw hh hov2 hend)
    hfree, hs.books.ledger.scanIds, hs.books.ledger.jobIds, fun i hi => ?_⟩ rfl (fun o => by cases o <;> rfl) rfl
    (fun i hi => by rw [hother (hs.books.inUse_state hi)]) fun x hx => ?_
  · obtain ⟨hscan, hjob, hwriter, hallowed, hsettled⟩ := hs.books.ledger.booked i hi
    rw [hsurface]
    split
    · next he =>
      subst he
      unfold Surface.allowed at hallowed
      rw [hempty] at hallowed
      obtain ⟨h1, h2, h3, -⟩ := hallowed
      exact ⟨h1.symm.trans hscan, h2.symm.trans hjob, h3.symm.trans hwriter, ⟨rfl, rfl⟩,
        fun _ => ⟨fun hc => (by cases hc), fun hc => (by cases hc)⟩⟩
    · exact ⟨hscan, hjob, hwriter, hallowed, hsettled⟩
  · have hfilling := hs.session_filling hx
    rw [hother (by rw [hfilling]; exact fun hc => by cases hc)]
    exact hfilling

/-! ### One record changed in its state (R14 to R19) -/

/-- R4: one record takes another state that its counts fit. -/
theorem Working.restated (hs : Working s) {id : Nat} (hid : id < 64) {state : SurfaceState} {pending : Bool}
    (hne : (s.surface id).state ≠ .empty) (hstate : state ≠ .empty)
    (hallowed : Surface.allowed { s.surface id with state := state, sealPending := pending })
    (hsettled : Surface.settled { s.surface id with state := state, sealPending := pending })
    (hsession : ∀ x, s.pe.session = some x → x.dst ≠ id) :
    Working (s.setSurface id { s.surface id with state := state, sealPending := pending }) := by
  have hlength : id < s.surfaces.length := hs.books.length ▸ hid
  obtain ⟨hscan, hjob, hwriter, -, -⟩ := hs.books.ledger.booked id hid
  have hbooked : Booked s.scanUses s.kinds [] id { s.surface id with state := state, sealPending := pending } :=
    ⟨hscan, hjob, hwriter, hallowed, fun _ => hsettled⟩
  refine hs.resurfaced (hs.books.ledger.setSurface hid (r := { s.surface id with state := state, sealPending := pending })
    ⟨rfl, fun hc => absurd hc hstate, fun hc => absurd hc hne⟩ (fun _ _ h => h) hbooked) rfl
    (fun o => by cases o <;> rfl) rfl (fun i _ => ?_) fun x hx => ?_
  · rw [surface_setSurface s i _ hlength]
    split
    · next he => rw [he]; rfl
    · rfl
  · rw [surface_setSurface s _ _ hlength, if_neg (hsession x hx)]
    exact hs.session_filling hx

/-- R18: the session's surface is FILLING, so no other state is its. -/
theorem Working.session_ne (hs : Working s) {id : Nat} (hstate : (s.surface id).state ≠ .filling) (x : Session)
    (hx : s.pe.session = some x) : x.dst ≠ id :=
  fun he => hstate (he ▸ hs.session_filling hx)

theorem sessionOn_ne {id : Nat} (h : s.sessionOn id = false) (x : Session) (hx : s.pe.session = some x) : x.dst ≠ id := by
  unfold State.sessionOn at h
  rw [hx] at h
  exact of_decide_eq_false h

/-- R7: a surface no one uses is freed. -/
theorem Working.freed (hs : Working s) {id : Nat} (hid : id < 64) (hready : (s.surface id).state = .ready)
    (hunused : (s.surface id).scanRefs = 0 ∧ (s.surface id).jobRefs = 0) : Working (freeSurface id s) := by
  have hlength : id < s.surfaces.length := hs.books.length ▸ hid
  obtain ⟨-, -, -, hallowed, -⟩ := hs.books.ledger.booked id hid
  unfold Surface.allowed at hallowed
  rw [hready] at hallowed
  refine hs.resurfaced (hs.books.ledger.freed hid ⟨hunused.1, hunused.2, hallowed.1⟩ fun _ _ h => h) rfl
    (fun o => by cases o <;> rfl) rfl (fun i hi => ?_) fun x hx => ?_
  · rw [freeSurface_surface s i hlength, if_neg fun he : i = id => hs.books.not_inUse hid hunused (he ▸ hi)]
  · rw [freeSurface_surface s _ hlength, if_neg (hs.session_ne (by rw [hready]; exact fun hc => by cases hc) x hx)]
    exact hs.session_filling hx

theorem SurfaceMove.working (h : SurfaceMove s t) (hs : Working s) : Working t := by
  have hallowed {id : Nat} (hid : id < 64) := (hs.books.ledger.booked id hid).allowed
  have notFilling {id : Nat} (hready : (s.surface id).state = .ready) : (s.surface id).state ≠ .filling := by
    rw [hready]
    exact fun hc => by cases hc
  cases h with
  | created hid hw hh hov2 hplace => exact hs.created hid hw hh hov2 hplace
  | freed hid hready hunused => exact hs.freed hid hready hunused
  | @discarding id hid hready hused =>
    have ha := hallowed hid
    unfold Surface.allowed at ha
    rw [hready] at ha
    refine hs.restated hid (pending := (s.surface id).sealPending) (by rw [hready]; exact fun hc => by cases hc) (fun hc => by cases hc) ha
      ⟨fun hc => (by cases hc), fun _ => ?_⟩ (hs.session_ne (notFilling hready))
    dsimp only
    omega
  | @sealed id hid hfilling hsession hwriters =>
    have ha := hallowed hid
    unfold Surface.allowed at ha
    rw [hfilling] at ha
    exact hs.restated hid (pending := (s.surface id).sealPending) (by rw [hfilling]; exact fun hc => by cases hc) (fun hc => by cases hc)
      ⟨hwriters, ha.2⟩ ⟨fun hc => (by cases hc), fun hc => (by cases hc)⟩ (sessionOn_ne hsession)
  | @sealing id hid hfilling hsession hwriters =>
    have ha := hallowed hid
    unfold Surface.allowed at ha
    rw [hfilling] at ha
    exact hs.restated hid (by rw [hfilling]; exact fun hc => by cases hc) (fun hc => by cases hc)
      ⟨ha.1, rfl⟩ ⟨fun _ => Nat.pos_of_ne_zero hwriters, fun hc => (by cases hc)⟩ (sessionOn_ne hsession)
  | @reopened id hid hready hunused =>
    have ha := hallowed hid
    unfold Surface.allowed at ha
    rw [hready] at ha
    exact hs.restated hid (pending := (s.surface id).sealPending) (by rw [hready]; exact fun hc => by cases hc) (fun hc => by cases hc)
      ⟨hunused.1, ha.2⟩ ⟨fun hc => (by cases hc), fun hc => (by cases hc)⟩ (hs.session_ne (notFilling hready))
  | stopped =>
    exact hs.of_sameWork (hs.books.of_bookSide rfl) (.of_surfaces rfl) ⟨rfl, rfl, rfl, rfl, fun _ _ hl => ⟨rfl, hl⟩⟩

end

end Sys2Proof.Machine
end

