-- ==== Sys2Proof/Proofs/QueueRequests.lean ====
section
/-! SUPPORT. Requests that add entries and data to the Pixel Engine, or abort a session, keep the books and its laws (R37, R46 to R55). -/

namespace Sys2Proof.Machine

section
variable {s t : State}

/-! ### Entries that join (R37, R49) -/

theorem appendJob_eq (k : JobKind) (s : State) :
    appendJob k s = addJobUses k (s.setPe { s.pe with jobs := s.pe.jobs ++ [⟨k, 0⟩] }) := rfl

/-- R37: an entry appended is booked, and the surfaces only gain its uses. -/
theorem Consistent.appended (hs : Consistent s) {k : JobKind} (hk : jobAccepted s k) :
    Consistent (appendJob k s) ∧ SurfacesStay s (appendJob k s) := by
  obtain ⟨hids, hdst, hnamed, -, -⟩ := hk
  obtain ⟨l, hframe⟩ := addJobUses_eq k (s.setPe { s.pe with jobs := s.pe.jobs ++ [⟨k, 0⟩] })
  rw [← appendJob_eq] at hframe
  have hkinds : (appendJob k s).kinds = s.kinds ++ [k] := by
    rw [hframe]
    exact List.map_append
  have hpres (o : OutputId) : (appendJob k s).pres o = s.pres o := by
    rw [hframe]
    cases o <;> rfl
  have hstay : SurfacesStay s (appendJob k s) :=
    (SurfacesStay.of_surfaces (s := s) (t := s.setPe { s.pe with jobs := s.pe.jobs ++ [⟨k, 0⟩] }) rfl).trans (addJobUses_stay k _)
  refine ⟨.of_ledger (s := s) ?_ hstay fun o => ?_, hstay⟩
  · rw [scanUses_of_pres hpres, hkinds]
    have hbare := hs.ledger.of_same (t := s.setPe { s.pe with jobs := s.pe.jobs ++ [⟨k, 0⟩] }) rfl rfl
    exact (hbare.addJobUses (fun id hid => (hids id hid).1) hnamed hdst).perm (.refl _)
      (List.perm_append_comm (l₁ := [k]))
  · rw [hpres]
    exact (frameShapeLaw_iff s).1 hs.frames o

/-- R52: only a STREAM's pixels depend on the session. -/
theorem readyPixels_of_not_stream {j : Job} (h : j.isStream = false) (s : State) : s.readyPixels j.kind = j.kind.pixels := by
  unfold Job.isStream at h
  unfold State.readyPixels
  cases hk : j.kind with
  | stream dst r => rw [hk] at h; cases h
  | _ => rfl

/-- R37: the queue's law with an entry appended. -/
theorem QueueFits.appended (hs : QueueFits s) {k : JobKind} (hk : jobAccepted s k)
    (hjobs : t.pe.jobs = s.pe.jobs ++ [⟨k, 0⟩]) (hheld : t.pe.heldBurst = s.pe.heldBurst)
    (hshape : ∀ k' ∈ k :: s.kinds, ∀ id ∈ k'.surfaces, (t.surface id).shape = (s.surface id).shape)
    (hready : ∀ j ∈ s.pe.jobs, t.readyPixels j.kind = s.readyPixels j.kind) : QueueFits t := by
  obtain ⟨-, -, -, hkshaped, hroom⟩ := hk
  obtain ⟨-, hshaped, hwaiting, hhead⟩ := hs
  refine ⟨?_, fun j hj => ?_, fun j hj => ?_, ?_⟩
  · rw [hjobs, List.length_append, List.length_singleton]
    exact hroom
  · rw [hjobs] at hj
    rcases List.mem_append.1 hj with hj | hj
    · exact jobShaped_shape (hshape _ (List.mem_cons_of_mem _ (mem_kinds hj))) (hshaped j hj)
    · obtain rfl := List.mem_singleton.1 hj
      exact jobShaped_shape (hshape _ List.mem_cons_self) hkshaped
  · cases hold : s.pe.jobs with
    | nil =>
      rw [hjobs, hold] at hj
      exact absurd hj List.not_mem_nil
    | cons j0 rest =>
      rw [hjobs, hold] at hj
      rw [hold] at hwaiting
      rcases List.mem_append.1 hj with hj | hj
      · exact hwaiting j hj
      · exact List.mem_singleton.1 hj ▸ rfl
  · cases hold : s.pe.jobs with
    | nil =>
      have hnone := ((headFits_nil hold).1 hhead).1
      rw [headFits_cons (j := ⟨k, 0⟩) (rest := []) (by rw [hjobs, hold]; rfl)]
      unfold Engine.heldPixels
      rw [hheld, hnone]
      exact Nat.zero_le _
    | cons j0 rest =>
      rw [headFits_cons hold] at hhead
      rw [headFits_cons (j := j0) (rest := rest ++ [⟨k, 0⟩]) (by rw [hjobs, hold]; rfl),
        hready j0 (hold ▸ List.mem_cons_self)]
      unfold Engine.heldPixels at hhead ⊢
      rw [hheld]
      exact hhead

theorem appendJob_pe (k : JobKind) (s : State) : (appendJob k s).pe = { s.pe with jobs := s.pe.jobs ++ [⟨k, 0⟩] } := by
  obtain ⟨l, h⟩ := addJobUses_eq k (s.setPe { s.pe with jobs := s.pe.jobs ++ [⟨k, 0⟩] })
  rw [appendJob_eq, h]
  rfl

/-- R8: what joins the queue leaves the shape of every surface it names. -/
theorem appended_shape (hs : Consistent s) {k : JobKind} (hk : jobAccepted s k) :
    ∀ k' ∈ k :: s.kinds, ∀ id ∈ k'.surfaces, ((appendJob k s).surface id).shape = (s.surface id).shape := by
  intro k' hk' id hid
  obtain ⟨hbooks, hstay⟩ := hs.appended hk
  have hkinds : (appendJob k s).kinds = s.kinds ++ [k] := by
    unfold State.kinds
    rw [appendJob_pe]
    exact List.map_append
  have hmem : k' ∈ (appendJob k s).kinds := by
    rw [hkinds]
    exact List.mem_append.2 ((List.mem_cons.1 hk').symm.imp_right fun h => List.mem_singleton.2 h)
  exact (hstay.shape id).resolve_right (hbooks.ledger.named hmem hid).2

theorem Working.queued (hs : Working s) {k : JobKind} (hk : jobAccepted s k) (hnot : ∀ dst r, k ≠ .stream dst r) :
    Working (appendJob k s) := by
  obtain ⟨hbooks, hstay⟩ := hs.books.appended hk
  have hpe := appendJob_pe k s
  have hshape := appended_shape hs.books hk
  have hsession : (appendJob k s).pe.session = s.pe.session := by rw [hpe]
  have hjobs : (appendJob k s).pe.jobs = s.pe.jobs ++ [⟨k, 0⟩] := by rw [hpe]
  have hflag : Job.isStream ⟨k, 0⟩ = false := by
    cases hf : Job.isStream ⟨k, 0⟩ with
    | false => rfl
    | true =>
      obtain ⟨dst, r, he⟩ := (isStream_iff _).1 hf
      exact absurd he (hnot dst r)
  have hfilter : (appendJob k s).pe.jobs.filter Job.isStream = s.pe.jobs.filter Job.isStream := by
    rw [hjobs, List.filter_append, List.filter_cons_of_neg (Bool.eq_false_iff.1 hflag), List.filter_nil, List.append_nil]
  have hformat (x : Session) (hx : s.pe.session = some x) :
      ((appendJob k s).surface x.dst).format = (s.surface x.dst).format :=
    (shape_bounds (hshape _ (List.mem_cons_of_mem _ ((sessionLaw_some hx).1 hs.engine.session).mem_kinds) _
      (List.mem_singleton_self _))).2.2
  refine ⟨hbooks, hs.engine.queue.appended hk hjobs (by rw [hpe]) hshape fun j _ => readyPixels_congr hsession hformat _, ?_⟩
  cases hx : s.pe.session with
  | none =>
    obtain ⟨hnone, hempty⟩ := (sessionLaw_none hx).1 hs.engine.session
    exact (sessionLaw_none (hsession.trans hx)).2 ⟨hfilter.trans hnone, by rw [hpe]; exact hempty⟩
  | some x =>
    have hfits := (sessionLaw_some hx).1 hs.engine.session
    refine (sessionLaw_some (hsession.trans hx)).2 ?_
    exact
      { entry := by rw [hfilter]; exact hfits.entry
        expected := by rw [hformat x hx]; exact hfits.expected
        positive := hfits.positive
        written := hfits.written
        received := hfits.received
        staged := by rw [hpe]; exact hfits.staged
        room := by rw [hpe]; exact hfits.room
        linked := hfits.linked
        filling := hstay.filling _ hfits.filling
        done := fun j hj => by
          rw [writtenAfter_congr (hformat x hx)]
          exact hfits.done j (hfilter ▸ hj)
        held := fun hhead => by
          rw [hpe]
          rw [hjobs] at hhead
          cases hold : s.pe.jobs with
          | nil =>
            rw [hold] at hhead
            exact absurd (hflag.symm.trans hhead) Bool.noConfusion
          | cons j0 rest =>
            rw [hold] at hhead
            exact hfits.held (by rw [hold]; exact hhead) }

theorem within_area_pos {r : Rect} {w h : Nat} (hwithin : r.within w h = true) : 1 ≤ r.area := by
  unfold Rect.within at hwithin
  simp only [Bool.and_eq_true, decide_eq_true_eq] at hwithin
  obtain ⟨⟨⟨hw, hh⟩, -⟩, -⟩ := hwithin
  exact Nat.mul_pos hw hh

theorem transferBytes_pos (f : Format) {n : Nat} (hn : 1 ≤ n) : 1 ≤ transferBytes f n := by
  have hpos : 1 ≤ n * f.bpp := Nat.mul_pos hn (Format.bpp_pos f)
  unfold transferBytes ceilDiv
  omega

/-- R49: a session opened with its entry. -/
theorem Working.begun (hs : Working s) {dst : Nat} {rect : Rect} (hk : jobAccepted s (.stream dst rect))
    (hsession : s.pe.session = none) : Working ((appendJob (.stream dst rect) s).setPe {
      (appendJob (.stream dst rect) s).pe with
        session := some (.begun dst rect (transferBytes (s.surface dst).format rect.area)), staging := [] }) := by
  obtain ⟨hbooks, hstay⟩ := hs.books.appended hk
  obtain ⟨hnone, -⟩ := (sessionLaw_none hsession).1 hs.engine.session
  have hpe := appendJob_pe (.stream dst rect) s
  have hshape := appended_shape hs.books hk
  have hjobs : (appendJob (.stream dst rect) s).pe.jobs = s.pe.jobs ++ [⟨.stream dst rect, 0⟩] := by rw [hpe]
  have hformat : ((appendJob (.stream dst rect) s).surface dst).format = (s.surface dst).format :=
    (shape_bounds (hshape _ List.mem_cons_self _ (List.mem_singleton_self _))).2.2
  have hfilter : (appendJob (.stream dst rect) s).pe.jobs.filter Job.isStream = [⟨.stream dst rect, 0⟩] := by
    rw [hjobs, List.filter_append, hnone]
    rfl
  have hfilling : (s.surface dst).state = .filling := hk.2.1 dst rfl
  have hpositive := transferBytes_pos (s.surface dst).format (within_area_pos hk.2.2.2.1)
  refine ⟨hbooks.of_bookSide rfl, hs.engine.queue.appended hk hjobs (by rw [hpe]; rfl) hshape fun j hj => ?_,
    (sessionLaw_some rfl).2 ?_⟩
  · have hflag : j.isStream = false := by
      cases hf : j.isStream with
      | false => rfl
      | true => exact absurd (List.mem_filter.2 ⟨hj, hf⟩) (hnone ▸ List.not_mem_nil)
    rw [readyPixels_of_not_stream hflag, readyPixels_of_not_stream hflag]
  · exact
      { entry := congrArg (List.map fun j : Job => j.kind) hfilter
        expected := congrArg (transferBytes · rect.area) hformat.symm
        positive := hpositive
        written := Nat.le_refl _
        received := Nat.zero_le _
        staged := rfl
        room := Nat.zero_le _
        linked := rfl
        filling := hstay.filling _ hfilling
        done := fun j hj => by
          obtain rfl := List.mem_singleton.1 (hfilter ▸ hj : j ∈ [(⟨.stream dst rect, 0⟩ : Job)])
          have harea : ¬ (0 = JobKind.pixels (.stream dst rect)) := Nat.ne_of_lt (within_area_pos hk.2.2.2.1)
          unfold State.writtenAfter
          rw [if_neg harea, Nat.zero_mul]
          rfl
        held := fun _ => by
          change (appendJob (.stream dst rect) s).pe.heldBurst.elim True _
          rw [hpe]
          cases hold : s.pe.jobs with
          | nil =>
            have hheld := ((headFits_nil hold).1 hs.engine.queue.head).1
            change s.pe.heldBurst.elim True _
            rw [hheld]
            trivial
          | cons j0 rest =>
            exfalso
            next hhead =>
            have hflag : j0.isStream = true := by
              have hhead : (appendJob (.stream dst rect) s).pe.jobs.head?.elim false Job.isStream = true := hhead
              rw [hjobs, hold] at hhead
              exact hhead
            have hmem : j0 ∈ s.pe.jobs.filter Job.isStream := List.mem_filter.2 ⟨hold ▸ List.mem_cons_self, hflag⟩
            rw [hnone] at hmem
            exact absurd hmem List.not_mem_nil }

/-! ### Data and the end of a session (R50 to R53) -/

/-- R50: the session takes data, and may end. -/
theorem Working.session_changed (hs : Working s) {x x' : Session} (hx : s.pe.session = some x) {staging : List Byte}
    (hsame : x'.dst = x.dst ∧ x'.rect = x.rect ∧ x'.expected = x.expected ∧ x'.written = x.written)
    (hmore : x.received ≤ x'.received) (hreceived : x'.received ≤ x.expected)
    (hstaged : staging.length = x'.received - x.written) (hroom : staging.length ≤ 4096)
    (hlinked : x'.endRequested = x'.link.isSome) :
    Working (s.setPe { s.pe with staging := staging, session := some x' }) := by
  obtain ⟨hdst, hrect, hexpected, hwritten⟩ := hsame
  have hfits := (sessionLaw_some hx).1 hs.engine.session
  obtain ⟨hlength, hshaped, hwaiting, hhead⟩ := hs.engine.queue
  refine ⟨hs.books.of_bookSide rfl, ⟨hlength, hshaped, hwaiting, ?_⟩, (sessionLaw_some rfl).2 ?_⟩
  · cases hj : s.pe.jobs with
    | nil => exact (headFits_nil (s := s.setPe { s.pe with staging := staging, session := some x' }) hj).2 ((headFits_nil hj).1 hhead)
    | cons j rest =>
      rw [headFits_cons hj] at hhead
      refine (headFits_cons (s := s.setPe { s.pe with staging := staging, session := some x' }) hj).2 (Nat.le_trans hhead ?_)
      cases hk : j.kind with
      | stream dst r =>
        unfold State.readyPixels State.coveredPixels
        rw [hx]
        dsimp only [State.setPe, State.surface]
        rw [hdst]
        exact min_le_min_left _ (Nat.div_le_div_right (Nat.mul_le_mul_left 8 hmore))
      | _ => exact Nat.le_refl _
  · exact
      { entry := by rw [hdst, hrect]; exact hfits.entry
        expected := by rw [hdst, hrect, hexpected]; exact hfits.expected
        positive := by rw [hexpected]; exact hfits.positive
        written := by rw [hwritten]; exact Nat.le_trans hfits.written hmore
        received := by rw [hexpected]; exact hreceived
        staged := by rw [hwritten]; exact hstaged
        room := hroom
        linked := hlinked
        filling := by rw [hdst]; exact hfits.filling
        done := fun j hj => by
          have hdone := hfits.done j hj
          unfold State.writtenAfter at hdone ⊢
          dsimp only [State.setPe, State.surface] at hdone ⊢
          rw [hwritten, hexpected, hdst]
          exact hdone
        held := hfits.held }

theorem Working.staged (hs : Working s) {x : Session} (data : List Byte) (hx : s.pe.session = some x)
    (hroom : ¬ s.pe.room < x.takes data) : Working (stageData x data s).1 := by
  have hfits := (sessionLaw_some hx).1 hs.engine.session
  have htakes : x.takes data ≤ data.length ∧ x.takes data ≤ x.expected - x.received :=
    ⟨Nat.min_le_left _ _, Nat.min_le_right _ _⟩
  have hlength : (s.pe.staging ++ data.take (x.takes data)).length = s.pe.staging.length + x.takes data := by
    rw [List.length_append, List.length_take, Nat.min_eq_left htakes.1]
  have hstaged := hfits.staged
  have hold := hfits.room
  have hwritten := hfits.written
  have hreceived := hfits.received
  have hroom : x.takes data ≤ 4096 - s.pe.staging.length := Nat.le_of_not_lt hroom
  refine hs.session_changed (x' := { x with received := x.received + x.takes data }) hx ⟨rfl, rfl, rfl, rfl⟩
    (Nat.le_add_right _ _) ?_ ?_ ?_ hfits.linked
  · dsimp only
    omega
  · rw [hlength]
    dsimp only
    omega
  · rw [hlength]
    omega

theorem Working.ended (hs : Working s) {x : Session} (seq : Byte) (hx : s.pe.session = some x) :
    Working (s.setPe { s.pe with session := some { x with endRequested := true, link := some seq } }) := by
  have hfits := (sessionLaw_some hx).1 hs.engine.session
  exact hs.session_changed (x' := { x with endRequested := true, link := some seq }) (staging := s.pe.staging) hx
    ⟨rfl, rfl, rfl, rfl⟩ (Nat.le_refl _) hfits.received hfits.staged hfits.room rfl

/-! ### Entries that leave (R46, R55, R56) -/

/-- R46: what leaves the queue without the doomed entries keeps its law. -/
theorem QueueFits.taken (hs : QueueFits s) {doomed : Job → Bool}
    (hjobs : t.pe.jobs = s.pe.jobs.filter fun j => !doomed j)
    (hkept : s.pe.jobs.head?.elim false doomed = false →
      t.pe.heldBurst = s.pe.heldBurst ∧ t.pe.request = s.pe.request ∧ t.engineBurstLive = s.engineBurstLive)
    (hgone : s.pe.jobs.head?.elim false doomed = true →
      t.pe.heldBurst = none ∧ t.pe.request = none ∧ t.engineBurstLive = false)
    (hshape : ∀ j ∈ t.pe.jobs, ∀ id ∈ j.kind.surfaces, (t.surface id).shape = (s.surface id).shape)
    (hready : ∀ j ∈ t.pe.jobs, t.readyPixels j.kind = s.readyPixels j.kind) : QueueFits t := by
  obtain ⟨hlength, hshaped, hwaiting, hhead⟩ := hs
  have hsub : ∀ j ∈ t.pe.jobs, j ∈ s.pe.jobs := fun j hj => by
    rw [hjobs] at hj
    exact List.mem_of_mem_filter hj
  refine ⟨?_, fun j hj => jobShaped_shape (hshape j hj) (hshaped j (hsub j hj)), ?_, ?_⟩
  · rw [hjobs]
    exact Nat.le_trans (List.length_filter_le _ _) hlength
  · cases hold : s.pe.jobs with
    | nil =>
      rw [hold] at hjobs
      rw [hjobs]
      exact fun j hj => absurd hj List.not_mem_nil
    | cons j0 rest =>
      rw [hold] at hjobs hwaiting
      intro j hj
      rw [hjobs] at hj
      have hin : j ∈ rest := by
        rw [List.filter_cons] at hj
        split at hj
        · exact List.mem_of_mem_filter hj
        · exact List.mem_of_mem_filter (List.mem_of_mem_tail hj)
      exact hwaiting j hin
  · cases hold : s.pe.jobs with
    | nil =>
      obtain ⟨hh, hr, hl⟩ := (headFits_nil hold).1 hhead
      obtain ⟨hh', hr', hl'⟩ := hkept (by rw [hold]; rfl)
      exact (headFits_nil (by rw [hjobs, hold]; rfl)).2 ⟨hh'.trans hh, hr'.trans hr, hl'.trans hl⟩
    | cons j0 rest =>
      cases hdoomed : doomed j0 with
      | true =>
        obtain ⟨hh, hr, hl⟩ := hgone (by rw [hold]; exact hdoomed)
        cases hleft : t.pe.jobs with
        | nil => exact (headFits_nil hleft).2 ⟨hh, hr, hl⟩
        | cons j1 rest' =>
          have hin : j1 ∈ rest := by
            have hmem : j1 ∈ t.pe.jobs := hleft ▸ List.mem_cons_self
            rw [hjobs, hold, List.filter_cons_of_neg (by rw [hdoomed]; exact Bool.false_ne_true)] at hmem
            exact List.mem_of_mem_filter hmem
          rw [hold] at hwaiting
          rw [headFits_cons hleft, hwaiting j1 hin]
          unfold Engine.heldPixels
          rw [hh]
          exact Nat.zero_le _
      | false =>
        obtain ⟨hh, -, -⟩ := hkept (by rw [hold]; exact hdoomed)
        have hleft : t.pe.jobs = j0 :: rest.filter fun j => !doomed j := by
          rw [hjobs, hold, List.filter_cons_of_pos (by rw [hdoomed]; rfl)]
        rw [headFits_cons hold] at hhead
        rw [headFits_cons hleft, hready j0 (hleft ▸ List.mem_cons_self)]
        unfold Engine.heldPixels at hhead ⊢
        rw [hh]
        exact hhead

theorem Ledger.unsettle {scans : List Nat} {kinds : List JobKind} {unsettled : List Nat} (h : Ledger scans kinds [] s) :
    Ledger scans kinds unsettled s := by
  refine ⟨h.region, h.scanIds, h.jobIds, fun id hid => ?_⟩
  obtain ⟨hs, hj, hw, ha, hset⟩ := h.booked id hid
  exact ⟨hs, hj, hw, ha, fun _ => hset List.not_mem_nil⟩

/-- The kinds of the entries taken, and of those left. -/
theorem kinds_perm_filter (s : State) (doomed : Job → Bool) : s.kinds.Perm
    ((s.pe.jobs.filter doomed).map (·.kind) ++ (s.pe.jobs.filter fun j => !doomed j).map (·.kind)) := by
  rw [← List.map_append]
  exact ((List.filter_append_perm doomed s.pe.jobs).symm).map _

/-- R55: an abort takes the session's entry with its uses. -/
theorem Working.aborted (hs : Working s) (hsome : s.pe.session.isSome = true) : Working (abortSession s).1 := by
  obtain ⟨x, hx⟩ := Option.isSome_iff_exists.1 hsome
  have hfits := (sessionLaw_some hx).1 hs.engine.session
  obtain ⟨written, mem, source, held, readOut, request, habort, hgone, hkept, -, -⟩ := abortSession_eq hx hs.engine.session
  rw [habort]
  dsimp only
  generalize ht : ({ s with
    mem := mem
    pe := { jobs := s.pe.jobs.filter fun j => !j.isStream, stopped := s.pe.stopped, session := none, staging := []
            source := source, heldBurst := held, readOut := readOut, request := request }
    port := s.portAfterAbort
    surfaces := s.surfaces.mapIdx fun i r => r.lessJob (.stream x.dst x.rect) i
    replies := (toldCancelled x.link s).replies, cache := (toldCancelled x.link s).cache
    pendingReplies := (toldCancelled x.link s).pendingReplies } : State) = t
  have hsurfaces : t.surfaces = (jobGivenUp [] (.stream x.dst x.rect) s).surfaces := by rw [← ht]; rfl
  have hgranules : t.granules = (jobGivenUp [] (.stream x.dst x.rect) s).granules := by rw [← ht]; rfl
  have hpres (o : OutputId) : t.pres o = s.pres o := by rw [← ht]; cases o <;> rfl
  have hkinds : t.kinds = (s.pe.jobs.filter fun j => !j.isStream).map (·.kind) := by rw [← ht]; rfl
  have hstay : SurfacesStay s t := (jobGivenUp_stay [] _ s hs.books.length).trans (.of_surfaces hsurfaces)
  have hledger : Ledger s.scanUses t.kinds [] t := by
    have hperm := kinds_perm_filter s Job.isStream
    rw [hfits.entry, ← hkinds] at hperm
    have hgiven := ((hs.books.ledger.perm (.refl _) hperm).unsettle (unsettled := [x.dst])).jobGivenUp (ids := [])
      (fun id hid => hid)
    have hopen := hgiven.of_same hsurfaces hgranules
    refine ⟨hopen.region, hopen.scanIds, hopen.jobIds, fun id hid => ?_⟩
    obtain ⟨h1, h2, h3, h4, h5⟩ := hopen.booked id hid
    refine ⟨h1, h2, h3, h4, fun _ => ?_⟩
    by_cases he : id = x.dst
    · have hfilling := hstay.filling _ hfits.filling
      unfold Surface.settled
      rw [he, hfilling]
      exact ⟨fun hc => (by cases hc), fun hc => (by cases hc)⟩
    · exact h5 fun hc => he (List.mem_singleton.1 hc)
  have hbooks : Consistent t := by
    refine .of_ledger (by rw [scanUses_of_pres hpres]; exact hledger) hstay fun o => ?_
    rw [hpres]
    exact (frameShapeLaw_iff s).1 hs.books.frames o
  have hjobs : t.pe.jobs = s.pe.jobs.filter fun j => !j.isStream := by rw [← ht]
  have hlive : t.engineBurstLive = (s.engineBurstLive && !s.pe.jobs.head?.elim false Job.isStream) := by
    rw [← ht]
    exact engineBurstLive_portAfterAbort s
  refine ⟨hbooks, hs.engine.queue.taken (doomed := Job.isStream) hjobs (fun hhead => ?_) (fun hhead => ?_) (fun j hj id hid => ?_)
    fun j hj => ?_, (sessionLaw_none (by rw [← ht])).2 ⟨?_, by rw [← ht]⟩⟩
  · obtain ⟨-, hh, -, hr⟩ := hkept hhead
    refine ⟨by rw [← ht]; exact hh, by rw [← ht]; exact hr, ?_⟩
    rw [hlive, hhead, Bool.not_false, Bool.and_true]
  · obtain ⟨-, hh, -, hr⟩ := hgone hhead
    refine ⟨by rw [← ht]; exact hh, by rw [← ht]; exact hr, ?_⟩
    rw [hlive, hhead, Bool.not_true, Bool.and_false]
  · exact (hstay.shape id).resolve_right (hledger.named (mem_kinds hj) hid).2
  · rw [hjobs] at hj
    have hflag : j.isStream = false := by simpa using (List.mem_filter.1 hj).2
    rw [readyPixels_of_not_stream hflag, readyPixels_of_not_stream hflag]
  · rw [hjobs, List.filter_filter]
    exact List.filter_eq_nil_iff.2 fun j _ => by cases j.isStream <;> simp

end

end Sys2Proof.Machine
end

