-- ==== Sys2Proof/Proofs/DiscardKept.lean ====
section
/-! PROOF. DISCARD_SURFACE of a surface that is not READY keeps the books and the Pixel Engine's laws; with it every command does
(R2 to R10, R16, R46). -/

namespace Sys2Proof.Machine

section
variable {s t : State} {id : Nat}

/-! ### Entries cancelled one after another (R46) -/

theorem answerCancelled_tables (k : JobKind) (s : State) :
    (answerCancelled k s).surfaces = s.surfaces ∧ (answerCancelled k s).granules = s.granules := by
  have hseq (seq : Byte) (v : State) : (completeSeq seq .cancelled [] v).surfaces = v.surfaces ∧
      (completeSeq seq .cancelled [] v).granules = v.granules := by
    obtain ⟨_, _, _, h⟩ := completeSeq_eq seq .cancelled [] v
    rw [h]
    exact ⟨rfl, rfl⟩
  unfold answerCancelled
  cases k with
  | read target r link => exact hseq link s
  | stream dst r =>
    dsimp only
    cases s.pe.session with
    | none => exact ⟨rfl, rfl⟩
    | some x =>
      dsimp only
      cases x.link with
      | none => exact ⟨rfl, rfl⟩
      | some link => exact hseq link _
  | _ => exact ⟨rfl, rfl⟩

/-- R46: entries cancelled are off the books, and only their surface may have something still to follow. -/
theorem Ledger.cancelled {scans : List Nat} {kinds : List JobKind} {js : List Job}
    (h : Ledger scans (js.map (·.kind) ++ kinds) [id] s) :
    Ledger scans kinds [id] (js.foldl (cancelEntry id) s) ∧ SurfacesStay s (js.foldl (cancelEntry id) s) := by
  induction js generalizing s with
  | nil => exact ⟨h, .refl s⟩
  | cons j js ih =>
    obtain ⟨hsurfaces, hgranules⟩ := answerCancelled_tables j.kind (releaseCancelled id j.kind s)
    have hgiven := Ledger.jobGivenUp (ids := j.kind.surfaces.filter fun i => decide (i ≠ id)) (k := j.kind) h fun i hi => by
      by_cases he : i = id
      · exact List.mem_append_right _ (List.mem_singleton.2 he)
      · exact List.mem_append_left _ (List.mem_filter.2 ⟨hi, decide_eq_true he⟩)
    rw [← releaseCancelled_eq] at hgiven
    have hstay : SurfacesStay s (releaseCancelled id j.kind s) := by
      rw [releaseCancelled_eq]
      exact jobGivenUp_stay _ _ s h.region.surfaces
    obtain ⟨hrest, hmore⟩ := ih (s := cancelEntry id s j) (hgiven.of_same hsurfaces hgranules)
    exact ⟨hrest, (hstay.trans (.of_surfaces hsurfaces)).trans hmore⟩

theorem naming_iff (id : Nat) (j : Job) : j.naming id = true ↔ id ∈ j.kind.surfaces := List.contains_iff_mem

/-! ### The Job Queue and the session without the entries cancelled (R16, R46, R56) -/

/-- R46: a STREAM names the surface of the open session. -/
theorem SessionFits.naming {x : Session} (h : SessionFits s x) {j : Job} (hj : j ∈ s.pe.jobs) (hstream : j.isStream = true) :
    j.naming id = decide (x.dst = id) := by
  have hmem := naming_iff id j
  rw [h.kind hj hstream] at hmem
  rw [Bool.eq_iff_iff, hmem, decide_eq_true_eq]
  exact List.mem_singleton.trans eq_comm

/-- R56: the session is closed when the surface is its own. -/
theorem SessionFits.cancels {x : Session} (h : SessionFits s x) :
    (s.pe.jobs.any fun j => j.naming id && j.isStream) = decide (x.dst = id) := by
  obtain ⟨j, hj, hk⟩ := List.mem_map.1 h.mem_kinds
  have hstream : j.isStream = true := (isStream_iff j).2 ⟨_, _, hk⟩
  cases hd : decide (x.dst = id) with
  | true => exact List.any_eq_true.2 ⟨j, hj, by rw [h.naming hj hstream, hd, hstream]; rfl⟩
  | false =>
    refine List.any_eq_false.2 fun k hk hboth => ?_
    obtain ⟨hnaming, hstream⟩ := Bool.and_eq_true_iff.1 hboth
    rw [h.naming hk hstream, hd] at hnaming
    cases hnaming

/-- R46, R56: the engine of `t` is the one of `s` without the entries that name surface `id`. -/
structure Discards (id : Nat) (s t : State) : Prop where
  jobs : t.pe.jobs = s.pe.jobs.filter fun j => !j.naming id
  kept : s.pe.jobs.head?.elim false (Job.naming id) = false →
    t.pe.heldBurst = s.pe.heldBurst ∧ t.pe.request = s.pe.request ∧ t.engineBurstLive = s.engineBurstLive
  gone : s.pe.jobs.head?.elim false (Job.naming id) = true →
    t.pe.heldBurst = none ∧ t.pe.request = none ∧ t.engineBurstLive = false
  session : t.pe.session = if s.pe.jobs.any fun j => j.naming id && j.isStream then none else s.pe.session
  staging : t.pe.staging =
    if (s.pe.jobs.any fun j => j.naming id && j.isStream) && s.pe.session.isSome then [] else s.pe.staging

theorem Discards.of_engine (hpe : t.pe = (jobsTaken (Job.naming id) s).pe.cancelled
    (s.pe.jobs.any fun j => j.naming id && j.isStream)) (hport : t.port = (jobsTaken (Job.naming id) s).port) :
    Discards id s t := by
  have hlive : t.engineBurstLive = (jobsTaken (Job.naming id) s).engineBurstLive := by
    unfold State.engineBurstLive
    rw [hport]
  rw [Engine.cancelled_eq] at hpe
  have hsame : (jobsTaken (Job.naming id) s).pe.session = s.pe.session ∧
      (jobsTaken (Job.naming id) s).pe.staging = s.pe.staging ∧
      (jobsTaken (Job.naming id) s).pe.jobs = s.pe.jobs.filter fun j => !j.naming id := by
    obtain ⟨_, _, _, _, _, htaken⟩ := jobsTaken_eq (Job.naming id) s
    rw [htaken]
    exact ⟨rfl, rfl, rfl⟩
  obtain ⟨hsession, hstaging, hjobs⟩ := hsame
  refine ⟨by rw [hpe]; exact hjobs, fun hhead => ?_, fun hhead => ?_, by rw [hpe, hsession], by rw [hpe, hsession, hstaging]⟩
  · rw [hlive, hpe, jobsTaken_of_not_head _ _ hhead]
    exact ⟨rfl, rfl, rfl⟩
  · rw [hlive, hpe, jobsTaken_of_head _ _ hhead]
    exact ⟨rfl, rfl, deadEngineBurst_not_live s s.port.inFlight⟩

theorem Discards.stream_jobs (h : Discards id s t) : t.pe.jobs.filter Job.isStream =
    s.pe.jobs.filter fun j => j.isStream && !j.naming id := by
  rw [h.jobs, List.filter_filter]

/-- R46: the session of another surface, and its entry, stay. -/
theorem Discards.session_other (h : Discards id s t) {x : Session} (hfits : SessionFits s x) (hx : s.pe.session = some x)
    (hdst : x.dst ≠ id) : t.pe.session = some x ∧ t.pe.staging = s.pe.staging ∧
      t.pe.jobs.filter Job.isStream = s.pe.jobs.filter Job.isStream := by
  have hany := (hfits.cancels (id := id)).trans (decide_eq_false hdst)
  refine ⟨by rw [h.session, hany]; exact hx, by rw [h.staging, hany]; rfl, ?_⟩
  rw [h.stream_jobs]
  refine List.filter_congr fun j hj => ?_
  cases hstream : j.isStream with
  | false => rfl
  | true =>
    rw [hfits.naming hj hstream, decide_eq_false hdst]
    rfl

/-- R46, R56: what remains of the session's law. -/
theorem Discards.sessionLaw (h : Discards id s t) (hs : SessionLaw s) (hsurface : ∀ x, s.pe.session = some x → x.dst ≠ id →
    (t.surface x.dst).format = (s.surface x.dst).format ∧ (t.surface x.dst).state = .filling) : SessionLaw t := by
  cases hx : s.pe.session with
  | none =>
    obtain ⟨hnone, hempty⟩ := (sessionLaw_none hx).1 hs
    have hsession : t.pe.session = none := by
      rw [h.session, hx]
      split <;> rfl
    refine (sessionLaw_none hsession).2 ⟨?_, ?_⟩
    · rw [h.jobs, List.filter_comm, hnone]
      rfl
    · rw [h.staging, hx, Option.isSome_none, Bool.and_false]
      exact hempty
  | some x =>
    have hfits := (sessionLaw_some hx).1 hs
    by_cases hdst : x.dst = id
    · have hany := (hfits.cancels (id := id)).trans (decide_eq_true hdst)
      refine (sessionLaw_none (by rw [h.session, hany]; rfl)).2 ⟨?_, by rw [h.staging, hany, hx]; rfl⟩
      rw [h.stream_jobs]
      refine List.filter_eq_nil_iff.2 fun j hj => ?_
      cases hstream : j.isStream with
      | false => exact Bool.false_ne_true
      | true =>
        rw [hfits.naming hj hstream, decide_eq_true hdst]
        exact Bool.false_ne_true
    · obtain ⟨hsession, hstaging, hfilter⟩ := h.session_other hfits hx hdst
      obtain ⟨hformat, hfilling⟩ := hsurface x hx hdst
      refine (sessionLaw_some hsession).2 ?_
      exact
        { entry := hfilter ▸ hfits.entry
          expected := by rw [hformat]; exact hfits.expected
          positive := hfits.positive
          written := hfits.written
          received := hfits.received
          staged := hstaging ▸ hfits.staged
          room := hstaging ▸ hfits.room
          linked := hfits.linked
          filling := hfilling
          done := fun j hj => by
            rw [writtenAfter_congr hformat]
            exact hfits.done j (hfilter ▸ hj)
          held := fun hhead => by
            cases hnaming : s.pe.jobs.head?.elim false (Job.naming id) with
            | true =>
              rw [(h.gone hnaming).1]
              trivial
            | false =>
              rw [(h.kept hnaming).1]
              refine hfits.held ?_
              rw [h.jobs] at hhead
              cases hold : s.pe.jobs with
              | nil =>
                rw [hold] at hhead
                exact hhead
              | cons j rest =>
                rw [hold] at hhead hnaming
                rw [List.filter_cons_of_pos (by rw [show j.naming id = false from hnaming]; rfl)] at hhead
                exact hhead }

theorem Discards.readyPixels (h : Discards id s t) (hs : SessionLaw s) (hformat : ∀ x, s.pe.session = some x → x.dst ≠ id →
    (t.surface x.dst).format = (s.surface x.dst).format) {j : Job} (hj : j ∈ t.pe.jobs) :
    t.readyPixels j.kind = s.readyPixels j.kind := by
  cases hstream : j.isStream with
  | false => rw [readyPixels_of_not_stream hstream, readyPixels_of_not_stream hstream]
  | true =>
    rw [h.jobs] at hj
    obtain ⟨hj, hnot⟩ := List.mem_filter.1 hj
    obtain ⟨x, hx, hfits⟩ := hs.stream_session hj hstream
    have hdst : x.dst ≠ id := by
      rw [hfits.naming hj hstream] at hnot
      simpa using hnot
    refine readyPixels_congr ((h.session_other hfits hx hdst).1.trans hx.symm) (fun x' hx' => ?_) _
    obtain rfl := Option.some.inj (hx.symm.trans hx')
    exact hformat x hx hdst

/-! ### DISCARD_SURFACE (R16) -/

/-- R16, R46: what is not freed keeps its shape, and FILLING surfaces but the discarded one their state. -/
structure DiscardedBooks (id : Nat) (s t : State) : Prop where
  ledger : Ledger s.scanUses ((s.pe.jobs.filter fun j => !j.naming id).map (·.kind)) [] t
  shape : ∀ i, (t.surface i).shape = (s.surface i).shape ∨ (t.surface i).state = .empty
  filling : ∀ i, i ≠ id → (s.surface i).state = .filling → (t.surface i).state = .filling

theorem naming_rest (s : State) (id : Nat) :
    naming ((s.pe.jobs.filter fun j => !j.naming id).map (·.kind)) id = 0 ∧
      writing ((s.pe.jobs.filter fun j => !j.naming id).map (·.kind)) id = 0 := by
  have hnot (k : JobKind) (hk : k ∈ (s.pe.jobs.filter fun j => !j.naming id).map (·.kind)) : id ∉ k.surfaces := by
    obtain ⟨j, hj, rfl⟩ := List.mem_map.1 hk
    intro hmem
    have hfalse := (List.mem_filter.1 hj).2
    rw [(naming_iff id j).2 hmem] at hfalse
    cases hfalse
  refine ⟨List.length_eq_zero_iff.2 (List.filter_eq_nil_iff.2 fun k hk hc => ?_),
    List.length_eq_zero_iff.2 (List.filter_eq_nil_iff.2 fun k hk hc => ?_)⟩
  · exact hnot k hk (List.contains_iff_mem.1 hc)
  · exact hnot k hk (mem_surfaces_of_destination (of_decide_eq_true hc))

/-- R16: a FILLING or SEALING surface has no scan references. -/
theorem Surface.allowed.unscanned {r : Surface} (h : r.allowed) (hstate : r.state = .filling ∨ r.state = .sealing) :
    r.scanRefs = 0 := by
  unfold Surface.allowed at h
  rcases hstate with hstate | hstate <;> rw [hstate] at h
  · exact h.1
  · exact h.1

/-- What DISCARD_SURFACE leaves of `c`, where the entries are cancelled: a reply, and the surface freed. -/
theorem discardUnfinished_eq (id : Nat) (s : State) : ∃ u, u.surfaces = (cancelNaming id s).surfaces ∧
    u.granules = (cancelNaming id s).granules ∧ ClaimFrame (cancelNaming id s) u ∧
    (discardUnfinished id (s.surface id) s).1 = freeSurface id u := by
  cases hseal : (s.surface id).sealPending with
  | false => exact ⟨cancelNaming id s, rfl, rfl, .refl _, by unfold discardUnfinished; rw [hseal]; rfl⟩
  | true =>
    exact ⟨completeRef (.seal id) .cancelled (cancelNaming id s), completeRef_surfaces _ _ _, completeRef_granules _ _ _,
      completeRef_frame _ _ _, by unfold discardUnfinished; rw [hseal]; rfl⟩

theorem Consistent.discarded (hs : Consistent s) (hid : id < 64)
    (hstate : (s.surface id).state = .filling ∨ (s.surface id).state = .sealing) :
    DiscardedBooks id s (discardUnfinished id (s.surface id) s).1 := by
  obtain ⟨u, hsurfaces, hgranules, -, ht⟩ := discardUnfinished_eq id s
  rw [ht]
  obtain ⟨_, _, _, _, _, htaken⟩ := jobsTaken_eq (Job.naming id) s
  have hopen : Ledger s.scanUses _ [id] (jobsTaken (Job.naming id) s) :=
    ((hs.ledger.perm (.refl _) (kinds_perm_filter s (Job.naming id))).unsettle).of_same (by rw [htaken]) (by rw [htaken])
  obtain ⟨hledger, hstay⟩ := hopen.cancelled
  rw [← cancelNaming_eq] at hledger hstay
  replace hledger := hledger.of_same hsurfaces hgranules
  replace hstay := ((SurfacesStay.of_surfaces (s := s) (t := jobsTaken (Job.naming id) s) (by rw [htaken])).trans hstay).trans
    (.of_surfaces hsurfaces)
  obtain ⟨hscan, hjob, hwriter, -, -⟩ := hledger.booked id hid
  obtain ⟨hnaming, hwriting⟩ := naming_rest s id
  have hzero : s.scanUses.count id = 0 :=
    (hs.ledger.booked id hid).scans.symm.trans ((hs.ledger.booked id hid).allowed.unscanned hstate)
  have hsurface (i : Nat) := freeSurface_surface u i (hledger.region.surfaces ▸ hid)
  refine ⟨hledger.freed hid ⟨hscan.trans hzero, hjob.trans hnaming, hwriter.trans hwriting⟩
    fun i hne _ => fun hmem => hne (List.mem_singleton.1 hmem), fun i => ?_, fun i hne hfilling => ?_⟩
  · rw [hsurface]
    split
    · exact .inr rfl
    · exact hstay.shape i
  · rw [hsurface, if_neg hne]
    exact hstay.filling i hfilling

theorem Working.discarded (hs : Working s) (hid : id < 64)
    (hstate : (s.surface id).state = .filling ∨ (s.surface id).state = .sealing) :
    Working (discardUnfinished id (s.surface id) s).1 := by
  obtain ⟨hledger, hshape, hfilling⟩ := hs.books.discarded hid hstate
  obtain ⟨u, -, -, hframe, ht⟩ := discardUnfinished_eq id s
  have hclaim := (cancelNaming_claim id s).trans hframe
  rw [ht] at hledger hshape hfilling ⊢
  have hpres (o : OutputId) : (freeSurface id u).pres o = s.pres o := by
    obtain ⟨_, _, _, _, _, htaken⟩ := jobsTaken_eq (Job.naming id) s
    have hu := hclaim.pres o
    rw [htaken] at hu
    cases o <;> exact hu
  have hd : Discards id s (freeSurface id u) := .of_engine hclaim.pe hclaim.port
  generalize freeSurface id u = t at *
  have hkinds : t.kinds = (s.pe.jobs.filter fun j => !j.naming id).map (·.kind) := congrArg (List.map fun j : Job => j.kind) hd.jobs
  have huses : t.scanUses = s.scanUses := scanUses_of_pres hpres
  rw [← hkinds, ← huses] at hledger
  have hsession (x : Session) (hx : s.pe.session = some x) (hne : x.dst ≠ id) :
      (t.surface x.dst).format = (s.surface x.dst).format ∧ (t.surface x.dst).state = .filling := by
    have hstays := hfilling x.dst hne (hs.session_filling hx)
    refine ⟨(shape_bounds ((hshape x.dst).resolve_right fun hempty => ?_)).2.2, hstays⟩
    rw [hstays] at hempty
    cases hempty
  refine ⟨⟨hledger, frameShapeLaw_of_shape (s := s) (fun i hi => (hshape i).resolve_right (hledger.scanned hi).2) fun o => ?_⟩,
    hs.engine.queue.taken hd.jobs hd.kept hd.gone (fun j hj i hi => ?_) fun j hj => ?_, hd.sessionLaw hs.engine.session hsession⟩
  · rw [hpres]
    exact (frameShapeLaw_iff s).1 hs.books.frames o
  · exact (hshape i).resolve_right (hledger.named (mem_kinds hj) hi).2
  · exact hd.readyPixels hs.engine.session (fun x hx hne => (hsession x hx hne).1) hj

/-! ### Every command -/

theorem EngineRequest.working (h : EngineRequest s t) (hs : Working s) : Working t := by
  cases h with
  | discarded hid hstate => exact hs.discarded hid hstate
  | job hk hstream => exact hs.queued hk hstream
  | begun hk hsession => exact hs.begun hk hsession
  | staged data hx hroom => exact hs.staged data hx hroom
  | ended seq hx => exact hs.ended seq hx
  | aborted hsome => exact hs.aborted hsome

theorem RequestMove.working {goes : Bool} (h : RequestMove goes s t) (hs : Working s) : Working t := by
  cases h with
  | nothing => exact hs
  | surface h => exact h.working hs
  | output h => exact h.chain.working hs
  | engine h => exact h.working hs

/-- R179, R190: what a reset leaves has the work of the reset state. -/
theorem resetBlocks_working (s : State) : Working (resetBlocks s) := by
  have hreset : Working State.reset := (working_iff _).2
    ⟨⟨⟨reset_surfaceTableLaw, reset_useCountLaw⟩, reset_framesShaped, reset_framesShaped⟩, reset_jobQueueLaw, rfl, rfl⟩
  refine hreset.of_sameWork (hreset.books.of_bookSide rfl) (.of_surfaces rfl) ⟨rfl, rfl, rfl, rfl, fun _ _ _ => ⟨rfl, ?_⟩⟩
  unfold State.engineBurstLive resetBlocks
  dsimp only
  cases s.port.inFlight with
  | none => rfl
  | some g => cases g <;> rfl

theorem Effect.working (h : Effect s t) (hs : Working s) : Working t :=
  h.induct (fun _ _ h hs => hs.of_device h) (fun s _ => resetBlocks_working s) (fun _ _ _ h => h.working)
    (fun _ hs => hs.settle) (fun _ _ h => h.working) hs

theorem DeviceLaw.working (h : DeviceLaw s) : Working s := by
  obtain ⟨_, _, _, _, _, _, _, _, _, _, _, htable, hcounts, hframes, hqueue, hsession, -⟩ := h
  exact (working_iff s).2 ⟨⟨⟨htable, hcounts⟩, hframes⟩, hqueue, hsession⟩

/-- The queue of commands is no part of the work. -/
theorem Working.queuedCommands (hs : Working s) (rest : List Instr) : Working { s with pending := rest } :=
  hs.of_sameWork (hs.books.of_bookSide rfl) (.of_surfaces rfl) ⟨rfl, rfl, rfl, rfl, fun _ hr hl => ⟨hr, hl⟩⟩

/-- R168: every command keeps the books and the engine's laws. -/
theorem step_working (hs : DeviceLaw s) (h : step s = .next t) : Working t := by
  rcases step_effect h with rfl | ⟨rest, h⟩
  · exact hs.working
  · exact h.working (hs.working.queuedCommands rest)

end

/-- Settles O9: the books keep the table, and what the outputs hold keeps the shape of the surfaces in use. -/
theorem surfaceTableLawIsKept : Obligations.SurfaceTableLawIsKept := by
  unfold Obligations.SurfaceTableLawIsKept
  intro s t hs h
  obtain ⟨⟨⟨htable, -⟩, hframes⟩, -⟩ := (working_iff t).1 (step_working hs h)
  exact ⟨htable, hframes⟩

/-- Settles O10: every claim and release books the use it makes. -/
theorem useCountsAreExact : Obligations.UseCountsAreExact := by
  unfold Obligations.UseCountsAreExact
  intro s t hs h
  obtain ⟨⟨⟨-, hcounts⟩, -⟩, -⟩ := (working_iff t).1 (step_working hs h)
  exact hcounts

end Sys2Proof.Machine
end

