-- ==== Sys2Proof/Proofs/EngineRests.lean ====
section
/-! PROOF. After every command the Pixel Engine has done what it can do without a burst (R36, R44, R45, R54). -/

namespace Sys2Proof.Machine

section
variable {s t : State} {j : Job} {rest : List Job}

/-! ### Waiting for data (R36) -/

theorem pixelMove_ne_wait (s : State) (j : Job) (rest : List Job) (n : Nat) : s.pixelMove j rest n ≠ .wait := by
  unfold State.pixelMove
  dsimp only
  intro h
  split at h
  · cases h
  · cases h
  all_goals
    split at h
    · cases h
    · split at h <;> cases h
    · cases h

theorem writeBackMove_ne_wait (s : State) (j : Job) (rest : List Job) (h : HeldBurst) : s.writeBackMove j rest h ≠ .wait := by
  unfold State.writeBackMove
  split <;> exact fun hc => (by cases hc)

/-- R36: the engine waits where nothing is held, no further pixel can be set, and the data goes on. -/
theorem engineMove_wait_iff (s : State) (j : Job) (rest : List Job) : s.engineMove j rest = .wait ↔
    s.pe.heldBurst = none ∧ s.readyPixels j.kind ≤ j.progress + s.pe.heldPixels ∧ s.exhaustedMove j.kind = .wait := by
  constructor
  · intro hwait
    rcases engineMove_cases s j rest with ⟨b, -, -, hm⟩ | ⟨-, hm⟩ | ⟨hheld, hready, hm⟩
    · exact absurd (hm.symm.trans hwait) (writeBackMove_ne_wait s j rest b)
    · rcases sourcedMove_cases s j rest (j.progress + s.pe.heldPixels) with ⟨p, -, hsource⟩ | hsource
      · rw [hwait, hsource] at hm
        cases hm
      · exact absurd (hsource.symm.trans (hm.symm.trans hwait)) (pixelMove_ne_wait s j rest _)
    · exact ⟨hheld, hready, hm.symm.trans hwait⟩
  · rintro ⟨hheld, hready, hwait⟩
    exact (engineMove_exhausted hheld hready).trans hwait

/-! ### What leaves the engine at rest -/

theorem exhaustedMove_congr (h : t.pe.session = s.pe.session) (k : JobKind) : t.exhaustedMove k = s.exhaustedMove k := by
  unfold State.exhaustedMove
  rw [h]

/-- R145: a grant, or nothing at all, leaves an engine at rest at rest. -/
theorem EngineAwaits.rests (h : EngineAwaits s t)
    (hformat : ∀ x, s.pe.session = some x → (t.surface x.dst).format = (s.surface x.dst).format)
    (hs : EngineRestLaw s) : EngineRestLaw t := by
  obtain ⟨⟨r, hpe⟩, hawaits⟩ := h
  rcases hs with hstopped | hrequest | hlive | hwait
  · exact .inl (by rw [hpe]; exact hstopped)
  · rcases hawaits with ⟨hsame, -⟩ | ⟨-, -, hgranted⟩
    · exact .inr (.inl (hsame ▸ hrequest))
    · exact .inr (.inr (.inl hgranted))
  · rcases hawaits with ⟨-, hsame⟩ | ⟨-, -, hgranted⟩
    · exact .inr (.inr (.inl (hsame.trans hlive)))
    · exact .inr (.inr (.inl hgranted))
  · have hjobs : t.pe.jobs = s.pe.jobs := by rw [hpe]
    have hsession : t.pe.session = s.pe.session := by rw [hpe]
    have hheld : t.pe.heldBurst = s.pe.heldBurst := by rw [hpe]
    refine .inr (.inr (.inr ?_))
    rw [hjobs]
    cases hj : s.pe.jobs with
    | nil => trivial
    | cons j rest =>
      rw [hj] at hwait
      obtain ⟨hnone, hready, hdata⟩ := (engineMove_wait_iff s j rest).1 hwait
      refine (engineMove_wait_iff t j rest).2 ⟨hheld.trans hnone, ?_, (exhaustedMove_congr hsession _).trans hdata⟩
      unfold Engine.heldPixels at hready ⊢
      rw [hheld, readyPixels_congr hsession hformat]
      exact hready

theorem EngineAwaits.rests_of_surfaces (h : EngineAwaits s t) (hsurfaces : t.surfaces = s.surfaces) (hs : EngineRestLaw s) :
    EngineRestLaw t := h.rests (fun x _ => by rw [surface_of_surfaces hsurfaces]) hs

theorem engineRestLaw_of_device (h : t.device = s.device) (hs : EngineRestLaw s) : EngineRestLaw t :=
  (EngineAwaits.of_portSide (device_portSide h)).rests_of_surfaces (congrArg (fun b => b.1) (device_bookSide h)) hs

theorem arbitrate_rests (hs : EngineRestLaw s) : EngineRestLaw (arbitrate s) :=
  (arbitrate_awaits s).rests_of_surfaces (congrArg (fun b => b.1) (arbitrate_bookSide s)) hs

/-- R36: with the moves bounded, the engine runs until it is at rest. -/
theorem runEngine_rests {fuel : Nat} (h : s.pe.moveBound < fuel) : EngineRestLaw (runEngine fuel s) := by
  induction fuel generalizing s with
  | zero => exact absurd h (Nat.not_lt_zero _)
  | succ fuel ih =>
    cases hbusy : s.engineBusy with
    | true =>
      have hrest : EngineRestLaw s := by
        unfold State.engineBusy at hbusy
        rcases Bool.or_eq_true_iff.1 hbusy with hbusy | hlive
        · exact (Bool.or_eq_true_iff.1 hbusy).imp_right .inl
        · exact .inr (.inr (.inl hlive))
      rw [runEngine_rest hrest]
      exact hrest
    | false =>
      cases hj : s.pe.jobs with
      | nil =>
        have hrest : EngineRestLaw s := .inr (.inr (.inr (by rw [hj]; trivial)))
        rw [runEngine_rest hrest]
        exact hrest
      | cons j rest =>
        rw [runEngine_move fuel hbusy hj]
        cases hm : s.engineMove j rest with
        | ask b => exact .inr (.inl rfl)
        | go e => exact ih (Nat.lt_of_lt_of_le (moveBound_go hj hm) (Nat.le_of_lt_succ h))
        | finish => exact ih (Nat.lt_of_lt_of_le (moveBound_completeActive hj) (Nat.le_of_lt_succ h))
        | wait => exact .inr (.inr (.inr (by rw [hj]; exact hm)))

theorem settle_rests (s : State) : EngineRestLaw (settle s) := arbitrate_rests (runEngine_rests (Nat.lt_succ_self _))

/-! ### The steps of the outputs and of the Surface Manager -/

/-- R48: where surfaces stay the session's keeps its format. -/
theorem Working.session_format (hs : Working s) (hstay : SurfacesStay s t) (x : Session) (hx : s.pe.session = some x) :
    (t.surface x.dst).format = (s.surface x.dst).format := by
  refine (shape_bounds ((hstay.shape x.dst).resolve_right fun hempty => ?_)).2.2
  rw [hstay.filling _ (hs.session_filling hx)] at hempty
  cases hempty

theorem OutputChain.rests (h : OutputChain s t) (hw : Working s) (hs : EngineRestLaw s) : EngineRestLaw t :=
  h.awaits.rests (hw.session_format (h.consistent hw.books).2.1) hs

/-- R12 to R19: the session's surface keeps its format. -/
theorem SurfaceMove.session_format (h : SurfaceMove s t) (hw : Working s) (x : Session) (hx : s.pe.session = some x) :
    (t.surface x.dst).format = (s.surface x.dst).format := by
  have hfilling := hw.session_filling hx
  have hset {id : Nat} (hid : id < 64) {r : Surface} (hr : r.format = (s.surface id).format) :
      ((s.setSurface id r).surface x.dst).format = (s.surface x.dst).format := by
    rw [surface_setSurface s x.dst r (hw.books.length ▸ hid)]
    split
    · next he => rw [hr, he]
    · rfl
  cases h with
  | @created f tr w h hint id base hid =>
    obtain ⟨hlt, hempty⟩ := lowestEmpty_spec hid
    have hsurface : (createAt id (newSurface f tr w h base hint s.era) s).surface x.dst =
        if x.dst = id then newSurface f tr w h base hint s.era else s.surface x.dst :=
      surface_set s id x.dst _ s.granules (hw.books.length ▸ hlt)
    refine congrArg Surface.format (hsurface.trans (if_neg fun he => ?_))
    rw [he, hempty] at hfilling
    cases hfilling
  | @freed id hid hready =>
    rw [freeSurface_surface s x.dst (hw.books.length ▸ hid), if_neg fun he => ?_]
    rw [he, hready] at hfilling
    cases hfilling
  | discarding hid => exact hset hid rfl
  | sealed hid => exact hset hid rfl
  | sealing hid => exact hset hid rfl
  | reopened hid => exact hset hid rfl
  | stopped => rfl

theorem SurfaceMove.rests (h : SurfaceMove s t) (hw : Working s) (hs : EngineRestLaw s) : EngineRestLaw t := by
  have hformat := h.session_format hw
  cases h with
  | stopped => exact .inl rfl
  | _ => exact EngineAwaits.rests (s := s) (.of_pe rfl rfl) hformat hs

/-- What a request does, where the engine does not go on after it. -/
theorem RequestMove.rests (h : RequestMove false s t) (hw : Working s) (hs : EngineRestLaw s) : EngineRestLaw t := by
  cases h with
  | nothing => exact hs
  | surface h => exact h.rests hw hs
  | output h => exact h.chain.rests hw hs
  | engine h hgoes => cases hgoes

theorem BlockStep.rests (h : BlockStep s t) (hw : Working s) (hs : EngineRestLaw s) : EngineRestLaw t := by
  rcases h.chain with ⟨b, live, -, -, rfl⟩ | ⟨o, b, live, hport, -, rfl⟩ | h
  · exact settle_rests _
  · refine arbitrate_rests ?_
    have hfreed : EngineAwaits s (s.setInFlight none) := .of_pe rfl (by unfold State.engineBurstLive; rw [hport]; rfl)
    have hrest := hfreed.rests_of_surfaces rfl hs
    cases live with
    | false => exact hrest
    | true => exact (finishFetchBurst_awaits o b _).rests_of_surfaces (State.setOu_surfaces ..) hrest
  · exact h.rests hw hs

theorem Effect.rests (h : Effect s t) (hw : Working s) (hs : EngineRestLaw s) : EngineRestLaw t := by
  cases h with
  | aside h => exact engineRestLaw_of_device h.device hs
  | @taken _ row seq code args hrow htaking =>
    obtain ⟨goes, ⟨v, w, hv, hvw, hw'⟩, hafter⟩ := requestRow_work hrow seq code args s
    rw [hafter]
    cases goes with
    | true => exact settle_rests _
    | false =>
      have hrest := hvw.rests (hw.of_device hv) (engineRestLaw_of_device hv hs)
      exact engineRestLaw_of_device ((dealtWith_device seq code _).trans hw') hrest
  | heldUpload => exact settle_rests _
  | reset h => exact engineRestLaw_of_device h.device (.inr (.inr (.inr trivial)))
  | block h => exact h.rests hw hs

end

/-- Settles O11: the books and the engine's laws are kept together; and a command that gives the engine something to do
lets it go on until it is at rest. -/
theorem engineLawIsKept : Obligations.EngineLawIsKept := by
  unfold Obligations.EngineLawIsKept
  intro s t hs h
  obtain ⟨-, hqueue, hsession⟩ := (working_iff t).1 (step_working hs h)
  refine ⟨hqueue, hsession, ?_⟩
  have hw := hs.working
  obtain ⟨_, _, _, _, _, _, _, _, _, _, _, _, _, _, _, _, hrest, -⟩ := hs
  rcases step_effect h with rfl | ⟨pending, h⟩
  · exact hrest
  · have hfront : EngineAwaits s { s with pending := pending } := .of_pe rfl rfl
    exact h.rests (hw.queuedCommands pending) (hfront.rests_of_surfaces rfl hrest)

end Sys2Proof.Machine
end

