-- ==== Sys2Proof/Proofs/BurstsKept.lean ====
section
/-! PROOF. Every burst requested, awaited or granted is a block of frame memory (R1, R36, R137). -/

namespace Sys2Proof.Machine

/-! ### A surface lies in frame memory (R1, R3, R24) -/

section
variable {r : Surface}

/-- R3: a byte of a stored row is one of frame memory. -/
theorem surfaceShaped.row_in_memory (h : surfaceShaped r) {v k : Nat} (hv : v < r.storedHeight)
    (hk : k < r.rowAddress v + r.stride) : k < 2097152 := by
  obtain ⟨-, -, -, -, -, -, -, hgranules, hend⟩ := h
  have hrows : (v + 1) * r.stride ≤ r.storedHeight * r.stride := Nat.mul_le_mul_right _ hv
  rw [Nat.succ_mul, Nat.mul_comm r.storedHeight] at hrows
  unfold granulesOf ceilDiv Config.granuleBytes at hgranules
  unfold Surface.rowAddress Config.granuleBytes at hk
  omega

/-- R3: the bytes of a span lie in its stored row. -/
theorem surfaceShaped.span_in_row (h : surfaceShaped r) {first count : Nat} (hcount : 1 ≤ count)
    (hwidth : first + count ≤ r.storedWidth) : ((first + count) * r.format.bpp - 1) / 8 < r.stride := by
  obtain ⟨-, -, -, -, -, -, hstride, -⟩ := h
  have hrow := stride_holds (f := r.format) (u := first + count - 1) (storedWidth := r.storedWidth) (by omega)
  rw [← hstride, ← Nat.succ_mul, Nat.succ_eq_add_one, Nat.sub_add_cancel (by omega)] at hrow
  have hpos : 1 * 1 ≤ (first + count) * r.format.bpp := Nat.mul_le_mul (by omega) r.format.bpp_pos
  omega

/-- R137: the blocks of a span are blocks of frame memory. -/
theorem surfaceShaped.areaBlocks_in_memory (h : surfaceShaped r) {a : Area} (hrow : a.row < r.storedHeight)
    (hcount : 1 ≤ a.count) (hwidth : a.first + a.count ≤ r.storedWidth) {b : Nat} (hb : b ∈ areaBlocks r a) : b < 2097152 := by
  obtain ⟨-, k, -, hk, hle, -⟩ := (mem_areaBlocks hcount b).1 hb
  have hspan := h.span_in_row hcount hwidth
  exact Nat.lt_of_le_of_lt hle (h.row_in_memory hrow (Nat.lt_of_le_of_lt hk (Nat.add_lt_add_left hspan _)))

/-- R29, R36: the block of a logical pixel is a block of frame memory. -/
theorem surfaceShaped.pixelBlock_in_memory (h : surfaceShaped r) {x y : Nat} (hx : x < r.width) (hy : y < r.height) :
    blockOf (r.pixelAddress (r.storedPosition x y).1 (r.storedPosition x y).2) < 2097152 := by
  obtain ⟨hu, hv⟩ := Surface.storedPosition_lt hx hy
  have hstored : (r.storedWidth, r.storedHeight) = storedSize r.transform r.width r.height := by
    obtain ⟨-, -, -, -, -, hstored, -⟩ := h
    exact hstored
  rw [← hstored] at hu hv
  generalize (r.storedPosition x y).1 = u at hu ⊢
  generalize (r.storedPosition x y).2 = v at hv ⊢
  have hbytes := (spanByte_bounds (first := u) (count := 1) (i := 0) Nat.one_pos r.format.bpp_pos).2
  have hspan := h.span_in_row (first := u) (Nat.le_refl 1) hu
  have hbyte := h.row_in_memory hv (Nat.add_lt_add_left (Nat.lt_of_le_of_lt hbytes hspan) (r.rowAddress v))
  exact Nat.lt_of_le_of_lt (Nat.div_mul_le_self _ _) hbyte

end

section
variable {s t : State}

/-- R2: a surface in use is described by its record. -/
theorem Consistent.shaped (h : Consistent s) {id : Nat} (hid : s.inUse id) : surfaceShaped (s.surface id) := by
  have hlt : id < 64 := by
    rcases hid with hid | ⟨k, hk, hid⟩
    · exact (h.ledger.scanned hid).1
    · exact (h.ledger.named hk hid).1
  exact h.ledger.region.shaped id hlt (h.inUse_state hid)

/-! ### The pixels of a job (R28, R36, R41) -/

/-- R28: a pixel of a rectangle within bounds. -/
theorem Rect.within.pixel {x y w h width height n : Nat} (hwithin : (Rect.mk x y w h).within width height = true)
    (hn : n < w * h) : x + n % w < width ∧ y + n / w < height := by
  unfold Rect.within at hwithin
  simp only [Bool.and_eq_true, decide_eq_true_eq] at hwithin
  obtain ⟨⟨⟨hw, -⟩, hx⟩, hy⟩ := hwithin
  have hmod := Nat.mod_lt n hw
  have hdiv := Nat.div_lt_of_lt_mul hn
  omega

/-- R28, R41: the pixels a job reads and writes lie within the surfaces it names. -/
theorem jobShaped.pixel {k : JobKind} (hk : jobShaped s k) {n : Nat} (hn : n < k.pixels) {p : Nat × Nat × Nat}
    (hp : k.sourcePixel n = some p ∨ k.destinationPixel n = some p) :
    p.1 ∈ k.surfaces ∧ p.2.1 < (s.surface p.1).width ∧ p.2.2 < (s.surface p.1).height := by
  cases k with
  | fill dst r value =>
    obtain ⟨hwithin, -⟩ := hk
    obtain rfl := Option.some.inj (hp.resolve_left fun hc => by cases hc)
    exact ⟨List.mem_singleton_self _, Rect.within.pixel hwithin hn⟩
  | stream dst r =>
    obtain rfl := Option.some.inj (hp.resolve_left fun hc => by cases hc)
    exact ⟨List.mem_singleton_self _, Rect.within.pixel hk hn⟩
  | read target r link =>
    obtain ⟨hwithin, -⟩ := hk
    obtain rfl := Option.some.inj (hp.resolve_right fun hc => by cases hc)
    exact ⟨List.mem_singleton_self _, Rect.within.pixel hwithin hn⟩
  | fence link => cases hp <;> contradiction
  | copy dst src r dx dy key =>
    obtain ⟨hsource, htarget, -⟩ := hk
    rcases hp with hp | hp
    · obtain rfl := Option.some.inj hp
      exact ⟨mem_surfaces_copy.2, Rect.within.pixel hsource hn⟩
    · obtain rfl := Option.some.inj hp
      exact ⟨mem_surfaces_copy.1, Rect.within.pixel htarget hn⟩

/-- R36: the block of a pixel the active job is at. -/
theorem Working.pixelBlock_in_memory (hs : Working s) {j : Job} (hj : j ∈ s.pe.jobs) {n : Nat}
    (hn : n < s.readyPixels j.kind) {p : Nat × Nat × Nat}
    (hp : j.kind.sourcePixel n = some p ∨ j.kind.destinationPixel n = some p) : s.pixelBlock p < 2097152 := by
  obtain ⟨hid, hx, hy⟩ := (hs.engine.queue.shaped j hj).pixel (Nat.lt_of_lt_of_le hn (readyPixels_le s j.kind)) hp
  exact (hs.books.shaped (.inr ⟨j.kind, mem_kinds hj, hid⟩)).pixelBlock_in_memory hx hy

theorem pixelMove_ask {j : Job} {rest : List Job} {n : Nat} {b : EngineBurst} (h : s.pixelMove j rest n = .ask b) :
    ∃ p, j.kind.destinationPixel n = some p ∧ b = .readDestination (s.pixelBlock p) := by
  unfold State.pixelMove at h
  dsimp only at h
  split at h
  · cases h
  · cases h
  all_goals
    split at h
    · cases h
    · next p _ hp =>
      split at h
      · cases h
      · exact ⟨_, hp, (EngineMove.ask.inj h).symm⟩
    · cases h

/-- R36: a burst asked for is that of the held block or that of the next pixel. -/
theorem Working.ask_in_memory (hs : Working s) {j : Job} {rest : List Job} (hj : s.pe.jobs = j :: rest)
    (hheld : ∀ h, s.pe.heldBurst = some h → h.addr < 2097152) {b : EngineBurst} (hm : s.engineMove j rest = .ask b) :
    b.addr < 2097152 := by
  have hmem : j ∈ s.pe.jobs := hj ▸ List.mem_cons_self
  rcases engineMove_cases s j rest with ⟨h, hh, -, hback⟩ | ⟨hmore, hsourced⟩ | ⟨-, -, hexhausted⟩
  · rw [hm] at hback
    unfold State.writeBackMove at hback
    split at hback
    · cases hback
    · obtain rfl := EngineMove.ask.inj hback
      exact hheld h hh
  · rcases sourcedMove_cases s j rest (j.progress + s.pe.heldPixels) with ⟨p, hp, hsource⟩ | hpixel
    · obtain rfl := EngineMove.ask.inj (hm.symm.trans (hsourced.trans hsource))
      exact hs.pixelBlock_in_memory hmem hmore (.inl hp)
    · obtain ⟨p, hp, rfl⟩ := pixelMove_ask (hpixel.symm.trans (hsourced.symm.trans hm))
      exact hs.pixelBlock_in_memory hmem hmore (.inr hp)
  · rw [hm] at hexhausted
    unfold State.exhaustedMove at hexhausted
    split at hexhausted
    · split at hexhausted
      · split at hexhausted <;> cases hexhausted
      · cases hexhausted
    all_goals cases hexhausted

/-! ### The areas of a fetch (R137, R139) -/

/-- R137: an area of a line lies within its surface, one the output holds. -/
theorem Consistent.area_in_surface (hs : Consistent s) {o : OutputId} {t : Timing} {y : Nat} {a : Area}
    (ha : a ∈ lineAreas (s.pres o) t y) : surfaceShaped (s.surface a.surface) ∧
      a.row < (s.surface a.surface).storedHeight ∧ 1 ≤ a.count ∧
      a.first + a.count ≤ (s.surface a.surface).storedWidth := by
  obtain ⟨hrecords, hcursors⟩ := (framesShaped_iff s (s.pres o)).1 ((frameShapeLaw_iff s).1 hs.frames o)
  rcases mem_lineAreas.1 ha with hcursor | ⟨i, r, l, hr, hl, hlayer⟩
  · obtain ⟨-, -, -, -, b, hb, -, hy, hy', -, -, hsurface, hrow, hfirst, hcount⟩ := cursorArea_eq_some.1 hcursor
    have hmem : b.surface ∈ (s.pres o).cursors := by
      refine List.mem_append_left _ ?_
      rw [hb]
      exact List.mem_singleton_self _
    obtain ⟨hformat, hwidth, hheight⟩ := hcursors _ hmem
    have hshaped := hs.shaped (.inl (mem_scanUses_of_pres (mem_scanUses_of_cursor hmem)))
    obtain ⟨-, -, -, -, hov2, hstored, -⟩ := id hshaped
    rw [hov2 hformat, hwidth, hheight] at hstored
    obtain ⟨hsw, hsh⟩ := Prod.mk.inj hstored
    rw [hsurface]
    exact ⟨hshaped, by omega, by omega, by omega⟩
  · obtain ⟨-, -, -, -, hy, hy', hcount, hsurface, hrow, hfirst, hwidth⟩ := layerArea_eq_some.1 hlayer
    have hmem : r ∈ (s.pres o).records := List.mem_append_right _ (by rw [hr]; exact List.mem_singleton_self _)
    have hlmem : l ∈ r.layers := List.mem_of_getElem? hl
    have hwithin := hrecords r hmem l hlmem
    unfold Rect.within at hwithin
    simp only [Bool.and_eq_true, decide_eq_true_eq] at hwithin
    obtain ⟨⟨-, hright⟩, hbottom⟩ := hwithin
    have hshaped := hs.shaped (.inl (mem_scanUses_of_pres (mem_scanUses_of_record hmem hlmem)))
    rw [hsurface]
    exact ⟨hshaped, by omega, hcount, by omega⟩

theorem mem_fetchBursts {areas : List Area} {b : FetchBurst} (h : b ∈ fetchBursts s areas) :
    ∃ a ∈ areas, b.addr ∈ areaBlocks (s.surface a.surface) a := by
  unfold fetchBursts at h
  obtain ⟨l, hl, hb⟩ := List.mem_flatten.1 h
  obtain ⟨i, hi, rfl⟩ := List.mem_mapIdx.1 hl
  obtain ⟨addr, haddr, rfl⟩ := List.mem_map.1 hb
  exact ⟨areas[i], List.getElem_mem hi, haddr⟩

/-! ### The bursts that stand -/

/-- R139: the bursts an output has still to request. -/
def OutputUnit.asks (u : OutputUnit) : List FetchBurst := u.halfA.todo ++ u.halfB.todo

/-- R1, R36, R137: every burst in progress, requested, held or still to be requested is a block of frame memory. -/
structure BurstsFit (s : State) : Prop where
  granted : ∀ g, s.port.inFlight = some g → g.addr < 2097152
  request : ∀ b, s.pe.request = some b → b.addr < 2097152
  held : ∀ h, s.pe.heldBurst = some h → h.addr < 2097152
  asked : ∀ o, ∀ b ∈ (s.ou o).asks, b.addr < 2097152

theorem elim_true_iff {α : Type} {x : Option α} {p : α → Prop} : x.elim True p ↔ ∀ a, x = some a → p a := by
  cases x with
  | none => exact ⟨fun _ _ h => (by cases h), fun _ => trivial⟩
  | some a => exact ⟨fun h _ he => Option.some.inj he ▸ h, fun h => h a rfl⟩

theorem burstLaw_iff (s : State) : BurstLaw s ↔ BurstsFit s := by
  unfold BurstLaw grantExists
  rw [elim_true_iff, elim_true_iff, elim_true_iff]
  constructor
  · rintro ⟨hgranted, hrequest, hheld, hasked⟩
    refine ⟨hgranted, hrequest, hheld, fun o b hb => hasked b ?_⟩
    rw [List.append_assoc]
    cases o
    · exact List.mem_append_left _ hb
    · exact List.mem_append_right _ hb
  · rintro ⟨hgranted, hrequest, hheld, hasked⟩
    refine ⟨hgranted, hrequest, hheld, fun b hb => ?_⟩
    rw [List.append_assoc] at hb
    exact (List.mem_append.1 hb).elim (hasked .out0 b) (hasked .out1 b)

theorem BurstsFit.asked_of_units (hs : BurstsFit s) (h0 : t.ou0 = s.ou0) (h1 : t.ou1 = s.ou1) (o : OutputId) :
    ∀ b ∈ (t.ou o).asks, b.addr < 2097152 := by
  have hou : t.ou o = s.ou o := by cases o; exacts [h0, h1]
  rw [hou]
  exact hs.asked o

/-- What asks for no more than before keeps the law. -/
theorem PortKept.bursts (h : PortKept s t) (hs : BurstsFit s) : BurstsFit t := by
  refine ⟨fun g hg => ?_, fun b hb => ?_, fun b hb => ?_, hs.asked_of_units h.first h.second⟩
  · obtain ⟨g', hg', haddr⟩ := h.granted g hg
    exact haddr ▸ hs.granted g' hg'
  · rcases h.request with hr | hr
    · exact hs.request b (hr.symm.trans hb)
    · rw [hr] at hb
      cases hb
  · rcases h.held with hh | hh
    · exact hs.held b (hh.symm.trans hb)
    · rw [hh] at hb
      cases hb

theorem BurstsFit.of_portSide (hs : BurstsFit s) (h : t.portSide = s.portSide) : BurstsFit t := by
  obtain ⟨hport, h0, h1, hpe⟩ : t.port = s.port ∧ t.ou0 = s.ou0 ∧ t.ou1 = s.ou1 ∧ t.pe = s.pe := by
    simpa [State.portSide] using h
  exact ⟨hport ▸ hs.granted, hpe ▸ hs.request, hpe ▸ hs.held, hs.asked_of_units h0 h1⟩

/-- R139: an output whose bursts still to be requested are blocks of frame memory. -/
theorem BurstsFit.setOu (hs : BurstsFit s) {o : OutputId} {u : OutputUnit} (hu : ∀ b ∈ u.asks, b.addr < 2097152) :
    BurstsFit (s.setOu o u) := by
  refine ⟨by rw [State.setOu_port]; exact hs.granted, by rw [State.setOu_pe]; exact hs.request,
    by rw [State.setOu_pe]; exact hs.held, fun o' => ?_⟩
  by_cases ho : o' = o
  · rw [ho, State.ou_setOu_self]
    exact hu
  · rw [State.ou_setOu_other s u ho]
    exact hs.asked o'

theorem BurstsFit.setInFlight (hs : BurstsFit s) {g : Option Grant} (hg : ∀ g', g = some g' → g'.addr < 2097152) :
    BurstsFit (s.setInFlight g) := ⟨hg, hs.request, hs.held, hs.asked_of_units rfl rfl⟩

theorem BurstsFit.portFreed (hs : BurstsFit s) : BurstsFit (s.setInFlight none) := hs.setInFlight fun _ h => by cases h

/-! ### The arbiter (R145) -/

theorem LineHalf.grantNext_subset (h : LineHalf) : h.grantNext.todo ⊆ h.todo := by
  rw [LineHalf.grantNext_eq]
  split
  · exact fun b hb => List.mem_of_mem_drop hb
  · exact fun _ h => h

theorem LineHalf.waiting_subset (h : LineHalf) : h.waiting ⊆ h.todo := by
  unfold LineHalf.waiting
  split
  · exact fun _ h => h
  all_goals exact List.nil_subset _

/-- R139: the burst an output requests is one it has to. -/
theorem fetchRequest_mem {u : OutputUnit} {b : FetchBurst} (h : u.fetchRequest = some b) : b ∈ u.asks := by
  rcases List.mem_append.1 (List.mem_of_head? h) with hb | hb
  · exact List.mem_append_left _ (u.halfA.waiting_subset hb)
  · exact List.mem_append_right _ (u.halfB.waiting_subset hb)

theorem BurstsFit.arbitrate (hs : BurstsFit s) : BurstsFit (arbitrate s) := by
  rcases arbitrate_cases s with h | ⟨-, o, b, hb, h⟩ | ⟨-, b, -, -, hb, h⟩
  · rw [h]
    exact hs
  · rw [h]
    have hset := hs.setOu (o := o) (u := { s.ou o with halfA := (s.ou o).halfA.grantNext, halfB := (s.ou o).halfB.grantNext })
      fun b hb => hs.asked o b ?_
    · have haddr := hs.asked o b (fetchRequest_mem hb)
      exact ⟨fun g hg => Option.some.inj hg ▸ haddr, hset.request, hset.held, hset.asked_of_units rfl rfl⟩
    · exact (List.mem_append.1 hb).elim (fun h => List.mem_append_left _ (LineHalf.grantNext_subset _ h))
        fun h => List.mem_append_right _ (LineHalf.grantNext_subset _ h)
  · rw [h]
    have haddr := hs.request b hb
    exact ⟨fun g hg => Option.some.inj hg ▸ haddr, fun _ h => (by cases h), hs.held, hs.asked_of_units rfl rfl⟩

/-! ### The steps of the outputs -/

theorem LineHalf.narrows.subset {h before : LineHalf} (hn : h.narrows before) : h.todo ⊆ before.todo := by
  rcases hn with hnone | ⟨htodo, -⟩
  · rw [hnone]
    exact List.nil_subset _
  · rw [htodo]
    exact fun _ h => h

theorem OutputUnit.narrows.asks {u v : OutputUnit} (h : u.narrows v) : u.asks ⊆ v.asks := fun _ hb =>
  (List.mem_append.1 hb).elim (fun hb => List.mem_append_left _ (h.1.subset hb)) fun hb => List.mem_append_right _ (h.2.subset hb)

theorem killFetchBurst_bursts (o : OutputId) (hs : BurstsFit s) : BurstsFit (killFetchBurst o s) := by
  unfold killFetchBurst
  split
  · next o' b live hg =>
    split
    · refine hs.setInFlight fun g h => ?_
      obtain rfl := Option.some.inj h
      have haddr := hs.granted _ hg
      exact haddr
    · exact hs
  · exact hs
  · exact hs

/-- R136, R137: a fetch that begins has to request blocks of frame memory. -/
theorem BurstsFit.beginFetch (hs : BurstsFit s) (hw : Working s) (o : OutputId) (y : Nat) (wasB : Bool) :
    BurstsFit (beginFetch o y wasB s) := by
  unfold Machine.beginFetch
  dsimp only
  generalize hareas : (((s.ou o).timing.sourceLines y).map fun line => lineAreas (s.pres o) (s.ou o).timing line).flatten = areas
  have hbursts (b : FetchBurst) (hb : b ∈ fetchBursts s areas) : b.addr < 2097152 := by
    obtain ⟨a, ha, hblock⟩ := mem_fetchBursts hb
    rw [← hareas] at ha
    obtain ⟨l, hl, ha⟩ := List.mem_flatten.1 ha
    obtain ⟨line, -, rfl⟩ := List.mem_map.1 hl
    obtain ⟨hshaped, hrow, hcount, hwidth⟩ := hw.books.area_in_surface ha
    exact hshaped.areaBlocks_in_memory hrow hcount hwidth hblock
  refine (hs.setOu fun b hb => ?_).arbitrate
  unfold OutputUnit.fillFree at hb
  split at hb
  · exact (List.mem_append.1 hb).elim (fun hb => hs.asked o b (List.mem_append_left _ hb)) (hbursts b)
  · split at hb
    · exact (List.mem_append.1 hb).elim (hbursts b) fun hb => hs.asked o b (List.mem_append_right _ hb)
    · exact hs.asked o b hb

theorem OutputChain.bursts (h : OutputChain s t) (hw : Working s) (hs : BurstsFit s) : BurstsFit t := by
  induction h with
  | front h => exact hs.of_portSide (device_portSide h)
  | @unit s o u hu => exact hs.setOu fun b hb => hs.asked o b (hu.asks hb)
  | kill o s => exact killFetchBurst_bursts o hs
  | fetch o y wasB s => exact hs.beginFetch hw o y wasB
  | presents => exact hs.of_portSide (setPres_portSide ..)
  | given => exact hs.of_portSide ((scansGivenUp_frame _ _).portSide.trans (setPres_portSide ..))
  | accepted => exact hs.of_portSide ((setPres_portSide ..).trans (foldl_addScan_frame _ _).portSide)
  | rebound => exact hs.of_portSide (rebound_portSide ..)
  | share => exact hs.of_portSide rfl
  | trans h _ ih ih' => exact ih' (h.working hw) (ih hw hs)

/-! ### The Pixel Engine (R36, R45) -/

theorem BurstsFit.moved (hs : BurstsFit s) {j : Job} {rest : List Job} {e : Engine} (hm : s.engineMove j rest = .go e) :
    BurstsFit (s.setPe e) := by
  rcases engineMove_go hm with ⟨b, -, -, rfl⟩ | ⟨-, ⟨out, -, rfl⟩ | ⟨b, changes, hb, -, rfl⟩⟩
  · exact PortKept.bursts (s := s) (.of_port id ⟨rfl, rfl⟩ rfl (.inl rfl) (.inr rfl)) hs
  · exact PortKept.bursts (s := s) (.of_setPe (.inl rfl) rfl) hs
  · exact ⟨hs.granted, hs.request, fun h hh => Option.some.inj hh ▸ hs.held b hb, hs.asked_of_units rfl rfl⟩

theorem BurstsFit.completed (hs : BurstsFit s) {j : Job} {rest : List Job} (hj : s.pe.jobs = j :: rest) :
    BurstsFit (completeActive s) := by
  have hleft : PortKept s (s.setPe (s.pe.finished j rest)) := .of_port id ⟨rfl, rfl⟩ rfl (.inr rfl) (.inr rfl)
  exact (hleft.trans (.of_claim (completeActive_claim hj))).bursts hs

/-- R36, R145: the Pixel Engine going on asks for blocks of frame memory only. -/
theorem BurstsFit.settle (hs : BurstsFit s) (hw : Working s) : BurstsFit (settle s) := by
  refine BurstsFit.arbitrate ?_
  obtain ⟨-, hbursts⟩ := runEngine_keeps (P := fun t => Working t ∧ BurstsFit t)
    (fun _ _ _ b ⟨hw, hs⟩ _ hj hm => ⟨hw.asked hj b, hs.granted,
      fun b' hb => Option.some.inj hb ▸ hw.ask_in_memory hj hs.held hm, hs.held,
      hs.asked_of_units rfl rfl⟩)
    (fun _ _ _ _ ⟨hw, hs⟩ _ hj hm => ⟨hw.moved hj hm, hs.moved hm⟩)
    (fun _ _ _ ⟨hw, hs⟩ hbusy hj _ => ⟨hw.completed hbusy hj, hs.completed hj⟩) (s.pe.moveBound + 1) ⟨hw, hs⟩
  exact hbursts

/-- R36, R146: a burst that completes is held where it is read for its destination. -/
theorem BurstsFit.finishEngineBurst (hs : BurstsFit s) {b : EngineBurst} (hb : b.addr < 2097152) :
    BurstsFit (finishEngineBurst b s) := by
  cases b with
  | readSource a => exact PortKept.bursts (s := s) (.of_setPe (.inl rfl) rfl) hs
  | readDestination a =>
    exact ⟨hs.granted, hs.request, fun h hh => Option.some.inj hh ▸ hb, hs.asked_of_units rfl rfl⟩
  | writeDestination a => exact (landWrite_portKept s).bursts hs

theorem LineHalf.take_todo (h : LineHalf) (s : State) (b : FetchBurst) : (h.take s b).todo = h.todo := by
  unfold LineHalf.take
  split <;> rfl

theorem BurstsFit.finishFetchBurst (hs : BurstsFit s) (o : OutputId) (b : FetchBurst) :
    BurstsFit (finishFetchBurst o b s) := by
  refine hs.setOu fun b' hb => hs.asked o b' ?_
  unfold OutputUnit.asks at hb ⊢
  rw [LineHalf.take_todo, LineHalf.take_todo] at hb
  exact hb

/-! ### Every command -/

theorem RequestMove.bursts {goes : Bool} (h : RequestMove goes s t) (hw : Working s) (hs : BurstsFit s) : BurstsFit t := by
  cases h with
  | nothing => exact hs
  | surface h => exact h.portKept.bursts hs
  | output h => exact h.chain.bursts hw hs
  | engine h => exact h.portKept.bursts hs

theorem BlockStep.bursts (h : BlockStep s t) (hw : Working s) (hs : BurstsFit s) : BurstsFit t := by
  rcases h.chain with ⟨b, live, hport, hb, rfl⟩ | ⟨o, b, live, -, -, rfl⟩ | h
  · cases live with
    | false => exact hs.portFreed.settle hw.portFreed
    | true =>
      have hlive : s.engineBurstLive = true := by
        unfold State.engineBurstLive
        rw [hport]
      exact (hs.portFreed.finishEngineBurst hb).settle (hw.portFreed.finishEngineBurst (hw.jobs_of_live hlive) b)
  · refine BurstsFit.arbitrate ?_
    cases live with
    | false => exact hs.portFreed
    | true => exact hs.portFreed.finishFetchBurst o b
  · exact h.bursts hw hs

/-- R58, R144, R146: what a reset leaves is the burst in progress. -/
theorem resetBlocks_bursts (hs : BurstsFit s) : BurstsFit (resetBlocks s) := by
  refine ⟨fun g hg => ?_, fun _ h => (by cases h), fun _ h => (by cases h), fun o b hb => ?_⟩
  · obtain ⟨g', hg', rfl⟩ := Option.map_eq_some_iff.1 hg
    have haddr := hs.granted g' hg'
    cases g' <;> exact haddr
  · cases o <;> exact absurd hb List.not_mem_nil

theorem Effect.bursts (h : Effect s t) (hs : Working s ∧ BurstsFit s) : Working t ∧ BurstsFit t :=
  h.induct (P := fun u => Working u ∧ BurstsFit u)
    (fun _ _ h ⟨hw, hs⟩ => ⟨hw.of_device h, hs.of_portSide (device_portSide h)⟩)
    (fun s ⟨_, hs⟩ => ⟨resetBlocks_working s, resetBlocks_bursts hs⟩)
    (fun _ _ _ h ⟨hw, hs⟩ => ⟨h.working hw, h.bursts hw hs⟩) (fun _ ⟨hw, hs⟩ => ⟨hw.settle, hs.settle hw⟩)
    (fun _ _ h ⟨hw, hs⟩ => ⟨h.working hw, h.bursts hw hs⟩) hs

end

/-- Settles O12: the surfaces in use lie in frame memory, so the blocks of their pixels and spans do; nothing else asks
the port for more. -/
theorem burstsStayInMemory : Obligations.BurstsStayInMemory := by
  unfold Obligations.BurstsStayInMemory
  intro s t hs h
  have hw := hs.working
  obtain ⟨_, _, _, _, _, _, _, _, _, _, _, _, _, _, _, _, _, _, _, hbursts⟩ := hs
  rcases step_effect h with rfl | ⟨pending, h⟩
  · exact hbursts
  · have hfits : BurstsFit { s with pending := pending } := ((burstLaw_iff s).1 hbursts).of_portSide rfl
    exact (burstLaw_iff t).2 (h.bursts ⟨hw.queuedCommands pending, hfits⟩).2

end Sys2Proof.Machine
end
